-- ==== Sys2Proof/Word.lean ====
section
/-! DEFINITION. Words, index types and lookup tables of fixed length. -/

namespace Sys2Proof

/-- 8 bits. -/
abbrev Byte := BitVec 8
/-- 16 bits. -/
abbrev Half := BitVec 16
/-- 32 bits: a register of the window, a bus address, a meter register, a wrapping count. -/
abbrev Word := BitVec 32
/-- The part of a module mask that names modules: bit `i` is position `i` of the cabinet. Bits 10 to 15 of a mask are
zero (Introduction, Numbering) and are not held. -/
abbrev ModuleMask := BitVec 10

/-- A reading of the line timing clock, in microseconds (log 4). -/
abbrev Time := Nat

/-- O0 to O31. -/
abbrev Outlet := Fin 32
/-- L0 to L15; also pedestals P0 to P15, since line Lp serves pedestal Pp (R76). -/
abbrev LineNo := Fin 16
/-- C0 to C3. -/
abbrev Cabinet := Fin 4
/-- M0 to M39. -/
abbrev ModuleNo := Fin 40
/-- An order cell's number in the Order Table. -/
abbrev CellIndex := Fin 128
/-- A price band. -/
abbrev Band := Fin 4
/-- A tariff slot. -/
abbrev TariffSlot := Fin 16
/-- A journal slot. -/
abbrev JournalSlot := Fin 64
/-- A part of the survey block. -/
abbrev SurveyPart := Fin 7

/-- Read and write of a table indexed by `Fin n`. -/
def Table.get {α : Type} {n : Nat} (v : Vector α n) (i : Fin n) : α := v[i.val]
/-- The table with entry `i` replaced. -/
def Table.set {α : Type} {n : Nat} (v : Vector α n) (i : Fin n) (x : α) : Vector α n := v.set i.val x

end Sys2Proof
end

