-- ==== Sys2Proof/Syntax.lean ====
section
/-! DEFINITION. The orders as the order part of a cell spells them, and the commands: one constructor of `Instr` for each
row of spec/opcode_table.json. -/

namespace Sys2Proof

/-- The fields of an OPEN order as they stand in its cell (12.4). A link byte of 0xFF is none. -/
structure OpenOrder where
  outlet : Byte
  slot : Byte
  priority : Byte
  condition : Byte
  band : Byte
  link : Byte
  hold : Word
  reference : Word
  deriving DecidableEq, Repr

/-- The fields of a LINK order (12.4). -/
structure LinkOrder where
  outlet : Byte
  slot : Byte
  link : Byte
  hold : Word
  reference : Word
  deriving DecidableEq, Repr

/-- The fields of an AMEND order (12.4): in `present`, bit 0 marks the hold present and bit 1 the priority. -/
structure AmendOrder where
  outlet : Byte
  priority : Byte
  present : Byte
  hold : Word
  deriving DecidableEq, Repr

/-- The six settings a PARK order carries (12.4, R188). -/
structure ParkOrder where
  pollPeriod : Half
  reserve : Half
  horizon : Byte
  drainedLimit : Byte
  heldLimit : Byte
  checkpoint : Byte
  deriving DecidableEq, Repr

/-- An order of one of the sixteen kinds of R15, with the fields its kind carries. -/
inductive Order where
  | openSession (o : OpenOrder)
  | link (o : LinkOrder)
  | stop (outlet : Byte)
  | amend (o : AmendOrder)
  | sync (outlet : Byte)
  | audit (outlet action : Byte)
  | resume (outlet : Byte)
  | tariff (slot action : Byte)
  | band (band : Byte)
  | site (limit : Word)
  | outlet (outlet maximum : Byte)
  | module (module action : Byte)
  | park (o : ParkOrder)
  | clock (seconds : Word)
  | survey
  | line (line : Byte)
  deriving DecidableEq, Repr

/-- The register writes that REGISTER_WRITE_IGNORED stands for (R3). -/
inductive IgnoredWrite where
  | status (value : Word)
  | control (value : Word)
  deriving DecidableEq, Repr

/-- An order in which a BAND or a PARK order takes the outlets: the outlets named first, in that order, then the rest.
The spec gives no order (R127, R189); log 14. -/
abbrev Sweep := List Outlet

/-- The commands. `t` is the reading of the line timing clock at which the event comes (log 6); `words` is the number of
bus words that the write under way has made when the event ends it (log 12). -/
inductive Instr where
  -- resets and register writes
  | powerOnReset (t : Time) (words : Nat)
  | softReset (t : Time) (words : Nat)
  | run (t : Time)
  | halt (t : Time)
  | registerWriteIgnored (w : IgnoredWrite)
  | post (index : Byte)
  | withdraw (index : Byte)
  | noticeWrite (value : Word)
  | noticeMaskWrite (value : Word)
  | areaBaseWrite (value : Word)
  | faultAddressWrite (value : Word)
  -- the Order Unit takes an order and reads it
  | orderTake
  | orderReadDone (t : Time) (sweep : Sweep) (part : Vector Byte 32)
  -- the read of a POSTED cell gives this order
  | openSession (t : Time) (o : OpenOrder)
  | link (t : Time) (o : LinkOrder)
  | stop (t : Time) (outlet : Byte)
  | amend (t : Time) (o : AmendOrder)
  | sync (t : Time) (outlet : Byte)
  | auditSet (t : Time) (outlet : Byte)
  | auditClear (t : Time) (outlet : Byte)
  | resume (t : Time) (outlet : Byte)
  | tariffLoad (t : Time) (slot : Byte)
  | tariffUnload (t : Time) (slot : Byte)
  | band (t : Time) (sweep : Sweep) (band : Byte)
  | site (t : Time) (limit : Word)
  | outlet (t : Time) (outlet maximum : Byte)
  | moduleReturn (t : Time) (module : Byte)
  | moduleRetire (t : Time) (module : Byte)
  | park (t : Time) (sweep : Sweep) (o : ParkOrder)
  | clock (t : Time) (seconds : Word)
  | survey (t : Time)
  | line (t : Time) (line : Byte)
  -- the Order Unit's further transfers
  | takenWriteDone
  | answerWriteDone
  | withdrawStart
  | withdrawnWriteDone
  | tariffReadDone (record : Vector Byte 32)
  -- the settlement writer's transfers
  | progressWriteDone
  | standingCopyDone
  | receiptWriteDone
  | givenUpReceiptDone
  | endWordDone
  -- the Journal Writer's and the survey writer's transfers
  | journalSlotReadDone (word : Word)
  | journalEntryWriteDone
  | journalHeaderWriteDone
  | surveyPartDone
  -- the Memory Port
  | busError (words : Nat)
  | transferStart
  -- the lines
  | pollDue (line : LineNo)
  | pollSent (line : LineNo)
  | replyWindowEnd (line : LineNo)
  | replyFrame (t : Time) (line : LineNo) (frame : Vector Byte 29)
  | alertFrame (t : Time) (line : LineNo) (frame : Vector Byte 6)
  | frameBroken (t : Time) (line : LineNo)
  -- the Metering Unit
  | replyService (t : Time)
  | alertService (t : Time)
  -- the Apportioner
  | pass (t : Time)
  | releaseDeadline
  | startGuardExpiry
  -- the clocks and the halt
  | minuteEvent (checkpointLast : Bool)
  | parkSecondTick
  | haltComplete
  | frameStart (t : Time) (line : LineNo) (byte : Byte)
  deriving DecidableEq, Repr

end Sys2Proof
end

