-- ==== Sys2Proof/Decode.lean ====
section
/-! DEFINITION. The command a word spells by the bits of spec/opcode_table.json. No row of this hardware's table gives
bits, so no word spells a command. (How an order cell, a tariff record and a frame are read is Machine/Operands.lean.) -/

namespace Sys2Proof

/-- No row gives bits: no word spells a command. -/
def decodeTableWord (_nbits _w : Nat) : Option Instr := none

end Sys2Proof
end

