-- ==== Sys2Proof/Config.lean ====
section
/-! DEFINITION. What is fixed for every PS320: the lists of its outlets, lines, modules and cells in order. The spec leaves
no value to an implementation that a command does not carry as an operand (log 12, log 14, log 17), so there is no opaque
constant here. -/

namespace Sys2Proof

/-- O0 to O31 in order. -/
def Config.outlets : List Outlet := List.finRange 32
/-- L0 to L15 in order. -/
def Config.lines : List LineNo := List.finRange 16
/-- M0 to M39 in order. -/
def Config.modules : List ModuleNo := List.finRange 40
/-- Positions 0 to 9 of a cabinet in order. -/
def Config.positions : List (Fin 10) := List.finRange 10

end Sys2Proof
end

