-- ==== Sys2Proof/Machine/State.lean ====
section
/-! DEFINITION. The state of the part as plain data, block by block, and the machine right after power-on reset. -/

namespace Sys2Proof.Machine

/-! ### Reasons a command stops -/

/-- The spec gives the part nothing that stops it: a bus error is an effect (R170), a line fault is a count (R95).
`unreachable` is raised by no command, so it is safe. -/
inductive Fault where
  /-- Raised by no command. Safe. -/
  | unreachable
  deriving DecidableEq, Repr

/-- Why the model gives a command no meaning. -/
inductive Refusal where
  /-- Raised by exec's arm of a command that has no meaning yet. Safe. -/
  | notModelled (mnemonic : String)
  /-- Raised by REGISTER_WRITE_IGNORED for a CONTROL write whose code is RUN, HALT or SOFT_RESET, which is not ignored
  and has a row of its own (log 33). Safe. -/
  | illFormed (mnemonic : String)
  deriving DecidableEq, Repr

/-! ### Control Block -/

/-- Part states (R180). -/
inductive PartState where
  | stopped | running | halting | halted
  deriving DecidableEq, Repr

/-- Notice flags, in bit order (1.7, 12.3). -/
inductive Notice where
  | order | receipt | journal | gap | postRefused | audit | busFault | halted
  deriving DecidableEq, Repr

/-- The park settings (10.6): ms, s, mu, minutes, minutes, minutes. -/
structure ParkSettings where
  pollPeriod : Nat
  horizon : Nat
  reserve : Nat
  drainedLimit : Nat
  heldLimit : Nat
  checkpoint : Nat
  deriving DecidableEq, Repr

/-- The Control Block's state. `minuteDue` is none while the minute timer is stopped (R187); `secondDue` is the time of
the next rise of park seconds (R186). -/
structure Control where
  partState : PartState
  notice : Byte
  noticeMask : Byte
  areaBase : Word
  faultAddress : Word
  faultLatched : Bool
  seconds : Word
  secondDue : Time
  minuteDue : Option Time
  settings : ParkSettings
  deriving DecidableEq, Repr

/-! ### Order Unit -/

/-- Reasons of the last-refusal record (R12). -/
inductive RefusalReason where
  | none | notRunning | full | duplicate | badIndex | withdrawLate | stalePost
  deriving DecidableEq, Repr

/-- The last-refusal record (R12): the index is as written, 0 to 255. -/
structure LastRefusal where
  reason : RefusalReason
  index : Byte
  deriving DecidableEq, Repr

/-- Ownership words of a cell (1.3). -/
inductive Ownership where
  | host | posted | taken | live | done | withdrawn
  deriving DecidableEq, Repr

/-- Outcomes (1.6). -/
inductive OrderOutcome where
  | none | ok | settled | cancelled | unused | badKind | badField | busFault | refusedBusy | refusedTariff | refusedHold
  | refusedFull | noPredecessor | noSession | alreadyClosing | belowSpent | notHeld | notOut
  deriving DecidableEq, Repr

/-- What the answer of the order in hand still waits for, beside its TAKEN write (R15, R16). `cellCopy` is the LINK's
progress waiter (R145, R146); the waiter of an OPEN or a SYNC stands in the outlet's context (R22). -/
inductive Wait where
  | nothing
  | progressCopy (outlet : Outlet)
  | cellCopy
  | tariffRecord (slot : TariffSlot)
  | survey
  deriving DecidableEq, Repr

/-- What the Order Unit keeps of the order part it has read (R8): the ownership byte (12.1), the kind byte, and the order with
its kind's fields; a byte that is none of the sixteen kinds has no fields (R15). -/
structure OrderPart where
  ownership : Byte
  kind : Byte
  order : Option Order
  deriving DecidableEq, Repr

/-- The unit states of 1.5, each with the order in hand as that table and R8 give it. -/
inductive UnitState where
  | idle
  | withdrawing (cell : CellIndex)
  | reading (cell : CellIndex)
  | waiting (cell : CellIndex) (part : OrderPart) (outcome : OrderOutcome) (takenWritten : Bool) (wait : Wait)
  | answering (cell : CellIndex) (outcome : OrderOutcome) (final : Ownership)
  deriving DecidableEq, Repr

/-- The Order Unit's state (R13, R14). -/
structure OrderUnit where
  postQueue : List CellIndex
  withdrawList : List CellIndex
  lastRefusal : LastRefusal
  unit : UnitState
  deriving DecidableEq, Repr

/-! ### Session Unit and Standby Table -/

/-- One tariff (6.1): a slot's values, a session's copy, a standby entry's copy. -/
structure Tariff where
  startFee : Half
  prices : Vector Half 4
  idleFee : Half
  idleGrace : Byte
  deriving DecidableEq, Repr

/-- ON_PLUG, or ON_BAND with a band (R28). -/
inductive StartCondition where
  | onPlug
  | onBand (band : Band)
  deriving DecidableEq, Repr

/-- States a held session returns to (R34). -/
inductive ResumeState where
  | active | idle | drained
  deriving DecidableEq, Repr

/-- Held reasons (5.7). -/
inductive HeldReason where
  | stale | meter | outletFault
  deriving DecidableEq, Repr

/-- End reasons of a session (R37), and HANDOVER, which a given-up receipt carries (R149). -/
inductive EndReason where
  | stopped | unplugged | purse | fault | estop | handover
  deriving DecidableEq, Repr

/-- A live session's state (2.2) with the optional fields that are present in it alone (R22). -/
inductive Phase where
  | armed (start : StartCondition)
  | active
  | idle
  | drained
  | held (resume : ResumeState) (reason : HeldReason) (donePending : Bool)
  | closing (reason : EndReason) (closeTime : Word)
  | settling (reason : EndReason) (closeTime : Word)
  deriving DecidableEq, Repr

/-- Start serial and start time, taken at start (R29). -/
structure Started where
  serial : Word
  time : Word
  deriving DecidableEq, Repr

/-- What a receipt holds (R47). -/
structure Receipt where
  reason : EndReason
  outlet : Outlet
  idleCapped : Bool
  meterRebased : Bool
  finalUnconfirmed : Bool
  overdrawn : Bool
  unsaved : Bool
  rejected : Nat
  serial : Word
  startTime : Word
  closeTime : Word
  reference : Word
  hold : Nat
  startFee : Nat
  energyCharge : Nat
  idleCharge : Nat
  total : Nat
  overdraw : Nat
  energy : Vector Nat 4
  deriving DecidableEq, Repr

/-- A given-up receipt still unwritten (R149, R152): its cell, its values (UNSAVED among them), its retry-due mark. -/
structure GivenUp where
  cell : CellIndex
  receipt : Receipt
  retryDue : Bool
  deriving DecidableEq, Repr

/-- A live session context (R22). A VACANT context is `none` in the Session Table. -/
structure Context where
  cell : CellIndex
  started : Option Started
  reference : Word
  phase : Phase
  priority : Fin 4
  tariff : Tariff
  hold : Nat
  startFeeCharged : Nat
  energyCharge : Nat
  idleCharge : Nat
  chargedTotal : Nat
  overdraw : Nat
  carry : Nat
  energy : Vector Nat 4
  pendingEnergy : Vector Nat 4
  pendingIdle : Nat
  idleMinutes : Nat
  drainedMinutes : Nat
  heldMinutes : Nat
  closingMinutes : Nat
  link : Option CellIndex
  auditHeld : Bool
  finalReading : Bool
  idleCapped : Bool
  meterRebased : Bool
  finalUnconfirmed : Bool
  overdrawn : Bool
  unsaved : Bool
  rejected : Nat
  progressDue : Bool
  progressWaiter : Bool
  retryDue : Bool
  givenUp : Option GivenUp
  deriving DecidableEq, Repr

/-- Plug states of an outlet report (R23). -/
inductive Plug where
  | unknown | unplugged | plugged | fault
  deriving DecidableEq, Repr

/-- An outlet report (R23); demand in kW. -/
structure OutletReport where
  plug : Plug
  complete : Bool
  demand : Nat
  lineStale : Bool
  deriving DecidableEq, Repr

/-- An entry of the end-word queue (R49). -/
structure EndWord where
  cell : CellIndex
  outcome : OrderOutcome
  deriving DecidableEq, Repr

/-- The Session Unit's state. -/
structure SessionUnit where
  contexts : Vector (Option Context) 32
  reports : Vector OutletReport 32
  ceilings : Vector Nat 32
  tariffs : Vector (Option Tariff) 16
  band : Band
  epoch : Word
  startSerial : Word
  auditFlags : Vector Bool 32
  checkpointCount : Nat
  endWords : List EndWord
  deriving DecidableEq, Repr

/-- A standby entry (R143). -/
structure StandbyEntry where
  cell : CellIndex
  outlet : Outlet
  hold : Nat
  tariff : Tariff
  priority : Fin 4
  reference : Word
  link : Option CellIndex
  progressDue : Bool
  deriving DecidableEq, Repr

/-! ### Apportioner -/

/-- Why a module is out of use (R50). -/
inductive OutReason where
  | fault | noAck | retired
  deriving DecidableEq, Repr

/-- A Module Table entry (R50), each state with the fields present in it alone. -/
inductive Module where
  | free
  | granted (outlet : Outlet)
  | releasing (outlet : Outlet) (deadline : Time) (retire : Bool)
  | out (reason : OutReason)
  deriving DecidableEq, Repr

/-- An outlet's want inputs (R52), but for the part-running input, which is one for all outlets. -/
structure WantInputs where
  active : Bool
  demand : Nat
  ceiling : Nat
  lineStale : Bool
  baselineValid : Bool
  blocked : Bool
  deriving DecidableEq, Repr

/-- The Apportioner's state. `startGuard` is the time at which the running guard expires (R62). -/
structure Apportioner where
  modules : Vector Module 40
  siteLimit : Nat
  maximums : Vector Nat 32
  inputs : Vector WantInputs 32
  partRunning : Bool
  passRequest : Bool
  startGuard : Option Time
  deriving DecidableEq, Repr

/-! ### Line Engines -/

/-- Line states (4.2). `retired` in SENDING says that a LINE order was taken while the poll was being sent, so that no
reply to it is awaited (R96). AWAITING holds the end of its reply window (R81, R87). -/
inductive LineState where
  | silent
  | waiting
  | sending (retired : Bool)
  | awaiting (windowEnd : Time)
  | withheld
  deriving DecidableEq, Repr

/-- The frames a line receives (4.1). -/
inductive FrameKind where
  | reply | alert
  deriving DecidableEq, Repr

/-- The record of a poll (R81): masks of outlets 2p and 2p+1. -/
structure PollRecord where
  seq : Byte
  mask0 : ModuleMask
  mask1 : ModuleMask
  band : Band
  sendTime : Time
  deriving DecidableEq, Repr

/-- One outlet's part of a reply, as R86 takes it. -/
structure OutletNews where
  plug : Plug
  complete : Bool
  demand : Nat
  applied : ModuleMask
  faults : ModuleMask
  register : Word
  deriving DecidableEq, Repr

/-- The reply slot's contents (R85, R92). -/
structure HeldReply where
  estop : Bool
  news0 : OutletNews
  news1 : OutletNews
  poll : PollRecord
  received : Time
  deriving DecidableEq, Repr

/-- The alert slot's contents (R90, R92). -/
structure HeldAlert where
  estop : Bool
  plug0 : Plug
  plug1 : Plug
  received : Time
  deriving DecidableEq, Repr

/-- The five fault counters of a line (R95). -/
structure LineCounters where
  silentFault : Nat
  broken : Nat
  crcFault : Nat
  seqFault : Nat
  overrun : Nat
  deriving DecidableEq, Repr

/-- A Line Engine's state (4.2), and the kind of the frame it is receiving, if any (R77, R80). -/
structure Line where
  state : LineState
  seq : Byte
  due : Option Time
  bandEdge : Bool
  outstanding : Option PollRecord
  receiving : Option FrameKind
  replySlot : Option HeldReply
  alertSlot : Option HeldAlert
  overrunMark : Bool
  missed : Nat
  stale : Bool
  counters : LineCounters
  deriving DecidableEq, Repr

/-! ### Metering Unit -/

/-- An outlet's meter record (5.1). The valid mark is set exactly while `lastTime`, the time of the last accepted
reading, is present. -/
structure MeterRecord where
  baseline : Word
  lastTime : Option Time
  peak : Nat
  rejects : Nat
  unclaimed : Nat
  deriving DecidableEq, Repr

/-- The Metering Unit's state (5.1). -/
structure Metering where
  records : Vector MeterRecord 32
  blocked : Vector Bool 16
  pointer : LineNo
  deriving DecidableEq, Repr

/-! ### Memory Port and Journal Writer -/

/-- Transfers of the settlement writer (9.1). A progress write says whose wait its completion releases: that of the
context's waiter, that of the LINK in hand (R45, R146). -/
inductive SettleJob where
  | endWord (word : EndWord)
  | progress (outlet : Outlet) (forContext forLink : Bool)
  | standing (outlet : Outlet) (forLink : Bool)
  | receipt (outlet : Outlet)
  | givenUp (outlet : Outlet)
  deriving DecidableEq, Repr

/-- Transfers of the Order Unit (9.1). -/
inductive OrderJob where
  | readOrder (cell : CellIndex)
  | writeTaken (cell : CellIndex)
  | writeAnswer (cell : CellIndex) (outcome : OrderOutcome) (final : Ownership)
  | writeWithdrawn (cell : CellIndex)
  | readTariff (slot : TariffSlot)
  deriving DecidableEq, Repr

/-- Transfers of the Journal Writer (9.1). The header's values are those of the request (R174). -/
inductive JournalJob where
  | readSlot
  | writeEntry
  | writeHeader (nextSeq : Word) (nextSlot : JournalSlot) (gap : Nat)
  deriving DecidableEq, Repr

/-- A transfer's requester and kind. -/
inductive Job where
  | settle (j : SettleJob)
  | order (j : OrderJob)
  | journal (j : JournalJob)
  | survey (part : SurveyPart)
  deriving DecidableEq, Repr

/-- The transfer under way (R167): `data` holds the bytes of a write, read from their owners at the start, and is empty
for a read. -/
structure Transfer where
  job : Job
  offset : Nat
  length : Nat
  address : Word
  data : List Byte
  deriving DecidableEq, Repr

/-- The Memory Port (R167, R168): the transfer under way, and the request each requester has waiting. -/
structure Port where
  busy : Option Transfer
  settleReq : Option SettleJob
  orderReq : Option OrderJob
  journalReq : Option JournalJob
  surveyReq : Option SurveyPart
  deriving DecidableEq, Repr

/-- Requesters, in the order of the port (R168). -/
inductive Requester where
  | settlementWriter | orderUnit | journalWriter | surveyWriter
  deriving DecidableEq, Repr

/-- Journal entry kinds, each with the fields it carries (R177). -/
inductive EntryKind where
  | plug (outlet : Outlet)
  | unplug (outlet : Outlet)
  | vehicleDone (outlet : Outlet)
  | lineStale (line : LineNo)
  | lineFresh (line : LineNo) (missed : Nat)
  | lineOverrun (line : LineNo) (overrun : Nat)
  | moduleOut (module : ModuleNo) (reason : OutReason) (outlet : Option Outlet)
  | held (outlet : Outlet) (reason : HeldReason) (resume : ResumeState)
  | recovered (outlet : Outlet) (reason : HeldReason) (state : ResumeState) (heldMinutes : Nat)
  | drained (outlet : Outlet) (cell : CellIndex) (hold total : Nat)
  | handover (outlet : Outlet) (oldCell newCell : CellIndex) (oldTotal : Nat)
  | auditHold (outlet : Outlet) (cell : CellIndex) (hold total : Nat)
  | estop (pedestal : LineNo) (active : Bool)
  | siteOver (limit power : Nat)
  | meterDrift (outlet : Outlet) (delta : Nat) (band : Band) (unclaimed : Nat)
  | busFault (requester : Requester) (write : Bool) (offset : Nat) (address : Word)
  | halted
  deriving DecidableEq, Repr

/-- A journal entry as it was given (R172, R177). -/
structure JournalEntry where
  kind : EntryKind
  seconds : Word
  deriving DecidableEq, Repr

/-- The Journal Writer's states (R171). WRITING holds the sequence number and the gap the entry carries; HEADING holds
whether the header write is made for a BUS_FAULT entry (R175). -/
inductive WriterState where
  | idle
  | checking
  | writing (seq : Word) (carried : Nat)
  | heading (forBusFault : Bool)
  deriving DecidableEq, Repr

/-- The Journal Writer's state (R171). -/
structure Journal where
  nextSlot : JournalSlot
  nextSeq : Word
  gap : Nat
  queue : List JournalEntry
  writer : WriterState
  deriving DecidableEq, Repr

/-! ### The machine -/

/-- Bytes of park memory that the part has written, addresses strictly rising (log 3). -/
abbrev Memory := List Host.Cell

/-- The whole state. `pending` is the queue of commands, `now` the line timing clock. -/
structure State where
  pending : List Instr
  now : Time
  control : Control
  orders : OrderUnit
  sessions : SessionUnit
  standby : List StandbyEntry
  power : Apportioner
  lines : Vector Line 16
  meters : Metering
  port : Port
  journal : Journal
  mem : Memory
  deriving DecidableEq, Repr

/-! ### Reset values -/

/-- R188. -/
def ParkSettings.reset : ParkSettings :=
  { pollPeriod := 500, horizon := 4, reserve := 50, drainedLimit := 10, heldLimit := 5, checkpoint := 1 }

/-- R4 to R6, R20, R21, R180, R186 to R188. One second is 1 000 000 µs of the clock (log 4). -/
def Control.reset : Control :=
  { partState := .stopped, notice := 0, noticeMask := 0, areaBase := 0, faultAddress := 0, faultLatched := false,
    seconds := 0, secondDue := 1000000, minuteDue := none, settings := ParkSettings.reset }

/-- R12, R13, R18. -/
def OrderUnit.reset : OrderUnit :=
  { postQueue := [], withdrawList := [], lastRefusal := { reason := .none, index := 0 }, unit := .idle }

/-- R22 to R24, R46, R49, R122, R126, R136, R158. -/
def SessionUnit.reset : SessionUnit :=
  { contexts := Vector.replicate 32 none,
    reports := Vector.replicate 32 { plug := .unknown, complete := false, demand := 0, lineStale := true },
    ceilings := Vector.replicate 32 0, tariffs := Vector.replicate 16 none, band := 0, epoch := 0, startSerial := 0,
    auditFlags := Vector.replicate 32 false, checkpointCount := 0, endWords := [] }

/-- R51. -/
def Apportioner.reset : Apportioner :=
  { modules := Vector.replicate 40 .free, siteLimit := 0, maximums := Vector.replicate 32 4,
    inputs := Vector.replicate 32
      { active := false, demand := 0, ceiling := 0, lineStale := true, baselineValid := false, blocked := false },
    partRunning := false, passRequest := false, startGuard := none }

/-- R95. -/
def LineCounters.reset : LineCounters := { silentFault := 0, broken := 0, crcFault := 0, seqFault := 0, overrun := 0 }

/-- The table of 4.2 and R98. -/
def Line.reset : Line :=
  { state := .silent, seq := 0, due := none, bandEdge := false, outstanding := none, receiving := none,
    replySlot := none, alertSlot := none, overrunMark := false, missed := 0, stale := true,
    counters := LineCounters.reset }

/-- The table of 5.1 and R101. -/
def Metering.reset : Metering :=
  { records := Vector.replicate 32 { baseline := 0, lastTime := none, peak := 0, rejects := 0, unclaimed := 0 },
    blocked := Vector.replicate 16 false, pointer := 15 }

/-- R169. -/
def Port.reset : Port := { busy := none, settleReq := none, orderReq := none, journalReq := none, surveyReq := none }

/-- R171. -/
def Journal.reset : Journal := { nextSlot := 0, nextSeq := 0, gap := 0, queue := [], writer := .idle }

/-- The machine right after power-on reset (R185). The clock's reading is the model's choice (log 4). -/
def State.reset : State :=
  { pending := [], now := 0, control := Control.reset, orders := OrderUnit.reset, sessions := SessionUnit.reset,
    standby := [], power := Apportioner.reset, lines := Vector.replicate 16 Line.reset, meters := Metering.reset,
    port := Port.reset, journal := Journal.reset, mem := [] }

end Sys2Proof.Machine
end

