-- ==== Sys2Proof/Machine/Flags.lean ====
section
/-! DEFINITION. Notice flags, the interrupt line, the codes of 12.3 and the reads of the register window. -/

namespace Sys2Proof.Machine

/-- The bit of a notice flag (12.3). -/
def Notice.mask : Notice → Byte
  | .order => 0x01
  | .receipt => 0x02
  | .journal => 0x04
  | .gap => 0x08
  | .postRefused => 0x10
  | .audit => 0x20
  | .busFault => 0x40
  | .halted => 0x80

/-- A notice flag is set when its cause occurs, whatever its mask bit (R20). -/
def raise (n : Notice) (s : State) : State :=
  { s with control := { s.control with notice := s.control.notice ||| n.mask } }

/-- Whether a notice flag is set. -/
def State.noticed (s : State) (n : Notice) : Bool := s.control.notice &&& n.mask != 0

/-- The interrupt line (R21; log 26). -/
def State.interruptLine (s : State) : Bool := s.control.notice &&& s.control.noticeMask != 0

/-- Part state codes (12.3). -/
def PartState.code : PartState → Nat
  | .stopped => 0
  | .running => 1
  | .halting => 2
  | .halted => 3

/-- Refusal reason codes (12.3). -/
def RefusalReason.code : RefusalReason → Nat
  | .none => 0
  | .notRunning => 1
  | .full => 2
  | .duplicate => 3
  | .badIndex => 4
  | .withdrawLate => 5
  | .stalePost => 6

/-- The live session count of STATUS (R4, R22). -/
def State.liveCount (s : State) : Nat := s.sessions.contexts.toList.countP Option.isSome

/-- The registers of the window, by what a read names (1.2). -/
inductive Register where
  | control | status | post | notice | noticeMask | areaBase | faultAddress
  deriving DecidableEq, Repr

/-- STATUS (R4, 12.3). -/
def State.statusWord (s : State) : Word :=
  BitVec.ofNat 32 s.control.partState.code
    ||| (BitVec.ofNat 32 s.orders.postQueue.length <<< 8)
    ||| (BitVec.ofNat 32 s.liveCount <<< 16)
    ||| (BitVec.ofNat 32 s.standby.length <<< 24)
    ||| (if s.control.faultLatched then 0x80000000 else 0)

/-- The last-refusal record as a read of POST returns it (R12, 12.3). -/
def LastRefusal.word (r : LastRefusal) : Word := r.index.setWidth 32 ||| (BitVec.ofNat 32 r.reason.code <<< 16)

/-- What a read of a register returns; a read changes nothing (R3 to R6, R12, R20, R21). -/
def State.readRegister (s : State) : Register → Word
  | .control => 0
  | .status => s.statusWord
  | .post => s.orders.lastRefusal.word
  | .notice => s.control.notice.setWidth 32
  | .noticeMask => s.control.noticeMask.setWidth 32
  | .areaBase => s.control.areaBase
  | .faultAddress => s.control.faultAddress

end Sys2Proof.Machine
end

