-- ==== Sys2Proof/Machine/Ops.lean ====
section
/-! DEFINITION. The shared operations over the parts of the state: park memory, tables, the clock, the journal queue, the
requests of the Memory Port. -/

namespace Sys2Proof.Machine

/-! ### Arithmetic -/

/-- The largest 32-bit count. -/
def max32 : Nat := 4294967295

/-- The sum, at most `top`. -/
def satAdd (top a b : Nat) : Nat := min top (a + b)

/-- `a / b` rounded up. -/
def ceilDiv (a b : Nat) : Nat := (a + (b - 1)) / b

/-- Milliseconds on the clock (log 4). -/
def ms (n : Nat) : Time := n * 1000

/-- Seconds on the clock (log 4). -/
def seconds (n : Nat) : Time := n * 1000000

/-- The byte as an index below `n`, if it is one (R15). -/
def asFin (n : Nat) (b : Byte) : Option (Fin n) := if h : b.toNat < n then some ⟨b.toNat, h⟩ else none

/-! ### Park memory -/

/-- The byte the part last wrote at an address. An address the part has not written is the host's: it reads as no value
(log 3). -/
def Memory.read : Memory → Nat → Option Byte
  | [], _ => none
  | (a', b) :: m, a => if a' = a then some b else Memory.read m a

/-- One byte written: the addresses stay strictly rising. -/
def Memory.writeByte (a : Nat) (b : Byte) : Memory → Memory
  | [] => [(a, b)]
  | (a', b') :: m =>
    if a < a' then (a, b) :: (a', b') :: m
    else if a = a' then (a, b) :: m
    else (a', b') :: Memory.writeByte a b m

/-- Bytes written from an address on, lowest first (R167). -/
def Memory.write (a : Nat) : List Byte → Memory → Memory
  | [], m => m
  | b :: bs, m => Memory.write (a + 1) bs (Memory.writeByte a b m)

/-- The canonical form: addresses strictly rise. No address has a default value that an entry could equal (log 3). -/
def Memory.wf : Memory → Bool
  | [] => true
  | [_] => true
  | c :: d :: m => decide (c.1 < d.1) && Memory.wf (d :: m)

/-! ### The clock -/

/-- The clock has reached `t`; it never runs back (log 6). -/
def atTime (t : Time) (s : State) : State := { s with now := max s.now t }

/-! ### Tables of the state -/

/-- The context of an outlet. -/
def State.context (s : State) (o : Outlet) : Option Context := Table.get s.sessions.contexts o

/-- Replaces the context of an outlet. -/
def setContext (o : Outlet) (c : Option Context) (s : State) : State :=
  { s with sessions := { s.sessions with contexts := Table.set s.sessions.contexts o c } }

/-- Changes the context of an outlet, if it is live. -/
def mapContext (o : Outlet) (f : Context → Context) (s : State) : State := setContext o ((s.context o).map f) s

/-- The outlet report (R23). -/
def State.report (s : State) (o : Outlet) : OutletReport := Table.get s.sessions.reports o

/-- Changes an outlet report. -/
def mapReport (o : Outlet) (f : OutletReport → OutletReport) (s : State) : State :=
  { s with sessions := { s.sessions with reports := Table.set s.sessions.reports o (f (s.report o)) } }

/-- The purse ceiling kept for an outlet (R136). -/
def State.ceiling (s : State) (o : Outlet) : Nat := Table.get s.sessions.ceilings o

/-- A Module Table entry (R50). -/
def State.module (s : State) (m : ModuleNo) : Module := Table.get s.power.modules m

/-- Replaces a Module Table entry. -/
def setModule (m : ModuleNo) (e : Module) (s : State) : State :=
  { s with power := { s.power with modules := Table.set s.power.modules m e } }

/-- The want inputs of an outlet (R52). -/
def State.inputs (s : State) (o : Outlet) : WantInputs := Table.get s.power.inputs o

/-- A line's state (4.2). -/
def State.line (s : State) (k : LineNo) : Line := Table.get s.lines k

/-- Changes a line's state. -/
def mapLine (k : LineNo) (f : Line → Line) (s : State) : State :=
  { s with lines := Table.set s.lines k (f (s.line k)) }

/-- An outlet's meter record (5.1). -/
def State.record (s : State) (o : Outlet) : MeterRecord := Table.get s.meters.records o

/-- Changes an outlet's meter record. -/
def mapRecord (o : Outlet) (f : MeterRecord → MeterRecord) (s : State) : State :=
  { s with meters := { s.meters with records := Table.set s.meters.records o (f (s.record o)) } }

/-- A step made for each entry of a list, in order. -/
def forEach {α : Type} (l : List α) (f : α → State → State) (s : State) : State := l.foldl (fun s a => f a s) s

/-! ### Numbering (Introduction; R50, R76) -/

/-- The cabinet that feeds an outlet. -/
def cabinetOf (o : Outlet) : Cabinet := ⟨o.val / 8, by omega⟩

/-- The module at a position of an outlet's cabinet. -/
def moduleAt (o : Outlet) (p : Fin 10) : ModuleNo := ⟨o.val / 8 * 10 + p.val, by omega⟩

/-- The cabinet a module belongs to. -/
def cabinetOfModule (m : ModuleNo) : Cabinet := ⟨m.val / 10, by omega⟩

/-- The outlets 2p and 2p+1 of a line's pedestal. -/
def outletA (k : LineNo) : Outlet := ⟨2 * k.val, by omega⟩
/-- The second of them. -/
def outletB (k : LineNo) : Outlet := ⟨2 * k.val + 1, by omega⟩
/-- Both, O2p first (R76). -/
def outletsOf (k : LineNo) : List Outlet := [outletA k, outletB k]

/-! ### The Apportioner's derived values (R53, R54; log 26) -/

/-- The demand in kW divided by 40 and rounded up (R52). -/
def demandModules (kW : Nat) : Nat := ceilDiv kW 40

/-- Want from the inputs, the outlet maximum and the part-running input (R53). -/
def WantInputs.want (i : WantInputs) (maximum : Nat) (running : Bool) : Nat :=
  if i.active && running && !i.lineStale && i.baselineValid && !i.blocked then
    min (min (demandModules i.demand) maximum) i.ceiling
  else 0

/-- The want of an outlet (R53). -/
def State.want (s : State) (o : Outlet) : Nat :=
  (s.inputs o).want (Table.get s.power.maximums o) s.power.partRunning

/-- Whether a module is GRANTED to an outlet. -/
def Module.grantedTo (o : Outlet) : Module → Bool
  | .granted o' => o' = o
  | _ => false

/-- Whether a module is GRANTED or RELEASING to an outlet. -/
def Module.heldBy (o : Outlet) : Module → Bool
  | .granted o' => o' = o
  | .releasing o' _ _ => o' = o
  | _ => false

/-- Whether a module is GRANTED or RELEASING. -/
def Module.assigned : Module → Bool
  | .granted _ => true
  | .releasing .. => true
  | _ => false

/-- Whether a module is OUT. -/
def Module.isOut : Module → Bool
  | .out _ => true
  | _ => false

/-- The outlet a module is assigned to. -/
def Module.outlet? : Module → Option Outlet
  | .granted o => some o
  | .releasing o _ _ => some o
  | _ => none

/-- The grant of an outlet (R54). -/
def State.grant (s : State) (o : Outlet) : Nat := s.power.modules.toList.countP (Module.grantedTo o)

/-- The outlet's count of GRANTED plus RELEASING modules (R54). -/
def State.heldCount (s : State) (o : Outlet) : Nat := s.power.modules.toList.countP (Module.heldBy o)

/-- The park's count of GRANTED and RELEASING modules (R61, R70). -/
def State.assignedCount (s : State) : Nat := s.power.modules.toList.countP Module.assigned

/-- The bit of a position in a mask. -/
def bitAt (p : Fin 10) : ModuleMask := BitVec.ofNat 10 (2 ^ p.val)

/-- Whether a mask names a position. -/
def maskHas (m : ModuleMask) (p : Fin 10) : Bool := m &&& bitAt p != 0

/-- The outlet's module mask as the Apportioner offers it (R54). -/
def State.mask (s : State) (o : Outlet) : ModuleMask :=
  Config.positions.foldl (fun m p => if (s.module (moduleAt o p)).grantedTo o then m ||| bitAt p else m) 0

/-! ### Marks and queues -/

/-- Sets the pass request mark (R55). -/
def requestPass (s : State) : State := { s with power := { s.power with passRequest := true } }

/-- Gives an entry to the Journal Writer (R172). -/
def give (k : EntryKind) (s : State) : State :=
  { s with journal :=
      if s.journal.queue.length < 8 then
        { s.journal with queue := s.journal.queue ++ [{ kind := k, seconds := s.control.seconds }] }
      else { s.journal with gap := satAdd max32 s.journal.gap 1 } }

/-- The last-refusal record replaced and POST_REFUSED raised (R12). -/
def refusePost (r : RefusalReason) (index : Byte) (s : State) : State :=
  raise .postRefused { s with orders := { s.orders with lastRefusal := { reason := r, index := index } } }

/-- An end word joins the end-word queue (R49). -/
def queueEndWord (cell : CellIndex) (w : OrderOutcome) (s : State) : State :=
  { s with sessions := { s.sessions with endWords := s.sessions.endWords ++ [{ cell := cell, outcome := w }] } }

/-- The Order Unit's state replaced. -/
def setUnit (u : UnitState) (s : State) : State := { s with orders := { s.orders with unit := u } }

/-- The Order Unit requests a transfer. -/
def requestOrder (j : OrderJob) (s : State) : State := { s with port := { s.port with orderReq := some j } }

/-- The settlement writer requests a transfer. -/
def requestSettle (j : SettleJob) (s : State) : State := { s with port := { s.port with settleReq := some j } }

/-- The Journal Writer requests a transfer. -/
def requestJournal (j : JournalJob) (s : State) : State := { s with port := { s.port with journalReq := some j } }

/-- The survey writer requests a part. -/
def requestSurvey (p : SurveyPart) (s : State) : State := { s with port := { s.port with surveyReq := some p } }

/-- What the answer of the order in hand waits for is done (R16). -/
def endWait (s : State) : State :=
  match s.orders.unit with
  | .waiting c o r t _ => setUnit (.waiting c o r t .nothing) s
  | _ => s

/-- The wait for an outlet's progress copy is released (R27, R45). -/
def endProgressWait (o : Outlet) (s : State) : State :=
  match s.orders.unit with
  | .waiting _ _ _ _ (.progressCopy o') => if o' = o then endWait s else s
  | _ => s

/-- The cell of a LINK that waits for a copy of its cell (R146). -/
def State.linkWaits (s : State) : Option CellIndex :=
  match s.orders.unit with
  | .waiting c _ _ _ .cellCopy => some c
  | _ => none

/-- The cell of the order in hand (1.5). -/
def State.cellInHand (s : State) : Option CellIndex :=
  match s.orders.unit with
  | .reading c => some c
  | .waiting c .. => some c
  | .answering c .. => some c
  | _ => none

/-- The standby entry of a cell (R143). -/
def State.entryOf (s : State) (cell : CellIndex) : Option StandbyEntry := s.standby.find? (fun e => e.cell = cell)

/-- An entry leaves the Standby Table. -/
def removeEntry (cell : CellIndex) (s : State) : State :=
  { s with standby := s.standby.filter (fun e => e.cell ≠ cell) }

/-- Whether a cell is the cell of a live session context or of a standby entry (R14). -/
def State.cellLive (s : State) (cell : CellIndex) : Bool :=
  (Config.outlets.any fun o => (s.context o).any fun c => c.cell = cell) || s.standby.any fun e => e.cell = cell

/-! ### Sessions -/

/-- Whether a session bills deltas: ACTIVE, IDLE, DRAINED, HELD or CLOSING (R112). -/
def Phase.bills : Phase → Bool
  | .armed _ => false
  | .settling .. => false
  | _ => true

/-- Whether a session charges or may: ACTIVE, IDLE, DRAINED or HELD (R37, R46). -/
def Phase.running : Phase → Bool
  | .active => true
  | .idle => true
  | .drained => true
  | .held .. => true
  | _ => false

/-- Whether a session is ARMED. -/
def Phase.isArmed : Phase → Bool
  | .armed _ => true
  | _ => false

/-- Whether a session is CLOSING. -/
def Phase.isClosing : Phase → Bool
  | .closing .. => true
  | _ => false

/-- Whether a session is SETTLING. -/
def Phase.isSettling : Phase → Bool
  | .settling .. => true
  | _ => false

/-- Whether the outlet's session is in a phase of the kind given. -/
def State.phaseIs (s : State) (o : Outlet) (p : Phase → Bool) : Bool := (s.context o).any fun c => p c.phase

end Sys2Proof.Machine
end

