-- ==== Sys2Proof/Machine/Operands.lean ====
section
/-! DEFINITION. The formats of chapter 12: how the bytes of an order part, a tariff record and a frame are read, and how the
bytes of each of the part's writes are made. -/

namespace Sys2Proof.Machine

/-! ### Bytes (R191) -/

/-- The low 8 bits of a number. -/
def byteOf (n : Nat) : Byte := BitVec.ofNat 8 n

/-- A value in `k` bytes, least significant first (R191). -/
def leBytes (k n : Nat) : List Byte := (List.range k).map fun i => byteOf (n / 256 ^ i)

/-- Two bytes, the first least significant (R191). -/
def half (b0 b1 : Byte) : Half := b1 ++ b0

/-- Four bytes, the first least significant (R191). -/
def word (b0 b1 b2 b3 : Byte) : Word := b3 ++ b2 ++ b1 ++ b0

/-- Byte `i` of a word, counted from the least significant. -/
def wordByte (w : Word) (i : Nat) : Byte := w.extractLsb' (8 * i) 8

/-- A flag as a bit at a position. -/
def flagBit (b : Bool) (i : Nat) : Nat := if b then 2 ^ i else 0

/-- None is written as 0xFF (12.1). -/
def indexByte {n : Nat} (i : Option (Fin n)) : Byte :=
  match i with
  | some i => byteOf i.val
  | none => 0xFF

/-! ### Codes -/

/-- Ownership values (12.4). -/
def Ownership.code : Ownership → Nat
  | .host => 0
  | .posted => 1
  | .taken => 2
  | .live => 3
  | .done => 4
  | .withdrawn => 5

/-- Outcome codes (12.4). -/
def OrderOutcome.code : OrderOutcome → Nat
  | .none => 0
  | .ok => 1
  | .settled => 2
  | .cancelled => 3
  | .unused => 4
  | .badKind => 5
  | .badField => 6
  | .busFault => 7
  | .refusedBusy => 8
  | .refusedTariff => 9
  | .refusedHold => 10
  | .refusedFull => 11
  | .noPredecessor => 12
  | .noSession => 13
  | .alreadyClosing => 14
  | .belowSpent => 15
  | .notHeld => 16
  | .notOut => 17

/-- Session state codes (12.4). -/
def Phase.code : Phase → Nat
  | .armed _ => 1
  | .active => 2
  | .idle => 3
  | .drained => 4
  | .held .. => 5
  | .closing .. => 6
  | .settling .. => 7

/-- The code of a state a held session returns to (12.4). -/
def ResumeState.code : ResumeState → Nat
  | .active => 2
  | .idle => 3
  | .drained => 4

/-- Held reason codes (12.4). -/
def HeldReason.code : HeldReason → Nat
  | .stale => 1
  | .meter => 2
  | .outletFault => 3

/-- The held reason of a session, 0 when it is not HELD (12.4). -/
def Phase.heldCode : Phase → Nat
  | .held _ r _ => r.code
  | _ => 0

/-- End reason codes (12.4). -/
def EndReason.code : EndReason → Nat
  | .stopped => 1
  | .unplugged => 2
  | .purse => 3
  | .fault => 4
  | .estop => 5
  | .handover => 6

/-- Out reason codes (12.6). -/
def OutReason.code : OutReason → Nat
  | .fault => 1
  | .noAck => 2
  | .retired => 3

/-- Requester codes (12.6). -/
def Requester.code : Requester → Nat
  | .settlementWriter => 0
  | .orderUnit => 1
  | .journalWriter => 2
  | .surveyWriter => 3

/-- Line state codes (12.7). -/
def LineState.code : LineState → Nat
  | .silent => 0
  | .waiting => 1
  | .sending _ => 2
  | .awaiting _ => 3
  | .withheld => 4

/-! ### The order part (12.4) -/

/-- The order of a kind code, from the bytes of the order part (12.4). A field the kind does not carry is not read. -/
def orderOfBytes (b : Vector Byte 32) : Option Order :=
  let w12 := word b[12] b[13] b[14] b[15]
  let w16 := word b[16] b[17] b[18] b[19]
  match b[4].toNat with
  | 1 => some (.openSession
      { outlet := b[5], slot := b[6], priority := b[7], condition := b[8], band := b[9], link := b[10], hold := w12,
        reference := w16 })
  | 2 => some (.link { outlet := b[5], slot := b[6], link := b[10], hold := w12, reference := w16 })
  | 3 => some (.stop b[5])
  | 4 => some (.amend { outlet := b[5], priority := b[7], present := b[11], hold := w12 })
  | 5 => some (.sync b[5])
  | 6 => some (.audit b[5] b[8])
  | 7 => some (.resume b[5])
  | 8 => some (.tariff b[6] b[8])
  | 9 => some (.band b[9])
  | 10 => some (.site w12)
  | 11 => some (.outlet b[5] b[8])
  | 12 => some (.module b[5] b[8])
  | 13 => some (.park
      { pollPeriod := half b[12] b[13], reserve := half b[14] b[15], horizon := b[16], drainedLimit := b[17],
        heldLimit := b[18], checkpoint := b[19] })
  | 14 => some (.clock w12)
  | 15 => some .survey
  | 16 => some (.line b[5])
  | _ => none

/-- What the read of an order part finds (R8): the ownership is judged by byte 0 alone (12.1). -/
def decodeOrderPart (b : Vector Byte 32) : OrderPart := { ownership := b[0], kind := b[4], order := orderOfBytes b }

/-- Order kind codes (12.4). -/
def kindCode : Order → Byte
  | .openSession _ => 1
  | .link _ => 2
  | .stop _ => 3
  | .amend _ => 4
  | .sync _ => 5
  | .audit .. => 6
  | .resume _ => 7
  | .tariff .. => 8
  | .band _ => 9
  | .site _ => 10
  | .outlet .. => 11
  | .module .. => 12
  | .park _ => 13
  | .clock _ => 14
  | .survey => 15
  | .line _ => 16

/-- What is kept of a POSTED cell's order part that gives this order (R8). -/
def postedPart (o : Order) : OrderPart := { ownership := 1, kind := kindCode o, order := some o }

/-- Whether the ownership read is POSTED (R14, 12.1). -/
def OrderPart.posted (p : OrderPart) : Bool := p.ownership = 1

/-- The bytes 4 to 19 of an order part, as a host that follows 12.4 writes them. -/
def orderBytes (kind b5 b6 b7 b8 b9 b10 b11 : Byte) (w12 w16 : Word) : Vector Byte 32 :=
  #v[1, 0, 0, 0, kind, b5, b6, b7, b8, b9, b10, b11, wordByte w12 0, wordByte w12 1, wordByte w12 2, wordByte w12 3,
     wordByte w16 0, wordByte w16 1, wordByte w16 2, wordByte w16 3, 0, 0, 0, 0, 0, 0, 0, 0, 0, 0, 0, 0]

/-- A POSTED cell's order part that gives an order (12.4; 1.9). -/
def encodeOrder : Order → Vector Byte 32
  | .openSession o => orderBytes 1 o.outlet o.slot o.priority o.condition o.band o.link 0 o.hold o.reference
  | .link o => orderBytes 2 o.outlet o.slot 0 0 0 o.link 0 o.hold o.reference
  | .stop b => orderBytes 3 b 0 0 0 0 0 0 0 0
  | .amend o => orderBytes 4 o.outlet 0 o.priority 0 0 0 o.present o.hold 0
  | .sync b => orderBytes 5 b 0 0 0 0 0 0 0 0
  | .audit b a => orderBytes 6 b 0 0 a 0 0 0 0 0
  | .resume b => orderBytes 7 b 0 0 0 0 0 0 0 0
  | .tariff s a => orderBytes 8 0 s 0 a 0 0 0 0 0
  | .band b => orderBytes 9 0 0 0 0 b 0 0 0 0
  | .site w => orderBytes 10 0 0 0 0 0 0 0 w 0
  | .outlet b m => orderBytes 11 b 0 0 m 0 0 0 0 0
  | .module b a => orderBytes 12 b 0 0 a 0 0 0 0 0
  | .park o => orderBytes 13 0 0 0 0 0 0 0 (o.reserve ++ o.pollPeriod)
      (o.checkpoint ++ o.heldLimit ++ o.drainedLimit ++ o.horizon)
  | .clock w => orderBytes 14 0 0 0 0 0 0 0 w 0
  | .survey => orderBytes 15 0 0 0 0 0 0 0 0 0
  | .line b => orderBytes 16 b 0 0 0 0 0 0 0 0

/-! ### The tariff record (12.5) -/

/-- A tariff record: none where its valid mark is clear (R124). -/
def decodeTariff (b : Vector Byte 32) : Option Tariff :=
  if b[0].getLsbD 0 then
    some
      { startFee := half b[2] b[3],
        prices := #v[half b[4] b[5], half b[6] b[7], half b[8] b[9], half b[10] b[11]],
        idleFee := half b[12] b[13], idleGrace := b[14] }
  else none

/-! ### Line frames (12.8) -/

/-- One bit of the CRC: polynomial 0x1021 (R77). -/
def crcShift (c : Half) : Half := if c.msb then (c <<< 1) ^^^ 0x1021 else c <<< 1

/-- One byte of the CRC, most significant bit first (R77). -/
def crcByte (c : Half) (b : Byte) : Half :=
  crcShift (crcShift (crcShift (crcShift (crcShift (crcShift (crcShift (crcShift (c ^^^ (b ++ (0 : Byte))))))))))

/-- The CRC-16 with initial value 0xFFFF, not inverted (R77). -/
def crc (bs : List Byte) : Half := bs.foldl crcByte 0xFFFF

/-- A frame's CRC word against the CRC of every byte after the start byte and before the CRC word (R77, R193). -/
def frameGood (frame : List Byte) : Bool :=
  let n := frame.length
  let body := (frame.drop 1).take (n - 3)
  match frame.drop (n - 2) with
  | [hi, lo] => crc body == hi ++ lo
  | _ => false

/-- The eight bytes of a poll, from its record (12.8, R193): most significant byte first, mask bits 10 to 15 as 0. -/
def pollFrame (r : PollRecord) : List Byte :=
  let m0 : Half := r.mask0.setWidth 16
  let m1 : Half := r.mask1.setWidth 16
  let body : List Byte :=
    [r.seq, m0.extractLsb' 8 8, m0.extractLsb' 0 8, m1.extractLsb' 8 8, m1.extractLsb' 0 8]
  let c := crc body
  [0x5C] ++ body ++ [c.extractLsb' 8 8, c.extractLsb' 0 8]

/-- The poll a line is sending, if it is (R81, R193). -/
def Line.sendingFrame (l : Line) : Option (List Byte) :=
  match l.state with
  | .sending _ => l.outstanding.map pollFrame
  | _ => none

/-- A plug state code: one that is none of UNPLUGGED 0, PLUGGED 1 and FAULT 2 is taken as FAULT (R86). -/
def plugOf (b : Byte) : Plug :=
  match b.toNat with
  | 0 => .unplugged
  | 1 => .plugged
  | _ => .fault

/-- A reply's six fields of an outlet, whose first byte stands at `i` (12.8), within their ranges (R86). -/
def newsAt (f : Vector Byte 29) (i : Nat) (h : i + 11 < 27) : OutletNews :=
  { plug := plugOf (f[i]'(by omega)),
    complete := f[i + 1]'(by omega) != 0,
    demand := min 1000 ((f[i + 2]'(by omega) ++ f[i + 3]'(by omega)).toNat),
    applied := ((f[i + 4]'(by omega) ++ f[i + 5]'(by omega))).setWidth 10,
    faults := ((f[i + 6]'(by omega) ++ f[i + 7]'(by omega))).setWidth 10,
    register :=
      f[i + 8]'(by omega) ++ f[i + 9]'(by omega) ++ f[i + 10]'(by omega) ++ f[i + 11]'(by omega) }

/-- What a reply places in the reply slot, with the record of its poll and its reception time (R85, R86). The ESTOP
indication is bit 0 of the pedestal status (12.8). -/
def replyOf (f : Vector Byte 29) (poll : PollRecord) (received : Time) : HeldReply :=
  { estop := f[2].getLsbD 0, news0 := newsAt f 3 (by omega), news1 := newsAt f 15 (by omega), poll := poll,
    received := received }

/-- What an alert places in the alert slot (R86, R90). -/
def alertOf (f : Vector Byte 6) (received : Time) : HeldAlert :=
  { estop := f[1].getLsbD 0, plug0 := plugOf f[2], plug1 := plugOf f[3], received := received }

/-! ### Offsets (12.2) -/

/-- The offset of an order cell. -/
def cellOffset (c : CellIndex) : Nat := c.val * 0x80
/-- The offset of a tariff record. -/
def tariffOffset (i : TariffSlot) : Nat := 0x4000 + i.val * 0x20
/-- The offset of a journal slot. -/
def slotOffset (i : JournalSlot) : Nat := 0x4210 + i.val * 0x10
/-- The offset of a part of the survey block. -/
def surveyOffset (p : SurveyPart) : Nat := 0x4800 + p.val * 0x80

/-! ### What the part writes into a cell (12.4) -/

/-- A cell's first word: ownership value, outcome code, 0, 0 (12.1). -/
def firstWord (w : Ownership) (o : OrderOutcome) : List Byte := [byteOf w.code, byteOf o.code, 0, 0]

/-- The sum of four band values. -/
def bandSum (v : Vector Nat 4) : Nat := v[0] + v[1] + v[2] + v[3]

/-- A total that stays at 2^32 − 1 once it reaches it (12.4). -/
def energyTotal (v : Vector Nat 4) : Nat := min max32 (bandSum v)

/-- A session's progress copy (R44, 12.4). The bits of its bytes 2 and 3 that no field names, bits 2, 3 and 6 of the one and bit 3
of the other, are 0: the model's choice (log 40, DESIGN CHOICE). -/
def progressBytes (s : State) (o : Outlet) (c : Context) : List Byte :=
  [byteOf c.phase.code, byteOf o.val,
   byteOf (c.priority.val + c.phase.heldCode * 16 + flagBit c.auditHeld 7),
   byteOf (flagBit c.idleCapped 0 + flagBit c.meterRebased 1 + flagBit c.overdrawn 2 + s.ceiling o * 16),
   byteOf (s.grant o + s.want o * 16)]
  ++ leBytes 3 c.hold
  ++ leBytes 4 ((c.started.map fun t => t.serial.toNat).getD 0)
  ++ leBytes 4 ((c.started.map fun t => t.time.toNat).getD 0)
  ++ leBytes 4 s.control.seconds.toNat
  ++ leBytes 4 c.chargedTotal
  ++ leBytes 4 (energyTotal c.energy)
  ++ leBytes 4 (energyTotal c.pendingEnergy)

/-- A standby entry's STANDING copy: state code 8, the outlet, the priority, the hold and the park seconds (R146). The bits that
no field names are 0 as in a progress copy (log 40, DESIGN CHOICE). -/
def standingBytes (s : State) (e : StandbyEntry) : List Byte :=
  [8, byteOf e.outlet.val, byteOf e.priority.val, 0, 0] ++ leBytes 3 e.hold ++ leBytes 4 0 ++ leBytes 4 0
  ++ leBytes 4 s.control.seconds.toNat ++ leBytes 4 0 ++ leBytes 4 0 ++ leBytes 4 0

/-- A receipt (R47, 12.4). Its energy total is the sum of its band values and stays at 2^32 − 1 (log 25). Bits 5 to 7 of its byte
2, which no field names, are 0: the model's choice (log 40, DESIGN CHOICE). -/
def receiptBytes (r : Receipt) : List Byte :=
  [byteOf r.reason.code, byteOf r.outlet.val,
   byteOf (flagBit r.idleCapped 0 + flagBit r.meterRebased 1 + flagBit r.finalUnconfirmed 2 + flagBit r.overdrawn 3
     + flagBit r.unsaved 4),
   byteOf r.rejected]
  ++ leBytes 4 r.serial.toNat ++ leBytes 4 r.startTime.toNat ++ leBytes 4 r.closeTime.toNat
  ++ leBytes 4 r.reference.toNat ++ leBytes 4 r.hold ++ leBytes 4 r.startFee ++ leBytes 4 r.energyCharge
  ++ leBytes 4 r.idleCharge ++ leBytes 4 r.total ++ leBytes 4 r.overdraw
  ++ leBytes 4 r.energy[0] ++ leBytes 4 r.energy[1] ++ leBytes 4 r.energy[2] ++ leBytes 4 r.energy[3]
  ++ leBytes 4 (energyTotal r.energy)

/-- The receipt of a context with an end reason and a close time (R47, R149). -/
def Context.receipt (c : Context) (o : Outlet) (reason : EndReason) (closeTime : Word) : Receipt :=
  { reason := reason, outlet := o, idleCapped := c.idleCapped, meterRebased := c.meterRebased,
    finalUnconfirmed := c.finalUnconfirmed, overdrawn := c.overdrawn, unsaved := c.unsaved, rejected := c.rejected,
    serial := (c.started.map Started.serial).getD 0, startTime := (c.started.map Started.time).getD 0,
    closeTime := closeTime, reference := c.reference, hold := c.hold, startFee := c.startFeeCharged,
    energyCharge := c.energyCharge, idleCharge := c.idleCharge, total := c.chargedTotal, overdraw := c.overdraw,
    energy := c.energy }

/-- The receipt of a SETTLING context as it stands. -/
def Context.settlingReceipt (c : Context) (o : Outlet) : Option Receipt :=
  match c.phase with
  | .settling r t => some (c.receipt o r t)
  | _ => none

/-! ### The journal (12.6, R192) -/

/-- Entry kind codes (12.6). -/
def EntryKind.code : EntryKind → Nat
  | .plug _ => 1
  | .unplug _ => 2
  | .vehicleDone _ => 3
  | .lineStale _ => 4
  | .lineFresh .. => 5
  | .lineOverrun .. => 6
  | .moduleOut .. => 7
  | .held .. => 8
  | .recovered .. => 9
  | .drained .. => 10
  | .handover .. => 11
  | .auditHold .. => 12
  | .estop .. => 13
  | .siteOver .. => 14
  | .meterDrift .. => 15
  | .busFault .. => 16
  | .halted => 17

/-- A value in three bytes, 16 777 215 when it is above that (R192). -/
def le24 (n : Nat) : List Byte := leBytes 3 (min 16777215 n)

/-- The eight bytes of an entry's fields (12.6). -/
def EntryKind.fields : EntryKind → List Byte
  | .plug o => [byteOf o.val, 0, 0, 0, 0, 0, 0, 0]
  | .unplug o => [byteOf o.val, 0, 0, 0, 0, 0, 0, 0]
  | .vehicleDone o => [byteOf o.val, 0, 0, 0, 0, 0, 0, 0]
  | .lineStale k => [byteOf k.val, 0, 0, 0, 0, 0, 0, 0]
  | .lineFresh k n => [byteOf k.val, byteOf n, 0, 0, 0, 0, 0, 0]
  | .lineOverrun k n => [byteOf k.val, 0] ++ leBytes 2 n ++ [0, 0, 0, 0]
  | .moduleOut m r o => [byteOf m.val, byteOf r.code, indexByte o, 0, 0, 0, 0, 0]
  | .held o r t => [byteOf o.val, byteOf r.code, byteOf t.code, 0, 0, 0, 0, 0]
  | .recovered o r t n => [byteOf o.val, byteOf r.code, byteOf t.code, byteOf n, 0, 0, 0, 0]
  | .drained o c h t => [byteOf o.val, byteOf c.val] ++ leBytes 3 h ++ le24 t
  | .handover o c d t => [byteOf o.val, byteOf c.val, byteOf d.val, 0] ++ leBytes 4 t
  | .auditHold o c h t => [byteOf o.val, byteOf c.val] ++ leBytes 3 h ++ le24 t
  | .estop p a => [byteOf p.val, byteOf (flagBit a 0), 0, 0, 0, 0, 0, 0]
  | .siteOver l p => leBytes 2 l ++ leBytes 2 p ++ [0, 0, 0, 0]
  | .meterDrift o d b u => [byteOf o.val, byteOf b.val] ++ le24 d ++ le24 u
  | .busFault r w off a => [byteOf r.code, byteOf (flagBit w 0)] ++ leBytes 2 off ++ leBytes 4 a.toNat
  | .halted => [0, 0, 0, 0, 0, 0, 0, 0]

/-- A journal entry: FULL in bits 2 to 0 and the kind in bits 7 to 3 of byte 0 (12.6, R192). -/
def entryBytes (e : JournalEntry) (seq : Word) (carried : Nat) : List Byte :=
  [byteOf (1 + e.kind.code * 8), byteOf seq.toNat] ++ leBytes 2 (min 65535 carried) ++ leBytes 4 e.seconds.toNat
  ++ e.kind.fields

/-- The journal header (12.6). -/
def headerBytes (seq : Word) (slot : JournalSlot) (gap : Nat) : List Byte :=
  leBytes 4 seq.toNat ++ leBytes 4 slot.val ++ leBytes 4 gap ++ leBytes 4 0

/-- Whether a journal slot's first word is EMPTY, judged by bits 2 to 0 of byte 0 (12.1, R174). -/
def slotEmpty (w : Word) : Bool := w &&& 7 == 0

/-! ### The survey block (12.7) -/

/-- A Module Table entry's two bytes (12.7). Bits 2, 3, 6 and 7 of the first, which no field names, are 0: the model's choice (log
40, DESIGN CHOICE). -/
def Module.bytes : Module → List Byte
  | .free => [0, 0xFF]
  | .granted o => [1, byteOf o.val]
  | .releasing o _ _ => [2, byteOf o.val]
  | .out r => [byteOf (3 + r.code * 16), 0xFF]

/-- Part 0 (12.7). -/
def surveyHead (s : State) : List Byte :=
  leBytes 4 s.control.seconds.toNat ++ leBytes 4 s.sessions.epoch.toNat ++ leBytes 2 s.power.siteLimit
  ++ [byteOf s.control.partState.code, byteOf s.sessions.band.val] ++ leBytes 4 0
  ++ (Config.modules.flatMap fun m => (s.module m).bytes) ++ leBytes 32 0

/-- An outlet's 16 bytes (12.7). -/
def surveyOutlet (s : State) (o : Outlet) : List Byte :=
  [byteOf (((s.context o).map fun c => c.phase.code).getD 0), byteOf (s.grant o), byteOf (s.want o),
   indexByte ((s.context o).map Context.cell)]
  ++ leBytes 2 (s.inputs o).demand ++ leBytes 2 0 ++ leBytes 4 (s.record o).unclaimed ++ leBytes 4 0

/-- A line's 16 bytes (12.7). -/
def surveyLine (l : Line) : List Byte :=
  [byteOf l.state.code, byteOf (flagBit l.stale 0), byteOf l.missed, 0]
  ++ leBytes 2 l.counters.silentFault ++ leBytes 2 l.counters.broken ++ leBytes 2 l.counters.crcFault
  ++ leBytes 2 l.counters.seqFault ++ leBytes 2 l.counters.overrun ++ leBytes 2 0

/-- The 128 bytes of a part of the survey block (9.5, 12.7). -/
def surveyBytes (s : State) (p : SurveyPart) : List Byte :=
  if p.val = 0 then surveyHead s
  else if p.val < 5 then ((Config.outlets.drop ((p.val - 1) * 8)).take 8).flatMap (surveyOutlet s)
  else ((Config.lines.drop ((p.val - 5) * 8)).take 8).flatMap fun k => surveyLine (s.line k)

end Sys2Proof.Machine
end

