-- ==== Sys2Proof/Machine/Port.lean ====
section
/-! DEFINITION. The Memory Port, its requesters' choices, the start and the end of a transfer, and the end of every event
(R1, R43, R152, R153, R167 to R174, R183). -/

namespace Sys2Proof.Machine

/-- The outcome of a command. -/
abbrev Outcome := Host.Outcome State Fault Refusal

/-! ### Jobs: direction, place, length, contents (9.1) -/

/-- Who makes a transfer (9.1). -/
def Job.requester : Job → Requester
  | .settle _ => .settlementWriter
  | .order _ => .orderUnit
  | .journal _ => .journalWriter
  | .survey _ => .surveyWriter

/-- Whether a transfer is a write (9.1). -/
def Job.isWrite : Job → Bool
  | .order (.readOrder _) => false
  | .order (.readTariff _) => false
  | .journal .readSlot => false
  | _ => true

/-- The length of a transfer in bytes (9.1). -/
def Job.length : Job → Nat
  | .settle (.endWord _) => 4
  | .settle (.progress ..) => 32
  | .settle (.standing ..) => 32
  | .settle (.receipt _) => 64
  | .settle (.givenUp _) => 64
  | .order (.readOrder _) => 32
  | .order (.readTariff _) => 32
  | .order _ => 4
  | .journal .readSlot => 4
  | .journal _ => 16
  | .survey _ => 128

/-- The standby entry of an outlet (R143, R146). -/
def State.entryAt (s : State) (o : Outlet) : Option StandbyEntry := s.standby.find? fun e => e.outlet = o

/-- The offset of a settlement transfer: the cell named by the context or the entry at the start (R43, R146, R152). -/
def settleOffset (s : State) : SettleJob → Nat
  | .endWord w => cellOffset w.cell
  | .progress o _ _ => ((s.context o).map fun c => cellOffset c.cell + 0x20).getD 0x20
  | .standing o _ => ((s.entryAt o).map fun e => cellOffset e.cell + 0x20).getD 0x20
  | .receipt o => ((s.context o).map fun c => cellOffset c.cell + 0x40).getD 0x40
  | .givenUp o => (((s.context o).bind Context.givenUp).map fun g => cellOffset g.cell + 0x40).getD 0x40

/-- The offset of a transfer within the area (12.2). -/
def jobOffset (s : State) : Job → Nat
  | .settle j => settleOffset s j
  | .order (.readOrder c) => cellOffset c
  | .order (.writeTaken c) => cellOffset c
  | .order (.writeAnswer c _ _) => cellOffset c
  | .order (.writeWithdrawn c) => cellOffset c
  | .order (.readTariff i) => tariffOffset i
  | .journal (.writeHeader ..) => 0x4200
  | .journal _ => slotOffset s.journal.nextSlot
  | .survey p => surveyOffset p

/-- The contents of a settlement transfer, as they stand at its start (R43). -/
def settleData (s : State) : SettleJob → List Byte
  | .endWord w => firstWord .done w.outcome
  | .progress o _ _ => ((s.context o).map (progressBytes s o)).getD []
  | .standing o _ => ((s.entryAt o).map (standingBytes s)).getD []
  | .receipt o => (((s.context o).bind fun c => c.settlingReceipt o).map receiptBytes).getD []
  | .givenUp o => (((s.context o).bind Context.givenUp).map fun g => receiptBytes g.receipt).getD []

/-- The contents of a Journal Writer transfer: the head entry with the sequence number and gap it carries (R173), the
header as it was requested (R174). -/
def journalData (s : State) : JournalJob → List Byte
  | .readSlot => []
  | .writeEntry =>
    match s.journal.queue, s.journal.writer with
    | e :: _, .writing seq carried => entryBytes e seq carried
    | _, _ => []
  | .writeHeader seq slot gap => headerBytes seq slot gap

/-- The contents of a write as its owners hold them at its start; none for a read (R167). -/
def jobData (s : State) : Job → List Byte
  | .settle j => settleData s j
  | .order (.readOrder _) => []
  | .order (.writeTaken _) => firstWord .taken .none
  | .order (.writeAnswer _ r w) => firstWord w r
  | .order (.writeWithdrawn _) => firstWord .withdrawn .none
  | .order (.readTariff _) => []
  | .journal j => journalData s j
  | .survey p => surveyBytes s p

/-- The transfer a job becomes when the port starts it: its bus address from AREA_BASE as it is then (R1, R167). -/
def startedTransfer (s : State) (j : Job) : Transfer :=
  { job := j, offset := jobOffset s j, length := j.length,
    address := s.control.areaBase + BitVec.ofNat 32 (jobOffset s j), data := jobData s j }

/-! ### Requests -/

/-- Whether the settlement writer has a transfer requested or under way (R43). -/
def State.settleBusy (s : State) : Bool :=
  s.port.settleReq.isSome || s.port.busy.any fun t => decide (t.job.requester = .settlementWriter)

/-- Whether a waiting request of the settlement writer still has its owner (R43; log 29). -/
def SettleJob.owned (s : State) : SettleJob → Bool
  | .endWord _ => true
  | .progress o _ _ => (s.context o).isSome
  | .standing o _ => (s.entryAt o).isSome
  | .receipt o => (s.context o).any fun c => c.phase.isSettling
  | .givenUp o => (s.context o).any fun c => c.givenUp.isSome

/-- A waiting request whose owner is gone is withdrawn from the port (R43; log 29). -/
def withdrawStale (s : State) : State :=
  match s.port.settleReq with
  | some j => if j.owned s then s else { s with port := { s.port with settleReq := none } }
  | none => s

/-- The receipt an outlet is due: a given-up receipt first, else that of a SETTLING context; one whose write has failed
only with its retry due (R43, R48, R152). -/
def Context.receiptDue (c : Context) (o : Outlet) : Option SettleJob :=
  match c.givenUp with
  | some g => if !g.receipt.unsaved || g.retryDue then some (.givenUp o) else none
  | none => if c.phase.isSettling && (!c.unsaved || c.retryDue) then some (.receipt o) else none

/-- The oldest end word whose cell is not in hand (R153). -/
def State.nextEndWord (s : State) : Option EndWord :=
  s.sessions.endWords.find? fun w => decide (s.cellInHand ≠ some w.cell)

/-- The lowest outlet whose context has its progress-due mark set (R43). -/
def State.nextProgress (s : State) : Option Outlet :=
  Config.outlets.find? fun o => (s.context o).any Context.progressDue

/-- The lowest outlet whose standby entry has its progress-due mark set (R146). -/
def State.nextStanding (s : State) : Option Outlet :=
  Config.outlets.find? fun o => (s.entryAt o).any StandbyEntry.progressDue

/-- The receipt due at the lowest outlet (R43). -/
def State.nextReceipt (s : State) : Option SettleJob :=
  Config.outlets.findSome? fun o => (s.context o).bind fun c => c.receiptDue o

/-- The progress write of an outlet, with whose wait its completion releases (R45, R146). -/
def State.progressJob (s : State) (o : Outlet) : SettleJob :=
  .progress o ((s.context o).any Context.progressWaiter)
    ((s.context o).any fun c => decide (s.linkWaits = some c.cell))

/-- The STANDING write of an outlet's entry (R146). -/
def State.standingJob (s : State) (o : Outlet) : SettleJob :=
  .standing o ((s.entryAt o).any fun e => decide (s.linkWaits = some e.cell))

/-- The entry's progress-due mark is cleared when its copy is requested (R146). -/
def clearStandingDue (o : Outlet) (s : State) : State :=
  { s with standby := s.standby.map fun e => if e.outlet = o then { e with progressDue := false } else e }

/-- The retry-due mark is cleared when the write is requested (R48, R152). -/
def clearRetry (j : SettleJob) (s : State) : State :=
  match j with
  | .receipt o => mapContext o (fun c => { c with retryDue := false }) s
  | .givenUp o => mapContext o (fun c => { c with givenUp := c.givenUp.map fun g => { g with retryDue := false } }) s
  | _ => s

/-- The settlement writer's next transfer (R43, R146, R152, R153). -/
def chooseSettle (s : State) : State :=
  match s.nextEndWord with
  | some w => requestSettle (.endWord w) s
  | none =>
    match s.nextProgress with
    | some o => requestSettle (s.progressJob o) (mapContext o (fun c => { c with progressDue := false }) s)
    | none =>
      match s.nextStanding with
      | some o => requestSettle (s.standingJob o) (clearStandingDue o s)
      | none =>
        match s.nextReceipt with
        | some j => requestSettle j (clearRetry j s)
        | none => s

/-- The settlement writer chooses when it has no transfer requested or under way (R43). -/
def settleRequests (s : State) : State := if s.settleBusy then s else chooseSettle s

/-- An IDLE Journal Writer with an entry in its queue enters CHECKING and requests the read of the next slot (R172). -/
def journalRequests (s : State) : State :=
  match s.journal.writer, s.journal.queue with
  | .idle, _ :: _ => requestJournal .readSlot { s with journal := { s.journal with writer := .checking } }
  | _, _ => s

/-- The order in hand whose TAKEN write and whose wait are done is answered (R16). -/
def answerRequests (s : State) : State :=
  match s.orders.unit with
  | .waiting c part outcome true .nothing =>
    let final : Ownership :=
      match part.order, outcome with
      | some (.openSession _), .ok => .live
      | some (.link _), .ok => .live
      | _, _ => .done
    requestOrder (.writeAnswer c outcome final) (setUnit (.answering c outcome final) s)
  | _ => s

/-! ### Starting (R168) -/

/-- The port starts a job. -/
def startJob (j : Job) (s : State) : State := { s with port := { s.port with busy := some (startedTransfer s j) } }

/-- An IDLE port starts one of the waiting requests, in its fixed order (R168). -/
def startNext (s : State) : State :=
  if s.port.busy.isSome then s
  else
    match s.port.settleReq with
    | some j => startJob (.settle j) { s with port := { s.port with settleReq := none } }
    | none =>
      match s.port.orderReq with
      | some j => startJob (.order j) { s with port := { s.port with orderReq := none } }
      | none =>
        match s.port.journalReq with
        | some j => startJob (.journal j) { s with port := { s.port with journalReq := none } }
        | none =>
          match s.port.surveyReq with
          | some p => startJob (.survey p) { s with port := { s.port with surveyReq := none } }
          | none => s

/-- Requests are made and the port starts one if it is IDLE (R168; log 9). -/
def serveRequests (s : State) : State :=
  startNext (journalRequests (settleRequests (answerRequests (withdrawStale s))))

/-! ### The halt (R183) -/

/-- Whether the Memory Port is idle: no transfer under way and no request waiting (R167). -/
def Port.isIdle (p : Port) : Bool :=
  p.busy.isNone && p.settleReq.isNone && p.orderReq.isNone && p.journalReq.isNone && p.surveyReq.isNone

/-- Whether the halt is complete (R183). A WITHDRAWN write still to be made delays it (log 11). -/
def State.haltDone (s : State) : Bool :=
  s.assignedCount = 0 && !(Config.outlets.any fun o => (s.context o).any Context.progressDue) && s.port.isIdle
    && s.orders.withdrawList.isEmpty

/-- In HALTING, the first event in which the condition holds makes the part HALTED (R183). -/
def completeHalt (s : State) : State :=
  if s.control.partState = .halting && s.haltDone then
    serveRequests (give .halted (raise .halted { s with control := { s.control with partState := .halted } }))
  else s

/-- What every event of the part ends with: requests, the start of a transfer, the judging of a halt (R168, R183;
log 9). -/
def endEvent (s : State) : State := completeHalt (serveRequests s)

/-- A command answered with the state its event leaves. -/
def finish (s : State) : Outcome := .next (endEvent s)

/-! ### Ending -/

/-- Bytes of a transfer's data reach park memory (R167, R170; log 13). -/
def writeBytes (t : Transfer) (bytes : List Byte) (s : State) : State :=
  { s with mem := s.mem.write t.address.toNat bytes }

/-- The port has no transfer under way. -/
def freePort (s : State) : State := { s with port := { s.port with busy := none } }

/-- A transfer completes without bus error: a write's bytes stand in memory, and the port is free (R167). -/
def completeTransfer (t : Transfer) (s : State) : State := freePort (writeBytes t t.data s)

end Sys2Proof.Machine
end

