-- ==== Sys2Proof/Machine/Power.lean ====
section
/-! DEFINITION. The Apportioner: the pass, the delivery of want inputs, release, fault and the module orders (chapter 3). -/

namespace Sys2Proof.Machine

/-! ### Ranking and targets (R57 to R59) -/

/-- An outlet whose want is above 0, with what ranks it (R57). -/
structure Ranked where
  outlet : Outlet
  priority : Nat
  serial : Nat
  want : Nat
  deriving DecidableEq, Repr

/-- Priority, then start serial as an unsigned number, then outlet number (R57). -/
def Ranked.le (a b : Ranked) : Bool :=
  decide (a.priority < b.priority) ||
    (a.priority == b.priority &&
      (decide (a.serial < b.serial) || (a.serial == b.serial && decide (a.outlet.val ≤ b.outlet.val))))

/-- The priority of the outlet's session (R57). -/
def State.rankPriority (s : State) (o : Outlet) : Nat := ((s.context o).map fun c => c.priority.val).getD 0

/-- The start serial of the outlet's session (R57). -/
def State.rankSerial (s : State) (o : Outlet) : Nat :=
  ((s.context o).bind fun c => c.started.map fun t => t.serial.toNat).getD 0

/-- The outlets whose want is above 0, best rank first (R57). -/
def State.ranking (s : State) : List Ranked :=
  (Config.outlets.filterMap fun o =>
    if 0 < s.want o then
      some { outlet := o, priority := s.rankPriority o, serial := s.rankSerial o, want := s.want o }
    else none).insertionSort fun a b => a.le b = true

/-- What is left of the cabinets' capacities and of the site budget while targets are given (R58). -/
structure Stock where
  cabinets : Vector Nat 4
  budget : Nat
  deriving DecidableEq, Repr

/-- The capacity of a cabinet: its modules that are not OUT (R58). -/
def State.capacity (s : State) (c : Cabinet) : Nat :=
  Config.modules.countP fun m => cabinetOfModule m = c && !(s.module m).isOut

/-- The site budget (R58). -/
def State.siteBudget (s : State) : Nat := s.power.siteLimit / 40

/-- The stock as a pass finds it (R58). -/
def State.stock (s : State) : Stock :=
  { cabinets := #v[s.capacity 0, s.capacity 1, s.capacity 2, s.capacity 3], budget := s.siteBudget }

/-- What an outlet can still be given (R58). -/
def Stock.left (k : Stock) (o : Outlet) : Nat := min (Table.get k.cabinets (cabinetOf o)) k.budget

/-- `n` taken from an outlet's cabinet and from the budget. -/
def Stock.take (k : Stock) (o : Outlet) (n : Nat) : Stock :=
  { cabinets := Table.set k.cabinets (cabinetOf o) (Table.get k.cabinets (cabinetOf o) - n), budget := k.budget - n }

/-- A ranked outlet with its target. -/
abbrev Target := Ranked × Nat

/-- Round one: a first module for each ranked outlet, in rank order, as far as the stock reaches (R58). -/
def roundOne : Stock → List Ranked → Stock × List Target
  | k, [] => (k, [])
  | k, r :: rs =>
    let n := min 1 (k.left r.outlet)
    let (k', ts) := roundOne (k.take r.outlet n) rs
    (k', (r, n) :: ts)

/-- Round two: each target of 1 raised toward its want in rank order, while both budgets last; a target of 0 stays 0 (R59). -/
def roundTwo : Stock → List Target → Stock × List Target
  | k, [] => (k, [])
  | k, (r, n) :: ts =>
    let more := if n = 0 then 0 else min (r.want - n) (k.left r.outlet)
    let (k', us) := roundTwo (k.take r.outlet more) ts
    (k', (r, n + more) :: us)

/-- The targets of a pass, in rank order (R58, R59). -/
def State.targets (s : State) : List Target :=
  let (k, ts) := roundOne s.stock s.ranking
  (roundTwo k ts).2

/-- An outlet's target; an outlet not ranked has target 0 (R57). -/
def targetOf (ts : List Target) (o : Outlet) : Nat := ((ts.find? fun t => t.1.outlet = o).map Prod.snd).getD 0

/-! ### Moving modules (R60, R61) -/

/-- The release deadline set now: five times the poll period in force (R60). -/
def State.releaseDeadline (s : State) : Time := s.now + ms (5 * s.control.settings.pollPeriod)

/-- Reduction at one module: taken when it is GRANTED to an outlet whose grant exceeds its target (R60). -/
def reduceModule (ts : List Target) (m : ModuleNo) (s : State) : State :=
  match s.module m with
  | .granted o =>
    if targetOf ts o < s.grant o then setModule m (.releasing o s.releaseDeadline false) s else s
  | _ => s

/-- The reduction step: modules taken from the highest-numbered down (R60). -/
def reduce (ts : List Target) : State → State := forEach Config.modules.reverse (reduceModule ts)

/-- The lowest-numbered FREE module of an outlet's cabinet (R61). -/
def State.freeModule (s : State) (o : Outlet) : Option ModuleNo :=
  Config.modules.find? fun m => cabinetOfModule m = cabinetOf o && s.module m == .free

/-- One raise: made only while a FREE module is left and the budget is not exceeded (R61). -/
def raiseOne (o : Outlet) (s : State) : State :=
  match s.freeModule o with
  | some m => if s.assignedCount + 1 ≤ s.siteBudget then setModule m (.granted o) s else s
  | none => s

/-- The raises of one ranked outlet (R61). -/
def raiseOutlet (t : Target) (s : State) : State := (raiseOne t.1.outlet)^[t.2 - s.grant t.1.outlet] s

/-- The raise step, in rank order; not made while the start guard runs (R61, R62). -/
def raises (ts : List Target) (s : State) : State :=
  if s.power.startGuard.isSome then s else forEach ts raiseOutlet s

/-- An interval peak follows a rise of its outlet's count (R110). -/
def raisePeak (o : Outlet) (s : State) : State := mapRecord o (fun r => { r with peak := max r.peak (s.heldCount o) }) s

/-- The pass request mark is cleared as a pass begins (R55). -/
def clearPassRequest (s : State) : State := { s with power := { s.power with passRequest := false } }

/-- A pass (R55, R57 to R62): it clears the pass request mark and changes the Module Table. -/
def pass (s : State) : State :=
  let ts := s.targets
  forEach Config.outlets raisePeak (raises ts (reduce ts (clearPassRequest s)))

/-- The immediate pass: made where some outlet's want is below its grant (R56). -/
def immediatePass (s : State) : State :=
  if Config.outlets.any fun o => decide (s.want o < s.grant o) then pass s else s

/-! ### Want inputs (R52) -/

/-- A delivery to an outlet's want inputs; one that changes want requests a pass (R52). -/
def setInputs (o : Outlet) (f : WantInputs → WantInputs) (s : State) : State :=
  let s' := { s with power := { s.power with inputs := Table.set s.power.inputs o (f (s.inputs o)) } }
  if s'.want o = s.want o then s' else requestPass s'

/-- A delivery with the pass it calls for within its event (R56). -/
def deliver (o : Outlet) (f : WantInputs → WantInputs) (s : State) : State := immediatePass (setInputs o f s)

/-- The outlet's session enters or leaves ACTIVE: a pass is requested (R25). -/
def deliverActive (o : Outlet) (a : Bool) (s : State) : State :=
  deliver o (fun i => { i with active := a }) (requestPass s)

/-- A change of an outlet's purse ceiling, delivered to the Apportioner without its pass (R136). -/
def storeCeiling (o : Outlet) (n : Nat) (s : State) : State :=
  if s.ceiling o = n then s
  else
    setInputs o (fun i => { i with ceiling := n })
      (requestPass { s with sessions := { s.sessions with ceilings := Table.set s.sessions.ceilings o n } })

/-- A change of an outlet's purse ceiling, with the immediate pass it calls for (R136). -/
def setCeiling (o : Outlet) (n : Nat) (s : State) : State := immediatePass (storeCeiling o n s)

/-- A demand delivered for an outlet (R23, R25, R52). -/
def deliverDemand (o : Outlet) (kW : Nat) (s : State) : State :=
  let s' := if demandModules kW = demandModules (s.inputs o).demand then s else requestPass s
  deliver o (fun i => { i with demand := kW }) s'

/-- One value delivered to both outlets of a pedestal, a pass requested, and the immediate pass (R93, R94, R105, R106). -/
def deliverBoth (k : LineNo) (f : WantInputs → WantInputs) (s : State) : State :=
  immediatePass (setInputs (outletB k) f (setInputs (outletA k) f (requestPass s)))

/-- The part-running input, one for all outlets (R52, R180). -/
def setPartRunning (b : Bool) (s : State) : State := { s with power := { s.power with partRunning := b } }

/-! ### Modules leave their outlets (R63 to R66, R69) -/

/-- A module goes OUT from another state: its entry is given and a pass is requested (R65, R66, R68, R69). -/
def moduleOut (m : ModuleNo) (r : OutReason) (s : State) : State :=
  requestPass (setModule m (.out r) (give (.moduleOut m r (s.module m).outlet?) s))

/-- A fault bit: OUT with reason FAULT; a module already OUT takes the reason alone (R66). -/
def faultModule (m : ModuleNo) (s : State) : State :=
  match s.module m with
  | .out _ => setModule m (.out .fault) s
  | _ => moduleOut m .fault s

/-- A RELEASING module of the outlet whose bit is clear in the applied mask and in the mask sent becomes FREE, or OUT with
reason RETIRED where its retire mark is set (R63, R69). -/
def releaseModule (o : Outlet) (applied sent : ModuleMask) (p : Fin 10) (s : State) : State :=
  match s.module (moduleAt o p) with
  | .releasing o' _ retire =>
    if o' = o && !maskHas applied p && !maskHas sent p then
      if retire then moduleOut (moduleAt o p) .retired s
      else requestPass (setModule (moduleAt o p) .free s)
    else s
  | _ => s

/-- The positions a mask names, lowest first (R66). -/
def maskPositions (m : ModuleMask) : List (Fin 10) := Config.positions.filter (maskHas m)

/-- An outlet's fault mask acts, then its applied mask (R63, R64, R66). Both take positions lowest first; for the applied mask,
and so for the MODULE_OUT entries of R69, that order is the model's (log 37). -/
def takeMasks (o : Outlet) (n : OutletNews) (sent : ModuleMask) (s : State) : State :=
  forEach Config.positions (releaseModule o n.applied sent)
    (forEach (maskPositions n.faults) (fun p => faultModule (moduleAt o p)) s)

end Sys2Proof.Machine
end

