-- ==== Sys2Proof/Machine/Purse.lean ====
section
/-! DEFINITION. The money of a session: pricing, overdraw, idle minutes, pending amounts, the purse ceiling (chapters 6, 8). -/

namespace Sys2Proof.Machine

/-- The remaining money: the hold minus the charged total, or 0 (R128). -/
def Context.remaining (c : Context) : Nat := c.hold - c.chargedTotal

/-- The copy's price for a band. -/
def Context.price (c : Context) (b : Band) : Nat := (Table.get c.tariff.prices b).toNat

/-- The pending cost: four products added, divided by 1000 and rounded up (R134). -/
def Context.pendingCost (c : Context) : Nat :=
  ceilDiv
    (c.pendingEnergy[0] * c.price 0 + c.pendingEnergy[1] * c.price 1 + c.pendingEnergy[2] * c.price 2
      + c.pendingEnergy[3] * c.price 3) 1000

/-- The projected cost of `g` modules of 40 kW over the exposure horizon (R135). -/
def projectedCost (g horizon price : Nat) : Nat := ceilDiv (g * 40 * horizon * price) 3600

/-- Whether the remaining money covers `g` modules, the reserve margin and the pending cost (R135). -/
def Context.covers (c : Context) (p : ParkSettings) (b : Band) (g : Nat) : Bool :=
  decide (projectedCost g p.horizon (c.price b) + p.reserve + c.pendingCost ≤ c.remaining)

/-- The largest g from 0 to 10 that the remaining money covers, 0 where there is none (R135). With a price, a reserve margin and a
pending cost of 0 that is 10 even while an overdraw keeps the remaining money at 0, where R130 says 0: the model's choice
(log 43, DESIGN CHOICE). -/
def Context.purseCeiling (c : Context) (p : ParkSettings) (b : Band) : Nat :=
  (List.range 11).foldl (fun best g => if c.covers p b g then g else best) 0

/-- The overdraw and its mark after an energy charge (R130). -/
def Context.updateOverdraw (c : Context) : Context :=
  { c with overdraw := c.chargedTotal - c.hold, overdrawn := c.overdrawn || decide (c.hold < c.chargedTotal) }

/-- A delta priced with the carry at the copy's price for its band; the charge is cut where the total would pass 2^32 − 1
(R128, R129). -/
def Context.priceDelta (c : Context) (d : Nat) (b : Band) : Context :=
  let amount := d * c.price b + c.carry
  let charge := min (amount / 1000) (max32 - c.chargedTotal)
  { c with
    energyCharge := c.energyCharge + charge, chargedTotal := c.chargedTotal + charge, carry := amount % 1000,
    energy := Table.set c.energy b (satAdd max32 (Table.get c.energy b) d) }

/-- A delta recorded as pending energy of its band (R160). -/
def Context.addPending (c : Context) (d : Nat) (b : Band) : Context :=
  { c with pendingEnergy := Table.set c.pendingEnergy b (satAdd max32 (Table.get c.pendingEnergy b) d) }

/-- What one idle minute charges: nothing within the grace, else the smaller of the fee and the remaining money (R132). -/
def Context.idleCharged (c : Context) : Nat :=
  if c.tariff.idleGrace.toNat < satAdd 65535 c.idleMinutes 1 then min c.tariff.idleFee.toNat c.remaining else 0

/-- One idle minute applied (R132). -/
def Context.idleMinute (c : Context) : Context :=
  let past := decide (c.tariff.idleGrace.toNat < satAdd 65535 c.idleMinutes 1)
  { c with
    idleMinutes := satAdd 65535 c.idleMinutes 1, idleCharge := c.idleCharge + c.idleCharged,
    chargedTotal := c.chargedTotal + c.idleCharged,
    idleCapped := c.idleCapped || (past && decide (c.idleCharged < c.tariff.idleFee.toNat)) }

/-- The pending energy of a band priced as one delta (R163, step 1). -/
def Context.pricePending (c : Context) (b : Band) : Context :=
  let d := Table.get c.pendingEnergy b
  if d = 0 then c
  else { (c.priceDelta d b).updateOverdraw with pendingEnergy := Table.set c.pendingEnergy b 0 }

/-- The pending amounts applied and the audit-held mark cleared (R163, steps 1 to 3; R165). Outside IDLE this leaves the idle minutes
raised, where R31 and R32 count the next stay from 0: the model's choice (log 44, DESIGN CHOICE). -/
def Context.applyPending (c : Context) : Context :=
  let priced := (((c.pricePending 0).pricePending 1).pricePending 2).pricePending 3
  { Context.idleMinute^[c.pendingIdle] priced with pendingIdle := 0, auditHeld := false }

/-- The ceiling of the outlet's session as it computes now: 0 while VACANT or ARMED, kept in SETTLING (R135 to R137). -/
def State.ceilingNow (s : State) (o : Outlet) : Nat :=
  match s.context o with
  | none => 0
  | some c =>
    match c.phase with
    | .armed _ => 0
    | .settling .. => s.ceiling o
    | _ => c.purseCeiling s.control.settings s.sessions.band

/-- The ceiling recomputed and delivered (R136, R137). -/
def recompute (o : Outlet) (s : State) : State := setCeiling o (s.ceilingNow o) s

/-- Every ceiling recomputed, then the one pass that a want below its grant calls for (R127, R189; log 15). -/
def recomputeAll (s : State) : State :=
  immediatePass (forEach Config.outlets (fun o s => storeCeiling o (s.ceilingNow o) s) s)

end Sys2Proof.Machine
end

