-- ==== Sys2Proof/Machine/Sessions.lean ====
section
/-! DEFINITION. The session states and their transitions, handover, the audit hold, billing (chapters 2, 5 to 8). -/

namespace Sys2Proof.Machine

/-! ### Leaving and ending -/

/-- The phase of a live context replaced. -/
def setPhase (o : Outlet) (p : Phase) (s : State) : State := mapContext o (fun c => { c with phase := p }) s

/-- The context becomes VACANT: its ceiling is 0 and a wait for its copy is released (R22, R45, R136). -/
def vacate (o : Outlet) (s : State) : State := setCeiling o 0 (endProgressWait o (setContext o none s))

/-- Whether a STANDING or progress write that releases the LINK's wait is under way (R146). -/
def State.linkCopyUnderWay (s : State) : Bool :=
  match s.port.busy with
  | some { job := .settle (.progress _ _ l), .. } => l
  | some { job := .settle (.standing _ l), .. } => l
  | _ => false

/-- The wait of a LINK whose cell is this is released, unless a write that releases it is under way (R146; log 31). -/
def endLinkWait (cell : CellIndex) (s : State) : State :=
  if s.linkWaits = some cell && !s.linkCopyUnderWay then endWait s else s

/-- The standing entry that a link names, if there is one, is released unused (R157). The entry's outlet is not looked at: of
two sessions that name one cell, either may release it (log 39). -/
def releaseUnused (link : Option CellIndex) (s : State) : State :=
  match link.bind s.entryOf with
  | none => s
  | some e => endLinkWait e.cell (queueEndWord e.cell .unused (removeEntry e.cell s))

/-- The change to a phase from ACTIVE or another: a session that leaves ACTIVE is told to the Apportioner (R25). -/
def leaveFor (o : Outlet) (c : Context) (p : Phase) (s : State) : State :=
  let s := setPhase o p s
  if c.phase = .active then deliverActive o false s else s

/-- Entry to CLOSING with a reason, from ACTIVE, IDLE, DRAINED or HELD (R37). -/
def enterClosing (o : Outlet) (reason : EndReason) (s : State) : State :=
  match s.context o with
  | none => s
  | some c =>
    if c.phase.running then
      mapContext o (fun c => { c with closingMinutes := 0, finalReading := false })
        (leaveFor o c (.closing reason s.control.seconds) s)
    else s

/-- Entry to SETTLING: pending amounts of an audit-held session are applied first (R42, R165). -/
def enterSettling (o : Outlet) (reason : EndReason) (closeTime : Word) (unconfirmed : Bool) (s : State) : State :=
  mapContext o
    (fun c =>
      let c := if c.auditHeld then c.applyPending else c
      { c with phase := .settling reason closeTime, finalUnconfirmed := c.finalUnconfirmed || unconfirmed }) s

/-- Whether a session in CLOSING may enter SETTLING, and so whether it does (R41). Where the final-reading mark holds together
with another of R41's cases, the mark decides: FINAL_UNCONFIRMED stays as it is (log 36). -/
def checkSettle (o : Outlet) (s : State) : State :=
  match s.context o with
  | none => s
  | some c =>
    match c.phase with
    | .closing reason closeTime =>
      if s.heldCount o = 0 then
        if c.finalReading then enterSettling o reason closeTime false s
        else if (s.report o).lineStale || decide (2 ≤ c.closingMinutes) then enterSettling o reason closeTime true s
        else s
      else s
    | _ => s

/-- Entry to CLOSING with the check that the entry calls for (R37, R41). -/
def closeSession (o : Outlet) (reason : EndReason) (s : State) : State := checkSettle o (enterClosing o reason s)

/-! ### DRAINED and handover -/

/-- Entry to DRAINED (R139). -/
def enterDrained (o : Outlet) (s : State) : State :=
  match s.context o with
  | none => s
  | some c =>
    give (.drained o c.cell c.hold c.chargedTotal)
      (mapContext o (fun c => { c with drainedMinutes := 0 }) (leaveFor o c .drained s))

/-- The context after a handover to an entry (R149, R150). -/
def Context.takeOver (c : Context) (o : Outlet) (e : StandbyEntry) (now : Word) : Context :=
  { c with
    givenUp := some
      { cell := c.cell,
        receipt := { c.receipt o .handover now with finalUnconfirmed := false, unsaved := false }, retryDue := false },
    cell := e.cell, hold := e.hold, tariff := e.tariff, reference := e.reference, link := e.link,
    startFeeCharged := 0, energyCharge := 0, idleCharge := 0, chargedTotal := 0, overdraw := 0,
    energy := Vector.replicate 4 0, rejected := 0, overdrawn := false, idleCapped := false, drainedMinutes := 0,
    idleMinutes := 0, progressDue := true, phase := .active }

/-- Handover to an entry (R148 to R151). A session taken over from DRAINED enters ACTIVE. With a new ceiling of 0 it enters
DRAINED, since the entry has left the table and the old hold's receipt is unwritten. -/
def handover (o : Outlet) (e : StandbyEntry) (s : State) : State :=
  match s.context o with
  | none => s
  | some c =>
    let s := setContext o (some (c.takeOver o e s.control.seconds)) s
    let s := give (.handover o c.cell e.cell c.chargedTotal) (removeEntry e.cell s)
    let s := recompute o (deliverActive o true s)
    if s.ceiling o = 0 then enterDrained o s else s

/-- The standing entry a session would hand over to: its link names one and no given-up receipt is unwritten (R148). The entry's
outlet is not looked at: of two sessions that name one cell, either may take it over (log 39). -/
def State.successor (s : State) (c : Context) : Option StandbyEntry :=
  if c.givenUp.isSome then none else c.link.bind s.entryOf

/-- An ACTIVE session with a ceiling of 0, not audit-held, is handed over or enters DRAINED (R138, R148). -/
def takeOn (o : Outlet) (s : State) : State :=
  match s.context o with
  | none => s
  | some c =>
    if c.phase = .active && s.ceiling o == 0 && !c.auditHeld then
      match s.successor c with
      | some e => handover o e s
      | none => enterDrained o s
    else s

/-- A DRAINED session, not audit-held, is examined for handover (R148). -/
def examineDrained (o : Outlet) (s : State) : State :=
  match s.context o with
  | none => s
  | some c =>
    if c.phase = .drained && !c.auditHeld then
      match s.successor c with
      | some e => handover o e s
      | none => s
    else s

/-! ### Starting, idling -/

/-- A session in ACTIVE enters IDLE (R31). Its idle minutes stay, even where a RESUME has raised them above 0 outside IDLE: the
model's choice (log 44, DESIGN CHOICE). -/
def enterIdle (o : Outlet) (s : State) : State :=
  match s.context o with
  | none => s
  | some c => if c.phase = .active then leaveFor o c .idle (give (.vehicleDone o) s) else s

/-- Whether the start condition of a session holds (R28). -/
def State.startHolds (s : State) (o : Outlet) (start : StartCondition) : Bool :=
  decide ((s.report o).plug = .plugged) && !(s.report o).lineStale &&
    (match start with
     | .onPlug => true
     | .onBand b => b = s.sessions.band)

/-- The context of a session that starts: serial, time and start fee, cut to the hold (R29). -/
def Context.start (c : Context) (serial time : Word) : Context :=
  let fee := min c.tariff.startFee.toNat c.hold
  { c with started := some { serial := serial, time := time }, phase := .active, startFeeCharged := fee,
           chargedTotal := c.chargedTotal + fee }

/-- A start, without what follows from its ceiling and its complete flag (R29). -/
def beginSession (o : Outlet) (s : State) : State :=
  let serial := s.sessions.startSerial
  let s := mapContext o (fun c => c.start serial s.control.seconds) s
  let s := { s with sessions := { s.sessions with startSerial := serial + 1 } }
  recompute o (deliverActive o true s)

/-- An ARMED session whose start condition holds starts, and a ceiling of 0 takes it on (R28, R29). What R29 puts last in the
event is `endStart`. -/
def evaluateStart (o : Outlet) (s : State) : State :=
  match s.context o with
  | none => s
  | some c =>
    match c.phase with
    | .armed start =>
      if s.startHolds o start then takeOn o (beginSession o s) else s
    | _ => s

/-- Last in an event that came upon `before`: a session that it has started, that is still ACTIVE and whose report shows the
complete flag set enters IDLE (R29). -/
def endStart (before : State) (o : Outlet) (s : State) : State :=
  if before.phaseIs o Phase.isArmed && (s.report o).complete then enterIdle o s else s

/-- A start evaluated in an event that does nothing after it (R28, R29). -/
def startInEvent (o : Outlet) (s : State) : State := endStart s o (evaluateStart o s)

/-- A session in IDLE returns to ACTIVE (R32, R137). -/
def returnToActive (o : Outlet) (s : State) : State :=
  takeOn o (deliverActive o true (mapContext o (fun c => { c with phase := .active, idleMinutes := 0 }) s))

/-! ### HELD (R34, R116 to R119) -/

/-- The state a session would resume, for the states that can be held (R34). -/
def Phase.resume? : Phase → Option ResumeState
  | .active => some .active
  | .idle => some .idle
  | .drained => some .drained
  | _ => none

/-- The phase of a resume state. -/
def ResumeState.phase : ResumeState → Phase
  | .active => .active
  | .idle => .idle
  | .drained => .drained

/-- Entry to HELD from ACTIVE, IDLE or DRAINED; a session in another state is left as it is (R34, R116 to R118). -/
def enterHeld (o : Outlet) (reason : HeldReason) (s : State) : State :=
  match s.context o with
  | none => s
  | some c =>
    match c.phase.resume? with
    | none => s
    | some r =>
      give (.held o reason r)
        (mapContext o (fun c => { c with heldMinutes := 0 }) (leaveFor o c (.held r reason false) s))

/-- Recovery from HELD (R119, R33, R137, R148). -/
def recover (o : Outlet) (c : Context) (r : ResumeState) (reason : HeldReason) (donePending : Bool) (s : State) : State :=
  let s := give (.recovered o reason r c.heldMinutes) (setPhase o r.phase s)
  match r with
  | .active => takeOn o (deliverActive o true s)
  | .idle => if donePending then give (.vehicleDone o) s else s
  | .drained => examineDrained o s

/-- The event a held reason names has come: the hold changes its reason or ends (R119). -/
def endHold (o : Outlet) (reason : HeldReason) (s : State) : State :=
  match s.context o with
  | none => s
  | some c =>
    match c.phase with
    | .held r reason' donePending =>
      if reason' = reason then
        if (s.report o).lineStale then
          give (.held o .stale r) (setPhase o (.held r .stale donePending) s)
        else if (s.report o).plug = .fault then
          give (.held o .outletFault r) (setPhase o (.held r .outletFault donePending) s)
        else recover o c r reason donePending s
      else s
    | _ => s

/-! ### The audit hold and billing (R112, R129, R159, R160) -/

/-- The audit hold is taken (R159, R164). -/
def takeAuditHold (o : Outlet) (s : State) : State :=
  match s.context o with
  | none => s
  | some c =>
    raise .audit
      (give (.auditHold o c.cell c.hold c.chargedTotal)
        (mapContext o (fun c => { c with auditHeld := true, progressDue := true }) s))

/-- The audit hold is taken where the outlet's flag is set and the session is not yet held (R159). -/
def auditIfFlagged (o : Outlet) (s : State) : State :=
  if Table.get s.sessions.auditFlags o && (s.context o).any (fun c => !c.auditHeld) then takeAuditHold o s else s

/-- A plausible delta billed to a session: recorded as pending energy while it is audit-held, else priced, the ceiling
recomputed and its effect taken, and the audit hold taken where the flag asks for it (R129, R159, R160). -/
def bill (o : Outlet) (d : Nat) (b : Band) (s : State) : State :=
  match s.context o with
  | none => s
  | some c =>
    if c.auditHeld then recompute o (setContext o (some (c.addPending d b)) s)
    else auditIfFlagged o (takeOn o (recompute o (setContext o (some (c.priceDelta d b).updateOverdraw) s)))

/-! ### Outlet news (R107) -/

/-- The outlet report takes a plug state and gives its entry (R23). -/
def reportPlug (o : Outlet) (p : Plug) (s : State) : State :=
  let old := (s.report o).plug
  let s := mapReport o (fun r => { r with plug := p }) s
  match old, p with
  | .unplugged, .plugged => give (.plug o) s
  | .plugged, .unplugged => give (.unplug o) s
  | .fault, .unplugged => give (.unplug o) s
  | _, _ => s

/-- A plug state delivered for an outlet acts on its session; the check of a session that enters CLOSING is the caller's, and
so is the end of a start (R29, R38, R107, R108, R117). -/
def deliverPlug (o : Outlet) (p : Plug) (s : State) : State :=
  let s := reportPlug o p s
  match p with
  | .plugged => endHold o .outletFault (evaluateStart o s)
  | .unplugged => enterClosing o .unplugged s
  | .fault => enterHeld o .outletFault s
  | .unknown => s

/-- The complete flag and demand act on the resume state of a held session (R33). -/
def heldNews (complete : Bool) (demand : Nat) : Phase → Context → Context
  | .held .active reason _, c => if complete then { c with phase := .held .idle reason true } else c
  | .held .idle reason d, c =>
    if !complete && decide (0 < demand) then { c with phase := .held .active reason false, idleMinutes := 0 }
    else { c with phase := .held .idle reason d }
  | _, c => c

/-- The complete flag and the demand act on the outlet's session (R31 to R33). -/
def actOnCharge (o : Outlet) (complete : Bool) (demand : Nat) (s : State) : State :=
  match s.context o with
  | none => s
  | some c =>
    match c.phase with
    | .active => if complete then enterIdle o s else s
    | .idle => if !complete && decide (0 < demand) then returnToActive o s else s
    | .held .. => setContext o (some (heldNews complete demand c.phase c)) s
    | _ => s

/-- The complete flag and the demand of a reply (R107). -/
def deliverCharge (o : Outlet) (complete : Bool) (demand : Nat) (s : State) : State :=
  deliverDemand o demand
    (actOnCharge o complete demand (mapReport o (fun r => { r with complete := complete, demand := demand }) s))

end Sys2Proof.Machine
end

