-- ==== Sys2Proof/Machine/Lines.lean ====
section
/-! DEFINITION. The Line Engines: polling, acceptance, faults, staleness, the LINE order (chapter 4). -/

namespace Sys2Proof.Machine

/-- The reply window, and the wait of a LINE order: 25 ms (R81, R96). -/
def replyWindow : Time := ms 25

/-- The time a poll of 8 bytes takes on the line: 320 µs (4.1; log 30). -/
def pollTime : Time := 320

/-! ### Polling (R80 to R83) -/

/-- A poll is sent now (R81). -/
def sendPoll (k : LineNo) (s : State) : State :=
  mapLine k
    (fun l =>
      { l with
        outstanding := some
          { seq := l.seq, mask0 := s.mask (outletA k), mask1 := s.mask (outletB k), band := s.sessions.band,
            sendTime := s.now },
        bandEdge := false, seq := l.seq + 1, state := .sending false,
        due := some (s.now + ms s.control.settings.pollPeriod) }) s

/-- Whether a line's poll is to be sent or withheld now: WAITING, no frame being received, and due or at a band edge
(R80, R83). A band-edge mark set while a frame was being received in WAITING so acts when that frame ends: the model's reading
(log 20, DEDUCED). -/
def Line.polls (l : Line) (now : Time) : Bool :=
  decide (l.state = .waiting) && l.receiving.isNone && (l.bandEdge || l.due.any fun d => decide (d ≤ now))

/-- A poll is sent if the reply slot is empty, or withheld (R80, R82, R83). -/
def pollNow (k : LineNo) (s : State) : State :=
  if (s.line k).replySlot.isNone then sendPoll k s else mapLine k (fun l => { l with state := .withheld }) s

/-- A poll that is due is sent or withheld (R80, R83). -/
def pollIfDue (k : LineNo) (s : State) : State := if (s.line k).polls s.now then pollNow k s else s

/-- The line enters WAITING with no poll outstanding; a poll due is then sent or withheld (R80, R85, R87, R88). -/
def enterWaiting (k : LineNo) (s : State) : State :=
  pollIfDue k (mapLine k (fun l => { l with state := .waiting, outstanding := none }) s)

/-- The reply slot is emptied: a withheld poll is sent, or waits for the frame being received (R82; log 21). -/
def emptyReplySlot (k : LineNo) (s : State) : State :=
  let s := mapLine k (fun l => { l with replySlot := none }) s
  if (s.line k).state = .withheld then
    if (s.line k).receiving.isNone then sendPoll k s
    else mapLine k (fun l => { l with state := .waiting, due := some s.now }) s
  else s

/-- A BAND order reaches a line: it sends or withholds its poll, or sets its band-edge mark instead (R83). -/
def bandEdge (k : LineNo) (s : State) : State :=
  let l := s.line k
  if l.state = .silent then s
  else if l.state = .waiting && l.receiving.isNone then pollNow k s
  else mapLine k (fun l => { l with bandEdge := true }) s

/-! ### STALE and fresh (R93, R94, R116, R119) -/

/-- The line-stale mark of both outlet reports (R23, R78). -/
def markReports (k : LineNo) (b : Bool) (s : State) : State :=
  forEach (outletsOf k) (fun o => mapReport o fun r => { r with lineStale := b }) s

/-- A line becomes STALE: its entry, the immediate pass, the marks, HELD in outlet order, and CLOSING sessions that may
settle (R93, R116, R41). -/
def goStale (k : LineNo) (s : State) : State :=
  let s := give (.lineStale k) (mapLine k (fun l => { l with stale := true }) s)
  let s := markReports k true (deliverBoth k (fun i => { i with lineStale := true }) s)
  forEach (outletsOf k) checkSettle (forEach (outletsOf k) (enterHeld · .stale) s)

/-- A STALE line becomes fresh: its entry naming the missed-poll count, the inputs, the marks, and the holds for STALE end in
outlet order (R94, R119). -/
def goFresh (k : LineNo) (missed : Nat) (s : State) : State :=
  let s := give (.lineFresh k missed) (mapLine k (fun l => { l with stale := false }) s)
  let s := markReports k false (deliverBoth k (fun i => { i with lineStale := false }) s)
  forEach (outletsOf k) (endHold · .stale) s

/-- A poll counts as missed; the fourth in a row makes a fresh line STALE (R93). -/
def missPoll (k : LineNo) (s : State) : State :=
  let s := mapLine k (fun l => { l with missed := satAdd 255 l.missed 1 }) s
  if (s.line k).missed = 4 && !(s.line k).stale then goStale k s else s

/-! ### Faults (R87 to R89, R95) -/

/-- A fault counter rises by 1 and stays at 65 535 (R95). -/
def countFault (k : LineNo) (f : LineCounters → LineCounters) (s : State) : State :=
  mapLine k (fun l => { l with counters := f l.counters }) s

/-- The exchange has failed: the poll counts as missed and the line enters WAITING (R87, R88). -/
def failExchange (k : LineNo) (s : State) : State := enterWaiting k (missPoll k s)

/-- Whether a line is AWAITING. -/
def Line.isAwaiting (l : Line) : Bool :=
  match l.state with
  | .awaiting _ => true
  | _ => false

/-- Whether a line receives: WAITING, WITHHELD or AWAITING (R77). -/
def Line.receives (l : Line) : Bool :=
  match l.state with
  | .waiting => true
  | .withheld => true
  | .awaiting _ => true
  | _ => false

/-- A broken or bad frame: counted, ending an exchange if there is one (R88, R89). -/
def frameFault (k : LineNo) (f : LineCounters → LineCounters) (s : State) : State :=
  let awaiting := (s.line k).isAwaiting
  let s := countFault k f s
  if awaiting then failExchange k s else pollIfDue k s

/-- CRC_FAULT rises. -/
def LineCounters.addCrc (c : LineCounters) : LineCounters := { c with crcFault := satAdd 65535 c.crcFault 1 }
/-- BREAK rises. -/
def LineCounters.addBreak (c : LineCounters) : LineCounters := { c with broken := satAdd 65535 c.broken 1 }
/-- SEQ_FAULT rises. -/
def LineCounters.addSeq (c : LineCounters) : LineCounters := { c with seqFault := satAdd 65535 c.seqFault 1 }
/-- SILENT_FAULT rises. -/
def LineCounters.addSilent (c : LineCounters) : LineCounters := { c with silentFault := satAdd 65535 c.silentFault 1 }
/-- The overrun counter rises. -/
def LineCounters.addOverrun (c : LineCounters) : LineCounters := { c with overrun := satAdd 65535 c.overrun 1 }

/-! ### Frames (R85, R89 to R91) -/

/-- A reply is accepted (R85). -/
def acceptReply (k : LineNo) (f : Vector Byte 29) (poll : PollRecord) (s : State) : State :=
  let l := s.line k
  let s := mapLine k (fun l => { l with replySlot := some (replyOf f poll s.now), missed := 0 }) s
  enterWaiting k (if l.stale then goFresh k l.missed s else s)

/-- A complete good reply: accepted, or a sequence fault, or late (R85, R88, R89). -/
def goodReply (k : LineNo) (f : Vector Byte 29) (s : State) : State :=
  let l := s.line k
  if l.isAwaiting then
    match l.outstanding with
    | some poll => if f[1] = poll.seq then acceptReply k f poll s else frameFault k LineCounters.addSeq s
    | none => s
  else pollIfDue k s

/-- A complete good alert: placed in the empty slot, or dropped as an overrun (R90, R91). -/
def goodAlert (k : LineNo) (f : Vector Byte 6) (s : State) : State :=
  let l := s.line k
  let s :=
    if l.alertSlot.isNone then mapLine k (fun l => { l with alertSlot := some (alertOf f s.now) }) s
    else
      let s := countFault k LineCounters.addOverrun s
      if l.overrunMark then s
      else
        give (.lineOverrun k (s.line k).counters.overrun) (mapLine k (fun l => { l with overrunMark := true }) s)
  pollIfDue k s

/-- Whether the line takes the bytes of a frame of this kind: it receives, and no frame of the other kind is open (R77;
log 19). -/
def Line.takesFrame (l : Line) (kind : FrameKind) : Bool :=
  l.receives && (match l.receiving with
    | none => true
    | some kind' => kind' = kind)

/-- No frame is being received. -/
def endFrame (k : LineNo) (s : State) : State := mapLine k (fun l => { l with receiving := none }) s

/-- The start byte of a frame kind (4.1). -/
def FrameKind.ofByte (b : Byte) : Option FrameKind :=
  if b = 0xA3 then some .reply else if b = 0xE6 then some .alert else none

/-! ### The LINE order (R96) -/

/-- The line after a LINE order, but for its state: slots and marks emptied, counts 0, counters and STALE kept (R96). -/
def Line.relined (l : Line) : Line :=
  { l with replySlot := none, alertSlot := none, overrunMark := false, seq := 0, missed := 0, bandEdge := false }

/-- A LINE order acts by the line state it finds (R96). In SENDING the due time is set when the last byte is sent. -/
def reline (k : LineNo) (s : State) : State :=
  mapLine k
    (fun l =>
      match l.state with
      | .silent => l.relined
      | .sending _ => { l.relined with state := .sending true }
      | _ => { l.relined with outstanding := none, state := .waiting, due := some (s.now + replyWindow) }) s

/-! ### Meanings -/

/-- POLL_DUE: the clock reaches the line's due time (R80). -/
def execPollDue (k : LineNo) (s : State) : Outcome :=
  finish <| match (s.line k).due with
  | some d => pollIfDue k (atTime d s)
  | none => s

/-- The record's send time, for the end of the poll being sent. -/
def Line.sendTime (l : Line) : Time := (l.outstanding.map PollRecord.sendTime).getD 0

/-- POLL_SENT: the last byte of the poll has been sent (R81, R96). -/
def execPollSent (k : LineNo) (s : State) : Outcome :=
  finish <| match (s.line k).state with
  | .sending retired =>
    let s := atTime ((s.line k).sendTime + pollTime) s
    if retired then enterWaiting k (mapLine k (fun l => { l with due := some (s.now + replyWindow) }) s)
    else mapLine k (fun l => { l with state := .awaiting (s.now + replyWindow) }) s
  | _ => s

/-- REPLY_WINDOW_END: SILENT_FAULT (R87). -/
def execReplyWindowEnd (k : LineNo) (s : State) : Outcome :=
  finish <| match (s.line k).state with
  | .awaiting windowEnd => failExchange k (countFault k LineCounters.addSilent (atTime windowEnd s))
  | _ => s

/-- FRAME_START: outside a frame a start byte opens one; any other byte is discarded (R77). -/
def execFrameStart (t : Time) (k : LineNo) (b : Byte) (s : State) : Outcome :=
  let s := atTime t s
  finish <| if (s.line k).receives && (s.line k).receiving.isNone then
    match FrameKind.ofByte b with
    | some kind => mapLine k (fun l => { l with receiving := some kind }) s
    | none => s
  else s

/-- REPLY_FRAME: the last byte of a reply arrives (R77, R85, R88, R89). -/
def execReplyFrame (t : Time) (k : LineNo) (f : Vector Byte 29) (s : State) : Outcome :=
  let s := atTime t s
  finish <| if (s.line k).takesFrame .reply && f[0] = 0xA3 then
    let s := endFrame k s
    if frameGood f.toList then goodReply k f s else frameFault k LineCounters.addCrc s
  else s

/-- ALERT_FRAME: the last byte of an alert arrives (R77, R88 to R91). -/
def execAlertFrame (t : Time) (k : LineNo) (f : Vector Byte 6) (s : State) : Outcome :=
  let s := atTime t s
  finish <| if (s.line k).takesFrame .alert && f[0] = 0xE6 then
    let s := endFrame k s
    if frameGood f.toList then goodAlert k f s else frameFault k LineCounters.addCrc s
  else s

/-- FRAME_BROKEN: the line stays idle inside a frame (R77, R88, R89). -/
def execFrameBroken (t : Time) (k : LineNo) (s : State) : Outcome :=
  let s := atTime t s
  finish <| if (s.line k).receives && (s.line k).receiving.isSome then
    frameFault k LineCounters.addBreak (endFrame k s)
  else s

end Sys2Proof.Machine
end

