-- ==== Sys2Proof/Machine/Metering.lean ====
section
/-! DEFINITION. The Metering Unit: emergency stop, baselines, plausibility, the service of a reply and of an alert
(chapter 5). -/

namespace Sys2Proof.Machine

/-! ### Emergency stop (R105, R106) -/

/-- The pedestal's block mark. -/
def State.blockMark (s : State) (k : LineNo) : Bool := Table.get s.meters.blocked k

/-- Sets or clears the pedestal's block mark. -/
def setBlockMark (k : LineNo) (b : Bool) (s : State) : State :=
  { s with meters := { s.meters with blocked := Table.set s.meters.blocked k b } }

/-- ESTOP active blocks an unblocked pedestal; the check of the sessions that enter CLOSING is the caller's (R105, R108). -/
def takeEstop (k : LineNo) (active : Bool) (s : State) : State :=
  if active && !s.blockMark k then
    let s := deliverBoth k (fun i => { i with blocked := true }) (setBlockMark k true s)
    give (.estop k true) (forEach (outletsOf k) (enterClosing · .estop) s)
  else s

/-- ESTOP inactive in a reply clears a block (R106). -/
def clearEstop (k : LineNo) (active : Bool) (s : State) : State :=
  if !active && s.blockMark k then
    give (.estop k false) (deliverBoth k (fun i => { i with blocked := false }) (setBlockMark k false s))
  else s

/-! ### Readings (R109 to R115) -/

/-- The elapsed time in milliseconds, rounded up (R111). -/
def elapsedMs (last received : Time) : Nat := ceilDiv (received - last) 1000

/-- The bound of a delta in Wh (R111). -/
def deltaBound (peak elapsed : Nat) : Nat := ceilDiv (peak * elapsed) 72 + 5

/-- The record after an accepted reading or a rebase: baseline, time, peak and rejects (R109, R110, R112, R115). -/
def MeterRecord.accept (r : MeterRecord) (register : Word) (received : Time) (count : Nat) : MeterRecord :=
  { r with baseline := register, lastTime := some received, peak := count, rejects := 0 }

/-- The first reading of an outlet with an invalid baseline (R109). -/
def validate (o : Outlet) (register : Word) (received : Time) (s : State) : State :=
  let count := s.heldCount o
  deliver o (fun i => { i with baselineValid := true })
    (requestPass (mapRecord o (fun r => r.accept register received count) s))

/-- A plausible delta with no billing session is added to unclaimed energy (R113). -/
def claimNone (o : Outlet) (d : Nat) (b : Band) (s : State) : State :=
  let s := mapRecord o (fun r => { r with unclaimed := satAdd max32 r.unclaimed d }) s
  if d = 0 then s else give (.meterDrift o d b (s.record o).unclaimed) s

/-- A plausible delta: the baseline moves, the delta is billed or unclaimed, and a hold for METER ends (R112, R113, R119). An
audit hold that the delta brings (R159) is taken before the recovery (log 38). -/
def acceptDelta (o : Outlet) (d : Nat) (b : Band) (register : Word) (received : Time) (s : State) : State :=
  let count := s.heldCount o
  let s := mapRecord o (fun r => r.accept register received count) s
  if s.phaseIs o Phase.bills then endHold o .meter (bill o d b s) else claimNone o d b s

/-- The third consecutive rejection rebases the meter (R115). -/
def rebase (o : Outlet) (register : Word) (received : Time) (s : State) : State :=
  let count := s.heldCount o
  let s := mapRecord o (fun r => r.accept register received count) s
  if s.phaseIs o Phase.bills then
    enterHeld o .meter (mapContext o (fun c => { c with meterRebased := true }) s)
  else s

/-- An implausible delta (R114, R115). -/
def rejectDelta (o : Outlet) (register : Word) (received : Time) (s : State) : State :=
  let s := mapRecord o (fun r => { r with rejects := r.rejects + 1 }) s
  let s :=
    if s.phaseIs o Phase.bills then mapContext o (fun c => { c with rejected := satAdd 255 c.rejected 1 }) s else s
  if 3 ≤ (s.record o).rejects then rebase o register received s else s

/-- The meter step of an outlet (R103 step 2.3, R109 to R115). -/
def readMeter (o : Outlet) (register : Word) (b : Band) (received : Time) (s : State) : State :=
  let r := s.record o
  match r.lastTime with
  | none => validate o register received s
  | some last =>
    let d := (register - r.baseline).toNat
    if d ≤ deltaBound r.peak (elapsedMs last received) then acceptDelta o d b register received s
    else rejectDelta o register received s

/-! ### The service of a reply (R103, R108) -/

/-- The outlets whose modules a service may change, other than those whose close step is still to come: each is checked for
SETTLING in the event (R41, R108; log 23). -/
def settleOthers (waiting : List Outlet) : State → State :=
  forEach (Config.outlets.filter fun o => !waiting.contains o) checkSettle

/-- The close step: the final-reading mark of a session that was in CLOSING when the service began, then the check (R108). -/
def closeStep (o : Outlet) (wasClosing : Bool) (applied : ModuleMask) (s : State) : State :=
  let s :=
    if wasClosing && s.phaseIs o Phase.isClosing && applied == 0 && s.grant o == 0 then
      mapContext o (fun c => { c with finalReading := true }) s
    else s
  checkSettle o s

/-- One outlet's steps: masks, news, meter, close (R103). `waiting` are the outlets of the pedestal whose close step is to
come, this one among them. A session that starts at the plug news enters IDLE by the complete flag that comes with it (R31,
R107), which is the one its outlet report shows at the end of the event (R29). -/
def serveOutlet (o : Outlet) (waiting : List Outlet) (wasClosing : Bool) (n : OutletNews) (sent : ModuleMask) (b : Band)
    (received : Time) (s : State) : State :=
  let s := settleOthers waiting (takeMasks o n sent s)
  let s := deliverCharge o n.complete n.demand (deliverPlug o n.plug s)
  closeStep o wasClosing n.applied (readMeter o n.register b received s)

/-- The service of a reply (R103). -/
def serveReply (k : LineNo) (r : HeldReply) (s : State) : State :=
  let closingA := s.phaseIs (outletA k) Phase.isClosing
  let closingB := s.phaseIs (outletB k) Phase.isClosing
  let s := clearEstop k r.estop (takeEstop k r.estop s)
  let s := serveOutlet (outletA k) [outletA k, outletB k] closingA r.news0 r.poll.mask0 r.poll.band r.received s
  let s := serveOutlet (outletB k) [outletB k] closingB r.news1 r.poll.mask1 r.poll.band r.received s
  emptyReplySlot k s

/-- The service of an alert (R104); last, a session it has started may enter IDLE (R29). -/
def serveAlert (k : LineNo) (a : HeldAlert) (s : State) : State :=
  let before := s
  let s := forEach (outletsOf k) checkSettle (takeEstop k a.estop s)
  let s := checkSettle (outletA k) (deliverPlug (outletA k) a.plug0 s)
  let s := checkSettle (outletB k) (deliverPlug (outletB k) a.plug1 s)
  forEach (outletsOf k) (endStart before) (mapLine k (fun l => { l with alertSlot := none, overrunMark := false }) s)

/-! ### Choosing a slot (R102) -/

/-- The lines in turn, beginning with the one after the service pointer (R102). -/
def linesAfter (p : LineNo) : List LineNo := Config.lines.map fun i => i + p + 1

/-- The lowest line whose alert slot is full (R102). -/
def State.nextAlert (s : State) : Option LineNo := Config.lines.find? fun k => (s.line k).alertSlot.isSome

/-- The next line whose reply slot is full (R102). -/
def State.nextReply (s : State) : Option LineNo := (linesAfter s.meters.pointer).find? fun k => (s.line k).replySlot.isSome

/-- The service pointer names a line (R102). -/
def setPointer (k : LineNo) (s : State) : State := { s with meters := { s.meters with pointer := k } }

/-- A reply is served where no alert slot is full (R102). -/
def serveNextReply (s : State) : State :=
  if s.nextAlert.isSome then s
  else
    match s.nextReply with
    | none => s
    | some k =>
      match (s.line k).replySlot with
      | none => s
      | some r => serveReply k r (setPointer k s)

/-- An alert is served (R102, R104). -/
def serveNextAlert (s : State) : State :=
  match s.nextAlert with
  | none => s
  | some k =>
    match (s.line k).alertSlot with
    | none => s
    | some a => serveAlert k a s

/-- REPLY_SERVICE (R102, R103). -/
def execReplyService (t : Time) (s : State) : Outcome := finish (serveNextReply (atTime t s))

/-- ALERT_SERVICE (R102, R104). -/
def execAlertService (t : Time) (s : State) : Outcome := finish (serveNextAlert (atTime t s))

end Sys2Proof.Machine
end

