-- ==== Sys2Proof/Machine/Orders.lean ====
section
/-! DEFINITION. The Order Unit's take and hand-on of an order, and what each block does with each kind (R14 to R16; the
chapters of the kinds). -/

namespace Sys2Proof.Machine

/-- What a block does with an order: its outcome, what the answer then waits for, and the state it leaves (R16). -/
structure Taken where
  outcome : OrderOutcome
  wait : Wait
  state : State

/-- A refusal, which changes no state (R16). -/
def refuse (r : OrderOutcome) (s : State) : Taken := { outcome := r, wait := .nothing, state := s }

/-- An order accepted with nothing to wait for. -/
def accept (s : State) : Taken := { outcome := .ok, wait := .nothing, state := s }

/-! ### OPEN (R26, R27) -/

/-- The link cell of an order: 0xFF is none (12.4). -/
def linkOf (b : Byte) : Option CellIndex := asFin 128 b

/-- Whether a link byte is present and 128 or more, or names the order's own cell (R26, R144). -/
def badLink (own : CellIndex) (b : Byte) : Bool := (b != 0xFF && decide (128 ≤ b.toNat)) || decide (b.toNat = own.val)

/-- The start condition of an OPEN: ON_PLUG 1, or ON_BAND 2 with a band up to 3 (R26, 12.4). -/
def startOf (o : OpenOrder) : Option StartCondition :=
  match o.condition.toNat with
  | 1 => some .onPlug
  | 2 => (asFin 4 o.band).map .onBand
  | _ => none

/-- The context an accepted OPEN fills (R22, R27). -/
def openContext (cell : CellIndex) (o : OpenOrder) (start : StartCondition) (priority : Fin 4) (t : Tariff) : Context :=
  { cell := cell, started := none, reference := o.reference, phase := .armed start, priority := priority, tariff := t,
    hold := o.hold.toNat, startFeeCharged := 0, energyCharge := 0, idleCharge := 0, chargedTotal := 0, overdraw := 0,
    carry := 0, energy := Vector.replicate 4 0, pendingEnergy := Vector.replicate 4 0, pendingIdle := 0,
    idleMinutes := 0, drainedMinutes := 0, heldMinutes := 0, closingMinutes := 0, link := linkOf o.link,
    auditHeld := false, finalReading := false, idleCapped := false, meterRebased := false, finalUnconfirmed := false,
    overdrawn := false, unsaved := false, rejected := 0, progressDue := true, progressWaiter := true, retryDue := false,
    givenUp := none }

/-- An OPEN whose fields are in range (R26, R27): refused in the order of R26, or accepted and its start evaluated. -/
def takeOpen (cell : CellIndex) (o : OpenOrder) (outlet : Outlet) (slot : TariffSlot) (s : State) : Taken :=
  match startOf o, asFin 4 o.priority with
  | some start, some priority =>
    if 1000000 < o.hold.toNat || badLink cell o.link then refuse .badField s
    else if (s.context outlet).isSome then refuse .refusedBusy s
    else
      match Table.get s.sessions.tariffs slot with
      | none => refuse .refusedTariff s
      | some t =>
        if o.hold.toNat < t.startFee.toNat + s.control.settings.reserve then refuse .refusedHold s
        else
          { outcome := .ok, wait := .progressCopy outlet,
            state := startInEvent outlet (setContext outlet (some (openContext cell o start priority t)) s) }
  | _, _ => refuse .badField s

/-! ### LINK (R144, R145) -/

/-- The entry an accepted LINK creates (R143, R145). -/
def linkEntry (cell : CellIndex) (o : LinkOrder) (outlet : Outlet) (priority : Fin 4) (t : Tariff) : StandbyEntry :=
  { cell := cell, outlet := outlet, hold := o.hold.toNat, tariff := t, priority := priority, reference := o.reference,
    link := linkOf o.link, progressDue := true }

/-- A LINK whose fields are in range (R144, R145). -/
def takeLink (cell : CellIndex) (o : LinkOrder) (outlet : Outlet) (slot : TariffSlot) (s : State) : Taken :=
  if 1000000 < o.hold.toNat || badLink cell o.link
      || (s.context outlet).any (fun c => decide (o.link.toNat = c.cell.val)) then refuse .badField s
  else
    match s.context outlet with
    | none => refuse .noPredecessor s
    | some c =>
      if c.link ≠ some cell then refuse .noPredecessor s
      else
        match Table.get s.sessions.tariffs slot with
        | none => refuse .refusedTariff s
        | some t =>
          if 16 ≤ s.standby.length then refuse .refusedFull s
          else
            { outcome := .ok, wait := .cellCopy,
              state := examineDrained outlet { s with standby := s.standby ++ [linkEntry cell o outlet c.priority t] } }

/-! ### STOP, AMEND, SYNC (R30, R35, R36, R45) -/

/-- A STOP (R30). -/
def takeStop (o : Outlet) (s : State) : Taken :=
  match s.context o with
  | none => refuse .noSession s
  | some c =>
    match c.phase with
    | .armed _ =>
      { outcome := .cancelled, wait := .nothing,
        state := releaseUnused c.link (queueEndWord c.cell .cancelled (vacate o s)) }
    | .closing .. => refuse .alreadyClosing s
    | .settling .. => refuse .alreadyClosing s
    | _ => accept (closeSession o .stopped s)

/-- The priority of a session and of its outlet's standby entry replaced; a pass is requested when it differs (R36, R147). -/
def amendPriority (o : Outlet) (p : Fin 4) (s : State) : State :=
  let changed := (s.context o).any fun c => decide (c.priority ≠ p)
  let s := mapContext o (fun c => { c with priority := p }) s
  let s := { s with standby := s.standby.map fun e => if e.outlet = o then { e with priority := p } else e }
  if changed then requestPass s else s

/-- A hold replaced: the overdraw and the ceiling are computed anew; a DRAINED session with a ceiling above 0 returns to
ACTIVE, and an ACTIVE one with a ceiling of 0 is taken on (R36, R137). -/
def amendHold (o : Outlet) (hold : Nat) (s : State) : State :=
  let s := recompute o (mapContext o (fun c => { c with hold := hold, overdraw := c.chargedTotal - hold }) s)
  if s.phaseIs o (· = .drained) && decide (0 < s.ceiling o) then
    deliverActive o true (mapContext o (fun c => { c with phase := .active, drainedMinutes := 0 }) s)
  else takeOn o s

/-- Whether an AMEND carries a hold. -/
def amendsHold (a : AmendOrder) : Bool := a.present.getLsbD 0
/-- Whether an AMEND carries a priority. -/
def amendsPriority (a : AmendOrder) : Bool := a.present.getLsbD 1

/-- Whether an AMEND's fields are out of range (R35). -/
def badAmend (a : AmendOrder) : Bool :=
  (!amendsHold a && !amendsPriority a) || (amendsHold a && decide (1000000 < a.hold.toNat))
    || (amendsPriority a && decide (3 < a.priority.toNat))

/-- An AMEND (R35, R36): the priority first, then the hold. -/
def takeAmend (a : AmendOrder) (o : Outlet) (s : State) : Taken :=
  if badAmend a then refuse .badField s
  else
    match s.context o with
    | none => refuse .noSession s
    | some c =>
      if amendsHold a && decide (a.hold.toNat < c.chargedTotal) then refuse .belowSpent s
      else
        let s := if amendsPriority a then amendPriority o (Fin.ofNat 4 a.priority.toNat) s else s
        accept (if amendsHold a then amendHold o a.hold.toNat s else s)

/-- A SYNC (R45). -/
def takeSync (o : Outlet) (s : State) : Taken :=
  if (s.context o).isNone then refuse .noSession s
  else
    { outcome := .ok, wait := .progressCopy o,
      state := mapContext o (fun c => { c with progressDue := true, progressWaiter := true }) s }

/-! ### AUDIT, RESUME (R158, R163, R164) -/

/-- An AUDIT: SET 1, CLEAR 2 (R158). -/
def takeAudit (o : Outlet) (action : Byte) (s : State) : Taken :=
  let set (b : Bool) : State :=
    { s with sessions := { s.sessions with auditFlags := Table.set s.sessions.auditFlags o b } }
  match action.toNat with
  | 1 => accept (set true)
  | 2 => accept (set false)
  | _ => refuse .badField s

/-- A RESUME's effect on an audit-held session: the pending amounts, the ceiling and its effect, and the hold retaken where
the flag is still set (R163, R164). -/
def resumeSession (o : Outlet) (s : State) : State :=
  auditIfFlagged o (examineDrained o (takeOn o (recompute o (mapContext o Context.applyPending s))))

/-- A RESUME (R163). -/
def takeResume (o : Outlet) (s : State) : Taken :=
  match s.context o with
  | none => refuse .noSession s
  | some c => if c.auditHeld then accept (resumeSession o s) else refuse .notHeld s

/-! ### TARIFF, BAND (R123, R126, R127) -/

/-- A tariff slot replaced (R122). -/
def setTariff (i : TariffSlot) (t : Option Tariff) (s : State) : State :=
  { s with sessions := { s.sessions with tariffs := Table.set s.sessions.tariffs i t } }

/-- A TARIFF: LOAD 1 waits for the record, UNLOAD 2 makes the slot EMPTY (R123). -/
def takeTariff (i : TariffSlot) (action : Byte) (s : State) : Taken :=
  match action.toNat with
  | 1 => { outcome := .ok, wait := .tariffRecord i, state := s }
  | 2 => accept (setTariff i none s)
  | _ => refuse .badField s

/-- The outlets in the order of a sweep: those it names first, as it names them, then the rest (log 14). -/
def sweepOrder (w : Sweep) : List Outlet :=
  Config.outlets.insertionSort fun a b => w.idxOf a < w.idxOf b ∨ (w.idxOf a = w.idxOf b ∧ a.val ≤ b.val)

/-- A BAND (R126, R127; log 15): the band and the epoch, every ceiling with its pass, each outlet's start and ceiling effect,
then the lines; last, the sessions it has started may enter IDLE (R29). -/
def takeBand (w : Sweep) (band : Byte) (s : State) : Taken :=
  match asFin 4 band with
  | none => refuse .badField s
  | some b =>
    let before := s
    let s := { s with sessions := { s.sessions with band := b, epoch := s.sessions.epoch + 1 } }
    let s := forEach (sweepOrder w) (fun o s => evaluateStart o (takeOn o s)) (recomputeAll s)
    accept (forEach (sweepOrder w) (endStart before) (forEach Config.lines bandEdge s))

/-! ### SITE, OUTLET, MODULE (R67, R68, R70, R72) -/

/-- A SITE (R70). -/
def takeSite (limit : Nat) (s : State) : Taken :=
  if 1600 < limit then refuse .badField s
  else
    let power := 40 * s.assignedCount
    let s := { s with power := { s.power with siteLimit := limit } }
    accept (pass (if limit < power then give (.siteOver limit power) s else s))

/-- An OUTLET (R72). -/
def takeOutlet (o : Outlet) (maximum : Nat) (s : State) : Taken :=
  if 10 < maximum then refuse .badField s
  else
    accept (immediatePass (requestPass
      { s with power := { s.power with maximums := Table.set s.power.maximums o maximum } }))

/-- A RETURN of a module (R67). -/
def returnModule (m : ModuleNo) (s : State) : Taken :=
  match s.module m with
  | .out _ => accept (requestPass (setModule m .free s))
  | _ => refuse .notOut s

/-- A RETIRE of a module, by the state it finds (R68). -/
def retireModule (m : ModuleNo) (s : State) : State :=
  match s.module m with
  | .free => moduleOut m .retired s
  | .granted o => requestPass (setModule m (.releasing o s.releaseDeadline true) s)
  | .releasing o d _ => setModule m (.releasing o d true) s
  | .out _ => setModule m (.out .retired) s

/-- A MODULE: RETURN 1, RETIRE 2 (R67, R68). -/
def takeModule (m : ModuleNo) (action : Byte) (s : State) : Taken :=
  match action.toNat with
  | 1 => returnModule m s
  | 2 => accept (retireModule m s)
  | _ => refuse .badField s

/-! ### PARK, CLOCK, SURVEY, LINE (R186, R188, R189, R178, R96) -/

/-- Whether every setting is within its range and the poll period is a multiple of 50 (10.6, R188). -/
def parkInRange (p : ParkOrder) : Bool :=
  decide (250 ≤ p.pollPeriod.toNat ∧ p.pollPeriod.toNat ≤ 2000 ∧ p.pollPeriod.toNat % 50 = 0) &&
    decide (1 ≤ p.horizon.toNat ∧ p.horizon.toNat ≤ 30) && decide (1 ≤ p.drainedLimit.toNat ∧ p.drainedLimit.toNat ≤ 120) &&
    decide (1 ≤ p.heldLimit.toNat ∧ p.heldLimit.toNat ≤ 60) && decide (p.checkpoint.toNat ≤ 15)

/-- The settings a PARK order carries (R188). -/
def parkSettings (p : ParkOrder) : ParkSettings :=
  { pollPeriod := p.pollPeriod.toNat, horizon := p.horizon.toNat, reserve := p.reserve.toNat,
    drainedLimit := p.drainedLimit.toNat, heldLimit := p.heldLimit.toNat, checkpoint := p.checkpoint.toNat }

/-- The checkpoint count after a PARK order: 0 where the interval is at or below it (R46). -/
def checkpointAfter (count interval : Nat) : Nat := if interval ≤ count then 0 else count

/-- A PARK (R188, R189; log 15). -/
def takePark (w : Sweep) (p : ParkOrder) (s : State) : Taken :=
  if !parkInRange p then refuse .badField s
  else
    let old := s.control.settings
    let new := parkSettings p
    let s := { s with control := { s.control with settings := new },
                      sessions := { s.sessions with
                        checkpointCount := checkpointAfter s.sessions.checkpointCount new.checkpoint } }
    accept
      (if old.horizon = new.horizon && old.reserve == new.reserve then s
       else forEach (sweepOrder w) takeOn (recomputeAll s))

/-- A CLOCK (R186). -/
def takeClock (v : Word) (s : State) : Taken :=
  accept { s with control := { s.control with seconds := v, secondDue := s.now + seconds 1 } }

/-! ### Validation and the hand-on (R15, R16) -/

/-- An order whose outlet is in range is given to its block, or answered BAD_FIELD (R15). -/
def withOutlet (b : Byte) (s : State) (f : Outlet → Taken) : Taken :=
  match asFin 32 b with
  | some o => f o
  | none => refuse .badField s

/-- The same for a tariff slot. -/
def withSlot (b : Byte) (s : State) (f : TariffSlot → Taken) : Taken :=
  match asFin 16 b with
  | some i => f i
  | none => refuse .badField s

/-- An order read from a POSTED cell: range checks, then the block it acts on (R15, R16). -/
def handOn (cell : CellIndex) (w : Sweep) (order : Order) (s : State) : Taken :=
  match order with
  | .openSession o => withOutlet o.outlet s fun out => withSlot o.slot s fun i => takeOpen cell o out i s
  | .link o => withOutlet o.outlet s fun out => withSlot o.slot s fun i => takeLink cell o out i s
  | .stop b => withOutlet b s fun o => takeStop o s
  | .amend a => withOutlet a.outlet s fun o => takeAmend a o s
  | .sync b => withOutlet b s fun o => takeSync o s
  | .audit b a => withOutlet b s fun o => takeAudit o a s
  | .resume b => withOutlet b s fun o => takeResume o s
  | .tariff b a => withSlot b s fun i => takeTariff i a s
  | .band b => takeBand w b s
  | .site l => takeSite l.toNat s
  | .outlet b m => withOutlet b s fun o => takeOutlet o m.toNat s
  | .module b a =>
    match asFin 40 b with
    | some m => takeModule m a s
    | none => refuse .badField s
  | .park p => takePark w p s
  | .clock v => takeClock v s
  | .survey => { outcome := .ok, wait := .survey, state := s }
  | .line b =>
    match asFin 16 b with
    | some k => accept (reline k s)
    | none => refuse .badField s

/-- What a cell that may be taken gives: an unknown kind is BAD_KIND (R15). -/
def takeOrder (cell : CellIndex) (w : Sweep) (part : OrderPart) (s : State) : Taken :=
  match part.order with
  | some o => handOn cell w o s
  | none => refuse .badKind s

/-- The cell whose order part the port is reading for the Order Unit (R14). -/
def State.readingCell (s : State) : Option CellIndex :=
  match s.port.busy, s.orders.unit with
  | some { job := .order (.readOrder c), .. }, .reading c' => if c = c' then some c else none
  | _, _ => none

/-- The cell in hand is judged by what has been read of it (R8, R14 to R16): refused STALE_POST, or taken, and TAKEN is
requested. -/
def readCell (cell : CellIndex) (w : Sweep) (part : OrderPart) (s : State) : State :=
  if !part.posted || s.cellLive cell then setUnit .idle (refusePost .stalePost (byteOf cell.val) s)
  else
    let k := takeOrder cell w part s
    requestOrder (.writeTaken cell) (setUnit (.waiting cell part k.outcome false k.wait) k.state)

/-- The event that completes the read of the cell in hand; without such a read there is no event (log 1, log 8). -/
def receiveOrder (t : Time) (w : Sweep) (part : OrderPart) (s : State) : Outcome :=
  match s.readingCell with
  | some cell => finish (readCell cell w part (freePort (atTime t s)))
  | none => .next s

/-! ### Meanings -/

/-- ORDER_TAKE (R14). -/
def execOrderTake (s : State) : Outcome :=
  match s.orders.unit, s.control.partState, s.orders.withdrawList, s.orders.postQueue with
  | .idle, .running, [], c :: rest =>
    finish (requestOrder (.readOrder c)
      { s with orders := { s.orders with postQueue := rest, unit := .reading c } })
  | _, _, _, _ => .next s

/-- ORDER_READ_DONE (R14 to R16). -/
def execOrderReadDone (t : Time) (w : Sweep) (part : Vector Byte 32) (s : State) : Outcome :=
  receiveOrder t w (decodeOrderPart part) s

/-- OPEN (R26 to R29). -/
def execOpen (t : Time) (o : OpenOrder) (s : State) : Outcome := receiveOrder t [] (postedPart (.openSession o)) s

/-- LINK (R144, R145). -/
def execLink (t : Time) (o : LinkOrder) (s : State) : Outcome := receiveOrder t [] (postedPart (.link o)) s

/-- STOP (R30). -/
def execStop (t : Time) (b : Byte) (s : State) : Outcome := receiveOrder t [] (postedPart (.stop b)) s

/-- AMEND (R35, R36). -/
def execAmend (t : Time) (a : AmendOrder) (s : State) : Outcome := receiveOrder t [] (postedPart (.amend a)) s

/-- SYNC (R45). -/
def execSync (t : Time) (b : Byte) (s : State) : Outcome := receiveOrder t [] (postedPart (.sync b)) s

/-- AUDIT with SET (R158). -/
def execAuditSet (t : Time) (b : Byte) (s : State) : Outcome := receiveOrder t [] (postedPart (.audit b 1)) s

/-- AUDIT with CLEAR (R158). -/
def execAuditClear (t : Time) (b : Byte) (s : State) : Outcome := receiveOrder t [] (postedPart (.audit b 2)) s

/-- RESUME (R163, R164). -/
def execResume (t : Time) (b : Byte) (s : State) : Outcome := receiveOrder t [] (postedPart (.resume b)) s

/-- TARIFF with LOAD (R123). -/
def execTariffLoad (t : Time) (b : Byte) (s : State) : Outcome := receiveOrder t [] (postedPart (.tariff b 1)) s

/-- TARIFF with UNLOAD (R123). -/
def execTariffUnload (t : Time) (b : Byte) (s : State) : Outcome := receiveOrder t [] (postedPart (.tariff b 2)) s

/-- BAND (R126, R127). -/
def execBand (t : Time) (w : Sweep) (b : Byte) (s : State) : Outcome := receiveOrder t w (postedPart (.band b)) s

/-- SITE (R70). -/
def execSite (t : Time) (l : Word) (s : State) : Outcome := receiveOrder t [] (postedPart (.site l)) s

/-- OUTLET (R72). -/
def execOutlet (t : Time) (b m : Byte) (s : State) : Outcome := receiveOrder t [] (postedPart (.outlet b m)) s

/-- MODULE with RETURN (R67). -/
def execModuleReturn (t : Time) (b : Byte) (s : State) : Outcome := receiveOrder t [] (postedPart (.module b 1)) s

/-- MODULE with RETIRE (R68). -/
def execModuleRetire (t : Time) (b : Byte) (s : State) : Outcome := receiveOrder t [] (postedPart (.module b 2)) s

/-- PARK (R188, R189). -/
def execPark (t : Time) (w : Sweep) (p : ParkOrder) (s : State) : Outcome := receiveOrder t w (postedPart (.park p)) s

/-- CLOCK (R186). -/
def execClock (t : Time) (v : Word) (s : State) : Outcome := receiveOrder t [] (postedPart (.clock v)) s

/-- SURVEY (R178). -/
def execSurvey (t : Time) (s : State) : Outcome := receiveOrder t [] (postedPart .survey) s

/-- LINE (R96). -/
def execLine (t : Time) (b : Byte) (s : State) : Outcome := receiveOrder t [] (postedPart (.line b)) s

end Sys2Proof.Machine
end

