-- ==== Sys2Proof/WellFormed.lean ====
section
/-! DEFINITION. Which commands are the command their row names: an operand that contradicts the row is ill formed. -/

namespace Sys2Proof

/-- A transfer has at most 32 bus words (R167: 4 to 128 bytes, words of 4). -/
def WellFormed.words (n : Nat) : Bool := n ≤ 32

/-- A CONTROL write with any code but RUN 1, HALT 2, SOFT_RESET 3 is ignored (R3, 12.3). -/
def WellFormed.ignored : IgnoredWrite → Bool
  | .status _ => true
  | .control v => !([1#8, 2#8, 3#8].contains (v.setWidth 8))

/-- Whether a command's operands fit its row. -/
def Instr.wellFormed : Instr → Bool
  | .powerOnReset _ n => WellFormed.words n
  | .softReset _ n => WellFormed.words n
  | .busError n => WellFormed.words n
  | .registerWriteIgnored w => WellFormed.ignored w
  | .orderReadDone _ w _ => decide w.Nodup
  | .band _ w _ => decide w.Nodup
  | .park _ w _ => decide w.Nodup
  | .replyFrame _ _ f => f[0] == 0xA3#8
  | .alertFrame _ _ f => f[0] == 0xE6#8
  | .run _ | .halt _ | .post _ | .withdraw _ | .noticeWrite _ | .noticeMaskWrite _ | .areaBaseWrite _
  | .faultAddressWrite _ | .orderTake | .openSession .. | .link .. | .stop .. | .amend .. | .sync .. | .auditSet ..
  | .auditClear .. | .resume .. | .tariffLoad .. | .tariffUnload .. | .site .. | .outlet .. | .moduleReturn ..
  | .moduleRetire .. | .clock .. | .survey _ | .line .. | .takenWriteDone | .answerWriteDone | .withdrawStart
  | .withdrawnWriteDone | .tariffReadDone _ | .progressWriteDone | .standingCopyDone | .receiptWriteDone
  | .givenUpReceiptDone | .endWordDone | .journalSlotReadDone _ | .journalEntryWriteDone | .journalHeaderWriteDone
  | .surveyPartDone | .transferStart | .pollDue _ | .pollSent _ | .replyWindowEnd _ | .frameBroken .. | .replyService _
  | .alertService _ | .pass _ | .releaseDeadline | .startGuardExpiry | .minuteEvent _ | .parkSecondTick | .haltComplete
  | .frameStart .. => true

end Sys2Proof
end

