-- ==== Sys2Proof/Machine/Registers.lean ====
section
/-! DEFINITION. Resets, CONTROL writes and the other writes of the register window (R3, R5, R6, R9, R10, R20, R21, R180 to
R185). -/

namespace Sys2Proof.Machine

/-! ### Resets (R185) -/

/-- The transfer under way at a reset: a write stops after the words it has made, a read's data is discarded (R169;
log 12). -/
def cutTransfer (words : Nat) (s : State) : State :=
  match s.port.busy with
  | some t => if t.job.isWrite then writeBytes t (t.data.take (4 * words)) s else s
  | none => s

/-- Every block at its reset values, but for what a soft reset keeps; the clock, the commands waiting and park memory are not
blocks of the part (R185; log 32). -/
def resetBlocks (s : State) : State :=
  { State.reset with
    pending := s.pending, now := s.now, mem := s.mem,
    control := { Control.reset with secondDue := s.now + seconds 1 } }

/-- What a soft reset keeps: FAULT_ADDRESS with its mark and the five fault counters of every line (R6, R95, R185). -/
def keepFaults (old s : State) : State :=
  { s with
    control := { s.control with faultAddress := old.control.faultAddress, faultLatched := old.control.faultLatched },
    lines := old.lines.map fun l => { Line.reset with counters := l.counters } }

/-- POWER_ON_RESET (R185). -/
def execPowerOnReset (t : Time) (words : Nat) (s : State) : Outcome :=
  .next (resetBlocks (cutTransfer words (atTime t s)))

/-- SOFT_RESET (R185). -/
def execSoftReset (t : Time) (words : Nat) (s : State) : Outcome :=
  .next (keepFaults s (resetBlocks (cutTransfer words (atTime t s))))

/-! ### CONTROL (R180 to R182) -/

/-- The part state replaced. -/
def setPartState (p : PartState) (s : State) : State := { s with control := { s.control with partState := p } }

/-- The first due time of a line after RUN: k sixteenths of the poll period, in whole milliseconds (R79). -/
def firstDue (k : LineNo) (period : Nat) : Time := ms (k.val * period / 16)

/-- Every line leaves SILENT for WAITING with its first due time (R79). Line 0, due at once, is left for POLL_DUE to send: the
model's choice (log 42, DESIGN CHOICE). -/
def startLines (s : State) : State :=
  forEach Config.lines
    (fun k => mapLine k fun l =>
      { l with state := .waiting, due := some (s.now + firstDue k s.control.settings.pollPeriod) }) s

/-- The start guard of 3000 ms and the 60 s minute timer start (R62, R187). -/
def startTimers (s : State) : State :=
  { s with control := { s.control with minuteDue := some (s.now + seconds 60) },
           power := { s.power with startGuard := some (s.now + ms 3000) } }

/-- The part enters RUNNING: the part-running input is set and a pass is requested (R74, R180, R181). -/
def enterRunning (s : State) : State := requestPass (setPartRunning true (setPartState .running s))

/-- A RUN write, by the part state (R181). -/
def runWrite (s : State) : State :=
  match s.control.partState with
  | .stopped => startTimers (startLines (enterRunning s))
  | .running => s
  | .halting => enterRunning s
  | .halted => enterRunning s

/-- RUN (R181). -/
def execRun (t : Time) (s : State) : Outcome := finish (runWrite (atTime t s))

/-- The progress-due mark set in every live context (R182). -/
def markProgress (s : State) : State :=
  forEach Config.outlets (fun o => mapContext o fun c => { c with progressDue := true }) s

/-- A HALT write, by the part state: in RUNNING it begins a halt (R181, R182, R73). -/
def haltWrite (s : State) : State :=
  match s.control.partState with
  | .running => markProgress (pass (setPartRunning false (setPartState .halting s)))
  | _ => s

/-- HALT (R181, R182). -/
def execHalt (t : Time) (s : State) : Outcome := finish (haltWrite (atTime t s))

/-- REGISTER_WRITE_IGNORED: a write to STATUS, or to CONTROL with a code that is none of RUN 1, HALT 2 and SOFT_RESET 3
(R3). A CONTROL write with one of these codes is another row's command: it is refused here (log 33). -/
def execRegisterWriteIgnored (w : IgnoredWrite) (s : State) : Outcome :=
  if WellFormed.ignored w then .next s else .refused (.illFormed "REGISTER_WRITE_IGNORED")

/-! ### POST (R9, R10, R12) -/

/-- The Post Queue and the withdraw list replaced. -/
def setQueues (post withdraw : List CellIndex) (s : State) : State :=
  { s with orders := { s.orders with postQueue := post, withdrawList := withdraw } }

/-- A POST write with the withdraw mark clear: the first case that applies (R9). -/
def postIndex (b : Byte) (s : State) : State :=
  if s.control.partState = .stopped then refusePost .notRunning b s
  else
    match asFin 128 b with
    | none => refusePost .badIndex b s
    | some c =>
      if s.orders.postQueue.contains c || s.orders.withdrawList.contains c then refusePost .duplicate b s
      else if 32 ≤ s.orders.postQueue.length + s.orders.withdrawList.length then refusePost .full b s
      else setQueues (s.orders.postQueue ++ [c]) s.orders.withdrawList s

/-- POST (R9). -/
def execPost (b : Byte) (s : State) : Outcome := .next (postIndex b s)

/-- A POST write with the withdraw mark set (R10). -/
def withdrawIndex (b : Byte) (s : State) : State :=
  if s.control.partState = .stopped then refusePost .notRunning b s
  else
    match asFin 128 b with
    | none => refusePost .badIndex b s
    | some c =>
      if s.orders.postQueue.contains c then
        setQueues (s.orders.postQueue.filter (· ≠ c)) (s.orders.withdrawList ++ [c]) s
      else refusePost .withdrawLate b s

/-- WITHDRAW (R10). -/
def execWithdraw (b : Byte) (s : State) : Outcome := .next (withdrawIndex b s)

/-! ### The other registers (R5, R6, R20, R21) -/

/-- NOTICE_WRITE: each flag written with a 1 is cleared (R20, 12.3). -/
def execNoticeWrite (v : Word) (s : State) : Outcome :=
  .next { s with control := { s.control with notice := s.control.notice &&& ~~~(v.setWidth 8) } }

/-- NOTICE_MASK_WRITE: the eight mask bits (R21, 12.3). -/
def execNoticeMaskWrite (v : Word) (s : State) : Outcome :=
  .next { s with control := { s.control with noticeMask := v.setWidth 8 } }

/-- AREA_BASE_WRITE: taken in STOPPED and HALTED, its low 15 bits discarded (R5). -/
def execAreaBaseWrite (v : Word) (s : State) : Outcome :=
  match s.control.partState with
  | .stopped => .next { s with control := { s.control with areaBase := v &&& 0xFFFF8000 } }
  | .halted => .next { s with control := { s.control with areaBase := v &&& 0xFFFF8000 } }
  | _ => .next s

/-- FAULT_ADDRESS_WRITE: a write of any value clears the address and its mark (R6). -/
def execFaultAddressWrite (_v : Word) (s : State) : Outcome :=
  .next { s with control := { s.control with faultAddress := 0, faultLatched := false } }

end Sys2Proof.Machine
end

