-- ==== Sys2Proof/Machine/Transfers.lean ====
section
/-! DEFINITION. The completion of each transfer, and bus errors (R10, R16, R17, R44 to R49, R123, R124, R146, R152, R170,
R173 to R175, R178, R179). -/

namespace Sys2Proof.Machine

/-! ### The Order Unit's transfers -/

/-- The TAKEN write has been made, with or without a bus error: the tariff record or the survey is then requested (R16,
R17, R123, R178). -/
def takenWritten (s : State) : State :=
  match s.orders.unit with
  | .waiting c part outcome _ wait =>
    let s := setUnit (.waiting c part outcome true wait) s
    match wait with
    | .tariffRecord i => requestOrder (.readTariff i) s
    | .survey => requestSurvey 0 s
    | _ => s
  | _ => s

/-- TAKEN_WRITE_DONE (R16). -/
def execTakenWriteDone (s : State) : Outcome :=
  match s.port.busy with
  | none => .next s
  | some t =>
    match t.job with
    | .order (.writeTaken _) => finish (takenWritten (completeTransfer t s))
    | _ => .next s

/-- ANSWER_WRITE_DONE: ORDER is raised and the unit is IDLE (R16, R19). -/
def execAnswerWriteDone (s : State) : Outcome :=
  match s.port.busy with
  | none => .next s
  | some t =>
    match t.job with
    | .order (.writeAnswer ..) => finish (raise .order (setUnit .idle (completeTransfer t s)))
    | _ => .next s

/-- WITHDRAW_START: the IDLE unit requests the WITHDRAWN write of the oldest listed cell (R14), whatever the cell holds (R10). That
this goes too for a cell which a reset has left LIVE, which R190 leaves unwritten, is the model's choice (log 45, DESIGN CHOICE). -/
def execWithdrawStart (s : State) : Outcome :=
  match s.orders.unit, s.orders.withdrawList with
  | .idle, c :: _ =>
    if s.control.partState = .stopped then .next s
    else finish (requestOrder (.writeWithdrawn c) (setUnit (.withdrawing c) s))
  | _, _ => .next s

/-- An index leaves the withdraw list and the unit is IDLE (R10, R14). -/
def withdrawEnded (c : CellIndex) (s : State) : State :=
  setUnit .idle (setQueues s.orders.postQueue (s.orders.withdrawList.filter (· ≠ c)) s)

/-- WITHDRAWN_WRITE_DONE (R10). -/
def execWithdrawnWriteDone (s : State) : Outcome :=
  match s.port.busy with
  | none => .next s
  | some t =>
    match t.job with
    | .order (.writeWithdrawn c) => finish (raise .order (withdrawEnded c (completeTransfer t s)))
    | _ => .next s

/-- The order in hand is answered with an outcome once its TAKEN write is done (R16, R124, R179). -/
def endWaitWith (r : OrderOutcome) (s : State) : State :=
  match s.orders.unit with
  | .waiting c part _ taken _ => setUnit (.waiting c part r taken .nothing) s
  | _ => s

/-- The record of a tariff slot: LOADED, or left as it was and BAD_FIELD (R124). -/
def takeRecord (i : TariffSlot) (record : Vector Byte 32) (s : State) : State :=
  match decodeTariff record with
  | some t => endWaitWith .ok (setTariff i (some t) s)
  | none => endWaitWith .badField s

/-- TARIFF_READ_DONE (R124). -/
def execTariffReadDone (record : Vector Byte 32) (s : State) : Outcome :=
  match s.port.busy with
  | none => .next s
  | some t =>
    match t.job with
    | .order (.readTariff i) => finish (takeRecord i record (completeTransfer t s))
    | _ => .next s

/-! ### The settlement writer's transfers -/

/-- The LINK that waits for a copy of its cell is released (R146). -/
def endCopyWait (s : State) : State := if s.linkWaits.isSome then endWait s else s

/-- A progress write has ended, with or without a bus error: the waits it was made for are released (R44 to R46, R146). -/
def progressEnded (o : Outlet) (forContext forLink : Bool) (s : State) : State :=
  let s := if forContext then endProgressWait o (mapContext o (fun c => { c with progressWaiter := false }) s) else s
  if forLink then endCopyWait s else s

/-- PROGRESS_WRITE_DONE (R44, R45). -/
def execProgressWriteDone (s : State) : Outcome :=
  match s.port.busy with
  | none => .next s
  | some t =>
    match t.job with
    | .settle (.progress o c l) => finish (progressEnded o c l (completeTransfer t s))
    | _ => .next s

/-- A STANDING write has ended (R146). -/
def standingEnded (forLink : Bool) (s : State) : State := if forLink then endCopyWait s else s

/-- STANDING_COPY_DONE (R146). -/
def execStandingCopyDone (s : State) : Outcome :=
  match s.port.busy with
  | none => .next s
  | some t =>
    match t.job with
    | .settle (.standing _ l) => finish (standingEnded l (completeTransfer t s))
    | _ => .next s

/-- The receipt of a SETTLING session is written: VACANT, its end word queued, its standing entry released (R47, R157). -/
def settleSession (o : Outlet) (s : State) : State :=
  match s.context o with
  | none => s
  | some c =>
    if c.phase.isSettling then releaseUnused c.link (queueEndWord c.cell .settled (vacate o s)) else s

/-- RECEIPT_WRITE_DONE (R47). -/
def execReceiptWriteDone (s : State) : Outcome :=
  match s.port.busy with
  | none => .next s
  | some t =>
    match t.job with
    | .settle (.receipt o) => finish (settleSession o (completeTransfer t s))
    | _ => .next s

/-- A given-up receipt is written: it leaves the context, its end word is queued, and a DRAINED session is examined
(R152). -/
def givenUpWritten (o : Outlet) (s : State) : State :=
  match (s.context o).bind Context.givenUp with
  | none => s
  | some g => examineDrained o (queueEndWord g.cell .settled (mapContext o (fun c => { c with givenUp := none }) s))

/-- GIVEN_UP_RECEIPT_DONE (R152). -/
def execGivenUpReceiptDone (s : State) : Outcome :=
  match s.port.busy with
  | none => .next s
  | some t =>
    match t.job with
    | .settle (.givenUp o) => finish (givenUpWritten o (completeTransfer t s))
    | _ => .next s

/-- An entry leaves the end-word queue (R49). -/
def endWordEnded (w : EndWord) (s : State) : State :=
  { s with sessions := { s.sessions with endWords := s.sessions.endWords.erase w } }

/-- The notice of an end word: RECEIPT for SETTLED, ORDER for CANCELLED and UNUSED (R49). -/
def EndWord.notice (w : EndWord) : Notice := if w.outcome = .settled then .receipt else .order

/-- END_WORD_DONE (R49). -/
def execEndWordDone (s : State) : Outcome :=
  match s.port.busy with
  | none => .next s
  | some t =>
    match t.job with
    | .settle (.endWord w) => finish (raise w.notice (endWordEnded w (completeTransfer t s)))
    | _ => .next s

/-! ### The Journal Writer's transfers (R173 to R175) -/

/-- The Journal Writer's state replaced. -/
def setJournal (f : Journal → Journal) (s : State) : State := { s with journal := f s.journal }

/-- The header write is requested with the values that stand now (R174). -/
def requestHeader (forBusFault : Bool) (s : State) : State :=
  requestJournal (.writeHeader s.journal.nextSeq s.journal.nextSlot s.journal.gap)
    (setJournal (fun j => { j with writer := .heading forBusFault }) s)

/-- Whether the entry in hand is a BUS_FAULT entry (R175). -/
def State.busFaultInHand (s : State) : Bool :=
  match s.journal.queue with
  | { kind := .busFault .., .. } :: _ => true
  | _ => false

/-- The head entry is dropped and counted in the gap, and the header is written (R174, R175). -/
def dropHead (s : State) : State :=
  let forBusFault := s.busFaultInHand
  requestHeader forBusFault
    (setJournal (fun j => { j with queue := j.queue.tail, gap := satAdd max32 j.gap 1 }) s)

/-- The next slot's ownership word has been read: EMPTY gives the write of the entry, else the entry is dropped (R173,
R174). -/
def takeSlotWord (w : Word) (s : State) : State :=
  if slotEmpty w then
    requestJournal .writeEntry
      (setJournal (fun j => { j with writer := .writing j.nextSeq j.gap }) s)
  else dropHead s

/-- JOURNAL_SLOT_READ_DONE (R173, R174, R176). -/
def execJournalSlotReadDone (w : Word) (s : State) : Outcome :=
  match s.port.busy with
  | none => .next s
  | some t =>
    match t.job with
    | .journal .readSlot => finish (takeSlotWord w (completeTransfer t s))
    | _ => .next s

/-- The gap the entry in hand carries (R173). -/
def State.carriedGap (s : State) : Nat :=
  match s.journal.writer with
  | .writing _ carried => carried
  | _ => 0

/-- The head entry has been written (R173). -/
def entryWritten (s : State) : State :=
  let carried := s.carriedGap
  let forBusFault := s.busFaultInHand
  let s := setJournal (fun j =>
    { j with queue := j.queue.tail, gap := j.gap - carried, nextSeq := j.nextSeq + 1, nextSlot := j.nextSlot + 1 }) s
  let s := raise .journal s
  requestHeader forBusFault (if 0 < carried then raise .gap s else s)

/-- JOURNAL_ENTRY_WRITE_DONE (R173). -/
def execJournalEntryWriteDone (s : State) : Outcome :=
  match s.port.busy with
  | none => .next s
  | some t =>
    match t.job with
    | .journal .writeEntry => finish (entryWritten (completeTransfer t s))
    | _ => .next s

/-- The header write has ended, with or without a bus error: the writer is IDLE, and goes on where its queue is not empty
(R174, R175). -/
def headerEnded (s : State) : State := setJournal (fun j => { j with writer := .idle }) s

/-- JOURNAL_HEADER_WRITE_DONE (R174). -/
def execJournalHeaderWriteDone (s : State) : Outcome :=
  match s.port.busy with
  | none => .next s
  | some t =>
    match t.job with
    | .journal (.writeHeader ..) => finish (headerEnded (completeTransfer t s))
    | _ => .next s

/-! ### The survey (R178, R179) -/

/-- A part of the survey is written: the next is requested, or the survey is complete (R178). -/
def surveyWritten (p : SurveyPart) (s : State) : State :=
  if p = 6 then endWaitWith .ok s else requestSurvey (p + 1) s

/-- SURVEY_PART_DONE (R178). -/
def execSurveyPartDone (s : State) : Outcome :=
  match s.port.busy with
  | none => .next s
  | some t =>
    match t.job with
    | .survey p => finish (surveyWritten p (completeTransfer t s))
    | _ => .next s

/-! ### Bus errors (R170) -/

/-- FAULT_ADDRESS is latched where its mark is clear (R6). -/
def latchFault (a : Word) (s : State) : State :=
  if s.control.faultLatched then s
  else { s with control := { s.control with faultAddress := a, faultLatched := true } }

/-- Whether a transfer was made by the Journal Writer for a BUS_FAULT entry, so that its bus error gives none (R170,
R175). -/
def State.forBusFault (s : State) : Job → Bool
  | .journal (.writeHeader ..) =>
    (match s.journal.writer with
     | .heading b => b
     | _ => false)
  | .journal _ => s.busFaultInHand
  | _ => false

/-- The BUS_FAULT entry of a transfer. -/
def Transfer.faultEntry (t : Transfer) : EntryKind := .busFault t.job.requester t.job.isWrite t.offset t.address

/-- A receipt write has failed: UNSAVED is set (R48). A retry-due mark that a minute event has set since the write was requested
stays, so that the receipt is written again at once: the model's choice between two sentences of R48 (log 41, DESIGN CHOICE). -/
def receiptFailed (o : Outlet) (s : State) : State := mapContext o (fun c => { c with unsaved := true }) s

/-- The write of a given-up receipt has failed (R152). Its retry-due mark stays as for a settling receipt (log 41, DESIGN
CHOICE). -/
def givenUpFailed (o : Outlet) (s : State) : State :=
  mapContext o
    (fun c => { c with givenUp := c.givenUp.map fun g => { g with receipt := { g.receipt with unsaved := true } } }) s

/-- What the requester does with a bus error (R170's table). -/
def fallback : Job → State → State
  | .settle (.endWord w), s => endWordEnded w s
  | .settle (.progress o c l), s => progressEnded o c l s
  | .settle (.standing _ l), s => standingEnded l s
  | .settle (.receipt o), s => receiptFailed o s
  | .settle (.givenUp o), s => givenUpFailed o s
  | .order (.readOrder _), s => setUnit .idle s
  | .order (.writeTaken _), s => takenWritten s
  | .order (.writeAnswer ..), s => setUnit .idle s
  | .order (.writeWithdrawn c), s => withdrawEnded c s
  | .order (.readTariff _), s => endWaitWith .busFault s
  | .journal (.writeHeader ..), s => headerEnded s
  | .journal _, s => dropHead s
  | .survey _, s => endWaitWith .busFault s

/-- The bytes of a transfer that a bus error at the word after `words` leaves written: at least its last word is not made
(R170; log 12). -/
def Transfer.madeBytes (t : Transfer) (words : Nat) : List Byte :=
  if t.job.isWrite then t.data.take (4 * min words (t.length / 4 - 1)) else []

/-- A transfer ends with a bus error: the latch, the notice, the entry, the fallback, in this order (R170). -/
def busError (t : Transfer) (words : Nat) (s : State) : State :=
  let s := raise .busFault (latchFault t.address (freePort (writeBytes t (t.madeBytes words) s)))
  fallback t.job (if s.forBusFault t.job then s else give t.faultEntry s)

/-- BUS_ERROR (R170). -/
def execBusError (words : Nat) (s : State) : Outcome :=
  match s.port.busy with
  | none => .next s
  | some t => finish (busError t words s)

/-- TRANSFER_START: an IDLE port starts one of the requests waiting (R168). It is made in the event that makes the request
or frees the port, so it finds nothing to do after one of those (log 9). -/
def execTransferStart (s : State) : Outcome := finish s

end Sys2Proof.Machine
end

