-- ==== Sys2Proof/Machine/Timers.lean ====
section
/-! DEFINITION. The Apportioner's own events, the clocks, and the completion of a halt (R55, R62, R65, R183, R186, R187). -/

namespace Sys2Proof.Machine

/-! ### The Apportioner -/

/-- PASS: made while the pass request mark is set (R55). -/
def execPass (t : Time) (s : State) : Outcome :=
  let s := atTime t s
  finish (if s.power.passRequest then pass s else s)

/-- The release deadline of a module. -/
def Module.deadline? : Module → Option Time
  | .releasing _ d _ => some d
  | _ => none

/-- The earliest release deadline (R65; log 22). -/
def State.nextDeadline (s : State) : Option Time := (Config.modules.filterMap fun m => (s.module m).deadline?).min?

/-- The modules whose deadline is this, lowest-numbered first (R65). -/
def State.dueModules (s : State) (d : Time) : List ModuleNo :=
  Config.modules.filter fun m => (s.module m).deadline? == some d

/-- Modules go OUT with reason NO_ACK, and the sessions that waited on them may settle (R65, R41). -/
def expireModules (ms : List ModuleNo) (s : State) : State :=
  forEach Config.outlets checkSettle (forEach ms (moduleOut · .noAck) s)

/-- RELEASE_DEADLINE (R65). -/
def execReleaseDeadline (s : State) : Outcome :=
  match s.nextDeadline with
  | some d => finish (expireModules (s.dueModules d) (atTime d s))
  | none => .next s

/-- START_GUARD_EXPIRY: the guard ends and a pass is requested (R62). -/
def execStartGuardExpiry (s : State) : Outcome :=
  match s.power.startGuard with
  | some g =>
    finish (requestPass (let s := atTime g s; { s with power := { s.power with startGuard := none } }))
  | none => .next s

/-! ### The minute event (R187) -/

/-- An idle minute, or a pending one while audit-held (R132, R133, R161). -/
def idleMinuteEvent (o : Outlet) (c : Context) (s : State) : State :=
  if c.auditHeld then setContext o (some { c with pendingIdle := satAdd 65535 c.pendingIdle 1 }) s
  else
    let s := setContext o (some c.idleMinute) s
    if 0 < c.idleCharged then recompute o s else s

/-- A drained minute and its limit (R140). -/
def drainedMinuteEvent (o : Outlet) (c : Context) (s : State) : State :=
  let s := setContext o (some { c with drainedMinutes := c.drainedMinutes + 1 }) s
  if s.control.settings.drainedLimit ≤ c.drainedMinutes + 1 then closeSession o .purse s else s

/-- A held minute and its limit (R120). -/
def heldMinuteEvent (o : Outlet) (c : Context) (s : State) : State :=
  let s := setContext o (some { c with heldMinutes := c.heldMinutes + 1 }) s
  if s.control.settings.heldLimit ≤ c.heldMinutes + 1 then closeSession o .fault s else s

/-- A closing minute, where the outlet has no GRANTED or RELEASING module, and the check (R41). -/
def closingMinuteEvent (o : Outlet) (c : Context) (s : State) : State :=
  let s :=
    if s.heldCount o = 0 then setContext o (some { c with closingMinutes := satAdd 2 c.closingMinutes 1 }) s else s
  checkSettle o s

/-- Receipts whose write has failed are due again (R48, R152), one whose retry is requested or under way as well: the model's
choice (log 41, DESIGN CHOICE). -/
def retryMarks (o : Outlet) (s : State) : State :=
  mapContext o
    (fun c =>
      { c with
        retryDue := c.retryDue || (c.phase.isSettling && c.unsaved),
        givenUp := c.givenUp.map fun g => { g with retryDue := g.retryDue || g.receipt.unsaved } }) s

/-- The minute's effect on one outlet's session, by the state it is in when the event comes (R187; log 18). -/
def minuteOf (o : Outlet) (s : State) : State :=
  let s := retryMarks o s
  match s.context o with
  | none => s
  | some c =>
    match c.phase with
    | .closing .. => closingMinuteEvent o c s
    | .idle => if s.control.partState = .running then idleMinuteEvent o c s else s
    | .drained => if s.control.partState = .running then drainedMinuteEvent o c s else s
    | .held .. => if s.control.partState = .running then heldMinuteEvent o c s else s
    | _ => s

/-- The checkpoint count and, at the interval, the progress-due marks (R46). -/
def checkpoint (s : State) : State :=
  let interval := s.control.settings.checkpoint
  if interval = 0 then s
  else
    let n := s.sessions.checkpointCount + 1
    let s := { s with sessions := { s.sessions with checkpointCount := if interval ≤ n then 0 else n } }
    if interval ≤ n then
      forEach Config.outlets
        (fun o => mapContext o fun c => if c.phase.running then { c with progressDue := true } else c) s
    else s

/-- The effects of a minute event (R187). Whether a session that the event closes is checkpointed before is an operand
(log 17). -/
def minuteEffects (checkpointLast : Bool) (s : State) : State :=
  if checkpointLast then checkpoint (forEach Config.outlets minuteOf s)
  else forEach Config.outlets minuteOf (checkpoint s)

/-- The minute timer starts again (R187). -/
def restartMinute (due : Time) (s : State) : State :=
  { s with control := { s.control with minuteDue := some (due + seconds 60) } }

/-- MINUTE_EVENT (R187). -/
def execMinuteEvent (checkpointLast : Bool) (s : State) : Outcome :=
  match s.control.minuteDue with
  | some d => finish (minuteEffects checkpointLast (restartMinute d (atTime d s)))
  | none => .next s

/-! ### Park seconds and the halt -/

/-- PARK_SECOND_TICK (R186). -/
def execParkSecondTick (s : State) : Outcome :=
  let s := atTime s.control.secondDue s
  finish
    { s with control := { s.control with
        seconds := s.control.seconds + 1, secondDue := s.control.secondDue + seconds 1 } }

/-- HALT_COMPLETE: in HALTING with the three conditions holding the part is HALTED (R183). It is judged in every event, so it
finds nothing to do after one of those (log 9). -/
def execHaltComplete (s : State) : Outcome := .next (completeHalt s)

end Sys2Proof.Machine
end

