-- ==== Sys2Proof/Machine/Dispatch.lean ====
section
/-! DEFINITION. Each command to its meaning. -/

namespace Sys2Proof.Machine

open Sys2Proof

def exec (i : Instr) (s : State) : Host.Outcome State Fault Refusal :=
  match i with
  | .powerOnReset t n => Sys2Proof.Machine.execPowerOnReset t n s
  | .softReset t n => Sys2Proof.Machine.execSoftReset t n s
  | .run t => Sys2Proof.Machine.execRun t s
  | .halt t => Sys2Proof.Machine.execHalt t s
  | .registerWriteIgnored w => Sys2Proof.Machine.execRegisterWriteIgnored w s
  | .post b => Sys2Proof.Machine.execPost b s
  | .withdraw b => Sys2Proof.Machine.execWithdraw b s
  | .noticeWrite v => Sys2Proof.Machine.execNoticeWrite v s
  | .noticeMaskWrite v => Sys2Proof.Machine.execNoticeMaskWrite v s
  | .areaBaseWrite v => Sys2Proof.Machine.execAreaBaseWrite v s
  | .faultAddressWrite v => Sys2Proof.Machine.execFaultAddressWrite v s
  | .orderTake => Sys2Proof.Machine.execOrderTake s
  | .orderReadDone t w b => Sys2Proof.Machine.execOrderReadDone t w b s
  | .openSession t o => Sys2Proof.Machine.execOpen t o s
  | .link t o => Sys2Proof.Machine.execLink t o s
  | .stop t o => Sys2Proof.Machine.execStop t o s
  | .amend t o => Sys2Proof.Machine.execAmend t o s
  | .sync t o => Sys2Proof.Machine.execSync t o s
  | .auditSet t o => Sys2Proof.Machine.execAuditSet t o s
  | .auditClear t o => Sys2Proof.Machine.execAuditClear t o s
  | .resume t o => Sys2Proof.Machine.execResume t o s
  | .tariffLoad t x => Sys2Proof.Machine.execTariffLoad t x s
  | .tariffUnload t x => Sys2Proof.Machine.execTariffUnload t x s
  | .band t w b => Sys2Proof.Machine.execBand t w b s
  | .site t l => Sys2Proof.Machine.execSite t l s
  | .outlet t o m => Sys2Proof.Machine.execOutlet t o m s
  | .moduleReturn t m => Sys2Proof.Machine.execModuleReturn t m s
  | .moduleRetire t m => Sys2Proof.Machine.execModuleRetire t m s
  | .park t w o => Sys2Proof.Machine.execPark t w o s
  | .clock t v => Sys2Proof.Machine.execClock t v s
  | .survey t => Sys2Proof.Machine.execSurvey t s
  | .line t k => Sys2Proof.Machine.execLine t k s
  | .takenWriteDone => Sys2Proof.Machine.execTakenWriteDone s
  | .answerWriteDone => Sys2Proof.Machine.execAnswerWriteDone s
  | .withdrawStart => Sys2Proof.Machine.execWithdrawStart s
  | .withdrawnWriteDone => Sys2Proof.Machine.execWithdrawnWriteDone s
  | .tariffReadDone r => Sys2Proof.Machine.execTariffReadDone r s
  | .progressWriteDone => Sys2Proof.Machine.execProgressWriteDone s
  | .standingCopyDone => Sys2Proof.Machine.execStandingCopyDone s
  | .receiptWriteDone => Sys2Proof.Machine.execReceiptWriteDone s
  | .givenUpReceiptDone => Sys2Proof.Machine.execGivenUpReceiptDone s
  | .endWordDone => Sys2Proof.Machine.execEndWordDone s
  | .journalSlotReadDone w => Sys2Proof.Machine.execJournalSlotReadDone w s
  | .journalEntryWriteDone => Sys2Proof.Machine.execJournalEntryWriteDone s
  | .journalHeaderWriteDone => Sys2Proof.Machine.execJournalHeaderWriteDone s
  | .surveyPartDone => Sys2Proof.Machine.execSurveyPartDone s
  | .busError n => Sys2Proof.Machine.execBusError n s
  | .transferStart => Sys2Proof.Machine.execTransferStart s
  | .pollDue k => Sys2Proof.Machine.execPollDue k s
  | .pollSent k => Sys2Proof.Machine.execPollSent k s
  | .replyWindowEnd k => Sys2Proof.Machine.execReplyWindowEnd k s
  | .replyFrame t k f => Sys2Proof.Machine.execReplyFrame t k f s
  | .alertFrame t k f => Sys2Proof.Machine.execAlertFrame t k f s
  | .frameBroken t k => Sys2Proof.Machine.execFrameBroken t k s
  | .replyService t => Sys2Proof.Machine.execReplyService t s
  | .alertService t => Sys2Proof.Machine.execAlertService t s
  | .pass t => Sys2Proof.Machine.execPass t s
  | .releaseDeadline => Sys2Proof.Machine.execReleaseDeadline s
  | .startGuardExpiry => Sys2Proof.Machine.execStartGuardExpiry s
  | .minuteEvent c => Sys2Proof.Machine.execMinuteEvent c s
  | .parkSecondTick => Sys2Proof.Machine.execParkSecondTick s
  | .haltComplete => Sys2Proof.Machine.execHaltComplete s
  | .frameStart t k b => Sys2Proof.Machine.execFrameStart t k b s

end Sys2Proof.Machine
end

