-- ==== Sys2Proof/Safety.lean ====
section
/-! DEFINITION. What every state of a run keeps, in the terms the statements use. -/

namespace Sys2Proof.Machine

/-- Park memory as the part writes it is in its canonical form, which is the model's representation (log 3, DESIGN CHOICE). -/
def MemoryCanonical (s : State) : Prop := s.mem.wf = true

/-- The low 15 bits of AREA_BASE are 0 (R5). -/
def AreaBaseAligned (s : State) : Prop := s.control.areaBase &&& 0x7FFF = 0

/-- The Post Queue and the withdraw list hold at most 32 indices together, none twice (R13). -/
def QueuesSound (s : State) : Prop :=
  s.orders.postQueue.length + s.orders.withdrawList.length ≤ 32 ∧ (s.orders.postQueue ++ s.orders.withdrawList).Nodup

/-- The entry queue holds up to 8 entries (R171). -/
def JournalBounded (s : State) : Prop := s.journal.queue.length ≤ 8

/-- No outlet's grant is above its want (R56). -/
def GrantsWithinWants (s : State) : Prop := ∀ o, s.grant o ≤ s.want o

/-- The part-running, session, ceiling and baseline inputs are what their owners hold (R52); the demand input is in DemandsAgree, the
other two in LinesAgree. -/
def InputsAgree (s : State) : Prop :=
  (s.power.partRunning = true ↔ s.control.partState = .running) ∧
  ∀ o : Outlet,
    ((s.inputs o).active = true ↔ ∃ c, s.context o = some c ∧ c.phase = .active) ∧
    (s.inputs o).ceiling = s.ceiling o ∧
    ((s.inputs o).baselineValid = true ↔ (s.record o).lastTime.isSome = true)

/-- The line-stale and pedestal-blocked inputs and the outlet reports agree with the line and the block mark (R23, R52). -/
def LinesAgree (s : State) : Prop :=
  ∀ k : LineNo, ∀ o ∈ outletsOf k,
    (s.inputs o).lineStale = (s.line k).stale ∧ (s.report o).lineStale = (s.line k).stale ∧
    (s.inputs o).blocked = s.blockMark k

/-- The demand input of each outlet is the last demand delivered for it, which its report holds (R23, R52). -/
def DemandsAgree (s : State) : Prop := ∀ o : Outlet, (s.inputs o).demand = (s.report o).demand

/-- A context's charged total is the sum of its three parts and passes the hold by no more than the recorded overdraw; in
ARMED nothing is charged (R128), and there is no audit hold (R159, R163). -/
def Context.moneySound (c : Context) : Prop :=
  c.chargedTotal = c.startFeeCharged + c.energyCharge + c.idleCharge ∧ c.chargedTotal ≤ c.hold + c.overdraw ∧
  (∀ start, c.phase = .armed start → c.chargedTotal = 0 ∧ c.auditHeld = false)

/-- The money of every session is sound (R128). -/
def MoneySound (s : State) : Prop := ∀ o c, s.context o = some c → c.moneySound

/-- A GRANTED or RELEASING module is assigned to an outlet of its own cabinet (R50). -/
def ModulesSound (s : State) : Prop := ∀ m o, (s.module m).outlet? = some o → cabinetOf o = cabinetOfModule m

/-- The settlement writer leaves no work: with no transfer of its own requested or under way, no end word that may be written, no
copy and no receipt is due (R43, R146, R152, R153). -/
def SettlementServed (s : State) : Prop :=
  s.port.settleReq = none → (∀ t k, s.port.busy = some t → t.job ≠ .settle k) →
    s.nextEndWord = none ∧ s.nextProgress = none ∧ s.nextStanding = none ∧ s.nextReceipt = none

/-- An IDLE Journal Writer has an empty entry queue (R172). -/
def JournalServed (s : State) : Prop := s.journal.writer = .idle → s.journal.queue = []

/-- What a block of statements calls a kept property: every step that goes on keeps it. -/
def KeptByStep (P : State → Prop) : Prop := ∀ s s', P s → step s = .next s' → P s'

/-! ### What an event leaves, but for the work of the Memory Port -/

/-- A context without the settlement writer's marks. -/
def Context.body (c : Context) : Context :=
  { c with progressDue := false, retryDue := false, givenUp := c.givenUp.map fun g => { g with retryDue := false } }

/-- A state without what the requesters and the port move between themselves: the port, the unit state of the Order Unit,
the state of the Journal Writer, and the settlement writer's marks. -/
def State.body (s : State) : State :=
  { s with
    port := Port.reset, orders := { s.orders with unit := .idle }, journal := { s.journal with writer := .idle },
    sessions := { s.sessions with contexts := s.sessions.contexts.map (Option.map Context.body) },
    standby := s.standby.map fun e => { e with progressDue := false } }

/-- A state that enters HALTED (R183). -/
def halted (s : State) : State := give .halted (raise .halted (setPartState .halted s))

/-- How an event that brings the state to `r` ends: the body of `r` stands, or, in HALTING, the halt is complete with it. -/
def Ends (r u : State) : Prop :=
  u.body = r.body ∨ (r.control.partState = .halting ∧ u.body = (halted r).body)

/-- The port is reading the order part of the cell in hand, and the cell is not a live session's or a standby entry's. -/
def Receives (s : State) (cell : CellIndex) : Prop := s.readingCell = some cell ∧ s.cellLive cell = false

/-- A transfer of this job is under way. -/
def UnderWay (s : State) (t : Transfer) (j : Job) : Prop := s.port.busy = some t ∧ t.job = j

/-- An order's event leaves the body of `r`, with the Order Unit WAITING for its TAKEN write (R16). -/
def TakenAs (cell : CellIndex) (o : Order) (outcome : OrderOutcome) (wait : Wait) (r u : State) : Prop :=
  u.body = r.body ∧ u.orders.unit = .waiting cell (postedPart o) outcome false wait

/-- The Memory Port has a job under way or waiting. -/
def Asks (u : State) (j : Job) : Prop :=
  (∃ t, u.port.busy = some t ∧ t.job = j) ∨
  (match j with
   | .settle k => u.port.settleReq = some k
   | .order k => u.port.orderReq = some k
   | .journal k => u.port.journalReq = some k
   | .survey p => u.port.surveyReq = some p)

/-- A progress copy of the outlet's session is due, or asked for; where `waiter` is set, one that releases the context's
progress waiter (R44, R45). -/
def CopyComes (u : State) (o : Outlet) (waiter : Bool) : Prop :=
  (∃ c, u.context o = some c ∧ c.progressDue = true ∧ (waiter = true → c.progressWaiter = true)) ∨
  ∃ forContext forLink, (waiter = true → forContext = true) ∧ Asks u (.settle (.progress o forContext forLink))

/-- The STANDING copy of an entry is due, or one of its outlet is asked for (R146). -/
def StandingComes (u : State) (cell : CellIndex) (o : Outlet) : Prop :=
  (∃ e ∈ u.standby, e.cell = cell ∧ e.progressDue = true) ∨ ∃ forLink, Asks u (.settle (.standing o forLink))

/-- The ownership word of an answer: LIVE for an accepted OPEN or LINK, else DONE (R16). -/
def answerWord (part : OrderPart) (outcome : OrderOutcome) : Ownership :=
  match part.order, outcome with
  | some (.openSession _), .ok => .live
  | some (.link _), .ok => .live
  | _, _ => .done

/-- The order in hand is being answered with an outcome (R16). -/
def Answers (u : State) (cell : CellIndex) (part : OrderPart) (outcome : OrderOutcome) : Prop :=
  u.orders.unit = .answering cell outcome (answerWord part outcome) ∧
  Asks u (.order (.writeAnswer cell outcome (answerWord part outcome)))

/-- The order in hand waits no longer for what it waited for (R16): it is answered where its TAKEN write is done, else it waits
for that write alone. -/
def Released (u : State) (cell : CellIndex) (part : OrderPart) (outcome : OrderOutcome) (taken : Bool) : Prop :=
  (taken = true → Answers u cell part outcome) ∧
  (taken = false → u.orders.unit = .waiting cell part outcome false .nothing)

/-! ### What an event leaves of one outlet's session -/

/-- The outlet's session is `c`, but for the settlement writer's marks. -/
def Stands (u : State) (o : Outlet) (c : Context) : Prop := (u.context o).map Context.body = some c.body

/-- An entry has joined the queue of the Journal Writer, or the queue is full (R172). -/
def Journaled (k : EntryKind) (s u : State) : Prop :=
  { kind := k, seconds := s.control.seconds } ∈ u.journal.queue ∨ 8 ≤ u.journal.queue.length

/-- Nothing has changed but the outlet's context, report, ceiling and meter record, and what its doing brings at the
Apportioner, at the Standby Table, in the journal queue, at the start serial counter and in the notices. -/
def OnlyAt (o : Outlet) (s u : State) : Prop :=
  u =
    { s with
      control := { s.control with notice := u.control.notice },
      sessions := { s.sessions with
        contexts := u.sessions.contexts, reports := u.sessions.reports, ceilings := u.sessions.ceilings,
        startSerial := u.sessions.startSerial },
      standby := u.standby,
      power := { s.power with
        modules := u.power.modules, inputs := u.power.inputs, passRequest := u.power.passRequest },
      meters := { s.meters with records := u.meters.records },
      journal := { s.journal with queue := u.journal.queue, gap := u.journal.gap } } ∧
  ∀ o', o' ≠ o → u.context o' = s.context o' ∧ u.report o' = s.report o' ∧ u.ceiling o' = s.ceiling o' ∧
    u.inputs o' = s.inputs o' ∧ u.record o' = { s.record o' with peak := (u.record o').peak }

/-- The session has no entry to hand over to: a given-up receipt of it is unwritten, or its link names no standing entry
(R138, R148). -/
def NoSuccessor (s : State) (c : Context) : Prop := c.givenUp ≠ none ∨ ∀ l, c.link = some l → s.entryOf l = none

/-- No other live session names the standing entry that this one would take over (log 39 says what happens where one does). -/
def SoleHeir (s : State) (o : Outlet) (c : Context) : Prop :=
  c.auditHeld = false → c.givenUp = none → ∀ l, c.link = some l → s.entryOf l ≠ none →
    ∀ o' c', o' ≠ o → s.context o' = some c' → c'.link ≠ some l

/-- The session `c` has been handed over to the entry `e` (R149 to R151): the given-up receipt holds the old hold as `c` has
it, the entry has left the table, the ceiling is that of the new hold, and the session is in the phase `p`, or DRAINED with a
ceiling of 0. `held` says whether an audit hold is then taken on the new hold (R159, R164). -/
def HandedOverTo (p : Phase) (s : State) (o : Outlet) (c : Context) (e : StandbyEntry) (held : Bool) (u : State) : Prop :=
  Stands u o
    { c with
      cell := e.cell, hold := e.hold, tariff := e.tariff, reference := e.reference, link := e.link,
      phase := if u.ceiling o = 0 then .drained else p, startFeeCharged := 0, energyCharge := 0, idleCharge := 0,
      chargedTotal := 0, overdraw := 0, energy := Vector.replicate 4 0, rejected := 0, overdrawn := false,
      idleCapped := false, drainedMinutes := 0, idleMinutes := 0, auditHeld := held,
      givenUp := some
        { cell := c.cell,
          receipt :=
            { reason := .handover, outlet := o, idleCapped := c.idleCapped, meterRebased := c.meterRebased,
              finalUnconfirmed := false, overdrawn := c.overdrawn, unsaved := false, rejected := c.rejected,
              serial := (c.started.map Started.serial).getD 0, startTime := (c.started.map Started.time).getD 0,
              closeTime := s.control.seconds, reference := c.reference, hold := c.hold, startFee := c.startFeeCharged,
              energyCharge := c.energyCharge, idleCharge := c.idleCharge, total := c.chargedTotal,
              overdraw := c.overdraw, energy := c.energy },
          retryDue := false } } ∧
  u.ceiling o =
    ({ c with hold := e.hold, tariff := e.tariff, chargedTotal := 0 } : Context).purseCeiling u.control.settings
      u.sessions.band ∧
  u.entryOf e.cell = none ∧ CopyComes u o false ∧ Journaled (.handover o c.cell e.cell c.chargedTotal) s u

/-- A handover that leaves the session ACTIVE, or DRAINED with a ceiling of 0 (R150, R151). -/
def HandedOver (s : State) (o : Outlet) (c : Context) (e : StandbyEntry) (held : Bool) (u : State) : Prop :=
  HandedOverTo .active s o c e held u

/-- The ACTIVE session `c` has gone on with a ceiling of `n` (R137 to R139, R148): as it is while the ceiling is above 0 or the
session audit-held, else DRAINED, or handed over where its link names a standing entry. `held` says whether an audit hold is
then taken (R159, R164). -/
def GoesOn (s : State) (o : Outlet) (c : Context) (n : Nat) (held : Bool) (u : State) : Prop :=
  (0 < n ∨ c.auditHeld = true → Stands u o { c with auditHeld := c.auditHeld || held } ∧ u.ceiling o = n) ∧
  (n = 0 → c.auditHeld = false → NoSuccessor s c →
    Stands u o { c with phase := .drained, drainedMinutes := 0, auditHeld := held } ∧ u.ceiling o = 0 ∧
    Journaled (.drained o c.cell c.hold c.chargedTotal) s u) ∧
  ∀ l e, n = 0 → c.auditHeld = false → c.givenUp = none → c.link = some l → s.entryOf l = some e →
    HandedOver s o c e held u

/-- The held session `c` has recovered into its resume state (R119, R33, R137, R148). -/
def Recovered (s : State) (o : Outlet) (c : Context) (r : ResumeState) (reason : HeldReason) (donePending : Bool)
    (u : State) : Prop :=
  Journaled (.recovered o reason r c.heldMinutes) s u ∧
  (r = .active → GoesOn s o { c with phase := .active } (s.ceiling o) false u) ∧
  (r = .idle → Stands u o { c with phase := .idle } ∧ (donePending = true → Journaled (.vehicleDone o) s u)) ∧
  (r = .drained →
    (c.auditHeld = true ∨ NoSuccessor s c → Stands u o { c with phase := .drained }) ∧
    ∀ l e, c.auditHeld = false → c.givenUp = none → c.link = some l → s.entryOf l = some e →
      HandedOver s o c e false u)

/-- The audit hold is on the outlet's session, with its notice, its entry and its copy to come (R159, R164). -/
def AuditTaken (s : State) (o : Outlet) (u : State) : Prop :=
  u.noticed .audit = true ∧ CopyComes u o false ∧
  ∃ c, u.context o = some c ∧ c.auditHeld = true ∧ Journaled (.auditHold o c.cell c.hold c.chargedTotal) s u

/-- The session `c` as a start leaves it in ACTIVE (R29). -/
def Context.begun (c : Context) (serial time : Word) : Context :=
  { c with
    started := some { serial := serial, time := time }, phase := .active,
    startFeeCharged := min c.tariff.startFee.toNat c.hold,
    chargedTotal := c.chargedTotal + min c.tariff.startFee.toNat c.hold }

/-- The context as the entry to CLOSING leaves it: closing minutes 0, the final-reading mark clear (R37). -/
def Context.closing (c : Context) (reason : EndReason) (time : Word) : Context :=
  { c with phase := .closing reason time, closingMinutes := 0, finalReading := false }

/-- The context after the check for SETTLING with `held` modules GRANTED or RELEASING to its outlet (R41, R42): it enters
SETTLING from CLOSING with none of them and a final reading, a STALE line or two closing minutes, FINAL_UNCONFIRMED without a
final reading (log 36), and the pending amounts of an audit-held session applied. -/
def Context.judged (c : Context) (held : Nat) (stale : Bool) : Context :=
  match c.phase with
  | .closing reason time =>
    if held = 0 ∧ (c.finalReading = true ∨ stale = true ∨ 2 ≤ c.closingMinutes) then
      { if c.auditHeld then c.applyPending else c with
        phase := .settling reason time, finalUnconfirmed := c.finalUnconfirmed || !c.finalReading }
    else c
  | _ => c

/-- A start that has made `d` of a session, in ACTIVE with a ceiling of `n`, and the end of its event (R29, R138, R148): with a
ceiling above 0, or audit-held, the session is ACTIVE, or IDLE with the complete flag set; else it is DRAINED, or handed over
where its link names a standing entry, and IDLE after that if the new hold leaves it ACTIVE and the flag is set. -/
def Begins (s : State) (o : Outlet) (d : Context) (n : Nat) (complete : Bool) (u : State) : Prop :=
  let p : Phase := if complete then .idle else .active
  (0 < n ∨ d.auditHeld = true →
    Stands u o { d with phase := p } ∧ u.ceiling o = n ∧ (complete = true → Journaled (.vehicleDone o) s u)) ∧
  (n = 0 → d.auditHeld = false → NoSuccessor s d →
    Stands u o { d with phase := .drained, drainedMinutes := 0 } ∧ u.ceiling o = 0 ∧
    Journaled (.drained o d.cell d.hold d.chargedTotal) s u) ∧
  ∀ l e, n = 0 → d.auditHeld = false → d.givenUp = none → d.link = some l → s.entryOf l = some e →
    HandedOverTo p s o d e false u ∧ (complete = true → u.ceiling o ≠ 0 → Journaled (.vehicleDone o) s u)

/-! ### Bytes in park memory -/

/-- The value `v` stands in the `n` bytes from offset `off` on, least significant byte first (R191). -/
def HasField (bytes : List Byte) (off n v : Nat) : Prop :=
  ∀ i, i < n → bytes[off + i]? = some (BitVec.ofNat 8 (v / 256 ^ i))

/-- A flag as a bit of a field. -/
def bit (b : Bool) (i : Nat) : Nat := if b then 2 ^ i else 0

/-- The command that completes a write (9.1). -/
def completionOf : Job → Instr
  | .settle (.endWord _) => .endWordDone
  | .settle (.progress ..) => .progressWriteDone
  | .settle (.standing ..) => .standingCopyDone
  | .settle (.receipt _) => .receiptWriteDone
  | .settle (.givenUp _) => .givenUpReceiptDone
  | .order (.writeAnswer ..) => .answerWriteDone
  | .order (.writeWithdrawn _) => .withdrawnWriteDone
  | .order _ => .takenWriteDone
  | .journal (.writeHeader ..) => .journalHeaderWriteDone
  | .journal _ => .journalEntryWriteDone
  | .survey _ => .surveyPartDone

/-- A line after a failed exchange: the poll is missed, the record removed, the line WAITING (R87, R88). -/
def Line.failed (l : Line) : Line :=
  { l with missed := min 255 (l.missed + 1), state := .waiting, outstanding := none }

/-- The line `l` as the line `k` of the state, once what is due of its poll is done (R80 to R83): WAITING, with no frame being
received and its poll due or its band edge marked, it sends the poll with an empty reply slot and withholds it with a full
one. That the band-edge mark of a line which was WAITING all along acts here too, as its frame ends, is the model's reading (log
20, DEDUCED). -/
def Line.seenTo (l : Line) (k : LineNo) (s : State) : Line :=
  if l.state = .waiting ∧ l.receiving = none ∧ (l.bandEdge = true ∨ ∃ d ∈ l.due, d ≤ s.now) then
    if l.replySlot = none then
      { l with
        state := .sending false, bandEdge := false, seq := l.seq + 1,
        due := some (s.now + 1000 * s.control.settings.pollPeriod),
        outstanding := some
          { seq := l.seq, mask0 := s.mask (outletA k), mask1 := s.mask (outletB k), band := s.sessions.band,
            sendTime := s.now } }
    else { l with state := .withheld }
  else l

/-- A line replaced. -/
def setLine (k : LineNo) (l : Line) (s : State) : State := { s with lines := Table.set s.lines k l }

end Sys2Proof.Machine
end

