-- ==== Sys2Proof/Certificates/Slice0/Obligations.lean ====
section
/-! DEFINITION. The statements for the provers. A statement holds of every state, in or out of a run, unless it names an
invariant of Safety.lean as a premise. `Ends r u` gives the whole state after an event but for the Memory Port's own work:
every field that the record `r` does not change is unchanged. -/

open Sys2Proof Sys2Proof.Machine

/-! ### Steps and resets -/

/-- A step runs the command at the front of the queue on the state with the queue's rest; with no command the part idles
(the model's queue, log 7). -/
def Obligations.StepRunsFrontCommand : Prop :=
  (∀ (c : Instr) (rest : List Instr) (s : State), s.pending = c :: rest → step s = exec c { s with pending := rest }) ∧
  ∀ s : State, s.pending = [] → step s = .next s

/-- The values of every block at reset (R4 to R6, R12, R13, R20 to R24, R46, R49, R51, R95, R98, R101, R122, R126, R136,
R143, R158, R169, R171, R180, R186 to R188). The empty command queue and the empty park memory are the model's (log 7,
log 3). -/
def Obligations.ResetValues : Prop :=
  (∀ r : Register, State.reset.readRegister r = 0) ∧ State.reset.interruptLine = false ∧
  State.reset.control.partState = .stopped ∧ State.reset.control.noticeMask = 0 ∧ State.reset.control.seconds = 0 ∧
  State.reset.control.minuteDue = none ∧
  State.reset.control.settings =
    { pollPeriod := 500, horizon := 4, reserve := 50, drainedLimit := 10, heldLimit := 5, checkpoint := 1 } ∧
  State.reset.orders =
    { postQueue := [], withdrawList := [], lastRefusal := { reason := .none, index := 0 }, unit := .idle } ∧
  (∀ o : Outlet, State.reset.context o = none ∧
    State.reset.report o = { plug := .unknown, complete := false, demand := 0, lineStale := true } ∧
    State.reset.ceiling o = 0 ∧ Table.get State.reset.sessions.auditFlags o = false) ∧
  (∀ i : TariffSlot, Table.get State.reset.sessions.tariffs i = none) ∧ State.reset.sessions.band = 0 ∧
  State.reset.sessions.epoch = 0 ∧ State.reset.sessions.startSerial = 0 ∧ State.reset.sessions.checkpointCount = 0 ∧
  State.reset.sessions.endWords = [] ∧ State.reset.standby = [] ∧
  (∀ m : ModuleNo, State.reset.module m = .free) ∧ State.reset.power.siteLimit = 0 ∧
  (∀ o : Outlet, Table.get State.reset.power.maximums o = 4 ∧
    State.reset.inputs o =
      { active := false, demand := 0, ceiling := 0, lineStale := true, baselineValid := false, blocked := false }) ∧
  State.reset.power.partRunning = false ∧ State.reset.power.passRequest = false ∧
  State.reset.power.startGuard = none ∧
  (∀ k : LineNo, State.reset.blockMark k = false ∧
    State.reset.line k =
      { state := .silent, seq := 0, due := none, bandEdge := false, outstanding := none, receiving := none,
        replySlot := none, alertSlot := none, overrunMark := false, missed := 0, stale := true,
        counters := { silentFault := 0, broken := 0, crcFault := 0, seqFault := 0, overrun := 0 } }) ∧
  (∀ o : Outlet, State.reset.record o = { baseline := 0, lastTime := none, peak := 0, rejects := 0, unclaimed := 0 }) ∧
  State.reset.meters.pointer = 15 ∧
  State.reset.port = { busy := none, settleReq := none, orderReq := none, journalReq := none, surveyReq := none } ∧
  State.reset.journal = { nextSlot := 0, nextSeq := 0, gap := 0, queue := [], writer := .idle } ∧
  State.reset.mem = [] ∧ State.reset.pending = []

/-- Both resets bring every block to the values of State.reset; a write under way stops after the words it has made, and
nothing else is written (R169, R185). Soft reset keeps FAULT_ADDRESS with its mark and the fault counters of the lines. That
the clock, the waiting commands and the rest of park memory are kept is the model's (log 12, log 32). -/
def Obligations.ResetsRestoreEveryBlock : Prop :=
  ∀ (t : Time) (words : Nat) (s : State),
    let now := max s.now t
    let mem :=
      match s.port.busy with
      | some tr => if tr.job.isWrite then s.mem.write tr.address.toNat (tr.data.take (4 * words)) else s.mem
      | none => s.mem
    let cleared : State :=
      { State.reset with
        pending := s.pending, now := now, mem := mem,
        control := { State.reset.control with secondDue := now + 1000000 } }
    exec (.powerOnReset t words) s = .next cleared ∧
    exec (.softReset t words) s = .next
      { cleared with
        control := { cleared.control with
          faultAddress := s.control.faultAddress, faultLatched := s.control.faultLatched },
        lines := s.lines.map fun l =>
          { state := .silent, seq := 0, due := none, bandEdge := false, outstanding := none, receiving := none,
            replySlot := none, alertSlot := none, overrunMark := false, missed := 0, stale := true,
            counters := l.counters } }

/-! ### CONTROL -/

/-- RUN by the part state (R181, R79, R62, R187, R74): from STOPPED the lines enter WAITING, line k due k sixteenths of the
poll period later in whole milliseconds, the start guard of 3000 ms and the 60 s minute timer start; in RUNNING it is
ignored; from HALTING and HALTED the part runs again and a pass is requested. That line 0, due at once, is still WAITING after
the event is the model's (log 42, DESIGN CHOICE). -/
def Obligations.RunByPartState : Prop :=
  ∀ (t : Time) (s : State),
    let now := max s.now t
    ∃ u, exec (.run t) s = .next u ∧
      (s.control.partState = .stopped →
        Ends
          { s with
            now := now,
            control := { s.control with partState := .running, minuteDue := some (now + 60000000) },
            power := { s.power with partRunning := true, passRequest := true, startGuard := some (now + 3000000) },
            lines := Vector.ofFn fun k : LineNo =>
              { s.line k with
                state := .waiting, due := some (now + 1000 * (k.val * s.control.settings.pollPeriod / 16)) } } u) ∧
      (s.control.partState = .running → Ends { s with now := now } u) ∧
      (s.control.partState = .halting ∨ s.control.partState = .halted →
        Ends
          { s with
            now := now, control := { s.control with partState := .running },
            power := { s.power with partRunning := true, passRequest := true } } u)

/-- HALT in RUNNING (R182, R73): HALTING, the part-running input clear, every GRANTED module RELEASING with a deadline of
five poll periods, a progress copy of every live session to come. In the other part states it is ignored (R181).
HALT_COMPLETE: in HALTING, with no module GRANTED or RELEASING, no progress-due mark and no copy under way, and an idle
Memory Port, the part is HALTED, with its notice and its entry (R183); otherwise nothing changes. That an index in the
withdraw list is a waiting transfer is the model's reading (log 11). -/
def Obligations.HaltAndItsCompletion : Prop :=
  (∀ (t : Time) (s : State),
    let now := max s.now t
    ∃ u, exec (.halt t) s = .next u ∧
      (s.control.partState = .running →
        Ends
          { s with
            now := now, control := { s.control with partState := .halting },
            power :=
              { s.power with
                partRunning := false, passRequest := false,
                modules := s.power.modules.map fun e =>
                  match e with
                  | .granted o => .releasing o (now + 1000 * (5 * s.control.settings.pollPeriod)) false
                  | e => e },
            meters :=
              { s.meters with
                records := Vector.ofFn fun o : Outlet =>
                  { s.record o with peak := max (s.record o).peak (s.heldCount o) } } } u ∧
        ∀ o : Outlet, (u.context o).isSome = true → CopyComes u o false) ∧
      (s.control.partState ≠ .running → Ends { s with now := now } u)) ∧
  ∀ s : State,
    let done := s.control.partState = .halting ∧ (∀ m : ModuleNo, (s.module m).assigned = false) ∧
      (∀ (o : Outlet) (c : Context), s.context o = some c → c.progressDue = false) ∧
      s.port = { busy := none, settleReq := none, orderReq := none, journalReq := none, surveyReq := none } ∧
      s.orders.withdrawList = []
    (done → ∃ u, exec .haltComplete s = .next u ∧ u.control.partState = .halted ∧
      u.control.notice = s.control.notice ||| 0x80#8 ∧
      (s.journal.queue.length < 8 →
        u.journal.queue = s.journal.queue ++ [{ kind := .halted, seconds := s.control.seconds }])) ∧
    (¬done → exec .haltComplete s = .next s)

/-- A write to STATUS, or to CONTROL with a code that is none of RUN 1, HALT 2 and SOFT_RESET 3, changes nothing (R3). A
CONTROL write with one of the three codes is another row's command and is refused under this row's name (log 33). A read of
CONTROL returns 0 (R3), one of STATUS its five fields at their bits (R4, 12.3), one of POST the last-refusal record (R12,
12.3), one of FAULT_ADDRESS the address (R6). -/
def Obligations.OtherWritesIgnored : Prop :=
  (∀ s : State, s.readRegister .control = 0 ∧ s.readRegister .faultAddress = s.control.faultAddress ∧
    (s.readRegister .post).toNat = s.orders.lastRefusal.index.toNat + 65536 *
      (match s.orders.lastRefusal.reason with
       | .none => 0
       | .notRunning => 1
       | .full => 2
       | .duplicate => 3
       | .badIndex => 4
       | .withdrawLate => 5
       | .stalePost => 6) ∧
    (QueuesSound s → s.standby.length ≤ 16 →
      (s.readRegister .status).toNat =
        (match s.control.partState with
         | .stopped => 0
         | .running => 1
         | .halting => 2
         | .halted => 3)
        + 256 * s.orders.postQueue.length + 65536 * (Config.outlets.filter fun o => (s.context o).isSome).length
        + 16777216 * s.standby.length + (if s.control.faultLatched then 2147483648 else 0))) ∧
  ∀ (v : Word) (s : State),
    exec (.registerWriteIgnored (.status v)) s = .next s ∧
    (v.setWidth 8 ≠ 1#8 ∧ v.setWidth 8 ≠ 2#8 ∧ v.setWidth 8 ≠ 3#8 →
      exec (.registerWriteIgnored (.control v)) s = .next s) ∧
    (v.setWidth 8 = 1#8 ∨ v.setWidth 8 = 2#8 ∨ v.setWidth 8 = 3#8 →
      exec (.registerWriteIgnored (.control v)) s = .refused (.illFormed "REGISTER_WRITE_IGNORED"))

/-! ### POST, NOTICE, NOTICE_MASK, AREA_BASE, FAULT_ADDRESS -/

/-- A POST write, by the first case that applies (R9). -/
def Obligations.PostWrite : Prop :=
  ∀ (b : Byte) (s : State),
    let refused (r : RefusalReason) : State :=
      { s with
        control := { s.control with notice := s.control.notice ||| 0x10#8 },
        orders := { s.orders with lastRefusal := { reason := r, index := b } } }
    (s.control.partState = .stopped → exec (.post b) s = .next (refused .notRunning)) ∧
    (s.control.partState ≠ .stopped → 128 ≤ b.toNat → exec (.post b) s = .next (refused .badIndex)) ∧
    ∀ c : CellIndex, b.toNat = c.val → s.control.partState ≠ .stopped →
      (c ∈ s.orders.postQueue ∨ c ∈ s.orders.withdrawList → exec (.post b) s = .next (refused .duplicate)) ∧
      (c ∉ s.orders.postQueue → c ∉ s.orders.withdrawList →
        (32 ≤ s.orders.postQueue.length + s.orders.withdrawList.length → exec (.post b) s = .next (refused .full)) ∧
        (s.orders.postQueue.length + s.orders.withdrawList.length < 32 →
          exec (.post b) s = .next { s with orders := { s.orders with postQueue := s.orders.postQueue ++ [c] } }))

/-- A POST write with the withdraw mark (R10): the index leaves the Post Queue, the rest keeping their order, for the tail of
the withdraw list; else it is refused. -/
def Obligations.WithdrawWrite : Prop :=
  ∀ (b : Byte) (s : State),
    let refused (r : RefusalReason) : State :=
      { s with
        control := { s.control with notice := s.control.notice ||| 0x10#8 },
        orders := { s.orders with lastRefusal := { reason := r, index := b } } }
    (s.control.partState = .stopped → exec (.withdraw b) s = .next (refused .notRunning)) ∧
    (s.control.partState ≠ .stopped → 128 ≤ b.toNat → exec (.withdraw b) s = .next (refused .badIndex)) ∧
    ∀ c : CellIndex, b.toNat = c.val → s.control.partState ≠ .stopped →
      (c ∉ s.orders.postQueue → exec (.withdraw b) s = .next (refused .withdrawLate)) ∧
      (c ∈ s.orders.postQueue →
        exec (.withdraw b) s = .next
          { s with orders := { s.orders with
              postQueue := s.orders.postQueue.filter (· ≠ c), withdrawList := s.orders.withdrawList ++ [c] } })

/-- Notice flags (R20): a cause sets its flag whatever the mask and leaves the rest, a write clears the flags it has a 1 for,
a read returns the flags, both resets clear them. The interrupt line (R21): asserted while some flag is set whose mask bit is
set; a write to NOTICE_MASK sets the mask bits and nothing else, a read returns them, both resets clear them and deassert
the line. -/
def Obligations.NoticesAndInterruptLine : Prop :=
  (∀ (n : Notice) (s : State),
    raise n s = { s with control := { s.control with notice := s.control.notice ||| n.mask } } ∧
    ∀ m : Notice, (raise n s).noticed m = (decide (m = n) || s.noticed m)) ∧
  (∀ (v : Word) (s : State), ∃ u, exec (.noticeWrite v) s = .next u ∧
    u = { s with control := { s.control with notice := u.control.notice } } ∧
    ∀ n : Notice, u.noticed n = (s.noticed n && v.setWidth 8 &&& n.mask == 0)) ∧
  (∀ s : State, s.readRegister .notice = s.control.notice.setWidth 32) ∧
  (∀ (t : Time) (words : Nat) (s u : State),
    exec (.powerOnReset t words) s = .next u ∨ exec (.softReset t words) s = .next u → u.control.notice = 0) ∧
  (∀ s : State, s.interruptLine = true ↔ ∃ n : Notice, s.noticed n = true ∧ s.control.noticeMask &&& n.mask ≠ 0) ∧
  (∀ (v : Word) (s : State), ∃ u, exec (.noticeMaskWrite v) s = .next u ∧
    u = { s with control := { s.control with noticeMask := v.setWidth 8 } } ∧
    u.readRegister .noticeMask = (v.setWidth 8).setWidth 32) ∧
  ∀ (t : Time) (words : Nat) (s u : State),
    exec (.powerOnReset t words) s = .next u ∨ exec (.softReset t words) s = .next u →
      u.control.noticeMask = 0 ∧ u.interruptLine = false

/-- AREA_BASE (R5): taken in STOPPED and HALTED with its low 15 bits 0, ignored in RUNNING and HALTING, the base of every
transfer started from then on, 0 after both resets. -/
def Obligations.AreaBase : Prop :=
  (∀ (v : Word) (s : State),
    (s.control.partState = .stopped ∨ s.control.partState = .halted →
      ∃ u, exec (.areaBaseWrite v) s = .next u ∧
        u = { s with control := { s.control with areaBase := u.control.areaBase } } ∧
        u.control.areaBase.toNat = v.toNat / 32768 * 32768 ∧ u.readRegister .areaBase = u.control.areaBase) ∧
    (s.control.partState = .running ∨ s.control.partState = .halting → exec (.areaBaseWrite v) s = .next s)) ∧
  (∀ (s : State) (j : Job), (startedTransfer s j).address = s.control.areaBase + BitVec.ofNat 32 (jobOffset s j)) ∧
  ∀ (t : Time) (words : Nat) (s u : State),
    exec (.powerOnReset t words) s = .next u ∨ exec (.softReset t words) s = .next u → u.control.areaBase = 0

/-- FAULT_ADDRESS (R6): the first bus error latches the transfer's address and sets the mark, a later one keeps both, a write
clears both, power-on reset clears both, soft reset keeps both. -/
def Obligations.FaultAddress : Prop :=
  (∀ (words : Nat) (s : State) (tr : Transfer), s.port.busy = some tr →
    ∃ u, exec (.busError words) s = .next u ∧ u.control.faultLatched = true ∧
      u.control.faultAddress = if s.control.faultLatched then s.control.faultAddress else tr.address) ∧
  (∀ (v : Word) (s : State), exec (.faultAddressWrite v) s = .next
    { s with control := { s.control with faultAddress := 0, faultLatched := false } }) ∧
  (∀ (t : Time) (words : Nat) (s u : State), exec (.powerOnReset t words) s = .next u →
    u.control.faultAddress = 0 ∧ u.control.faultLatched = false) ∧
  ∀ (t : Time) (words : Nat) (s u : State), exec (.softReset t words) s = .next u →
    u.control.faultAddress = s.control.faultAddress ∧ u.control.faultLatched = s.control.faultLatched

/-! ### The Order Unit -/

/-- ORDER_TAKE (R14): an IDLE unit in RUNNING with an empty withdraw list takes the head of the Post Queue and requests the
read of its order part; in any other state it takes none. -/
def Obligations.OrderTaken : Prop :=
  ∀ s : State,
    (∀ (c : CellIndex) (rest : List CellIndex),
      s.orders.unit = .idle → s.control.partState = .running → s.orders.withdrawList = [] →
      s.orders.postQueue = c :: rest →
        ∃ u, exec .orderTake s = .next u ∧ u.orders.unit = .reading c ∧ Asks u (.order (.readOrder c)) ∧
          u.body = ({ s with orders := { s.orders with postQueue := rest } } : State).body) ∧
    (s.orders.unit ≠ .idle ∨ s.control.partState ≠ .running ∨ s.orders.withdrawList ≠ [] ∨ s.orders.postQueue = [] →
      exec .orderTake s = .next s)

/-- ORDER_READ_DONE where no order is handed on (R12, R14, R15): a cell that is not POSTED, or is live, is refused
STALE_POST; else an unknown kind is answered BAD_KIND and an outlet, tariff slot, module or line out of range BAD_FIELD, and
no block changes. -/
def Obligations.ReadsHandedToNoBlock : Prop :=
  ∀ (t : Time) (w : Sweep) (part : Vector Byte 32) (s : State) (cell : CellIndex), s.readingCell = some cell →
    let s' := atTime t s
    let kind := part[4].toNat
    ∃ u, exec (.orderReadDone t w part) s = .next u ∧
      (part[0] ≠ 1#8 ∨ s.cellLive cell = true →
        u.orders.unit = .idle ∧
        Ends
          { s' with
            control := { s'.control with notice := s'.control.notice ||| 0x10#8 },
            orders := { s'.orders with
              lastRefusal := { reason := .stalePost, index := BitVec.ofNat 8 cell.val } } } u) ∧
      (part[0] = 1#8 → s.cellLive cell = false → kind = 0 ∨ 16 < kind →
        u.body = s'.body ∧
        u.orders.unit = .waiting cell { ownership := 1, kind := part[4], order := none } .badKind false .nothing ∧
        Asks u (.order (.writeTaken cell))) ∧
      (part[0] = 1#8 → s.cellLive cell = false →
        (kind ∈ [1, 2, 3, 4, 5, 6, 7, 11] ∧ 32 ≤ part[5].toNat) ∨ (kind ∈ [1, 2, 8] ∧ 16 ≤ part[6].toNat) ∨
          (kind = 12 ∧ 40 ≤ part[5].toNat) ∨ (kind = 16 ∧ 16 ≤ part[5].toNat) →
        u.body = s'.body ∧ u.orders.unit = .waiting cell (decodeOrderPart part) .badField false .nothing ∧
        Asks u (.order (.writeTaken cell)))

/-- The order part (12.4, R191, R8): each kind's fields are read from the bytes the table of 12.4 gives them, least
significant byte first, and any other kind byte gives no order; the ownership byte and the kind byte are kept as read. A POSTED
cell that is not live leaves the Order Unit WAITING with all three, its TAKEN write requested or under way, whatever the
outcome (R14, R16). `encodeOrder`, the model's own, writes every order
so that it is read back whole; by itself that would not show where a field stands. -/
def Obligations.EncodedOrdersDecode : Prop :=
  (∀ b : Vector Byte 32,
    let p := decodeOrderPart b
    let w12 := b[15] ++ b[14] ++ b[13] ++ b[12]
    let w16 := b[19] ++ b[18] ++ b[17] ++ b[16]
    p.ownership = b[0] ∧ p.kind = b[4] ∧
    (b[4] = 1#8 → p.order = some (.openSession
      { outlet := b[5], slot := b[6], priority := b[7], condition := b[8], band := b[9], link := b[10], hold := w12,
        reference := w16 })) ∧
    (b[4] = 2#8 → p.order = some (.link
      { outlet := b[5], slot := b[6], link := b[10], hold := w12, reference := w16 })) ∧
    (b[4] = 3#8 → p.order = some (.stop b[5])) ∧
    (b[4] = 4#8 → p.order = some (.amend { outlet := b[5], priority := b[7], present := b[11], hold := w12 })) ∧
    (b[4] = 5#8 → p.order = some (.sync b[5])) ∧ (b[4] = 6#8 → p.order = some (.audit b[5] b[8])) ∧
    (b[4] = 7#8 → p.order = some (.resume b[5])) ∧ (b[4] = 8#8 → p.order = some (.tariff b[6] b[8])) ∧
    (b[4] = 9#8 → p.order = some (.band b[9])) ∧ (b[4] = 10#8 → p.order = some (.site w12)) ∧
    (b[4] = 11#8 → p.order = some (.outlet b[5] b[8])) ∧ (b[4] = 12#8 → p.order = some (.module b[5] b[8])) ∧
    (b[4] = 13#8 → p.order = some (.park
      { pollPeriod := b[13] ++ b[12], reserve := b[15] ++ b[14], horizon := b[16], drainedLimit := b[17],
        heldLimit := b[18], checkpoint := b[19] })) ∧
    (b[4] = 14#8 → p.order = some (.clock w12)) ∧ (b[4] = 15#8 → p.order = some .survey) ∧
    (b[4] = 16#8 → p.order = some (.line b[5])) ∧ (b[4] = 0#8 ∨ 16 < b[4].toNat → p.order = none)) ∧
  (∀ (t : Time) (w : Sweep) (b : Vector Byte 32) (s : State) (cell : CellIndex), Receives s cell → b[0] = 1#8 →
    ∃ u outcome wait, exec (.orderReadDone t w b) s = .next u ∧
      u.orders.unit = .waiting cell (decodeOrderPart b) outcome false wait ∧ Asks u (.order (.writeTaken cell))) ∧
  ∀ o : Order, decodeOrderPart (encodeOrder o) = { ownership := 1, kind := kindCode o, order := some o }

/-- ORDER_READ_DONE with the order part of an order is the order's own row: the sixteen kinds, AUDIT, TARIFF and MODULE by
their two actions (R16: the order is handed on in the event that completes the read; log 8). -/
def Obligations.ReadGivesTheOrder : Prop :=
  ∀ (t : Time) (w : Sweep) (s : State),
    let read (o : Order) := exec (.orderReadDone t w (encodeOrder o)) s
    (∀ o, read (.openSession o) = exec (.openSession t o) s) ∧ (∀ o, read (.link o) = exec (.link t o) s) ∧
    (∀ b, read (.stop b) = exec (.stop t b) s) ∧ (∀ o, read (.amend o) = exec (.amend t o) s) ∧
    (∀ b, read (.sync b) = exec (.sync t b) s) ∧ (∀ b, read (.audit b 1) = exec (.auditSet t b) s) ∧
    (∀ b, read (.audit b 2) = exec (.auditClear t b) s) ∧ (∀ b, read (.resume b) = exec (.resume t b) s) ∧
    (∀ b, read (.tariff b 1) = exec (.tariffLoad t b) s) ∧ (∀ b, read (.tariff b 2) = exec (.tariffUnload t b) s) ∧
    (∀ b, read (.band b) = exec (.band t w b) s) ∧ (∀ l, read (.site l) = exec (.site t l) s) ∧
    (∀ b m, read (.outlet b m) = exec (.outlet t b m) s) ∧ (∀ b, read (.module b 1) = exec (.moduleReturn t b) s) ∧
    (∀ b, read (.module b 2) = exec (.moduleRetire t b) s) ∧ (∀ o, read (.park o) = exec (.park t w o) s) ∧
    (∀ v, read (.clock v) = exec (.clock t v) s) ∧ read .survey = exec (.survey t) s ∧
    (∀ b, read (.line b) = exec (.line t b) s)

/-! ### OPEN and LINK -/

/-- An OPEN's refusals, the first of R26's list that applies: each changes nothing. -/
def Obligations.OpenRefusals : Prop :=
  ∀ (t : Time) (s : State) (cell : CellIndex) (o : OpenOrder) (out : Outlet) (i : TariffSlot),
    Receives s cell → o.outlet.toNat = out.val → o.slot.toNat = i.val →
    let bad := 3 < o.priority.toNat ∨ (o.condition.toNat ≠ 1 ∧ o.condition.toNat ≠ 2) ∨
      (o.condition.toNat = 2 ∧ 3 < o.band.toNat) ∨ 1000000 < o.hold.toNat ∨
      (o.link ≠ 0xFF#8 ∧ 128 ≤ o.link.toNat) ∨ o.link.toNat = cell.val
    let refusedWith (r : OrderOutcome) (u : State) := TakenAs cell (.openSession o) r .nothing (atTime t s) u
    ∃ u, exec (.openSession t o) s = .next u ∧
      (bad → refusedWith .badField u) ∧
      (¬bad → s.context out ≠ none → refusedWith .refusedBusy u) ∧
      (¬bad → s.context out = none → Table.get s.sessions.tariffs i = none → refusedWith .refusedTariff u) ∧
      ∀ tariff, ¬bad → s.context out = none → Table.get s.sessions.tariffs i = some tariff →
        o.hold.toNat < tariff.startFee.toNat + s.control.settings.reserve → refusedWith .refusedHold u

/-- An accepted OPEN whose start condition does not hold fills the context as the table of R22 gives, in ARMED, with its
progress copy to come; its answer waits for that copy (R27). -/
def Obligations.OpenArms : Prop :=
  ∀ (t : Time) (s : State) (cell : CellIndex) (o : OpenOrder) (out : Outlet) (i : TariffSlot) (tariff : Tariff)
    (start : StartCondition) (priority : Fin 4),
    Receives s cell → o.outlet.toNat = out.val → o.slot.toNat = i.val → o.priority.toNat = priority.val →
    (o.condition = 1#8 ∧ start = .onPlug) ∨ (o.condition = 2#8 ∧ ∃ b : Band, o.band.toNat = b.val ∧ start = .onBand b) →
    o.hold.toNat ≤ 1000000 → (o.link = 0xFF#8 ∨ o.link.toNat < 128) → o.link.toNat ≠ cell.val →
    s.context out = none → Table.get s.sessions.tariffs i = some tariff →
    tariff.startFee.toNat + s.control.settings.reserve ≤ o.hold.toNat → s.startHolds out start = false →
    ∃ u, exec (.openSession t o) s = .next u ∧ CopyComes u out true ∧
      TakenAs cell (.openSession o) .ok (.progressCopy out)
        (setContext out
          (some
            { cell := cell, started := none, reference := o.reference, phase := .armed start, priority := priority,
              tariff := tariff, hold := o.hold.toNat, startFeeCharged := 0, energyCharge := 0, idleCharge := 0,
              chargedTotal := 0, overdraw := 0, carry := 0, energy := Vector.replicate 4 0,
              pendingEnergy := Vector.replicate 4 0, pendingIdle := 0, idleMinutes := 0, drainedMinutes := 0,
              heldMinutes := 0, closingMinutes := 0,
              link := if h : o.link.toNat < 128 then some ⟨o.link.toNat, h⟩ else none, auditHeld := false,
              finalReading := false, idleCapped := false, meterRebased := false, finalUnconfirmed := false,
              overdrawn := false, unsaved := false, rejected := 0, progressDue := true, progressWaiter := true,
              retryDue := false, givenUp := none })
          (atTime t s)) u

/-- An accepted OPEN whose start condition holds starts in its event (R27 to R29), whether or not it names a link cell (R26):
serial from the counter, which rises by 1, time from park seconds, start fee cut to the hold, ceiling computed; then ACTIVE, or
DRAINED with a ceiling of 0, or IDLE with the complete flag set. With a ceiling of 0 and a standing entry for the link cell it is
handed over to the entry first (R138, R148); that it may take an entry which stands on another session's outlet is the model's
(log 39, DESIGN CHOICE). -/
def Obligations.OpenStarts : Prop :=
  ∀ (t : Time) (s : State) (cell : CellIndex) (o : OpenOrder) (out : Outlet) (i : TariffSlot) (tariff : Tariff)
    (start : StartCondition) (priority : Fin 4),
    Receives s cell → o.outlet.toNat = out.val → o.slot.toNat = i.val → o.priority.toNat = priority.val →
    (o.condition = 1#8 ∧ start = .onPlug) ∨ (o.condition = 2#8 ∧ ∃ b : Band, o.band.toNat = b.val ∧ start = .onBand b) →
    o.hold.toNat ≤ 1000000 → (o.link = 0xFF#8 ∨ o.link.toNat < 128) → o.link.toNat ≠ cell.val →
    s.context out = none → Table.get s.sessions.tariffs i = some tariff →
    tariff.startFee.toNat + s.control.settings.reserve ≤ o.hold.toNat → s.startHolds out start = true →
    let fee := min tariff.startFee.toNat o.hold.toNat
    let d : Context :=
      { cell := cell, started := some { serial := s.sessions.startSerial, time := s.control.seconds },
        reference := o.reference, phase := .active, priority := priority, tariff := tariff, hold := o.hold.toNat,
        startFeeCharged := fee, energyCharge := 0, idleCharge := 0, chargedTotal := fee, overdraw := 0, carry := 0,
        energy := Vector.replicate 4 0, pendingEnergy := Vector.replicate 4 0, pendingIdle := 0, idleMinutes := 0,
        drainedMinutes := 0, heldMinutes := 0, closingMinutes := 0,
        link := if h : o.link.toNat < 128 then some ⟨o.link.toNat, h⟩ else none, auditHeld := false,
        finalReading := false, idleCapped := false, meterRebased := false, finalUnconfirmed := false, overdrawn := false,
        unsaved := false, rejected := 0, progressDue := true, progressWaiter := true, retryDue := false, givenUp := none }
    let n := d.purseCeiling s.control.settings s.sessions.band
    ∃ u c, exec (.openSession t o) s = .next u ∧ CopyComes u out true ∧
      u.orders.unit = .waiting cell (postedPart (.openSession o)) .ok false (.progressCopy out) ∧
      u.sessions.startSerial = s.sessions.startSerial + 1 ∧ u.context out = some c ∧
      c.started = d.started ∧ c.priority = priority ∧ u.ceiling out = c.purseCeiling s.control.settings s.sessions.band ∧
      c.phase =
        (if u.ceiling out = 0 then .drained else if (s.report out).complete then .idle else .active) ∧
      (0 < n ∨ (∀ l, d.link = some l → s.entryOf l = none) →
        c.cell = cell ∧ c.hold = o.hold.toNat ∧ c.tariff = tariff ∧ c.reference = o.reference ∧ c.link = d.link ∧
        c.startFeeCharged = fee ∧ c.chargedTotal = fee ∧ u.ceiling out = n) ∧
      Begins s out d n (s.report out).complete u ∧
      ∀ out', out' ≠ out → (u.context out').map Context.body = (s.context out').map Context.body

/-- LINK's refusals in the order of R144, and its acceptance where the predecessor is not to be handed over at once: an entry
with its STANDING copy to come, the answer waiting for a copy of the cell (R145). -/
def Obligations.LinkOrder : Prop :=
  ∀ (t : Time) (s : State) (cell : CellIndex) (o : Sys2Proof.LinkOrder) (out : Outlet) (i : TariffSlot),
    Receives s cell → o.outlet.toNat = out.val → o.slot.toNat = i.val →
    let bad := 1000000 < o.hold.toNat ∨ (o.link ≠ 0xFF#8 ∧ 128 ≤ o.link.toNat) ∨ o.link.toNat = cell.val ∨
      ∃ c, s.context out = some c ∧ o.link.toNat = c.cell.val
    let refusedWith (r : OrderOutcome) (u : State) := TakenAs cell (.link o) r .nothing (atTime t s) u
    ∃ u, exec (.link t o) s = .next u ∧
      (bad → refusedWith .badField u) ∧
      (¬bad → (∀ c, s.context out = some c → c.link ≠ some cell) → refusedWith .noPredecessor u) ∧
      ∀ c, ¬bad → s.context out = some c → c.link = some cell →
        (Table.get s.sessions.tariffs i = none → refusedWith .refusedTariff u) ∧
        ∀ tariff, Table.get s.sessions.tariffs i = some tariff →
          (16 ≤ s.standby.length → refusedWith .refusedFull u) ∧
          (s.standby.length < 16 → c.phase ≠ .drained ∨ c.auditHeld = true ∨ c.givenUp ≠ none →
            StandingComes u cell out ∧
            TakenAs cell (.link o) .ok .cellCopy
              { atTime t s with
                standby := s.standby ++
                  [{ cell := cell, outlet := out, hold := o.hold.toNat, tariff := tariff, priority := c.priority,
                     reference := o.reference,
                     link := if h : o.link.toNat < 128 then some ⟨o.link.toNat, h⟩ else none, progressDue := true }] }
              u)

/-- A late LINK for a DRAINED session (R145, R149 to R151, R154), whether or not it names a further cell (R144, R156): handover
in its event. The old hold's receipt is taken with reason HANDOVER, the context takes the entry's terms and its link cell with
its money at 0 and keeps serial, priority and carry, the entry leaves the table, and the session is ACTIVE, or DRAINED where the
new ceiling is 0. A pass is requested (R151, R25), with inputs and grants as every step keeps them. -/
def Obligations.LateLinkHandsOver : Prop :=
  ∀ (t : Time) (s : State) (cell : CellIndex) (o : Sys2Proof.LinkOrder) (out : Outlet) (i : TariffSlot)
    (tariff : Tariff) (c : Context),
    Receives s cell → o.outlet.toNat = out.val → o.slot.toNat = i.val → o.hold.toNat ≤ 1000000 →
    (o.link = 0xFF#8 ∨ o.link.toNat < 128) → o.link.toNat ≠ cell.val → o.link.toNat ≠ c.cell.val →
    s.context out = some c → c.link = some cell → Table.get s.sessions.tariffs i = some tariff →
    s.standby.length < 16 → c.phase = .drained → c.auditHeld = false → c.givenUp = none →
    ∃ u c' g, exec (.link t o) s = .next u ∧ u.orders.unit = .waiting cell (postedPart (.link o)) .ok false .cellCopy ∧
      CopyComes u out false ∧ u.standby.map StandbyEntry.cell = s.standby.map StandbyEntry.cell ∧
      u.context out = some c' ∧ c'.cell = cell ∧ c'.hold = o.hold.toNat ∧ c'.tariff = tariff ∧
      c'.reference = o.reference ∧ c'.link = (if h : o.link.toNat < 128 then some ⟨o.link.toNat, h⟩ else none) ∧
      c'.startFeeCharged = 0 ∧ c'.energyCharge = 0 ∧ c'.idleCharge = 0 ∧
      c'.chargedTotal = 0 ∧ c'.overdraw = 0 ∧ c'.energy = Vector.replicate 4 0 ∧ c'.rejected = 0 ∧
      c'.overdrawn = false ∧ c'.idleCapped = false ∧ c'.drainedMinutes = 0 ∧ c'.idleMinutes = 0 ∧
      c'.started = c.started ∧ c'.priority = c.priority ∧ c'.carry = c.carry ∧ c'.meterRebased = c.meterRebased ∧
      u.ceiling out = c'.purseCeiling s.control.settings s.sessions.band ∧
      c'.phase = (if u.ceiling out = 0 then .drained else .active) ∧
      c'.givenUp = some g ∧ g.cell = c.cell ∧ g.receipt.reason = .handover ∧ g.receipt.outlet = out ∧
      g.receipt.closeTime = s.control.seconds ∧ g.receipt.hold = c.hold ∧ g.receipt.total = c.chargedTotal ∧
      g.receipt.startFee = c.startFeeCharged ∧ g.receipt.energyCharge = c.energyCharge ∧
      g.receipt.idleCharge = c.idleCharge ∧ g.receipt.overdraw = c.overdraw ∧ g.receipt.energy = c.energy ∧
      g.receipt.rejected = c.rejected ∧ g.receipt.reference = c.reference ∧ g.receipt.unsaved = false ∧
      g.receipt.finalUnconfirmed = false ∧
      (s.journal.queue.length < 8 →
        { kind := .handover out c.cell cell c.chargedTotal, seconds := s.control.seconds } ∈ u.journal.queue) ∧
      HandedOver s out c
        { cell := cell, outlet := out, hold := o.hold.toNat, tariff := tariff, priority := c.priority,
          reference := o.reference, link := c'.link, progressDue := true } false u ∧
      (InputsAgree s → GrantsWithinWants s → u.power.passRequest = true)

/-! ### STOP, AMEND, SYNC, AUDIT, RESUME -/

/-- STOP by the state of the context (R30, R37, R157): a running session enters CLOSING, closing minutes 0 and the final-reading
mark clear, and is checked for SETTLING in the event (R41, R42). -/
def Obligations.StopByState : Prop :=
  ∀ (t : Time) (s : State) (cell : CellIndex) (b : Byte) (out : Outlet), Receives s cell → b.toNat = out.val →
    ∃ u, exec (.stop t b) s = .next u ∧
      (s.context out = none → TakenAs cell (.stop b) .noSession .nothing (atTime t s) u) ∧
      ∀ c, s.context out = some c →
        (c.phase.isClosing = true ∨ c.phase.isSettling = true →
          TakenAs cell (.stop b) .alreadyClosing .nothing (atTime t s) u) ∧
        (c.phase.running = true →
          u.orders.unit = .waiting cell (postedPart (.stop b)) .ok false .nothing ∧
          Stands u out
            ((c.closing .stopped s.control.seconds).judged (s.heldCount out) (s.report out).lineStale)) ∧
        (∀ start, c.phase = .armed start →
          u.orders.unit = .waiting cell (postedPart (.stop b)) .cancelled false .nothing ∧ u.context out = none ∧
          u.ceiling out = 0 ∧
          ((∀ l, c.link = some l → s.entryOf l = none) →
            u.sessions.endWords = s.sessions.endWords ++ [{ cell := c.cell, outcome := .cancelled }]) ∧
          ∀ l e, c.link = some l → s.entryOf l = some e →
            u.sessions.endWords = s.sessions.endWords ++
              [{ cell := c.cell, outcome := .cancelled }, { cell := l, outcome := .unused }] ∧
            u.entryOf l = none)

/-- AMEND (R35, R36): the first refusal that applies, which changes nothing even where one part alone would do; else the
priority of the session and of its outlet's entry, with a pass where it differs. With both parts present it does what an
AMEND of the hold alone does after the priority has been replaced; that order is the model's reading (log 35). -/
def Obligations.AmendRefusalsAndPriority : Prop :=
  ∀ (t : Time) (s : State) (cell : CellIndex) (a : AmendOrder) (out : Outlet),
    Receives s cell → a.outlet.toNat = out.val →
    let holdPresent := a.present.getLsbD 0 = true
    let priorityPresent := a.present.getLsbD 1 = true
    let bad := (¬holdPresent ∧ ¬priorityPresent) ∨ (holdPresent ∧ 1000000 < a.hold.toNat) ∨
      (priorityPresent ∧ 3 < a.priority.toNat)
    let refusedWith (r : OrderOutcome) (u : State) := TakenAs cell (.amend a) r .nothing (atTime t s) u
    ∃ u, exec (.amend t a) s = .next u ∧
      (bad → refusedWith .badField u) ∧ (¬bad → s.context out = none → refusedWith .noSession u) ∧
      ∀ c, ¬bad → s.context out = some c →
        (holdPresent → a.hold.toNat < c.chargedTotal → refusedWith .belowSpent u) ∧
        (¬holdPresent → ∀ p : Fin 4, a.priority.toNat = p.val →
          TakenAs cell (.amend a) .ok .nothing
            { setContext out (some { c with priority := p }) (atTime t s) with
              standby := s.standby.map fun e => if e.outlet = out then { e with priority := p } else e,
              power := { s.power with passRequest := s.power.passRequest || decide (c.priority ≠ p) } } u) ∧
        (holdPresent → c.chargedTotal ≤ a.hold.toNat → priorityPresent → ∀ p : Fin 4, a.priority.toNat = p.val →
          ∃ v,
            exec (.amend t { a with present := 1 })
              { setContext out (some { c with priority := p }) s with
                standby := s.standby.map fun e => if e.outlet = out then { e with priority := p } else e,
                power := { s.power with passRequest := s.power.passRequest || decide (c.priority ≠ p) } } = .next v ∧
            u.body = v.body ∧ u.orders.unit = .waiting cell (postedPart (.amend a)) .ok false .nothing)

/-- AMEND of a hold (R36, R137, R138): the hold, the overdraw anew, which the check of R35 makes 0, and the ceiling anew; a
DRAINED session with a ceiling above 0 is ACTIVE again with drained minutes 0, and with a ceiling of 0 stays DRAINED; an
ACTIVE one with a ceiling of 0 is DRAINED, or handed over to its standing entry, but for one that is audit-held. -/
def Obligations.AmendHold : Prop :=
  ∀ (t : Time) (s : State) (cell : CellIndex) (a : AmendOrder) (out : Outlet) (c : Context),
    Receives s cell → a.outlet.toNat = out.val → a.present.getLsbD 0 = true → a.present.getLsbD 1 = false →
    a.hold.toNat ≤ 1000000 → s.context out = some c → c.chargedTotal ≤ a.hold.toNat →
    let n := { c with hold := a.hold.toNat, overdraw := 0 }.purseCeiling s.control.settings s.sessions.band
    ∃ u c', exec (.amend t a) s = .next u ∧ u.orders.unit = .waiting cell (postedPart (.amend a)) .ok false .nothing ∧
      u.context out = some c' ∧
      (c.phase = .idle ∨ c.phase.isClosing = true ∨ (∃ r h d, c.phase = .held r h d) →
        c'.body = { c with hold := a.hold.toNat, overdraw := 0 }.body ∧ u.ceiling out = n) ∧
      ((∃ start, c.phase = .armed start) →
        c'.body = { c with hold := a.hold.toNat, overdraw := 0 }.body ∧ u.ceiling out = 0) ∧
      (c.phase.isSettling = true →
        c'.body = { c with hold := a.hold.toNat, overdraw := 0 }.body ∧ u.ceiling out = s.ceiling out) ∧
      (c.phase = .active → GoesOn s out { c with hold := a.hold.toNat, overdraw := 0 } n false u) ∧
      (c.phase = .drained → 0 < n →
        c'.body =
          { c with hold := a.hold.toNat, overdraw := 0, phase := .active, drainedMinutes := 0 }.body ∧
        u.ceiling out = n) ∧
      (c.phase = .drained → n = 0 →
        c'.body = { c with hold := a.hold.toNat, overdraw := 0 }.body ∧ u.ceiling out = 0)

/-- SYNC (R45): NO_SESSION in VACANT, else a copy to come that releases the waiter, for which the answer waits. AUDIT (R158):
SET and CLEAR set and clear the outlet's flag in every state of its context and change nothing else; another action is
answered BAD_FIELD. -/
def Obligations.SyncAndAuditOrders : Prop :=
  (∀ (t : Time) (s : State) (cell : CellIndex) (b : Byte) (out : Outlet), Receives s cell → b.toNat = out.val →
    ∃ u, exec (.sync t b) s = .next u ∧
      (s.context out = none → TakenAs cell (.sync b) .noSession .nothing (atTime t s) u) ∧
      ∀ c, s.context out = some c →
        CopyComes u out true ∧
        TakenAs cell (.sync b) .ok (.progressCopy out)
          (setContext out (some { c with progressWaiter := true }) (atTime t s)) u) ∧
  ∀ (t : Time) (s : State) (cell : CellIndex) (b : Byte) (out : Outlet), Receives s cell → b.toNat = out.val →
    let flagged (v : Bool) : State :=
      { atTime t s with sessions := { s.sessions with auditFlags := Table.set s.sessions.auditFlags out v } }
    (∃ u, exec (.auditSet t b) s = .next u ∧ TakenAs cell (.audit b 1) .ok .nothing (flagged true) u) ∧
    (∃ u, exec (.auditClear t b) s = .next u ∧ TakenAs cell (.audit b 2) .ok .nothing (flagged false) u) ∧
    ∀ (action : Byte) (w : Sweep), action ≠ 1#8 → action ≠ 2#8 →
      ∃ u, exec (.orderReadDone t w (encodeOrder (.audit b action))) s = .next u ∧
        TakenAs cell (.audit b action) .badField .nothing (atTime t s) u

/-- RESUME (R163, R164, R129, R130, R132): NO_SESSION and NOT_HELD change nothing; a held session has its pending amounts
applied, its mark cleared and its ceiling recomputed; then it is taken on by its ceiling (R138, R148), and where the flag is
set the hold is retaken with its entry, its copy and its notice. The first clause says what the pending amounts come to,
while the charged total stays within 32 bits: the energy of the four bands priced with the carry, and after it the idle
minutes beyond the grace, up to the remaining money; that idle minutes raised outside IDLE stay raised is the model's (log 44,
DESIGN CHOICE). -/
def Obligations.ResumeOrder : Prop :=
  (∀ c : Context,
    let price (b : Band) := (Table.get c.tariff.prices b).toNat
    let pending (b : Band) := Table.get c.pendingEnergy b
    let cost := pending 0 * price 0 + pending 1 * price 1 + pending 2 * price 2 + pending 3 * price 3 + c.carry
    let total := c.chargedTotal + cost / 1000
    let some' := pending 0 ≠ 0 ∨ pending 1 ≠ 0 ∨ pending 2 ≠ 0 ∨ pending 3 ≠ 0
    let charged := c.pendingIdle - min c.pendingIdle (c.tariff.idleGrace.toNat - c.idleMinutes)
    let asked := charged * c.tariff.idleFee.toNat
    let idle := min asked (c.hold - total)
    c.carry < 1000 → total ≤ max32 → c.idleMinutes + c.pendingIdle ≤ 65535 →
      c.applyPending =
        { c with
          energyCharge := c.energyCharge + cost / 1000, carry := cost % 1000,
          energy := Vector.ofFn fun b : Band =>
            if pending b = 0 then Table.get c.energy b else min max32 (Table.get c.energy b + pending b),
          pendingEnergy := Vector.replicate 4 0,
          overdraw := if some' then total - c.hold else c.overdraw,
          overdrawn := c.overdrawn || decide (some' ∧ c.hold < total),
          pendingIdle := 0, idleMinutes := c.idleMinutes + c.pendingIdle, idleCharge := c.idleCharge + idle,
          idleCapped := c.idleCapped || decide (c.hold - total < asked), chargedTotal := total + idle,
          auditHeld := false }) ∧
  ∀ (t : Time) (s : State) (cell : CellIndex) (b : Byte) (out : Outlet), Receives s cell → b.toNat = out.val →
    ∃ u, exec (.resume t b) s = .next u ∧
      (s.context out = none → TakenAs cell (.resume b) .noSession .nothing (atTime t s) u) ∧
      ∀ c, s.context out = some c →
        (c.auditHeld = false → TakenAs cell (.resume b) .notHeld .nothing (atTime t s) u) ∧
        (c.auditHeld = true →
          let flag := Table.get s.sessions.auditFlags out
          let d := c.applyPending
          let n := d.purseCeiling s.control.settings s.sessions.band
          u.orders.unit = .waiting cell (postedPart (.resume b)) .ok false .nothing ∧
          u.sessions.auditFlags = s.sessions.auditFlags ∧ (flag = true → AuditTaken s out u) ∧
          (c.phase = .idle ∨ c.phase.isClosing = true ∨ (∃ r h d, c.phase = .held r h d) →
            Stands u out { d with auditHeld := flag } ∧ u.ceiling out = n) ∧
          (c.phase = .active → GoesOn s out d n flag u) ∧
          (c.phase = .drained →
            (NoSuccessor s c → Stands u out { d with auditHeld := flag } ∧ u.ceiling out = n) ∧
            ∀ l e, c.givenUp = none → c.link = some l → s.entryOf l = some e → HandedOver s out d e flag u))

/-! ### TARIFF and BAND -/

/-- TARIFF (R123, R124): UNLOAD empties the slot; LOAD changes nothing until its record is read; another action is BAD_FIELD;
the record read loads the slot, or leaves it and is answered BAD_FIELD where its valid mark is clear. -/
def Obligations.TariffOrder : Prop :=
  (∀ (t : Time) (s : State) (cell : CellIndex) (b : Byte) (i : TariffSlot), Receives s cell → b.toNat = i.val →
    (∃ u, exec (.tariffLoad t b) s = .next u ∧
      TakenAs cell (.tariff b 1) .ok (.tariffRecord i) (atTime t s) u) ∧
    (∃ u, exec (.tariffUnload t b) s = .next u ∧
      TakenAs cell (.tariff b 2) .ok .nothing
        { atTime t s with sessions := { s.sessions with tariffs := Table.set s.sessions.tariffs i none } } u) ∧
    ∀ (action : Byte) (w : Sweep), action ≠ 1#8 → action ≠ 2#8 →
      ∃ u, exec (.orderReadDone t w (encodeOrder (.tariff b action))) s = .next u ∧
        TakenAs cell (.tariff b action) .badField .nothing (atTime t s) u) ∧
  ∀ (record : Vector Byte 32) (s : State) (tr : Transfer) (cell : CellIndex) (b a : Byte) (i : TariffSlot),
    UnderWay s tr (.order (.readTariff i)) → tr.data = [] →
    s.orders.unit = .waiting cell (postedPart (.tariff b a)) .ok true (.tariffRecord i) →
    ∃ u, exec (.tariffReadDone record) s = .next u ∧
      (record[0].getLsbD 0 = true →
        Answers u cell (postedPart (.tariff b a)) .ok ∧
        ∃ tariff : Tariff, tariff.startFee.toNat = record[2].toNat + 256 * record[3].toNat ∧
          (∀ p : Band, (Table.get tariff.prices p).toNat =
            record[4 + 2 * p.val].toNat + 256 * record[5 + 2 * p.val].toNat) ∧
          tariff.idleFee.toNat = record[12].toNat + 256 * record[13].toNat ∧ tariff.idleGrace = record[14] ∧
          u.body =
            ({ s with sessions := { s.sessions with tariffs := Table.set s.sessions.tariffs i (some tariff) } } :
              State).body) ∧
      (record[0].getLsbD 0 = false → Answers u cell (postedPart (.tariff b a)) .badField ∧ u.body = s.body)

/-- BAND (R126, R127, R83): above 3 BAD_FIELD; else the band, the epoch up by 1, and every ceiling at the new price. An
ACTIVE session with a ceiling of 0 is DRAINED, or handed over to its standing entry, but for one that is audit-held (R138).
Every session whose start condition now holds is started (R28, R29), with the serials from the counter on in the order of the
sweep (R24; the order is an operand, log 14), and the counter rises by their number. Sessions in IDLE, HELD, DRAINED and CLOSING
stay as they are. Every line polls, is withheld, or sets its band-edge mark instead; a poll carries the new band and the masks
after the ceilings' pass and the sweep, and the next is due one poll period on (R80, R81; that the effects come in this order is
log 15, DESIGN CHOICE). What each of the sweep's steps does to its session is said first, and of a start in AlertsServed. Two
sessions that name one standing entry are left out (log 39). -/
def Obligations.BandOrder : Prop :=
  ∀ (t : Time) (w : Sweep) (s : State) (cell : CellIndex) (b : Byte), Receives s cell →
    ∃ u, exec (.band t w b) s = .next u ∧
      (3 < b.toNat → TakenAs cell (.band b) .badField .nothing (atTime t s) u) ∧
      ∀ n : Band, b.toNat = n.val →
        let starts (o : Outlet) : Bool :=
          decide ((s.report o).plug = .plugged ∧ (s.report o).lineStale = false) &&
            (s.context o).any fun c => decide (c.phase = .armed .onPlug ∨ c.phase = .armed (.onBand n))
        let earlier (a b : Outlet) : Bool :=
          decide (w.idxOf a < w.idxOf b ∨ (w.idxOf a = w.idxOf b ∧ a.val < b.val))
        let serial (o : Outlet) : Word :=
          s.sessions.startSerial + BitVec.ofNat 32 (Config.outlets.countP fun o' => starts o' && earlier o' o)
        u.orders.unit = .waiting cell (postedPart (.band b)) .ok false .nothing ∧ u.sessions.band = n ∧
        u.sessions.startSerial = s.sessions.startSerial + BitVec.ofNat 32 (Config.outlets.countP starts) ∧
        u.sessions.epoch = s.sessions.epoch + 1 ∧ u.sessions.tariffs = s.sessions.tariffs ∧
        (∀ (o : Outlet) (c : Context), s.context o = some c → c.phase ≠ .active →
          (∀ start, c.phase ≠ .armed start) →
          Stands u o c ∧
          (c.phase.isSettling = false → u.ceiling o = c.purseCeiling s.control.settings n)) ∧
        (∀ (o : Outlet) (c : Context), s.context o = some c → c.phase = .active → SoleHeir s o c →
          GoesOn s o c (c.purseCeiling s.control.settings n) false u) ∧
        (∀ (o : Outlet) (c : Context), s.context o = some c → c.phase = .active →
          0 < c.purseCeiling s.control.settings n →
          Stands u o c ∧ u.ceiling o = c.purseCeiling s.control.settings n) ∧
        (∀ (o : Outlet) (c : Context) (start : StartCondition), s.context o = some c → c.phase = .armed start →
          let holds := (s.report o).plug = .plugged ∧ (s.report o).lineStale = false ∧
            (start = .onPlug ∨ start = .onBand n)
          (¬holds → Stands u o c) ∧
          (holds → ∃ c', u.context o = some c' ∧
            c'.started = some { serial := serial o, time := s.control.seconds } ∧
            (c'.phase = .active ∨ c'.phase = .idle ∨ c'.phase = .drained)) ∧
          (holds → SoleHeir s o c →
            let d := c.begun (serial o) s.control.seconds
            Begins s o d (d.purseCeiling s.control.settings n) (s.report o).complete u)) ∧
        ∃ order : List Outlet, order.Nodup ∧ (∀ o, o ∈ order) ∧ order.Pairwise (fun a b => earlier a b = true) ∧
          let now := max s.now t
          let banded : State :=
            { atTime t s with
              port := { s.port with busy := none },
              sessions := { s.sessions with band := n, epoch := s.sessions.epoch + 1 } }
          let taken := order.foldl (fun x o => evaluateStart o (takeOn o x)) (recomputeAll banded)
          u.body = (order.foldl (fun x o => endStart banded o x) { taken with lines := u.lines }).body ∧
          ((∀ o, starts o = true → (s.report o).complete = false) → ∀ o, u.mask o = taken.mask o) ∧
          ∀ k : LineNo,
          ((s.line k).state = .silent → u.line k = s.line k) ∧
          ((s.line k).state = .waiting → (s.line k).receiving = none → (s.line k).replySlot = none →
            u.line k =
              { s.line k with
                state := .sending false, bandEdge := false, seq := (s.line k).seq + 1,
                due := some (now + 1000 * s.control.settings.pollPeriod),
                outstanding := some
                  { seq := (s.line k).seq, mask0 := taken.mask (outletA k), mask1 := taken.mask (outletB k), band := n,
                    sendTime := now } }) ∧
          ((s.line k).state = .waiting → (s.line k).receiving = none → (s.line k).replySlot ≠ none →
            u.line k = { s.line k with state := .withheld }) ∧
          ((s.line k).state ≠ .silent → (s.line k).state ≠ .waiting ∨ (s.line k).receiving ≠ none →
            u.line k = { s.line k with bandEdge := true })

/-! ### SITE, OUTLET, MODULE, PARK, CLOCK, SURVEY, LINE -/

/-- SITE and OUTLET (R70, R72): out of range BAD_FIELD; else SITE sets the limit, gives SITE_OVER where the power granted and
releasing is above it, and makes a pass; OUTLET sets the maximum and requests a pass, which is made at once where some want
is below its grant. -/
def Obligations.SiteAndOutletOrders : Prop :=
  ∀ (t : Time) (s : State) (cell : CellIndex), Receives s cell →
    (∀ l : Word, ∃ u, exec (.site t l) s = .next u ∧
      (1600 < l.toNat → TakenAs cell (.site l) .badField .nothing (atTime t s) u) ∧
      (l.toNat ≤ 1600 →
        let limited : State := { atTime t s with power := { s.power with siteLimit := l.toNat } }
        TakenAs cell (.site l) .ok .nothing
          (pass (if l.toNat < 40 * s.assignedCount then give (.siteOver l.toNat (40 * s.assignedCount)) limited
            else limited)) u)) ∧
    ∀ (b m : Byte) (out : Outlet), b.toNat = out.val → ∃ u, exec (.outlet t b m) s = .next u ∧
      (10 < m.toNat → TakenAs cell (.outlet b m) .badField .nothing (atTime t s) u) ∧
      (m.toNat ≤ 10 →
        let changed : State :=
          { atTime t s with
            power := { s.power with maximums := Table.set s.power.maximums out m.toNat, passRequest := true } }
        ((∀ o, changed.grant o ≤ changed.want o) → TakenAs cell (.outlet b m) .ok .nothing changed u) ∧
        ((∃ o, changed.want o < changed.grant o) → TakenAs cell (.outlet b m) .ok .nothing (pass changed) u))

/-- MODULE (R67, R68): RETURN makes an OUT module FREE and is NOT_OUT for another; RETIRE acts by the module's state; another
action is BAD_FIELD. -/
def Obligations.ModuleOrder : Prop :=
  ∀ (t : Time) (s : State) (cell : CellIndex) (b : Byte) (m : ModuleNo), Receives s cell → b.toNat = m.val →
    let s' := atTime t s
    let withModule (e : Module) : State :=
      { s' with power := { s'.power with modules := Table.set s'.power.modules m e, passRequest := true } }
    (∃ u, exec (.moduleReturn t b) s = .next u ∧
      ((s.module m).isOut = true → TakenAs cell (.module b 1) .ok .nothing (withModule .free) u) ∧
      ((s.module m).isOut = false → TakenAs cell (.module b 1) .notOut .nothing s' u)) ∧
    (∃ u, exec (.moduleRetire t b) s = .next u ∧
      (s.module m = .free →
        TakenAs cell (.module b 2) .ok .nothing (give (.moduleOut m .retired none) (withModule (.out .retired))) u) ∧
      (∀ o, s.module m = .granted o →
        TakenAs cell (.module b 2) .ok .nothing
          (withModule (.releasing o (s'.now + 1000 * (5 * s.control.settings.pollPeriod)) true)) u) ∧
      (∀ o d r, s.module m = .releasing o d r →
        TakenAs cell (.module b 2) .ok .nothing (setModule m (.releasing o d true) s') u) ∧
      (∀ r, s.module m = .out r → TakenAs cell (.module b 2) .ok .nothing (setModule m (.out .retired) s') u)) ∧
    ∀ (action : Byte) (w : Sweep), action ≠ 1#8 → action ≠ 2#8 →
      ∃ u, exec (.orderReadDone t w (encodeOrder (.module b action))) s = .next u ∧
        TakenAs cell (.module b action) .badField .nothing s' u

/-- PARK (R188, R189, R46): a setting out of range, or a poll period that is no multiple of 50, is BAD_FIELD and changes
none; else all six are replaced, the checkpoint count is 0 where the interval is at or below it, and with a new horizon or
margin every ceiling is recomputed, and an ACTIVE session whose ceiling is 0 is DRAINED, or handed over to its standing
entry, but for one that is audit-held (R138). Sessions in ARMED and SETTLING stay as they are, with a ceiling of 0 and with the one they had (R136, R137);
every changed ceiling is delivered to the Apportioner, no grant is above its want afterwards (R56), and nothing else of the part
changes but what a handover and a pass change. Two sessions that name one standing entry are left out (log 39). -/
def Obligations.ParkOrder : Prop :=
  ∀ (t : Time) (w : Sweep) (s : State) (cell : CellIndex) (p : Sys2Proof.ParkOrder), Receives s cell →
    let inRange := 250 ≤ p.pollPeriod.toNat ∧ p.pollPeriod.toNat ≤ 2000 ∧ p.pollPeriod.toNat % 50 = 0 ∧
      1 ≤ p.horizon.toNat ∧ p.horizon.toNat ≤ 30 ∧ 1 ≤ p.drainedLimit.toNat ∧ p.drainedLimit.toNat ≤ 120 ∧
      1 ≤ p.heldLimit.toNat ∧ p.heldLimit.toNat ≤ 60 ∧ p.checkpoint.toNat ≤ 15
    let settings : ParkSettings :=
      { pollPeriod := p.pollPeriod.toNat, horizon := p.horizon.toNat, reserve := p.reserve.toNat,
        drainedLimit := p.drainedLimit.toNat, heldLimit := p.heldLimit.toNat, checkpoint := p.checkpoint.toNat }
    let same := s.control.settings.horizon = settings.horizon ∧ s.control.settings.reserve = settings.reserve
    let count := if settings.checkpoint ≤ s.sessions.checkpointCount then 0 else s.sessions.checkpointCount
    ∃ u, exec (.park t w p) s = .next u ∧
      (¬inRange → TakenAs cell (.park p) .badField .nothing (atTime t s) u) ∧
      (inRange → same →
        TakenAs cell (.park p) .ok .nothing
          { atTime t s with
            control := { s.control with settings := settings },
            sessions := { s.sessions with checkpointCount := count } } u) ∧
      (inRange → ¬same →
        u.orders.unit = .waiting cell (postedPart (.park p)) .ok false .nothing ∧ u.control.settings = settings ∧
        u.sessions.checkpointCount = count ∧ u.lines = s.lines ∧
        ∀ (o : Outlet) (c : Context), s.context o = some c → (∀ start, c.phase ≠ .armed start) →
          c.phase.isSettling = false →
          c.phase ≠ .active ∨ 0 < c.purseCeiling settings s.sessions.band ∨ c.auditHeld = true →
          Stands u o c ∧ u.ceiling o = c.purseCeiling settings s.sessions.band) ∧
      (inRange → ¬same →
        ∀ (o : Outlet) (c : Context), s.context o = some c → c.phase = .active → SoleHeir s o c →
          GoesOn s o c (c.purseCeiling settings s.sessions.band) false u) ∧
      (inRange → ¬same →
        u.body =
          ({ atTime t s with
              control := { s.control with settings := settings },
              sessions := { s.sessions with
                checkpointCount := count, contexts := u.sessions.contexts, ceilings := u.sessions.ceilings },
              standby := u.standby,
              power := { s.power with
                modules := u.power.modules, inputs := u.power.inputs, passRequest := u.power.passRequest },
              meters := { s.meters with records := u.meters.records },
              journal := { s.journal with queue := u.journal.queue, gap := u.journal.gap } } : State).body ∧
        (∀ o, s.context o = none → u.context o = none ∧ u.ceiling o = 0) ∧
        (∀ (o : Outlet) (c : Context), s.context o = some c →
          ((∃ start, c.phase = .armed start) → Stands u o c ∧ u.ceiling o = 0) ∧
          (c.phase.isSettling = true → Stands u o c ∧ u.ceiling o = s.ceiling o)) ∧
        (∀ o, u.inputs o = { s.inputs o with active := (u.inputs o).active, ceiling := (u.inputs o).ceiling } ∧
          (u.ceiling o ≠ s.ceiling o → (u.inputs o).ceiling = u.ceiling o) ∧ u.grant o ≤ u.want o ∧
          u.record o = { s.record o with peak := (u.record o).peak }) ∧
        (∀ m, (∃ o d r, s.module m = .releasing o d r) ∨ (s.module m).isOut = true → u.module m = s.module m) ∧
        (∀ l, (∀ o c, s.context o = some c → c.link ≠ some l) →
          (u.entryOf l).map (fun e => { e with progressDue := false }) =
            (s.entryOf l).map fun e => { e with progressDue := false }) ∧
        s.journal.queue <+: u.journal.queue)

/-- CLOCK and PARK_SECOND_TICK (R186): CLOCK sets park seconds, and the next rise comes one second after it; a tick raises
park seconds by 1, from 2^32 − 1 to 0. -/
def Obligations.ParkSeconds : Prop :=
  (∀ (t : Time) (s : State) (cell : CellIndex) (v : Word), Receives s cell →
    ∃ u, exec (.clock t v) s = .next u ∧
      TakenAs cell (.clock v) .ok .nothing
        { atTime t s with control := { s.control with seconds := v, secondDue := max s.now t + 1000000 } } u) ∧
  ∀ s : State, ∃ u, exec .parkSecondTick s = .next u ∧
    Ends
      { s with
        now := max s.now s.control.secondDue,
        control := { s.control with
          seconds := s.control.seconds + 1, secondDue := s.control.secondDue + 1000000 } } u

/-- SURVEY (R178): its answer waits for the survey; the TAKEN write brings the request of part 0, each part's write that of
the next, and part 6 the answer. A part's write carries the 128 bytes of the tables of 12.7 at its offset of 12.2, as the
values stand when it starts (R178, R191); that the bits of a module's first byte which no field names are 0 is the model's (log
40, DESIGN CHOICE). -/
def Obligations.SurveyOrder : Prop :=
  (∀ (s : State) (p : SurveyPart),
    let w := startedTransfer s (.survey p)
    w.offset = 0x4800 + 0x80 * p.val ∧ w.data.length = 128 ∧
    (p.val = 0 →
      HasField w.data 0 4 s.control.seconds.toNat ∧ HasField w.data 4 4 s.sessions.epoch.toNat ∧
      HasField w.data 8 2 s.power.siteLimit ∧
      HasField w.data 10 1
        (match s.control.partState with
         | .stopped => 0
         | .running => 1
         | .halting => 2
         | .halted => 3) ∧
      HasField w.data 11 1 s.sessions.band.val ∧ HasField w.data 12 4 0 ∧ HasField w.data 96 32 0 ∧
      ∀ m : ModuleNo,
        HasField w.data (16 + 2 * m.val) 1
          (match s.module m with
           | .free => 0
           | .granted _ => 1
           | .releasing .. => 2
           | .out .fault => 3 + 16 * 1
           | .out .noAck => 3 + 16 * 2
           | .out .retired => 3 + 16 * 3) ∧
        HasField w.data (17 + 2 * m.val) 1 (((s.module m).outlet?.map Fin.val).getD 0xFF)) ∧
    (∀ o : Outlet, p.val = 1 + o.val / 8 →
      let at' := 16 * (o.val % 8)
      HasField w.data at' 1
        (match (s.context o).map Context.phase with
         | none => 0
         | some (.armed _) => 1
         | some .active => 2
         | some .idle => 3
         | some .drained => 4
         | some (.held ..) => 5
         | some (.closing ..) => 6
         | some (.settling ..) => 7) ∧
      HasField w.data (at' + 1) 1 (s.grant o) ∧ HasField w.data (at' + 2) 1 (s.want o) ∧
      HasField w.data (at' + 3) 1 (((s.context o).map fun c => c.cell.val).getD 0xFF) ∧
      HasField w.data (at' + 4) 2 (s.inputs o).demand ∧ HasField w.data (at' + 6) 2 0 ∧
      HasField w.data (at' + 8) 4 (s.record o).unclaimed ∧ HasField w.data (at' + 12) 4 0) ∧
    ∀ k : LineNo, p.val = 5 + k.val / 8 →
      let at' := 16 * (k.val % 8)
      let l := s.line k
      HasField w.data at' 1
        (match l.state with
         | .silent => 0
         | .waiting => 1
         | .sending _ => 2
         | .awaiting _ => 3
         | .withheld => 4) ∧
      HasField w.data (at' + 1) 1 (bit l.stale 0) ∧ HasField w.data (at' + 2) 1 l.missed ∧ HasField w.data (at' + 3) 1 0 ∧
      HasField w.data (at' + 4) 2 l.counters.silentFault ∧ HasField w.data (at' + 6) 2 l.counters.broken ∧
      HasField w.data (at' + 8) 2 l.counters.crcFault ∧ HasField w.data (at' + 10) 2 l.counters.seqFault ∧
      HasField w.data (at' + 12) 2 l.counters.overrun ∧ HasField w.data (at' + 14) 2 0) ∧
  (∀ (t : Time) (s : State) (cell : CellIndex), Receives s cell →
    ∃ u, exec (.survey t) s = .next u ∧ TakenAs cell .survey .ok .survey (atTime t s) u) ∧
  (∀ (s : State) (tr : Transfer) (cell : CellIndex), UnderWay s tr (.order (.writeTaken cell)) →
    s.orders.unit = .waiting cell (postedPart .survey) .ok false .survey →
    ∃ u, exec .takenWriteDone s = .next u ∧ Asks u (.survey 0) ∧
      u.orders.unit = .waiting cell (postedPart .survey) .ok true .survey ∧ u.body = (completeTransfer tr s).body) ∧
  ∀ (s : State) (tr : Transfer) (cell : CellIndex) (p : SurveyPart), UnderWay s tr (.survey p) →
    s.orders.unit = .waiting cell (postedPart .survey) .ok true .survey →
    ∃ u, exec .surveyPartDone s = .next u ∧ u.body = (completeTransfer tr s).body ∧
      (p.val < 6 → Asks u (.survey (p + 1)) ∧ u.orders.unit = s.orders.unit) ∧
      (p.val = 6 → Answers u cell (postedPart .survey) .ok)

/-- LINE (R96): 16 or more is BAD_FIELD; else slots and marks emptied, sequence number and missed count 0, counters and STALE
kept, and the line by its state: SILENT stays, SENDING sends to its last byte, the others are WAITING with no poll
outstanding and due in 25 ms. Nothing else of the part changes. -/
def Obligations.LineOrder : Prop :=
  ∀ (t : Time) (s : State) (cell : CellIndex) (b : Byte), Receives s cell →
    ∃ u, exec (.line t b) s = .next u ∧
      (16 ≤ b.toNat → TakenAs cell (.line b) .badField .nothing (atTime t s) u) ∧
      ∀ k : LineNo, b.toNat = k.val →
        let l := s.line k
        let cleared : Line :=
          { l with
            replySlot := none, alertSlot := none, overrunMark := false, seq := 0, missed := 0, bandEdge := false }
        let becomes (l' : Line) := TakenAs cell (.line b) .ok .nothing (setLine k l' (atTime t s)) u
        (l.state = .silent → becomes cleared) ∧
        ((∃ r, l.state = .sending r) → becomes { cleared with state := .sending true }) ∧
        (l.state = .waiting ∨ l.state = .withheld ∨ (∃ e, l.state = .awaiting e) →
          becomes { cleared with outstanding := none, state := .waiting, due := some (max s.now t + 25000) })

/-! ### The Memory Port -/

/-- A completed write stands in park memory at its bus address and nowhere else, in the event that completes it (R167;
that it comes there in that event is log 13). Which bytes each kind of write carries is said with its own statement:
OrderUnitWrites, CopiesCompleted, ReceiptsAndEndWordsCompleted, JournalWriter, SurveyOrder. -/
def Obligations.WritesReachMemory : Prop :=
  ∀ (s : State) (tr : Transfer), s.port.busy = some tr → tr.job.isWrite = true →
    ∃ u, exec (completionOf tr.job) s = .next u ∧
      (∀ i (h : i < tr.data.length), u.mem.read (tr.address.toNat + i) = some tr.data[i]) ∧
      ∀ a, a < tr.address.toNat ∨ tr.address.toNat + tr.data.length ≤ a → u.mem.read a = s.mem.read a

/-- TRANSFER_START at an IDLE port (R168, R1): the settlement writer's request is started first, then the Order Unit's, then
the Journal Writer's, then the survey writer's, at AREA_BASE plus its offset, with the contents its owner holds. Of a
transfer started, the length is that of the table of 9.1, a write carries that many bytes while its owner still holds what it
writes, and a read none. With no transfer of its own requested or under way the settlement writer chooses, and requests (R43,
R146, R152, R153, R48): the oldest end word whose cell is not in hand; with none, the progress copy due at the lowest outlet; with
none, the STANDING copy due at the lowest outlet; with none, the receipt due at the lowest outlet, a given-up one before that of
the SETTLING session, and one whose write has failed only with its retry-due mark; with none, nothing. The mark of what it
requests is cleared; an IDLE port starts the request at once, and behind another's transfer it waits. A waiting request whose
owner is gone is withdrawn and not made, and the settlement writer chooses as if it had never been (R43 says so of a progress
copy; of a STANDING copy and a receipt it is log 29, DEDUCED). That after every event nothing of this is due without a request is
StepsKeepQueuesBounded. -/
def Obligations.TransfersStartInOrder : Prop :=
  (∀ (s : State) (j : Job),
    let w := startedTransfer s j
    w.job = j ∧ w.address = s.control.areaBase + BitVec.ofNat 32 w.offset ∧
    w.length =
      (match j with
       | .settle (.endWord _) => 4
       | .settle (.progress ..) => 32
       | .settle (.standing ..) => 32
       | .settle (.receipt _) => 64
       | .settle (.givenUp _) => 64
       | .order (.readOrder _) => 32
       | .order (.writeTaken _) => 4
       | .order (.writeAnswer ..) => 4
       | .order (.writeWithdrawn _) => 4
       | .order (.readTariff _) => 32
       | .journal .readSlot => 4
       | .journal .writeEntry => 16
       | .journal (.writeHeader ..) => 16
       | .survey _ => 128) ∧
    (j.isWrite = false → w.data = []) ∧
    (∀ k, j = .settle k → k.owned s = true → w.data.length = w.length) ∧
    (∀ e rest seq carried, j = .journal .writeEntry → s.journal.queue = e :: rest →
      s.journal.writer = .writing seq carried → w.data.length = w.length) ∧
    (j.isWrite = true → (∀ k, j ≠ .settle k) → j ≠ .journal .writeEntry → w.data.length = w.length) ∧
    (∀ c, j = .order (.readOrder c) → w.offset = 0x80 * c.val) ∧
    (∀ i, j = .order (.readTariff i) → w.offset = 0x4000 + 0x20 * i.val) ∧
    (j = .journal .readSlot → w.offset = 0x4210 + 0x10 * s.journal.nextSlot.val)) ∧
  (∀ s : State, s.port.settleReq = none → (∀ t k, s.port.busy = some t → t.job ≠ .settle k) →
    let inHand (cell : CellIndex) : Prop :=
      s.orders.unit = .reading cell ∨ (∃ p r taken w, s.orders.unit = .waiting cell p r taken w) ∨
      ∃ r f, s.orders.unit = .answering cell r f
    let linkWaits (cell : CellIndex) : Prop := ∃ p r taken, s.orders.unit = .waiting cell p r taken .cellCopy
    let noWord := ∀ w ∈ s.sessions.endWords, inHand w.cell
    let noCopy := ∀ o c, s.context o = some c → c.progressDue = false
    let noStanding := ∀ o e, s.entryAt o = some e → e.progressDue = false
    let receiptDue (o : Outlet) (j : SettleJob) : Prop := ∃ c, s.context o = some c ∧
      ((∃ g, c.givenUp = some g ∧ (g.receipt.unsaved = false ∨ g.retryDue = true) ∧ j = .givenUp o) ∨
       (c.givenUp = none ∧ c.phase.isSettling = true ∧ (c.unsaved = false ∨ c.retryDue = true) ∧ j = .receipt o))
    ∃ u, exec .transferStart s = .next u ∧
      let chosen (j : SettleJob) : Prop := u.body = s.body ∧
        (s.port.busy = none → u.port.busy = some (startedTransfer s (.settle j)) ∧ u.port.settleReq = none) ∧
        (s.port.busy ≠ none → u.port.busy = s.port.busy ∧ u.port.settleReq = some j)
      (∀ before w after, s.sessions.endWords = before ++ w :: after → (∀ x ∈ before, inHand x.cell) →
        ¬inHand w.cell → chosen (.endWord w)) ∧
      (∀ o c forLink, noWord → s.context o = some c → c.progressDue = true →
        (∀ o' c', o' < o → s.context o' = some c' → c'.progressDue = false) → (forLink = true ↔ linkWaits c.cell) →
        chosen (.progress o c.progressWaiter forLink) ∧ u.context o = some { c with progressDue := false }) ∧
      (∀ o e forLink, noWord → noCopy → s.entryAt o = some e → e.progressDue = true →
        (∀ o' e', o' < o → s.entryAt o' = some e' → e'.progressDue = false) → (forLink = true ↔ linkWaits e.cell) →
        chosen (.standing o forLink) ∧ u.entryAt o = some { e with progressDue := false }) ∧
      (∀ o j, noWord → noCopy → noStanding → receiptDue o j → (∀ o' j', o' < o → ¬receiptDue o' j') →
        chosen j ∧
        (j = .receipt o → u.context o = (s.context o).map fun c => { c with retryDue := false }) ∧
        (j = .givenUp o → u.context o = (s.context o).map fun c =>
          { c with givenUp := c.givenUp.map fun g => { g with retryDue := false } })) ∧
      (noWord → noCopy → noStanding → (∀ o j, ¬receiptDue o j) → Ends s u ∧ u.port.settleReq = none)) ∧
  (∀ (s : State) (j : SettleJob), s.port.settleReq = some j →
    let gone :=
      match j with
      | .endWord _ => False
      | .progress o _ _ => s.context o = none
      | .standing o _ => s.entryAt o = none
      | .receipt o => ∀ c, s.context o = some c → c.phase.isSettling = false
      | .givenUp o => ∀ c, s.context o = some c → c.givenUp = none
    gone → ∃ u, exec .transferStart s = .next u ∧
      exec .transferStart { s with port := { s.port with settleReq := none } } = .next u) ∧
  ∀ s : State, s.port.busy = none →
    ∃ u, exec .transferStart s = .next u ∧
      (∀ j, s.port.settleReq = some j → j.owned s = true →
        u.port.busy = some (startedTransfer s (.settle j)) ∧ u.port.settleReq = none ∧ u.body = s.body) ∧
      (s.port.settleReq = none → s.nextEndWord = none → s.nextProgress = none → s.nextStanding = none →
        s.nextReceipt = none → (∀ c o r, s.orders.unit ≠ .waiting c o r true .nothing) →
        (∀ j, s.port.orderReq = some j →
          u.port.busy = some (startedTransfer s (.order j)) ∧ u.port.orderReq = none ∧ u.body = s.body) ∧
        (∀ j, s.port.orderReq = none → s.port.journalReq = some j → s.journal.writer ≠ .idle →
          u.port.busy = some (startedTransfer s (.journal j)) ∧ u.port.journalReq = none ∧ u.body = s.body) ∧
        (∀ p, s.port.orderReq = none → s.port.journalReq = none → s.port.surveyReq = some p → s.journal.queue = [] →
          u.port.busy = some (startedTransfer s (.survey p)) ∧ u.port.surveyReq = none ∧ u.body = s.body))

/-- The Order Unit's writes (R16, R10, R14, 12.1, 12.4): each is a first word of its cell, ownership value, outcome code and
two bytes of 0. TAKEN lets an order that waits for nothing else be answered, or its tariff record be read; the answer write
ends the order with the ORDER notice; the WITHDRAWN write of the oldest listed cell is requested, whatever the cell holds (for one
that a reset left LIVE, where R190 says otherwise: log 45, DESIGN CHOICE), and its end takes the index from the list with the
ORDER notice. -/
def Obligations.OrderUnitWrites : Prop :=
  (∀ (s : State) (c : CellIndex) (r : OrderOutcome) (f : Ownership),
    let taken := startedTransfer s (.order (.writeTaken c))
    let answer := startedTransfer s (.order (.writeAnswer c r f))
    let withdrawn := startedTransfer s (.order (.writeWithdrawn c))
    taken.offset = 0x80 * c.val ∧ answer.offset = 0x80 * c.val ∧ withdrawn.offset = 0x80 * c.val ∧
    taken.data = [2, 0, 0, 0] ∧ withdrawn.data = [5, 0, 0, 0] ∧
    answer.data =
      [match f with
       | .host => 0
       | .posted => 1
       | .taken => 2
       | .live => 3
       | .done => 4
       | .withdrawn => 5,
       match r with
       | .none => 0
       | .ok => 1
       | .settled => 2
       | .cancelled => 3
       | .unused => 4
       | .badKind => 5
       | .badField => 6
       | .busFault => 7
       | .refusedBusy => 8
       | .refusedTariff => 9
       | .refusedHold => 10
       | .refusedFull => 11
       | .noPredecessor => 12
       | .noSession => 13
       | .alreadyClosing => 14
       | .belowSpent => 15
       | .notHeld => 16
       | .notOut => 17, 0, 0]) ∧
  (∀ (s : State) (tr : Transfer) (cell : CellIndex) (o : OrderPart) (r : OrderOutcome) (wait : Wait),
    UnderWay s tr (.order (.writeTaken cell)) → s.orders.unit = .waiting cell o r false wait →
    ∃ u, exec .takenWriteDone s = .next u ∧ Ends (completeTransfer tr s) u ∧
      (wait = .nothing → Answers u cell o r) ∧
      (∀ i, wait = .tariffRecord i →
        Asks u (.order (.readTariff i)) ∧ u.orders.unit = .waiting cell o r true wait) ∧
      (∀ out, wait = .progressCopy out → u.orders.unit = .waiting cell o r true wait) ∧
      (wait = .cellCopy → u.orders.unit = .waiting cell o r true wait)) ∧
  (∀ (s : State) (tr : Transfer) (cell : CellIndex) (r : OrderOutcome) (f : Ownership),
    UnderWay s tr (.order (.writeAnswer cell r f)) →
    ∃ u, exec .answerWriteDone s = .next u ∧ u.orders.unit = .idle ∧
      Ends { completeTransfer tr s with control := { s.control with notice := s.control.notice ||| 0x01#8 } } u) ∧
  (∀ (s : State) (cell : CellIndex) (rest : List CellIndex),
    s.orders.unit = .idle → s.orders.withdrawList = cell :: rest → s.control.partState ≠ .stopped →
    ∃ u, exec .withdrawStart s = .next u ∧ u.orders.unit = .withdrawing cell ∧
      Asks u (.order (.writeWithdrawn cell)) ∧ u.body = s.body) ∧
  ∀ (s : State) (tr : Transfer) (cell : CellIndex), UnderWay s tr (.order (.writeWithdrawn cell)) →
    ∃ u, exec .withdrawnWriteDone s = .next u ∧ u.orders.unit = .idle ∧
      Ends
        { completeTransfer tr s with
          control := { s.control with notice := s.control.notice ||| 0x01#8 },
          orders := { s.orders with withdrawList := s.orders.withdrawList.filter (· ≠ cell) } } u

/-- A progress copy and a STANDING copy (R44 to R46, R146): the write changes nothing but memory and the waits it was made
for; an OPEN, a SYNC or a LINK whose wait it releases is answered where its TAKEN write is done, and waits for that write alone
where it is not (R16). A copy that was not requested for a waiter, or is another outlet's, leaves its wait (R45). Either copy
fills the progress part of its cell as 12.4 gives, with the values at its start (R43, R44, R146); that the bits of offsets 0x22
and 0x23 which no field names are 0 is the model's (log 40, DESIGN CHOICE). -/
def Obligations.CopiesCompleted : Prop :=
  (∀ (s : State) (o : Outlet) (c : Context) (forContext forLink : Bool), s.context o = some c →
    let w := startedTransfer s (.settle (.progress o forContext forLink))
    let sum (v : Vector Nat 4) := min max32 (v[0] + v[1] + v[2] + v[3])
    w.offset = 0x80 * c.cell.val + 0x20 ∧ w.data.length = 32 ∧
    HasField w.data 0 1
      (match c.phase with
       | .armed _ => 1
       | .active => 2
       | .idle => 3
       | .drained => 4
       | .held .. => 5
       | .closing .. => 6
       | .settling .. => 7) ∧
    HasField w.data 1 1 o.val ∧
    HasField w.data 2 1
      (c.priority.val + 16 *
        (match c.phase with
         | .held _ .stale _ => 1
         | .held _ .meter _ => 2
         | .held _ .outletFault _ => 3
         | _ => 0) + bit c.auditHeld 7) ∧
    HasField w.data 3 1 (bit c.idleCapped 0 + bit c.meterRebased 1 + bit c.overdrawn 2 + 16 * s.ceiling o) ∧
    HasField w.data 4 1 (s.grant o + 16 * s.want o) ∧ HasField w.data 5 3 c.hold ∧
    HasField w.data 8 4 ((c.started.map fun x => x.serial.toNat).getD 0) ∧
    HasField w.data 12 4 ((c.started.map fun x => x.time.toNat).getD 0) ∧
    HasField w.data 16 4 s.control.seconds.toNat ∧ HasField w.data 20 4 c.chargedTotal ∧ HasField w.data 24 4 (sum c.energy) ∧
    HasField w.data 28 4 (sum c.pendingEnergy)) ∧
  (∀ (s : State) (o : Outlet) (e : StandbyEntry) (forLink : Bool), s.entryAt o = some e →
    let w := startedTransfer s (.settle (.standing o forLink))
    w.offset = 0x80 * e.cell.val + 0x20 ∧ w.data.length = 32 ∧ HasField w.data 0 1 8 ∧ HasField w.data 1 1 o.val ∧
    HasField w.data 2 1 e.priority.val ∧ HasField w.data 3 2 0 ∧ HasField w.data 5 3 e.hold ∧ HasField w.data 8 8 0 ∧
    HasField w.data 16 4 s.control.seconds.toNat ∧ HasField w.data 20 12 0) ∧
  (∀ (s : State) (tr : Transfer) (o : Outlet) (forContext forLink : Bool),
    UnderWay s tr (.settle (.progress o forContext forLink)) →
    ∃ u, exec .progressWriteDone s = .next u ∧
      Ends
        (if forContext then mapContext o (fun c => { c with progressWaiter := false }) (completeTransfer tr s)
          else completeTransfer tr s) u ∧
      (∀ cell order r taken out, s.orders.unit = .waiting cell order r taken (.progressCopy out) →
        (forContext = true ∧ out = o → Released u cell order r taken) ∧
        (forContext = false ∨ out ≠ o → u.orders.unit = s.orders.unit)) ∧
      (∀ cell order r taken, s.orders.unit = .waiting cell order r taken .cellCopy →
        (forLink = true → Released u cell order r taken) ∧ (forLink = false → u.orders.unit = s.orders.unit))) ∧
  ∀ (s : State) (tr : Transfer) (o : Outlet) (forLink : Bool), UnderWay s tr (.settle (.standing o forLink)) →
    ∃ u, exec .standingCopyDone s = .next u ∧ Ends (completeTransfer tr s) u ∧
      ∀ cell order r taken, s.orders.unit = .waiting cell order r taken .cellCopy →
        (forLink = true → Released u cell order r taken) ∧ (forLink = false → u.orders.unit = s.orders.unit)

/-- A receipt written (R47, R157, R136): the context VACANT with a ceiling of 0, its end word SETTLED queued, and its
standing entry, if there is one, released with an end word UNUSED; a SYNC that waits for its copy waits no longer (R45), nor
does the LINK in hand whose entry is released (R146; no copy is under way at this event, log 31, DEDUCED), while a LINK of another
cell waits on. A given-up receipt written (R152): it leaves the context
and its end word is queued; a DRAINED session is examined for handover (R148), and another stays as it was. An end word
written (R49): the entry leaves the queue, and RECEIPT is raised for SETTLED, ORDER for the others. A receipt fills the
receipt part of its cell as 12.4 gives, a settling one with the context's values at its start, a given-up one with those it
holds (R47, R149); an end word fills the first word (12.1). That a receipt's energy total stays at 2^32 − 1 is log 25; that
bits 5 to 7 of its offset 0x42 are 0 is the model's (log 40, DESIGN CHOICE). -/
def Obligations.ReceiptsAndEndWordsCompleted : Prop :=
  (∀ (s : State) (o : Outlet) (c : Context), s.context o = some c →
    let filled (w : Transfer) (cell : CellIndex) (r : Receipt) : Prop :=
      w.offset = 0x80 * cell.val + 0x40 ∧ w.data.length = 64 ∧
      HasField w.data 0 1
        (match r.reason with
         | .stopped => 1
         | .unplugged => 2
         | .purse => 3
         | .fault => 4
         | .estop => 5
         | .handover => 6) ∧
      HasField w.data 1 1 r.outlet.val ∧
      HasField w.data 2 1
        (bit r.idleCapped 0 + bit r.meterRebased 1 + bit r.finalUnconfirmed 2 + bit r.overdrawn 3 + bit r.unsaved 4) ∧
      HasField w.data 3 1 r.rejected ∧ HasField w.data 4 4 r.serial.toNat ∧ HasField w.data 8 4 r.startTime.toNat ∧
      HasField w.data 12 4 r.closeTime.toNat ∧ HasField w.data 16 4 r.reference.toNat ∧ HasField w.data 20 4 r.hold ∧
      HasField w.data 24 4 r.startFee ∧ HasField w.data 28 4 r.energyCharge ∧ HasField w.data 32 4 r.idleCharge ∧
      HasField w.data 36 4 r.total ∧ HasField w.data 40 4 r.overdraw ∧ HasField w.data 44 4 r.energy[0] ∧
      HasField w.data 48 4 r.energy[1] ∧ HasField w.data 52 4 r.energy[2] ∧ HasField w.data 56 4 r.energy[3] ∧
      HasField w.data 60 4 (min max32 (r.energy[0] + r.energy[1] + r.energy[2] + r.energy[3]))
    (∀ g, c.givenUp = some g → filled (startedTransfer s (.settle (.givenUp o))) g.cell g.receipt) ∧
    ∀ reason closeTime, c.phase = .settling reason closeTime →
      filled (startedTransfer s (.settle (.receipt o))) c.cell
        { reason := reason, outlet := o, idleCapped := c.idleCapped, meterRebased := c.meterRebased,
          finalUnconfirmed := c.finalUnconfirmed, overdrawn := c.overdrawn, unsaved := c.unsaved,
          rejected := c.rejected, serial := (c.started.map Started.serial).getD 0,
          startTime := (c.started.map Started.time).getD 0, closeTime := closeTime, reference := c.reference,
          hold := c.hold, startFee := c.startFeeCharged, energyCharge := c.energyCharge, idleCharge := c.idleCharge,
          total := c.chargedTotal, overdraw := c.overdraw, energy := c.energy }) ∧
  (∀ (s : State) (c : CellIndex) (r : OrderOutcome),
    let w := startedTransfer s (.settle (.endWord { cell := c, outcome := r }))
    w.offset = 0x80 * c.val ∧ (r = .settled → w.data = [4, 2, 0, 0]) ∧ (r = .cancelled → w.data = [4, 3, 0, 0]) ∧
    (r = .unused → w.data = [4, 4, 0, 0])) ∧
  (∀ (s : State) (tr : Transfer) (o : Outlet) (c : Context), UnderWay s tr (.settle (.receipt o)) →
    s.context o = some c → c.phase.isSettling = true →
    ∃ u, exec .receiptWriteDone s = .next u ∧ u.context o = none ∧ u.ceiling o = 0 ∧
      (∀ o', o' ≠ o → (u.context o').map Context.body = (s.context o').map Context.body) ∧
      (∀ cell order r taken, s.orders.unit = .waiting cell order r taken (.progressCopy o) →
        Released u cell order r taken) ∧
      (∀ cell order r taken, s.orders.unit = .waiting cell order r taken .cellCopy →
        (c.link = some cell → s.entryOf cell ≠ none → Released u cell order r taken) ∧
        (c.link ≠ some cell ∨ s.entryOf cell = none → u.orders.unit = s.orders.unit)) ∧
      ((∀ l, c.link = some l → s.entryOf l = none) →
        u.sessions.endWords = s.sessions.endWords ++ [{ cell := c.cell, outcome := .settled }]) ∧
      ∀ l e, c.link = some l → s.entryOf l = some e →
        u.entryOf l = none ∧
        u.sessions.endWords = s.sessions.endWords ++
          [{ cell := c.cell, outcome := .settled }, { cell := l, outcome := .unused }]) ∧
  (∀ (s : State) (tr : Transfer) (o : Outlet) (c : Context) (g : GivenUp), UnderWay s tr (.settle (.givenUp o)) →
    s.context o = some c → c.givenUp = some g →
    ∃ u, exec .givenUpReceiptDone s = .next u ∧
      u.sessions.endWords = s.sessions.endWords ++ [{ cell := g.cell, outcome := .settled }] ∧
      (c.phase ≠ .drained →
        let r := setContext o (some { c with givenUp := none }) (completeTransfer tr s)
        Ends
          { r with sessions := { r.sessions with
              endWords := s.sessions.endWords ++ [{ cell := g.cell, outcome := .settled }] } } u) ∧
      (c.phase = .drained →
        let d := { c with givenUp := none }
        (c.auditHeld = true ∨ NoSuccessor s d → Stands u o d) ∧
        ∀ l e, c.auditHeld = false → c.link = some l → s.entryOf l = some e → HandedOver s o d e false u)) ∧
  ∀ (s : State) (tr : Transfer) (w : EndWord), UnderWay s tr (.settle (.endWord w)) →
    ∃ u, exec .endWordDone s = .next u ∧
      Ends
        { completeTransfer tr s with
          control := { s.control with
            notice := s.control.notice ||| (if w.outcome = .settled then 0x02#8 else 0x01#8) },
          sessions := { s.sessions with endWords := s.sessions.endWords.erase w } } u

/-- The Journal Writer (R173, R174): an EMPTY slot gives the write of the head entry with the next sequence number and the
gap count; a slot that is not EMPTY drops the entry into the gap; a written entry moves slot and sequence on, lowers the gap
by what it carried and raises JOURNAL, and GAP for a carried gap; then the header, which is for a BUS_FAULT entry exactly where
that entry was one (R170, R175), and then the next entry or IDLE. In whatever
event an entry comes to an IDLE writer, it enters CHECKING and requests the read of the next slot (R172). An entry
fills the next slot, and the header its 16 bytes, as 12.6 and R192 give. -/
def Obligations.JournalWriter : Prop :=
  let busFaultHead (s : State) : Bool :=
    match s.journal.queue with
    | { kind := .busFault .., .. } :: _ => true
    | _ => false
  (∀ (s : State) (e : JournalEntry) (rest : List JournalEntry) (seq : Word) (carried : Nat),
    s.journal.queue = e :: rest → s.journal.writer = .writing seq carried →
    let w := startedTransfer s (.journal .writeEntry)
    let b := w.data
    let wide (n : Nat) := min 16777215 n
    let stands (kind : Nat) (fields : Prop) : Prop := HasField b 0 1 (1 + 8 * kind) ∧ fields
    let resume (r : ResumeState) : Nat :=
      match r with
      | .active => 2
      | .idle => 3
      | .drained => 4
    let held (r : HeldReason) : Nat :=
      match r with
      | .stale => 1
      | .meter => 2
      | .outletFault => 3
    w.offset = 0x4210 + 0x10 * s.journal.nextSlot.val ∧ b.length = 16 ∧ HasField b 1 1 seq.toNat ∧
    HasField b 2 2 (min 65535 carried) ∧ HasField b 4 4 e.seconds.toNat ∧
    (match e.kind with
     | .plug o => stands 1 (HasField b 8 1 o.val ∧ HasField b 9 7 0)
     | .unplug o => stands 2 (HasField b 8 1 o.val ∧ HasField b 9 7 0)
     | .vehicleDone o => stands 3 (HasField b 8 1 o.val ∧ HasField b 9 7 0)
     | .lineStale k => stands 4 (HasField b 8 1 k.val ∧ HasField b 9 7 0)
     | .lineFresh k n => stands 5 (HasField b 8 1 k.val ∧ HasField b 9 1 n ∧ HasField b 10 6 0)
     | .lineOverrun k n => stands 6 (HasField b 8 1 k.val ∧ HasField b 9 1 0 ∧ HasField b 10 2 n ∧ HasField b 12 4 0)
     | .moduleOut m r o => stands 7
        (HasField b 8 1 m.val ∧
         HasField b 9 1
           (match r with
            | .fault => 1
            | .noAck => 2
            | .retired => 3) ∧
         HasField b 10 1 ((o.map Fin.val).getD 0xFF) ∧ HasField b 11 5 0)
     | .held o r t => stands 8 (HasField b 8 1 o.val ∧ HasField b 9 1 (held r) ∧ HasField b 10 1 (resume t) ∧ HasField b 11 5 0)
     | .recovered o r t n => stands 9
        (HasField b 8 1 o.val ∧ HasField b 9 1 (held r) ∧ HasField b 10 1 (resume t) ∧ HasField b 11 1 n ∧ HasField b 12 4 0)
     | .drained o c h t => stands 10 (HasField b 8 1 o.val ∧ HasField b 9 1 c.val ∧ HasField b 10 3 h ∧ HasField b 13 3 (wide t))
     | .handover o c d t => stands 11
        (HasField b 8 1 o.val ∧ HasField b 9 1 c.val ∧ HasField b 10 1 d.val ∧ HasField b 11 1 0 ∧ HasField b 12 4 t)
     | .auditHold o c h t => stands 12
        (HasField b 8 1 o.val ∧ HasField b 9 1 c.val ∧ HasField b 10 3 h ∧ HasField b 13 3 (wide t))
     | .estop p a => stands 13 (HasField b 8 1 p.val ∧ HasField b 9 1 (bit a 0) ∧ HasField b 10 6 0)
     | .siteOver l p => stands 14 (HasField b 8 2 l ∧ HasField b 10 2 p ∧ HasField b 12 4 0)
     | .meterDrift o d p u => stands 15
        (HasField b 8 1 o.val ∧ HasField b 9 1 p.val ∧ HasField b 10 3 (wide d) ∧ HasField b 13 3 (wide u))
     | .busFault r d off a => stands 16
        (HasField b 8 1
           (match r with
            | .settlementWriter => 0
            | .orderUnit => 1
            | .journalWriter => 2
            | .surveyWriter => 3) ∧
         HasField b 9 1 (bit d 0) ∧ HasField b 10 2 off ∧ HasField b 12 4 a.toNat)
     | .halted => stands 17 (HasField b 8 8 0))) ∧
  (∀ (s : State) (seq : Word) (slot : JournalSlot) (gap : Nat),
    let w := startedTransfer s (.journal (.writeHeader seq slot gap))
    w.offset = 0x4200 ∧ w.data.length = 16 ∧ HasField w.data 0 4 seq.toNat ∧ HasField w.data 4 4 slot.val ∧
    HasField w.data 8 4 gap ∧ HasField w.data 12 4 0) ∧
  (∀ (c : Instr) (s u : State), exec c s = .next u → s.journal.writer = .idle → s.journal.queue = [] →
    u.journal.queue ≠ [] → u.journal.writer = .checking ∧ Asks u (.journal .readSlot)) ∧
  (∀ s : State, s.journal.writer = .idle → s.journal.queue ≠ [] →
    ∃ u, exec .transferStart s = .next u ∧ u.journal = { s.journal with writer := .checking } ∧
      Asks u (.journal .readSlot) ∧ u.body = s.body) ∧
  (∀ (s : State) (tr : Transfer) (w : Word), UnderWay s tr (.journal .readSlot) → tr.data = [] →
    ∃ u, exec (.journalSlotReadDone w) s = .next u ∧
      (w.toNat % 8 = 0 →
        u.journal = { s.journal with writer := .writing s.journal.nextSeq s.journal.gap } ∧
        Asks u (.journal .writeEntry) ∧ u.body = s.body) ∧
      (w.toNat % 8 ≠ 0 →
        let j := { s.journal with queue := s.journal.queue.tail, gap := min max32 (s.journal.gap + 1) }
        u.journal = { j with writer := .heading (busFaultHead s) } ∧
        Asks u (.journal (.writeHeader j.nextSeq j.nextSlot j.gap)) ∧
        u.body = ({ s with journal := j } : State).body)) ∧
  (∀ (s : State) (tr : Transfer) (seq : Word) (carried : Nat), UnderWay s tr (.journal .writeEntry) →
    s.journal.writer = .writing seq carried →
    ∃ u, exec .journalEntryWriteDone s = .next u ∧
      let j :=
        { s.journal with
          queue := s.journal.queue.tail, gap := s.journal.gap - carried, nextSeq := s.journal.nextSeq + 1,
          nextSlot := s.journal.nextSlot + 1 }
      u.journal = { j with writer := .heading (busFaultHead s) } ∧
      Asks u (.journal (.writeHeader j.nextSeq j.nextSlot j.gap)) ∧
      u.body =
        ({ completeTransfer tr s with
            journal := j,
            control := { s.control with
              notice := s.control.notice ||| (if 0 < carried then 0x0C#8 else 0x04#8) } } : State).body) ∧
  ∀ (s : State) (tr : Transfer) (seq : Word) (slot : JournalSlot) (gap : Nat),
    UnderWay s tr (.journal (.writeHeader seq slot gap)) →
    ∃ u, exec .journalHeaderWriteDone s = .next u ∧ Ends (completeTransfer tr s) u ∧
      (s.journal.queue ≠ [] → u.journal.writer = .checking ∧ Asks u (.journal .readSlot)) ∧
      (s.journal.queue = [] → s.control.partState ≠ .halting → u.journal.writer = .idle)

/-- What the port does with every bus error (R170): the words before the refused one stand in memory and nothing else does,
BUS_FAULT is raised, and the entry is given for every transfer but those of the Journal Writer. Which word is refused is an
operand (log 12). -/
def Obligations.BusErrorsReported : Prop :=
  ∀ (words : Nat) (s : State) (tr : Transfer), s.port.busy = some tr →
    ∃ u, exec (.busError words) s = .next u ∧ u.noticed .busFault = true ∧
      (let made := if tr.job.isWrite then tr.data.take (4 * min words (tr.length / 4 - 1)) else []
       (∀ i (h : i < made.length), u.mem.read (tr.address.toNat + i) = some made[i]) ∧
       ∀ a, a < tr.address.toNat ∨ tr.address.toNat + made.length ≤ a → u.mem.read a = s.mem.read a) ∧
      ((∀ j, tr.job ≠ .journal j) →
        (s.journal.queue.length < 8 →
          { kind := .busFault tr.job.requester tr.job.isWrite tr.offset tr.address, seconds := s.control.seconds } ∈
            u.journal.queue) ∧
        (8 ≤ s.journal.queue.length → s.control.partState ≠ .halting →
          u.journal.queue = s.journal.queue ∧ u.journal.gap = min max32 (s.journal.gap + 1)))

/-- The fallbacks of R170's table: the order dropped, the answer gone on to, the index gone from the list, the slot unchanged
and TARIFF answered BUS_FAULT, the waits released as by the copy itself (R45, R146), UNSAVED set, the end word gone without its notice, the journal entry
dropped and counted in the gap with its header requested, which is for a BUS_FAULT entry where the dropped one was (R175), the
survey answered BUS_FAULT. -/
def Obligations.BusErrorFallbacks : Prop :=
  ∀ (words : Nat) (s : State) (tr : Transfer), s.port.busy = some tr →
    ∃ u, exec (.busError words) s = .next u ∧
      (∀ c, tr.job = .order (.readOrder c) → u.orders = { s.orders with unit := .idle }) ∧
      (∀ c cell o r wait, tr.job = .order (.writeTaken c) → s.orders.unit = .waiting cell o r false wait →
        (wait = .nothing → Answers u cell o r) ∧
        (wait ≠ .nothing → u.orders.unit = .waiting cell o r true wait) ∧
        (∀ i, wait = .tariffRecord i → Asks u (.order (.readTariff i))) ∧
        (wait = .survey → Asks u (.survey 0))) ∧
      (∀ c r f, tr.job = .order (.writeAnswer c r f) →
        u.orders = { s.orders with unit := .idle } ∧ u.noticed .order = s.noticed .order) ∧
      (∀ c, tr.job = .order (.writeWithdrawn c) →
        u.orders = { s.orders with unit := .idle, withdrawList := s.orders.withdrawList.filter (· ≠ c) } ∧
        u.noticed .order = s.noticed .order) ∧
      (∀ i cell o r wait, tr.job = .order (.readTariff i) → s.orders.unit = .waiting cell o r true wait →
        Answers u cell o .busFault ∧ u.sessions.tariffs = s.sessions.tariffs) ∧
      (∀ o forContext forLink, tr.job = .settle (.progress o forContext forLink) →
        (∀ c, s.context o = some c → (u.context o).map Context.body =
          some { c with progressWaiter := c.progressWaiter && !forContext }.body) ∧
        (∀ cell order r taken out, s.orders.unit = .waiting cell order r taken (.progressCopy out) →
          (forContext = true ∧ out = o → Released u cell order r taken) ∧
          (forContext = false ∨ out ≠ o → u.orders.unit = s.orders.unit)) ∧
        ∀ cell order r taken, s.orders.unit = .waiting cell order r taken .cellCopy →
          (forLink = true → Released u cell order r taken) ∧ (forLink = false → u.orders.unit = s.orders.unit)) ∧
      (∀ o forLink cell order r taken, tr.job = .settle (.standing o forLink) →
        s.orders.unit = .waiting cell order r taken .cellCopy →
        (forLink = true → Released u cell order r taken) ∧ (forLink = false → u.orders.unit = s.orders.unit)) ∧
      (∀ o c, tr.job = .settle (.receipt o) → s.context o = some c →
        (u.context o).map Context.body = some { c with unsaved := true }.body) ∧
      (∀ o c g, tr.job = .settle (.givenUp o) → s.context o = some c → c.givenUp = some g →
        (u.context o).map Context.body =
          some { c with givenUp := some { g with receipt := { g.receipt with unsaved := true } } }.body) ∧
      (∀ w, tr.job = .settle (.endWord w) →
        u.sessions.endWords = s.sessions.endWords.erase w ∧ u.noticed .order = s.noticed .order ∧
        u.noticed .receipt = s.noticed .receipt) ∧
      (∀ e rest, tr.job = .journal .readSlot ∨ tr.job = .journal .writeEntry →
        s.journal.queue = e :: rest → s.journal.queue.length < 8 →
        (let entry := .busFault .journalWriter tr.job.isWrite tr.offset tr.address
         let isBusFault := match e.kind with
           | .busFault .. => true
           | _ => false
         u.journal.queue = rest ++ (if isBusFault then [] else [{ kind := entry, seconds := s.control.seconds }]) ∧
         u.journal.writer = .heading isBusFault) ∧
        Asks u (.journal (.writeHeader s.journal.nextSeq s.journal.nextSlot (min max32 (s.journal.gap + 1)))) ∧
        u.journal.gap = min max32 (s.journal.gap + 1) ∧ u.journal.nextSlot = s.journal.nextSlot ∧
        u.journal.nextSeq = s.journal.nextSeq) ∧
      (∀ seq slot gap b, tr.job = .journal (.writeHeader seq slot gap) → s.journal.writer = .heading b →
        s.journal.queue.length < 8 → s.control.partState ≠ .halting →
        u.journal.queue = s.journal.queue ++
          (if b then [] else
            [{ kind := .busFault .journalWriter true tr.offset tr.address, seconds := s.control.seconds }]) ∧
        u.journal.gap = s.journal.gap) ∧
      (∀ p cell o r wait, tr.job = .survey p → s.orders.unit = .waiting cell o r true wait →
        Answers u cell o .busFault)

/-! ### The lines -/

/-- POLL_DUE and POLL_SENT (R80 to R82, R96): a WAITING line that is receiving nothing sends its poll with an empty reply
slot, recording sequence number, masks, band and time, and is WITHHELD with a full one; in another state nothing changes.
After the last byte the reply window of 25 ms begins, or, after a LINE order, the line waits 25 ms for its next poll, which a
band edge marked since brings at once (R83). That
the poll's last byte comes 320 µs after its first is log 30. While a poll is sent, the line carries the eight bytes of 12.8
from its record, most significant byte first, under the CRC of R77 (R193); the mask of an outlet names its GRANTED modules
(R54). -/
def Obligations.PollsSent : Prop :=
  (∀ (l : Line) (r : PollRecord) (b : Bool), l.state = .sending b → l.outstanding = some r →
    ∃ m0h m0l m1h m1l c1 c0 : Byte, l.sendingFrame = some [0x5C, r.seq, m0h, m0l, m1h, m1l, c1, c0] ∧
      m0h ++ m0l = r.mask0.setWidth 16 ∧ m1h ++ m1l = r.mask1.setWidth 16 ∧
      c1 ++ c0 = crc [r.seq, m0h, m0l, m1h, m1l]) ∧
  (∀ (l : Line), (∀ b, l.state ≠ .sending b) → l.sendingFrame = none) ∧
  crc [0x31, 0x32, 0x33, 0x34, 0x35, 0x36, 0x37, 0x38, 0x39] = 0x29B1#16 ∧
  (∀ (s : State) (o : Outlet) (p : Fin 10),
    (s.mask o).getLsbD p.val = decide (s.module ⟨o.val / 8 * 10 + p.val, by omega⟩ = .granted o)) ∧
  (∀ (k : LineNo) (s : State) (d : Time), (s.line k).due = some d →
    let l := s.line k
    let now := max s.now d
    ∃ u, exec (.pollDue k) s = .next u ∧
      (l.state = .waiting → l.receiving = none → l.replySlot = none →
        Ends
          (setLine k
            { l with
              state := .sending false, bandEdge := false, seq := l.seq + 1,
              due := some (now + 1000 * s.control.settings.pollPeriod),
              outstanding := some
                { seq := l.seq, mask0 := s.mask (outletA k), mask1 := s.mask (outletB k), band := s.sessions.band,
                  sendTime := now } }
            (atTime d s)) u) ∧
      (l.state = .waiting → l.receiving = none → l.replySlot ≠ none →
        Ends (setLine k { l with state := .withheld } (atTime d s)) u) ∧
      (l.state ≠ .waiting ∨ l.receiving ≠ none → Ends (atTime d s) u)) ∧
  ∀ (k : LineNo) (s : State) (p : PollRecord), (s.line k).outstanding = some p →
    let l := s.line k
    let now := max s.now (p.sendTime + 320)
    ∃ u, exec (.pollSent k) s = .next u ∧
      (l.state = .sending false →
        Ends (setLine k { l with state := .awaiting (now + 25000) } (atTime (p.sendTime + 320) s)) u) ∧
      (l.state = .sending true →
        let at' := atTime (p.sendTime + 320) s
        let waits := { l with state := .waiting, outstanding := none, due := some (now + 25000) }
        Ends (setLine k (waits.seenTo k at') at') u) ∧
      ((∀ r, l.state ≠ .sending r) → Ends s u)

/-- Failed exchanges (R87, R88, R93, R95): the end of the window, a broken frame, a bad CRC of either frame and a wrong
sequence number each raise their own counter, count the poll as missed and leave the line WAITING; a poll that is then due, or a
band edge marked, is sent or withheld in the event (R80, R83), with the masks that stand after it. The fourth miss of a fresh
line, by whichever of them, makes it STALE with its entry, its marks and its ACTIVE, IDLE and DRAINED sessions HELD (R93,
R116), and its CLOSING ones are checked for SETTLING (R41, R42; that a final reading decides over the STALE line is log 36). -/
def Obligations.ExchangesFail : Prop :=
  ∀ (t e : Time) (k : LineNo) (s : State), (s.line k).state = .awaiting e →
    let l := s.line k
    let c := l.counters
    let now := max s.now t
    let fails (l' : Line) (at' : State) (u : State) : Prop :=
      (l.missed ≠ 3 ∨ l.stale = true → Ends (setLine k (l'.failed.seenTo k at') at') u) ∧
      (l.missed = 3 → l.stale = false →
        u.line k = { l'.failed with stale := true }.seenTo k u ∧ (u.line k).stale = true ∧ u.now = at'.now ∧
        (u.line k).missed = 4 ∧ (u.line k).counters = l'.counters ∧ Journaled (.lineStale k) s u ∧
        ∀ o ∈ outletsOf k, (u.report o).lineStale = true ∧ (u.inputs o).lineStale = true ∧
          (∀ c r, s.context o = some c → c.phase.resume? = some r →
            Stands u o { c with phase := .held r .stale false, heldMinutes := 0 } ∧
            Journaled (.held o .stale r) s u) ∧
          ∀ c, s.context o = some c → c.phase.resume? = none → Stands u o (c.judged (s.heldCount o) true))
    (∃ u, exec (.replyWindowEnd k) s = .next u ∧
      fails { l with counters := { c with silentFault := min 65535 (c.silentFault + 1) } } (atTime e s) u ∧
      (l.missed = 3 → l.stale = false → s.journal.queue.length < 8 →
        { kind := .lineStale k, seconds := s.control.seconds } ∈ u.journal.queue)) ∧
    (l.receiving ≠ none → ∃ u, exec (.frameBroken t k) s = .next u ∧
      fails { l with receiving := none, counters := { c with broken := min 65535 (c.broken + 1) } } (atTime t s) u) ∧
    (∀ f : Vector Byte 6, f[0] = 0xE6#8 → frameGood f.toList = false → l.receiving = none ∨ l.receiving = some .alert →
      ∃ u, exec (.alertFrame t k f) s = .next u ∧
        fails { l with receiving := none, counters := { c with crcFault := min 65535 (c.crcFault + 1) } } (atTime t s)
          u) ∧
    ∀ f : Vector Byte 29, f[0] = 0xA3#8 → l.receiving = none ∨ l.receiving = some .reply →
      ∃ u, exec (.replyFrame t k f) s = .next u ∧
        (frameGood f.toList = false →
          fails { l with receiving := none, counters := { c with crcFault := min 65535 (c.crcFault + 1) } } (atTime t s)
            u) ∧
        ∀ p, frameGood f.toList = true → l.outstanding = some p → f[1] ≠ p.seq →
          fails { l with receiving := none, counters := { c with seqFault := min 65535 (c.seqFault + 1) } } (atTime t s)
            u

/-- A good reply (R85, R86, R89, R94): accepted while AWAITING with the recorded sequence number, it fills the reply slot
with its poll's record and its time, clears the missed count and makes a STALE line fresh with its entry, which ends the
holds for STALE of its sessions (R119; two that name one standing entry are left out, log 39); in WAITING and WITHHELD it is
late and is discarded without a count. Its fields are read as 12.8 places them, within their ranges: a plug code of 0 is
UNPLUGGED, 1 is PLUGGED, and any other is FAULT (R86). In each case a poll that is due on the line then WAITING, or a band edge
marked, is sent or withheld in the event (R80, R82, R83): after an accepted reply, withheld. That after a late reply the
band-edge mark of a line already WAITING acts then, as its frame ends, is the model's reading (log 20, DEDUCED). -/
def Obligations.RepliesTaken : Prop :=
  ∀ (t : Time) (k : LineNo) (f : Vector Byte 29) (s : State) (p : PollRecord),
    f[0] = 0xA3#8 → frameGood f.toList = true → (s.line k).receiving = none ∨ (s.line k).receiving = some .reply →
    let l := s.line k
    let now := max s.now t
    let plug (b : Byte) : Plug := if b = 0#8 then .unplugged else if b = 1#8 then .plugged else .fault
    let held : HeldReply :=
      { estop := f[2].getLsbD 0,
        news0 :=
          { plug := plug f[3], complete := f[4] != 0, demand := min 1000 (256 * f[5].toNat + f[6].toNat),
            applied := (f[7] ++ f[8]).setWidth 10, faults := (f[9] ++ f[10]).setWidth 10,
            register := f[11] ++ f[12] ++ f[13] ++ f[14] },
        news1 :=
          { plug := plug f[15], complete := f[16] != 0, demand := min 1000 (256 * f[17].toNat + f[18].toNat),
            applied := (f[19] ++ f[20]).setWidth 10, faults := (f[21] ++ f[22]).setWidth 10,
            register := f[23] ++ f[24] ++ f[25] ++ f[26] },
        poll := p, received := now }
    ∃ u, exec (.replyFrame t k f) s = .next u ∧
      (∀ e, l.state = .awaiting e → l.outstanding = some p → f[1] = p.seq →
        (u.line k).replySlot = some held ∧ (u.line k).missed = 0 ∧ (u.line k).stale = false ∧
        (u.line k).counters = l.counters ∧
        (let taken :=
           { l with
             receiving := none, replySlot := some held, missed := 0, outstanding := none, state := .waiting, stale := false }
         let due := l.bandEdge = true ∨ ∃ d, l.due = some d ∧ d ≤ now
         (due → u.line k = { taken with state := .withheld }) ∧ (¬due → u.line k = taken) ∧
         (l.stale = false → Ends (setLine k (u.line k) (atTime t s)) u)) ∧
        (l.stale = true →
          (∀ o ∈ outletsOf k, (u.report o).lineStale = false ∧ (u.inputs o).lineStale = false) ∧
          (s.journal.queue.length < 8 →
            { kind := .lineFresh k l.missed, seconds := s.control.seconds } ∈ u.journal.queue) ∧
          ∀ o ∈ outletsOf k, ∀ c r d, s.context o = some c → c.phase = .held r .stale d →
            ((s.report o).plug = .fault →
              Stands u o { c with phase := .held r .outletFault d } ∧ Journaled (.held o .outletFault r) s u) ∧
            ((s.report o).plug ≠ .fault → SoleHeir s o c → Recovered s o c r .stale d u))) ∧
      (l.state = .waiting →
        Ends (setLine k ({ l with receiving := none }.seenTo k (atTime t s)) (atTime t s)) u) ∧
      (l.state = .withheld → Ends (setLine k { l with receiving := none } (atTime t s)) u)

/-- Alerts, start bytes, and bad frames outside an exchange (R77, R88 to R91): a good alert fills an empty alert slot and
changes no count, its plug codes 0 UNPLUGGED, 1 PLUGGED and any other FAULT (R86); with a full slot it is dropped and counted,
with one LINE_OVERRUN entry for each filling; in WAITING and WITHHELD a broken frame and a frame of either kind with a bad CRC
raise their counter alone; when a frame ends on a WAITING line, a poll that is due, or a band edge marked, is sent or withheld
in the event (R80, R83; that the band-edge mark of a line already WAITING acts as its frame ends is the model's reading, log 20,
DEDUCED). Outside a frame 0xA3 opens a reply, 0xE6 an alert, and any other byte is discarded; inside one no byte
opens another. In SILENT and SENDING every byte and frame is lost (R77). What a bad frame does while AWAITING is
ExchangesFail. ALERT_SERVICE of a full alert slot is R104's steps in its order: the pedestal status with the check of both
outlets for SETTLING, then for each outlet its plug state and that check, then the slot emptied with its overrun mark, and last the
sessions that the event has started (R29). What each of these steps does from any state is said in AlertsServed. -/
def Obligations.AlertsTaken : Prop :=
  ∀ (t : Time) (k : LineNo) (s : State),
    let l := s.line k
    let at' := atTime t s
    let plug (b : Byte) : Plug := if b = 0#8 then .unplugged else if b = 1#8 then .plugged else .fault
    let becomes (l' : Line) : State := setLine k (l'.seenTo k at') at'
    let crcFault := { l.counters with crcFault := min 65535 (l.counters.crcFault + 1) }
    (l.state = .waiting ∨ l.state = .withheld ∨ (∃ e, l.state = .awaiting e) →
      (∀ f : Vector Byte 6, f[0] = 0xE6#8 → frameGood f.toList = true → l.receiving = none ∨ l.receiving = some .alert →
        ∃ u, exec (.alertFrame t k f) s = .next u ∧
          (l.alertSlot = none →
            Ends
              (becomes
                { l with
                  receiving := none,
                  alertSlot := some
                    { estop := f[1].getLsbD 0, plug0 := plug f[2], plug1 := plug f[3], received := max s.now t } }) u) ∧
          (l.alertSlot ≠ none →
            let n := min 65535 (l.counters.overrun + 1)
            let r := becomes { l with receiving := none, overrunMark := true, counters := { l.counters with overrun := n } }
            (l.overrunMark = true → Ends r u) ∧ (l.overrunMark = false → Ends (give (.lineOverrun k n) r) u))) ∧
      ((∀ e, l.state ≠ .awaiting e) →
        (∀ f : Vector Byte 6, f[0] = 0xE6#8 → frameGood f.toList = false →
          l.receiving = none ∨ l.receiving = some .alert →
          ∃ u, exec (.alertFrame t k f) s = .next u ∧ Ends (becomes { l with receiving := none, counters := crcFault }) u) ∧
        (∀ f : Vector Byte 29, f[0] = 0xA3#8 → frameGood f.toList = false →
          l.receiving = none ∨ l.receiving = some .reply →
          ∃ u, exec (.replyFrame t k f) s = .next u ∧ Ends (becomes { l with receiving := none, counters := crcFault }) u) ∧
        (l.receiving ≠ none →
          ∃ u, exec (.frameBroken t k) s = .next u ∧
            Ends
              (becomes
                { l with
                  receiving := none,
                  counters := { l.counters with broken := min 65535 (l.counters.broken + 1) } }) u)) ∧
      ∀ b : Byte, ∃ u, exec (.frameStart t k b) s = .next u ∧
        (l.receiving = none →
          Ends
            (setLine k
              { l with
                receiving := if b = 0xA3#8 then some .reply else if b = 0xE6#8 then some .alert else none } at') u) ∧
        (l.receiving ≠ none → Ends at' u)) ∧
    (l.state = .silent ∨ (∃ r, l.state = .sending r) →
      (∀ b : Byte, ∃ u, exec (.frameStart t k b) s = .next u ∧ Ends at' u) ∧
      (∀ f : Vector Byte 29, ∃ u, exec (.replyFrame t k f) s = .next u ∧ Ends at' u) ∧
      (∀ f : Vector Byte 6, ∃ u, exec (.alertFrame t k f) s = .next u ∧ Ends at' u) ∧
      ∃ u, exec (.frameBroken t k) s = .next u ∧ Ends at' u) ∧
    ∀ a : HeldAlert, s.nextAlert = some k → l.alertSlot = some a →
      let judge (o : Outlet) (x : State) : State :=
        mapContext o (fun c => c.judged (x.heldCount o) (x.report o).lineStale) x
      let stopped := judge (outletB k) (judge (outletA k) (takeEstop k a.estop at'))
      let first := judge (outletA k) (deliverPlug (outletA k) a.plug0 stopped)
      let second := judge (outletB k) (deliverPlug (outletB k) a.plug1 first)
      let emptied := setLine k { second.line k with alertSlot := none, overrunMark := false } second
      ∃ u, exec (.alertService t) s = .next u ∧
        Ends (endStart at' (outletB k) (endStart at' (outletA k) emptied)) u

/-! ### The Metering Unit -/

/-- REPLY_SERVICE (R102, R103, R107, R109, R111 to R115): with no alert waiting, the first full reply slot after the pointer
is served and emptied, the outlet reports take the news, and each outlet's register is judged: the first reading makes the
baseline valid; a delta within the bound is accepted; a delta above the bound of every peak the event can reach is rejected,
and the third in a row rebases. With an alert waiting, or no reply, nothing is served. The event is R103's steps in its
order: the pedestal status, then for each outlet masks, plug state, complete flag and demand, meter and close, then the slot.
What each step does from any state is said here of the complete flag and demand (R31 to R33), of the meter with the exact
bound of R111 (R109 to R115), of the close (R41, R108) and of the slot (R82); of the pedestal status and the plug state in
AlertsServed; of the masks in ApportionerEvents; of billing in CarryLosesNothing. That the outlets whose close step is still
to come wait for their check is log 23; that the final-reading mark decides over R41's other cases is log 36; that an audit
hold comes before a recovery is log 38; that the due time of a line whose withheld poll waits for the frame being received is the
moment its slot empties is log 21; that the entry to IDLE keeps idle minutes which a RESUME has raised is log 44. -/
def Obligations.RepliesServed : Prop :=
  (∀ (o : Outlet) (complete : Bool) (kW : Nat) (s : State),
    let u := deliverCharge o complete kW s
    OnlyAt o s u ∧ u.report o = { s.report o with complete := complete, demand := kW } ∧
    u.inputs o = { s.inputs o with active := (u.inputs o).active, demand := kW, ceiling := (u.inputs o).ceiling } ∧
    (∀ o', u.grant o' ≤ u.want o') ∧ (s.context o = none → u.context o = none ∧ u.journal = s.journal) ∧
    ∀ c, s.context o = some c →
      (c.phase = .active → complete = true → Stands u o { c with phase := .idle } ∧ Journaled (.vehicleDone o) s u) ∧
      (c.phase = .active → complete = false → u.context o = some c ∧ u.journal = s.journal) ∧
      (c.phase = .idle → complete = false → 0 < kW →
        GoesOn s o { c with phase := .active, idleMinutes := 0 } (s.ceiling o) false u) ∧
      (c.phase = .idle → complete = true ∨ kW = 0 → u.context o = some c ∧ u.journal = s.journal) ∧
      (∀ r reason d, c.phase = .held r reason d →
        u.journal = s.journal ∧
        u.context o = some
          (if r = .active ∧ complete = true then { c with phase := .held .idle reason true }
           else if r = .idle ∧ complete = false ∧ 0 < kW then
             { c with phase := .held .active reason false, idleMinutes := 0 }
           else c)) ∧
      ((∃ start, c.phase = .armed start) ∨ c.phase = .drained ∨ c.phase.isClosing = true ∨ c.phase.isSettling = true →
        u.context o = some c ∧ u.journal = s.journal)) ∧
  (∀ (o : Outlet) (register : Word) (b : Band) (received : Time) (s : State),
    let u := readMeter o register b received s
    let m := s.record o
    let bills : Prop := ∃ c, s.context o = some c ∧ (∀ start, c.phase ≠ .armed start) ∧ c.phase.isSettling = false
    let accepted : MeterRecord :=
      { baseline := register, lastTime := some received, peak := s.heldCount o, rejects := 0, unclaimed := m.unclaimed }
    let recorded (r : MeterRecord) : State :=
      { s with meters := { s.meters with records := Table.set s.meters.records o r } }
    (m.lastTime = none →
      OnlyAt o s u ∧ u.sessions = s.sessions ∧ u.journal = s.journal ∧ u.standby = s.standby ∧
      u.record o = { accepted with peak := (u.record o).peak } ∧
      u.inputs o = { s.inputs o with baselineValid := true } ∧
      (GrantsWithinWants s → (u.record o).peak = s.heldCount o ∧ u.power.passRequest = true)) ∧
    ∀ last, m.lastTime = some last →
      let delta := (register - m.baseline).toNat
      let bound := (m.peak * ((received - last + 999) / 1000) + 71) / 72 + 5
      (delta ≤ bound → bills → u = endHold o .meter (bill o delta b (recorded accepted))) ∧
      (delta ≤ bound → ¬bills →
        let unclaimed := min max32 (m.unclaimed + delta)
        let r := recorded { accepted with unclaimed := unclaimed }
        u = if delta = 0 then r else give (.meterDrift o delta b unclaimed) r) ∧
      (bound < delta →
        (¬bills → u = recorded (if m.rejects < 2 then { m with rejects := m.rejects + 1 } else accepted)) ∧
        ∀ c, s.context o = some c → (∀ start, c.phase ≠ .armed start) → c.phase.isSettling = false →
          let counted := { c with rejected := min 255 (c.rejected + 1) }
          (m.rejects < 2 →
            u = setContext o (some counted) (recorded { m with rejects := m.rejects + 1 })) ∧
          (2 ≤ m.rejects →
            OnlyAt o s u ∧ u.report o = s.report o ∧ u.ceiling o = s.ceiling o ∧
            u.record o = { accepted with peak := (u.record o).peak } ∧
            (∀ r, c.phase.resume? = some r →
              Stands u o { counted with meterRebased := true, phase := .held r .meter false, heldMinutes := 0 } ∧
              Journaled (.held o .meter r) s u) ∧
            (c.phase.resume? = none → u = setContext o (some { counted with meterRebased := true })
              (recorded accepted))))) ∧
  (∀ (o : Outlet) (wasClosing : Bool) (applied : ModuleMask) (s : State),
    let u := closeStep o wasClosing applied s
    ((∀ c, s.context o = some c → c.phase.isClosing = false) → u = s) ∧
    ∀ c reason closeTime, s.context o = some c → c.phase = .closing reason closeTime →
      let final := c.finalReading || (wasClosing && decide (applied = 0 ∧ s.grant o = 0))
      let d := { c with finalReading := final }
      let settled (unconfirmed : Bool) : Context :=
        { if c.auditHeld then d.applyPending else d with
          phase := .settling reason closeTime, finalUnconfirmed := c.finalUnconfirmed || unconfirmed }
      u = setContext o
        (some
          (if s.heldCount o ≠ 0 then d
           else if final then settled false
           else if (s.report o).lineStale = true ∨ 2 ≤ c.closingMinutes then settled true
           else d)) s) ∧
  (∀ (l : List Outlet) (s : State),
    let u := settleOthers l s
    u = { s with sessions := { s.sessions with contexts := u.sessions.contexts } } ∧
    ∀ o, u.context o = if o ∈ l then s.context o else (closeStep o false 0 s).context o) ∧
  (∀ (k : LineNo) (s : State),
    let l := { s.line k with replySlot := none }
    (l.state ≠ .withheld → emptyReplySlot k s = setLine k l s) ∧
    (l.state = .withheld → l.receiving = none →
      emptyReplySlot k s = setLine k
        { l with
          state := .sending false, bandEdge := false, seq := l.seq + 1,
          due := some (s.now + 1000 * s.control.settings.pollPeriod),
          outstanding := some
            { seq := l.seq, mask0 := s.mask (outletA k), mask1 := s.mask (outletB k), band := s.sessions.band,
              sendTime := s.now } } s) ∧
    (l.state = .withheld → l.receiving ≠ none →
      emptyReplySlot k s = setLine k { l with state := .waiting, due := some s.now } s)) ∧
  ∀ (t : Time) (s : State),
    ∃ u, exec (.replyService t) s = .next u ∧
      (s.nextAlert ≠ none ∨ s.nextReply = none → Ends (atTime t s) u) ∧
      ∀ (k : LineNo) (r : HeldReply), s.nextAlert = none → s.nextReply = some k → (s.line k).replySlot = some r →
        u.meters.pointer = k ∧ (u.line k).replySlot = none ∧
        (let a := outletA k
         let b := outletB k
         let wasClosing (o : Outlet) : Bool := (s.context o).any fun c => c.phase.isClosing
         let served (o : Outlet) (toClose : List Outlet) (n : OutletNews) (sent : ModuleMask) (x : State) : State :=
           closeStep o (wasClosing o) n.applied (readMeter o n.register r.poll.band r.received
             (deliverCharge o n.complete n.demand (deliverPlug o n.plug (settleOthers toClose (takeMasks o n sent x)))))
         let begun : State := { atTime t s with meters := { s.meters with pointer := k } }
         Ends
           (emptyReplySlot k (served b [b] r.news1 r.poll.mask1 (served a [a, b] r.news0 r.poll.mask0
             (clearEstop k r.estop (takeEstop k r.estop begun))))) u) ∧
        ∀ (o : Outlet) (n : OutletNews), (o = outletA k ∧ n = r.news0) ∨ (o = outletB k ∧ n = r.news1) →
          let m := s.record o
          let m' := u.record o
          (u.report o).plug = n.plug ∧ (u.report o).complete = n.complete ∧ (u.report o).demand = n.demand ∧
          (m.lastTime = none → m'.baseline = n.register ∧ m'.lastTime = some r.received ∧ m'.rejects = 0 ∧
            (u.inputs o).baselineValid = true) ∧
          ∀ last, m.lastTime = some last →
            let delta := (n.register - m.baseline).toNat
            let elapsed := (r.received - last + 999) / 1000
            let bound (peak : Nat) := (peak * elapsed + 71) / 72 + 5
            (delta ≤ bound m.peak →
              m'.baseline = n.register ∧ m'.lastTime = some r.received ∧ m'.rejects = 0) ∧
            (bound (max m.peak 40) < delta → m.rejects < 2 →
              m'.baseline = m.baseline ∧ m'.lastTime = some last ∧ m'.rejects = m.rejects + 1 ∧
              m'.unclaimed = m.unclaimed) ∧
            (bound (max m.peak 40) < delta → m.rejects = 2 →
              m'.baseline = n.register ∧ m'.lastTime = some r.received ∧ m'.rejects = 0 ∧
              m'.unclaimed = m.unclaimed)

/-- ALERT_SERVICE (R102, R104, R105, R39): the lowest full alert slot is served and emptied with its overrun mark; the plug
states replace those of the reports, whose complete flags and demands stay; an active ESTOP blocks an unblocked pedestal and
closes its sessions, an inactive one clears no block. With no full slot nothing is served. With no new ESTOP, each plug state
acts on its outlet's session as the table of R107 gives (R28, R29, R38, R117 to R119; two sessions that name one standing
entry are left out, log 39). A session that the service closes, and one that it finds in CLOSING, is checked for SETTLING in it
(R37, R41, R42; that a final reading decides over R41's other cases is log 36); of one that an UNPLUGGED closes on a STALE line
this needs the invariant LinesAgree, since the Apportioner's own line-stale input keeps the outlet's modules as they are. A session
that the service starts takes the next serial of the counter, the pedestal's lower outlet first (R24). What an ESTOP status
(R105, R106, R39), a plug state (R23, R107), a start (R28, R29), what R29 puts last in its event, and the end of a hold (R119) do
from any state, in the service of a reply as of an alert, stands first. -/
def Obligations.AlertsServed : Prop :=
  (∀ (k : LineNo) (active : Bool) (s : State),
    let u := takeEstop k active s
    let v := clearEstop k active s
    (active = false ∨ s.blockMark k = true → u = s) ∧ (active = true ∨ s.blockMark k = false → v = s) ∧
    (active = true → s.blockMark k = false →
      u.meters.blocked = Table.set s.meters.blocked k true ∧ Journaled (.estop k true) s u ∧
      (∀ o ∉ outletsOf k, u.context o = s.context o) ∧
      ∀ o ∈ outletsOf k, (u.inputs o).blocked = true ∧ u.grant o = 0 ∧ u.report o = s.report o ∧
        (s.context o = none → u.context o = none) ∧
        ∀ c, s.context o = some c →
          u.context o = some
            (if c.phase.running then
              { c with
                phase := .closing .estop s.control.seconds, closingMinutes := 0, finalReading := false }
             else c)) ∧
    (active = false → s.blockMark k = true →
      v.meters.blocked = Table.set s.meters.blocked k false ∧ Journaled (.estop k false) s v ∧ v.sessions = s.sessions ∧
      (∀ o ∈ outletsOf k, v.inputs o = { s.inputs o with blocked := false }) ∧
      (GrantsWithinWants s → v.power.passRequest = true))) ∧
  (∀ (o : Outlet) (s : State),
    let u := evaluateStart o s
    ((∀ c start, s.context o = some c → c.phase = .armed start → s.startHolds o start = false) → u = s) ∧
    ∀ c start, s.context o = some c → c.phase = .armed start →
      (s.startHolds o start = true ↔ (s.report o).plug = .plugged ∧ (s.report o).lineStale = false ∧
        (start = .onPlug ∨ start = .onBand s.sessions.band)) ∧
      (s.startHolds o start = true →
        let d := c.begun s.sessions.startSerial s.control.seconds
        OnlyAt o s u ∧ u.report o = s.report o ∧ u.sessions.startSerial = s.sessions.startSerial + 1 ∧
        GoesOn s o d (d.purseCeiling s.control.settings s.sessions.band) false u)) ∧
  (∀ (o : Outlet) (before s : State),
    let u := endStart before o s
    let armed := ∃ b start, before.context o = some b ∧ b.phase = .armed start
    (¬armed ∨ (s.report o).complete = false ∨ (∀ c, s.context o = some c → c.phase ≠ .active) → u = s) ∧
    ∀ c, armed → (s.report o).complete = true → s.context o = some c → c.phase = .active →
      OnlyAt o s u ∧ u.report o = s.report o ∧ u.ceiling o = s.ceiling o ∧ u.standby = s.standby ∧
      u.sessions.startSerial = s.sessions.startSerial ∧ u.context o = some { c with phase := .idle } ∧
      u.journal = (give (.vehicleDone o) s).journal) ∧
  (∀ (o : Outlet) (reason : HeldReason) (s : State),
    let u := endHold o reason s
    ((∀ c r d, s.context o = some c → c.phase ≠ .held r reason d) → u = s) ∧
    ∀ c r d, s.context o = some c → c.phase = .held r reason d →
      ((s.report o).lineStale = true →
        u = give (.held o .stale r) (setContext o (some { c with phase := .held r .stale d }) s)) ∧
      ((s.report o).lineStale = false → (s.report o).plug = .fault →
        u = give (.held o .outletFault r) (setContext o (some { c with phase := .held r .outletFault d }) s)) ∧
      ((s.report o).lineStale = false → (s.report o).plug ≠ .fault →
        OnlyAt o s u ∧ u.report o = s.report o ∧ Recovered s o c r reason d u)) ∧
  (∀ (o : Outlet) (p : Plug) (s : State),
    let u := deliverPlug o p s
    let old := (s.report o).plug
    let reported := mapReport o (fun r => { r with plug := p }) s
    let told :=
      if old = .unplugged ∧ p = .plugged then give (.plug o) reported
      else if (old = .plugged ∨ old = .fault) ∧ p = .unplugged then give (.unplug o) reported
      else reported
    (s.context o = none → u = told) ∧ (p = .unknown → u = told) ∧
    (p = .plugged → u = endHold o .outletFault (evaluateStart o told)) ∧
    ∀ c, s.context o = some c →
      (p = .unplugged → c.phase.running = false → u = told) ∧
      (p = .unplugged → c.phase.running = true →
        OnlyAt o told u ∧ u.journal = told.journal ∧ u.ceiling o = s.ceiling o ∧ u.report o = told.report o ∧
        u.context o = some
          { c with phase := .closing .unplugged s.control.seconds, closingMinutes := 0, finalReading := false }) ∧
      (p = .fault → c.phase.resume? = none → u = told) ∧
      ∀ r, p = .fault → c.phase.resume? = some r →
        OnlyAt o told u ∧ u.ceiling o = s.ceiling o ∧ u.report o = told.report o ∧
        Journaled (.held o .outletFault r) s u ∧
        u.context o = some { c with phase := .held r .outletFault false, heldMinutes := 0 }) ∧
  ∀ (t : Time) (s : State),
    ∃ u, exec (.alertService t) s = .next u ∧ (s.nextAlert = none → Ends (atTime t s) u) ∧
      ∀ (k : LineNo) (a : HeldAlert), s.nextAlert = some k → (s.line k).alertSlot = some a →
        let starts (o : Outlet) (p : Plug) : Bool :=
          decide (p = .plugged ∧ (s.report o).lineStale = false) &&
            (s.context o).any fun c => decide (c.phase = .armed .onPlug ∨ c.phase = .armed (.onBand s.sessions.band))
        let started (o : Outlet) (p : Plug) : Word := if starts o p then 1 else 0
        let serial (o : Outlet) : Word :=
          s.sessions.startSerial + (if o = outletB k then started (outletA k) a.plug0 else 0)
        u.sessions.startSerial =
          s.sessions.startSerial + started (outletA k) a.plug0 + started (outletB k) a.plug1 ∧
        (u.line k).alertSlot = none ∧ (u.line k).overrunMark = false ∧ u.meters.pointer = s.meters.pointer ∧
        (u.report (outletA k)).plug = a.plug0 ∧ (u.report (outletB k)).plug = a.plug1 ∧
        (∀ o, (u.report o).complete = (s.report o).complete ∧ (u.report o).demand = (s.report o).demand) ∧
        (u.blockMark k = (a.estop || s.blockMark k)) ∧
        (a.estop = true → s.blockMark k = false →
          ∀ o ∈ outletsOf k, (u.inputs o).blocked = true ∧
            ∀ c, s.context o = some c → c.phase.running = true →
              Stands u o ((c.closing .estop s.control.seconds).judged (s.heldCount o) (s.report o).lineStale)) ∧
        (InputsAgree s → ∀ o ∈ outletsOf k, ∀ c, s.context o = some c → c.phase.isClosing = true →
          Stands u o (c.judged (s.heldCount o) (s.report o).lineStale)) ∧
        (a.estop = false ∨ s.blockMark k = true →
          ∀ (o : Outlet) (p : Plug), (o = outletA k ∧ p = a.plug0) ∨ (o = outletB k ∧ p = a.plug1) →
            (s.context o = none → u.context o = none) ∧
            ∀ c, s.context o = some c →
              (p = .unplugged → c.phase.running = true →
                ∃ c', u.context o = some c' ∧ (c'.phase = .closing .unplugged s.control.seconds ∨
                  c'.phase = .settling .unplugged s.control.seconds)) ∧
              (p = .unplugged → c.phase.running = true → LinesAgree s ∨ (s.report o).lineStale = false →
                Stands u o
                  ((c.closing .unplugged s.control.seconds).judged (s.heldCount o) (s.report o).lineStale)) ∧
              (∀ r, p = .fault → c.phase.resume? = some r →
                Stands u o { c with phase := .held r .outletFault false, heldMinutes := 0 } ∧
                Journaled (.held o .outletFault r) s u) ∧
              (∀ start, p = .plugged → c.phase = .armed start →
                ((s.report o).lineStale = true ∨ (∃ b, start = .onBand b ∧ b ≠ s.sessions.band) → Stands u o c) ∧
                ((s.report o).lineStale = false → start = .onPlug ∨ start = .onBand s.sessions.band → SoleHeir s o c →
                  let d := c.begun (serial o) s.control.seconds
                  Begins s o d (d.purseCeiling s.control.settings s.sessions.band) (s.report o).complete u)) ∧
              (∀ r d, p = .plugged → c.phase = .held r .outletFault d →
                ((s.report o).lineStale = true →
                  Stands u o { c with phase := .held r .stale d } ∧ Journaled (.held o .stale r) s u) ∧
                ((s.report o).lineStale = false → SoleHeir s o c → Recovered s o c r .outletFault d u)) ∧
              (p = .plugged → (∀ start, c.phase ≠ .armed start) → (∀ r d, c.phase ≠ .held r .outletFault d) →
                c.phase.isClosing = false → Stands u o c) ∧
              (p = .unplugged → c.phase.running = false → c.phase.isClosing = false → Stands u o c) ∧
              (p = .fault → c.phase.resume? = none → c.phase.isClosing = false → Stands u o c))

/-! ### The Apportioner -/

/-- A pass (R55, R57 to R62): it changes the Module Table, the request mark and the peaks alone. The outlets whose want is
above 0 are ranked by priority, start serial and number (R57); in rank order each gets a target of 1 while its cabinet's
capacity and the site budget last (R58), then as much of its want as both still allow (R59); an outlet keeps the
lowest-numbered of its GRANTED modules up to its target (R60), and in rank order gets the lowest-numbered FREE modules of its
cabinet up to its target, while the modules GRANTED and RELEASING stay within the budget and the start guard does not run
(R61, R62). A GRANTED module is kept or is RELEASING with a deadline of five poll periods; a FREE one is kept or is GRANTED
to an outlet of its cabinet; the others are kept. No grant is above its want afterwards, the grants together are within the
site budget, no module is granted while the start guard runs, and with the granted and releasing modules above the site
budget none is granted. -/
def Obligations.PassMovesModules : Prop :=
  ∀ s : State,
    let p := pass s
    p = { s with
          power := { s.power with passRequest := false, modules := p.power.modules },
          meters := { s.meters with records := p.meters.records } } ∧
    (∀ m : ModuleNo,
      (∀ o, s.module m = .granted o →
        p.module m = .granted o ∨
        p.module m = .releasing o (s.now + 1000 * (5 * s.control.settings.pollPeriod)) false) ∧
      (s.module m = .free →
        p.module m = .free ∨ ∃ o, p.module m = .granted o ∧ cabinetOf o = cabinetOfModule m ∧
          s.power.startGuard = none ∧ 40 * p.assignedCount ≤ s.power.siteLimit) ∧
      (∀ o d r, s.module m = .releasing o d r → p.module m = s.module m) ∧
      (∀ r, s.module m = .out r → p.module m = s.module m)) ∧
    (∀ o, p.grant o ≤ s.want o) ∧
    40 * (Config.outlets.map p.grant).sum ≤ s.power.siteLimit ∧
    (let priority (o : Outlet) : Nat := ((s.context o).map fun c => c.priority.val).getD 0
     let serial (o : Outlet) : Nat := (((s.context o).bind Context.started).map fun x => x.serial.toNat).getD 0
     let together (a b : Outlet) : Bool := cabinetOf a == cabinetOf b
     let capacity (o : Outlet) : Nat :=
       Config.modules.countP fun m => cabinetOfModule m == cabinetOf o && !(s.module m).isOut
     let free (o : Outlet) : Nat :=
       Config.modules.countP fun m => cabinetOfModule m == cabinetOf o && decide (s.module m = .free)
     let budget := s.power.siteLimit / 40
     let total (f : Outlet → Nat) (l : List Outlet) : Nat := (l.map f).sum
     ∃ (rank : List Outlet) (first second gets : Outlet → Nat),
       rank.Nodup ∧ (∀ o, o ∈ rank ↔ 0 < s.want o) ∧
       rank.Pairwise (fun a b => priority a < priority b ∨ (priority a = priority b ∧
         (serial a < serial b ∨ (serial a = serial b ∧ a.val < b.val)))) ∧
       (∀ o, o ∉ rank → first o = 0 ∧ second o = 0 ∧ gets o = 0) ∧
       (∀ before o after, rank = before ++ o :: after →
         let near (f : Outlet → Nat) := total f (before.filter (together o))
         let room := min (capacity o - total first (rank.filter (together o)) - near second)
           (budget - total first rank - total second before)
         let stock := min (free o - near gets) (budget - s.assignedCount - total gets before)
         first o = (if near first < capacity o ∧ total first before < budget then 1 else 0) ∧
         second o = (if first o = 0 then 0 else min (s.want o - 1) room) ∧
         gets o = (if s.power.startGuard = none then min (first o + second o - s.grant o) stock else 0)) ∧
       (∀ m o, s.module m = .granted o →
         (p.module m = .granted o ↔
           (Config.modules.countP fun m' => decide (m'.val < m.val ∧ s.module m' = .granted o))
             < first o + second o)) ∧
       (∀ m o, s.module m = .free → p.module m = .granted o → o ∈ rank) ∧
       ∀ m before o after, s.module m = .free → rank = before ++ o :: after →
         (p.module m = .granted o ↔ cabinetOf o = cabinetOfModule m ∧
           (let place := Config.modules.countP fun m' =>
              decide (m'.val < m.val ∧ cabinetOfModule m' = cabinetOfModule m ∧ s.module m' = .free)
            let taken := total gets (before.filter (together o))
            taken ≤ place ∧ place < taken + gets o))) ∧
    ∀ o, (p.record o).peak = max (s.record o).peak (p.heldCount o) ∧
      p.record o = { s.record o with peak := (p.record o).peak }

/-- PASS, RELEASE_DEADLINE and START_GUARD_EXPIRY (R55, R62, R65): a pass is made while one is requested; the modules whose
deadline is the earliest go OUT with reason NO_ACK, their entries given lowest-numbered first, a pass is requested, and every
CLOSING session is checked for SETTLING with the modules that are left (R41, R42; log 36); nothing else changes; the
guard ends and a pass is requested. That RELEASE_DEADLINE is the earliest deadline of the table, with every module that has
it, is the model's reading (log 22, DEDUCED). The masks a reply hands over for an outlet (R63, R64, R66, R69), from any
state: a module named by the fault mask goes OUT with reason FAULT, a RELEASING one of the outlet whose bit is clear in the
applied mask and in the mask sent becomes FREE, or OUT with reason RETIRED where it is marked, and no other changes; entries
are given for the fault mask first and in each mask lowest position first, which for the second is the model's choice (log
37), as is the outlet of the RETIRED entry (log 24). -/
def Obligations.ApportionerEvents : Prop :=
  (∀ (o : Outlet) (n : OutletNews) (sent : ModuleMask) (s : State),
    let u := takeMasks o n sent s
    let faulty (p : Fin 10) : Bool := n.faults.getLsbD p.val
    let freed (p : Fin 10) : Bool := !n.applied.getLsbD p.val && !sent.getLsbD p.val
    u = { s with
      power := { s.power with modules := u.power.modules, passRequest := u.power.passRequest }, journal := u.journal } ∧
    (∀ m, cabinetOfModule m ≠ cabinetOf o → u.module m = s.module m) ∧
    (∀ p, faulty p = true → u.module (moduleAt o p) = .out .fault) ∧
    (∀ p d retire, faulty p = false → s.module (moduleAt o p) = .releasing o d retire →
      u.module (moduleAt o p) =
        if freed p then (if retire then .out .retired else .free) else .releasing o d retire) ∧
    (∀ p, faulty p = false → (∀ d retire, s.module (moduleAt o p) ≠ .releasing o d retire) →
      u.module (moduleAt o p) = s.module (moduleAt o p)) ∧
    (u.power.passRequest = true ↔
      s.power.passRequest = true ∨ ∃ m, (s.module m).isOut = false ∧ u.module m ≠ s.module m) ∧
    u.journal =
      (((Config.positions.filterMap fun p =>
          let m := moduleAt o p
          if faulty p && !(s.module m).isOut then some (EntryKind.moduleOut m .fault (s.module m).outlet?) else none)
        ++ (Config.positions.filterMap fun p =>
          let m := moduleAt o p
          match s.module m with
          | .releasing o' _ true =>
            if o' = o && !faulty p && freed p then some (EntryKind.moduleOut m .retired (some o)) else none
          | _ => none)).foldl (fun x e => give e x) s).journal) ∧
  (∀ (t : Time) (s : State), ∃ u, exec (.pass t) s = .next u ∧
    (s.power.passRequest = true → Ends (pass (atTime t s)) u) ∧
    (s.power.passRequest = false → Ends (atTime t s) u)) ∧
  (∀ (s : State) (d : Time), (∃ m, (s.module m).deadline? = some d) →
    (∀ m d', (s.module m).deadline? = some d' → d ≤ d') →
    ∃ u, exec .releaseDeadline s = .next u ∧
      let entries := Config.modules.filterMap fun m =>
        match s.module m with
        | .releasing o d' _ => if d' = d then some (EntryKind.moduleOut m .noAck (some o)) else none
        | _ => none
      let told := entries.foldl (fun x e => give e x) (atTime d s)
      let expired : State :=
        { told with
          power := { s.power with
            passRequest := true,
            modules := Vector.ofFn fun m : ModuleNo =>
              if (s.module m).deadline? = some d then .out .noAck else s.module m } }
      Ends
        { expired with
          sessions := { s.sessions with
            contexts := Vector.ofFn fun o : Outlet =>
              (s.context o).map fun c => c.judged (expired.heldCount o) (s.report o).lineStale } } u) ∧
  ∀ (s : State) (g : Time), s.power.startGuard = some g →
    ∃ u, exec .startGuardExpiry s = .next u ∧
      Ends { atTime g s with power := { s.power with startGuard := none, passRequest := true } } u

/-! ### The minute event -/

/-- MINUTE_EVENT (R187, R133, R161, R140, R120, R41, R46, R48, R152): the timer starts again; in RUNNING an IDLE session has
an idle minute applied, or a pending one while audit-held, a DRAINED and a HELD one count a minute and at the limit close,
with the check for SETTLING (R37, R41, R42);
ACTIVE, ARMED and SETTLING ones count nothing; outside RUNNING no such minute counts. In CLOSING with no module held a
closing minute counts, and with the second of them, a final reading or a STALE line the session is SETTLING, unconfirmed
without a final reading (log 36), its pending amounts applied. The checkpoint count rises, and at the interval it restarts
and every charging session's copy comes; whether one that a limit closes in the event is among them is an operand (log 17). A
receipt or given-up receipt whose write has failed is due again, one whose retry is requested or under way as well, which is the
model's choice (log 41, DESIGN CHOICE). That a session closed by a limit counts no closing minute in
the event is log 18. -/
def Obligations.MinuteEvent : Prop :=
  ∀ (checkpointLast : Bool) (s : State) (d : Time), s.control.minuteDue = some d → InputsAgree s →
    let interval := s.control.settings.checkpoint
    let count := s.sessions.checkpointCount + 1
    let copies := 0 < interval ∧ interval ≤ count
    ∃ u, exec (.minuteEvent checkpointLast) s = .next u ∧ u.control.minuteDue = some (d + 60000000) ∧
      u.now = max s.now d ∧ u.control.seconds = s.control.seconds ∧
      u.sessions.checkpointCount =
        (if interval = 0 then s.sessions.checkpointCount else if interval ≤ count then 0 else count) ∧
      (∀ o, s.context o = none → u.context o = none) ∧
      ∀ (o : Outlet) (c : Context), s.context o = some c → ∃ c', u.context o = some c' ∧
        (copies → c.phase.running = true → checkpointLast = false ∨ c'.phase.running = true → CopyComes u o false) ∧
        (¬copies ∨ c.phase.running = false ∨ (checkpointLast = true ∧ c'.phase.running = false) →
          c'.progressDue = true → c.progressDue = true) ∧
        (c.phase.isSettling = true → c.unsaved = true → c'.retryDue = true ∨ Asks u (.settle (.receipt o))) ∧
        (c.phase.isSettling = false ∨ c.unsaved = false → c'.retryDue = true → c.retryDue = true) ∧
        (∀ g, c.givenUp = some g → ∃ g', c'.givenUp = some g' ∧ g'.cell = g.cell ∧ g'.receipt = g.receipt ∧
          (g.receipt.unsaved = true → g'.retryDue = true ∨ Asks u (.settle (.givenUp o))) ∧
          (g.receipt.unsaved = false → g'.retryDue = true → g.retryDue = true)) ∧
        (c.phase = .active ∨ (∃ start, c.phase = .armed start) ∨ c.phase.isSettling = true → c'.body = c.body) ∧
        (s.control.partState ≠ .running → c.phase.isClosing = false → c'.body = c.body) ∧
        (s.control.partState = .running → c.phase = .idle →
          (c.auditHeld = true → c'.body = { c with pendingIdle := min 65535 (c.pendingIdle + 1) }.body) ∧
          (c.auditHeld = false →
            let minutes := min 65535 (c.idleMinutes + 1)
            let due := c.tariff.idleGrace.toNat < minutes
            let charge := if due then min c.tariff.idleFee.toNat (c.hold - c.chargedTotal) else 0
            c'.body =
              { c with
                idleMinutes := minutes, idleCharge := c.idleCharge + charge, chargedTotal := c.chargedTotal + charge,
                idleCapped := c.idleCapped || decide (due ∧ charge < c.tariff.idleFee.toNat) }.body ∧
            (0 < charge → u.ceiling o = c'.purseCeiling s.control.settings s.sessions.band))) ∧
        (s.control.partState = .running → c.phase = .drained →
          (c.drainedMinutes + 1 < s.control.settings.drainedLimit →
            c'.body = { c with drainedMinutes := c.drainedMinutes + 1 }.body) ∧
          (s.control.settings.drainedLimit ≤ c.drainedMinutes + 1 →
            c'.body =
              (({ c with drainedMinutes := c.drainedMinutes + 1 }.closing .purse s.control.seconds).judged (s.heldCount o)
                (s.report o).lineStale).body)) ∧
        (∀ r h p, s.control.partState = .running → c.phase = .held r h p →
          (c.heldMinutes + 1 < s.control.settings.heldLimit →
            c'.body = { c with heldMinutes := c.heldMinutes + 1 }.body) ∧
          (s.control.settings.heldLimit ≤ c.heldMinutes + 1 →
            c'.body =
              (({ c with heldMinutes := c.heldMinutes + 1 }.closing .fault s.control.seconds).judged (s.heldCount o)
                (s.report o).lineStale).body)) ∧
        (∀ r w, c.phase = .closing r w →
          let counted := { c with closingMinutes := min 2 (c.closingMinutes + 1) }
          let settles := c.finalReading = true ∨ (s.report o).lineStale = true ∨ 1 ≤ c.closingMinutes
          (0 < s.heldCount o → c'.body = c.body) ∧
          (s.heldCount o = 0 → settles →
            c'.body =
              { if c.auditHeld then counted.applyPending else counted with
                phase := .settling r w, finalUnconfirmed := c.finalUnconfirmed || !c.finalReading }.body) ∧
          (s.heldCount o = 0 → ¬settles → c'.body = counted.body))

/-! ### Money and wants -/

/-- Want (R53): the least of the demand in modules, the outlet maximum and the ceiling, or 0 where the session is not ACTIVE,
the part does not run, the line is stale, the baseline is not valid or the pedestal is blocked. -/
def Obligations.WantOfAnOutlet : Prop :=
  ∀ (s : State) (o : Outlet),
    let i := s.inputs o
    let stopped := i.active = false ∨ s.power.partRunning = false ∨ i.lineStale = true ∨ i.baselineValid = false ∨
      i.blocked = true
    (stopped → s.want o = 0) ∧
    (¬stopped → ∀ n, n ≤ s.want o ↔
      (n = 0 ∨ 40 * (n - 1) < i.demand) ∧ n ≤ Table.get s.power.maximums o ∧ n ≤ i.ceiling)

/-- The purse ceiling (R134, R135): the largest g from 0 to 10 whose projected cost, with the reserve margin and the pending
cost, is within the remaining money; 0 where there is none. Costs are rounded up. That this holds too where an overdraw keeps the
remaining money at 0 and all three amounts are 0, so that the ceiling is 10 where R130 says 0, is the model's choice (log 43,
DESIGN CHOICE). -/
def Obligations.PurseCeilingIsTheLargest : Prop :=
  ∀ (c : Context) (p : ParkSettings) (b : Band),
    let price (b : Band) := (Table.get c.tariff.prices b).toNat
    let pending := (c.pendingEnergy[0] * price 0 + c.pendingEnergy[1] * price 1 + c.pendingEnergy[2] * price 2
      + c.pendingEnergy[3] * price 3 + 999) / 1000
    let covered (g : Nat) :=
      (g * 40 * p.horizon * price b + 3599) / 3600 + p.reserve + pending ≤ c.hold - c.chargedTotal
    let n := c.purseCeiling p b
    n ≤ 10 ∧ (∀ g, g ≤ 10 → covered g → g ≤ n ∧ covered n) ∧ ((∀ g, g ≤ 10 → ¬covered g) → n = 0)

/-- A delta billed to a session (R112, R129, R130, R159, R160), from any state: a session that is not audit-held is charged
for it at the price of its band with the carry, its overdraw and its ceiling follow, an ACTIVE one is taken on by the ceiling
(R138), and where the outlet's audit flag is set the audit hold is taken; an audit-held one has it recorded as pending
energy, and its ceiling follows. The carry loses nothing (R131): over any run of deltas whose charges stay within the 32-bit
total, a thousand times the rise of the energy charge, with the carry, is the sum of delta times price with the carry at the
start; the charged total rises with the energy charge. -/
def Obligations.CarryLosesNothing : Prop :=
  (∀ (o : Outlet) (delta : Nat) (b : Band) (s : State) (c : Context), s.context o = some c →
    (∀ start, c.phase ≠ .armed start) → c.phase.isSettling = false →
    let u := bill o delta b s
    let amount := delta * (Table.get c.tariff.prices b).toNat + c.carry
    let charge := min (amount / 1000) (max32 - c.chargedTotal)
    let total := c.chargedTotal + charge
    let d :=
      { c with
        energyCharge := c.energyCharge + charge, chargedTotal := total, carry := amount % 1000,
        energy := Table.set c.energy b (min max32 (Table.get c.energy b + delta)),
        overdraw := total - c.hold, overdrawn := c.overdrawn || decide (c.hold < total) }
    let ceiling (x : Context) := x.purseCeiling s.control.settings s.sessions.band
    let flag := Table.get s.sessions.auditFlags o
    OnlyAt o s u ∧ u.report o = s.report o ∧
    (c.auditHeld = true →
      let p :=
        { c with pendingEnergy := Table.set c.pendingEnergy b (min max32 (Table.get c.pendingEnergy b + delta)) }
      u.context o = some p ∧ u.ceiling o = ceiling p ∧ u.journal = s.journal ∧ u.control = s.control) ∧
    (c.auditHeld = false →
      (c.phase = .active → GoesOn s o d (ceiling d) flag u) ∧
      (c.phase ≠ .active → Stands u o { d with auditHeld := flag } ∧ u.ceiling o = ceiling d) ∧
      (flag = true → AuditTaken s o u) ∧ (flag = false → u.control = s.control))) ∧
  ∀ (ds : List (Nat × Band)) (c : Context),
    let price (b : Band) := (Table.get c.tariff.prices b).toNat
    let cost := (ds.map fun d => d.1 * price d.2).sum
    let c' := ds.foldl (fun c d => c.priceDelta d.1 d.2) c
    c.carry < 1000 → c.chargedTotal + (cost + c.carry) / 1000 ≤ max32 →
    c.energyCharge ≤ c'.energyCharge ∧
    1000 * (c'.energyCharge - c.energyCharge) + c'.carry = cost + c.carry ∧ c'.carry < 1000 ∧
    c'.chargedTotal - c.chargedTotal = c'.energyCharge - c.energyCharge ∧ c'.tariff = c.tariff

/-! ### What every step keeps -/

/-- State.reset has every kept property. That park memory has a canonical form is the model's representation (log 3, DESIGN
CHOICE), no rule of the spec. -/
def Obligations.ResetIsSound : Prop :=
  MemoryCanonical State.reset ∧ AreaBaseAligned State.reset ∧ QueuesSound State.reset ∧
  JournalBounded State.reset ∧ GrantsWithinWants State.reset ∧ InputsAgree State.reset ∧ LinesAgree State.reset ∧ DemandsAgree State.reset ∧
  MoneySound State.reset ∧ ModulesSound State.reset ∧ SettlementServed State.reset ∧ JournalServed State.reset

/-- Every step keeps the low 15 bits of AREA_BASE 0 (R5), and park memory in its canonical form, which is the model's
representation and no rule of the spec (log 3, DESIGN CHOICE). -/
def Obligations.StepsKeepMemoryAndBase : Prop := KeptByStep MemoryCanonical ∧ KeptByStep AreaBaseAligned

/-- Every step keeps the Post Queue and the withdraw list at most 32 together and free of repetition (R13), and the entry
queue of the journal at most 8 (R171, R172); and no queue stands unserved: with work due the settlement writer has a transfer
requested or under way (R43, R146, R152, R153), and with an entry in its queue the Journal Writer is not IDLE (R172). -/
def Obligations.StepsKeepQueuesBounded : Prop :=
  KeptByStep QueuesSound ∧ KeptByStep JournalBounded ∧ KeptByStep SettlementServed ∧ KeptByStep JournalServed

/-- The law of the Apportioner: every step keeps each outlet's grant within its want (R56). -/
def Obligations.StepsKeepGrantsWithinWants : Prop := KeptByStep GrantsWithinWants

/-- Every step keeps each session's money sound: the charged total is the sum of its parts, and passes the hold by the
recorded overdraw at most (R128). -/
def Obligations.StepsKeepMoneySound : Prop := KeptByStep MoneySound

/-- Every step keeps each assigned module in its own outlet's cabinet (R50). -/
def Obligations.StepsKeepModulesSound : Prop := KeptByStep ModulesSound

/-- Every step keeps the want inputs and outlet reports in agreement with what their owners hold (R52, R23): part running, session
ACTIVE, ceiling and baseline (InputsAgree), line stale and pedestal blocked (LinesAgree), and demand (DemandsAgree). -/
def Obligations.StepsKeepInputsAgreeing : Prop :=
  KeptByStep InputsAgree ∧ KeptByStep LinesAgree ∧ KeptByStep DemandsAgree
end

