-- ==== Sys2Proof/Laws/State.lean ====
section
/-! SUPPORT. One lemma per field and update of the state, and what the tables read after a write. -/

namespace Sys2Proof

theorem Table.get_set_self {α : Type} {n : Nat} (v : Vector α n) (i : Fin n) (x : α) :
    Table.get (Table.set v i x) i = x := by
  simp [Table.get, Table.set]

theorem Table.get_set_ne {α : Type} {n : Nat} (v : Vector α n) (i j : Fin n) (x : α) (h : i ≠ j) :
    Table.get (Table.set v i x) j = Table.get v j := by
  simp only [Table.get, Table.set]
  exact Vector.getElem_set_ne _ _ (fun e => h (Fin.ext e))

theorem Table.get_set {α : Type} {n : Nat} (v : Vector α n) (i j : Fin n) (x : α) :
    Table.get (Table.set v i x) j = if i = j then x else Table.get v j := by
  by_cases h : i = j
  · subst h; simp [Table.get_set_self]
  · simp [h, Table.get_set_ne]

namespace Machine

variable (s : State)

@[simp] theorem raise_pending (n : Notice) : (raise n s).pending = s.pending := rfl
@[simp] theorem raise_now (n : Notice) : (raise n s).now = s.now := rfl
@[simp] theorem raise_orders (n : Notice) : (raise n s).orders = s.orders := rfl
@[simp] theorem raise_sessions (n : Notice) : (raise n s).sessions = s.sessions := rfl
@[simp] theorem raise_standby (n : Notice) : (raise n s).standby = s.standby := rfl
@[simp] theorem raise_power (n : Notice) : (raise n s).power = s.power := rfl
@[simp] theorem raise_lines (n : Notice) : (raise n s).lines = s.lines := rfl
@[simp] theorem raise_meters (n : Notice) : (raise n s).meters = s.meters := rfl
@[simp] theorem raise_port (n : Notice) : (raise n s).port = s.port := rfl
@[simp] theorem raise_journal (n : Notice) : (raise n s).journal = s.journal := rfl
@[simp] theorem raise_mem (n : Notice) : (raise n s).mem = s.mem := rfl

@[simp] theorem atTime_pending (t : Time) : (atTime t s).pending = s.pending := rfl
@[simp] theorem atTime_control (t : Time) : (atTime t s).control = s.control := rfl
@[simp] theorem atTime_orders (t : Time) : (atTime t s).orders = s.orders := rfl
@[simp] theorem atTime_sessions (t : Time) : (atTime t s).sessions = s.sessions := rfl
@[simp] theorem atTime_standby (t : Time) : (atTime t s).standby = s.standby := rfl
@[simp] theorem atTime_power (t : Time) : (atTime t s).power = s.power := rfl
@[simp] theorem atTime_lines (t : Time) : (atTime t s).lines = s.lines := rfl
@[simp] theorem atTime_meters (t : Time) : (atTime t s).meters = s.meters := rfl
@[simp] theorem atTime_port (t : Time) : (atTime t s).port = s.port := rfl
@[simp] theorem atTime_journal (t : Time) : (atTime t s).journal = s.journal := rfl
@[simp] theorem atTime_mem (t : Time) : (atTime t s).mem = s.mem := rfl

@[simp] theorem setContext_pending (o : Outlet) (c : Option Context) : (setContext o c s).pending = s.pending := rfl
@[simp] theorem setContext_now (o : Outlet) (c : Option Context) : (setContext o c s).now = s.now := rfl
@[simp] theorem setContext_control (o : Outlet) (c : Option Context) : (setContext o c s).control = s.control := rfl
@[simp] theorem setContext_orders (o : Outlet) (c : Option Context) : (setContext o c s).orders = s.orders := rfl
@[simp] theorem setContext_standby (o : Outlet) (c : Option Context) : (setContext o c s).standby = s.standby := rfl
@[simp] theorem setContext_power (o : Outlet) (c : Option Context) : (setContext o c s).power = s.power := rfl
@[simp] theorem setContext_lines (o : Outlet) (c : Option Context) : (setContext o c s).lines = s.lines := rfl
@[simp] theorem setContext_meters (o : Outlet) (c : Option Context) : (setContext o c s).meters = s.meters := rfl
@[simp] theorem setContext_port (o : Outlet) (c : Option Context) : (setContext o c s).port = s.port := rfl
@[simp] theorem setContext_journal (o : Outlet) (c : Option Context) : (setContext o c s).journal = s.journal := rfl
@[simp] theorem setContext_mem (o : Outlet) (c : Option Context) : (setContext o c s).mem = s.mem := rfl

@[simp] theorem mapContext_pending (o : Outlet) (f : Context → Context) : (mapContext o f s).pending = s.pending := rfl
@[simp] theorem mapContext_now (o : Outlet) (f : Context → Context) : (mapContext o f s).now = s.now := rfl
@[simp] theorem mapContext_control (o : Outlet) (f : Context → Context) : (mapContext o f s).control = s.control := rfl
@[simp] theorem mapContext_orders (o : Outlet) (f : Context → Context) : (mapContext o f s).orders = s.orders := rfl
@[simp] theorem mapContext_standby (o : Outlet) (f : Context → Context) : (mapContext o f s).standby = s.standby := rfl
@[simp] theorem mapContext_power (o : Outlet) (f : Context → Context) : (mapContext o f s).power = s.power := rfl
@[simp] theorem mapContext_lines (o : Outlet) (f : Context → Context) : (mapContext o f s).lines = s.lines := rfl
@[simp] theorem mapContext_meters (o : Outlet) (f : Context → Context) : (mapContext o f s).meters = s.meters := rfl
@[simp] theorem mapContext_port (o : Outlet) (f : Context → Context) : (mapContext o f s).port = s.port := rfl
@[simp] theorem mapContext_journal (o : Outlet) (f : Context → Context) : (mapContext o f s).journal = s.journal := rfl
@[simp] theorem mapContext_mem (o : Outlet) (f : Context → Context) : (mapContext o f s).mem = s.mem := rfl

@[simp] theorem mapReport_pending (o : Outlet) (f : OutletReport → OutletReport) : (mapReport o f s).pending = s.pending := rfl
@[simp] theorem mapReport_now (o : Outlet) (f : OutletReport → OutletReport) : (mapReport o f s).now = s.now := rfl
@[simp] theorem mapReport_control (o : Outlet) (f : OutletReport → OutletReport) : (mapReport o f s).control = s.control := rfl
@[simp] theorem mapReport_orders (o : Outlet) (f : OutletReport → OutletReport) : (mapReport o f s).orders = s.orders := rfl
@[simp] theorem mapReport_standby (o : Outlet) (f : OutletReport → OutletReport) : (mapReport o f s).standby = s.standby := rfl
@[simp] theorem mapReport_power (o : Outlet) (f : OutletReport → OutletReport) : (mapReport o f s).power = s.power := rfl
@[simp] theorem mapReport_lines (o : Outlet) (f : OutletReport → OutletReport) : (mapReport o f s).lines = s.lines := rfl
@[simp] theorem mapReport_meters (o : Outlet) (f : OutletReport → OutletReport) : (mapReport o f s).meters = s.meters := rfl
@[simp] theorem mapReport_port (o : Outlet) (f : OutletReport → OutletReport) : (mapReport o f s).port = s.port := rfl
@[simp] theorem mapReport_journal (o : Outlet) (f : OutletReport → OutletReport) : (mapReport o f s).journal = s.journal := rfl
@[simp] theorem mapReport_mem (o : Outlet) (f : OutletReport → OutletReport) : (mapReport o f s).mem = s.mem := rfl

@[simp] theorem setModule_pending (m : ModuleNo) (e : Module) : (setModule m e s).pending = s.pending := rfl
@[simp] theorem setModule_now (m : ModuleNo) (e : Module) : (setModule m e s).now = s.now := rfl
@[simp] theorem setModule_control (m : ModuleNo) (e : Module) : (setModule m e s).control = s.control := rfl
@[simp] theorem setModule_orders (m : ModuleNo) (e : Module) : (setModule m e s).orders = s.orders := rfl
@[simp] theorem setModule_sessions (m : ModuleNo) (e : Module) : (setModule m e s).sessions = s.sessions := rfl
@[simp] theorem setModule_standby (m : ModuleNo) (e : Module) : (setModule m e s).standby = s.standby := rfl
@[simp] theorem setModule_lines (m : ModuleNo) (e : Module) : (setModule m e s).lines = s.lines := rfl
@[simp] theorem setModule_meters (m : ModuleNo) (e : Module) : (setModule m e s).meters = s.meters := rfl
@[simp] theorem setModule_port (m : ModuleNo) (e : Module) : (setModule m e s).port = s.port := rfl
@[simp] theorem setModule_journal (m : ModuleNo) (e : Module) : (setModule m e s).journal = s.journal := rfl
@[simp] theorem setModule_mem (m : ModuleNo) (e : Module) : (setModule m e s).mem = s.mem := rfl

@[simp] theorem mapLine_pending (k : LineNo) (f : Line → Line) : (mapLine k f s).pending = s.pending := rfl
@[simp] theorem mapLine_now (k : LineNo) (f : Line → Line) : (mapLine k f s).now = s.now := rfl
@[simp] theorem mapLine_control (k : LineNo) (f : Line → Line) : (mapLine k f s).control = s.control := rfl
@[simp] theorem mapLine_orders (k : LineNo) (f : Line → Line) : (mapLine k f s).orders = s.orders := rfl
@[simp] theorem mapLine_sessions (k : LineNo) (f : Line → Line) : (mapLine k f s).sessions = s.sessions := rfl
@[simp] theorem mapLine_standby (k : LineNo) (f : Line → Line) : (mapLine k f s).standby = s.standby := rfl
@[simp] theorem mapLine_power (k : LineNo) (f : Line → Line) : (mapLine k f s).power = s.power := rfl
@[simp] theorem mapLine_meters (k : LineNo) (f : Line → Line) : (mapLine k f s).meters = s.meters := rfl
@[simp] theorem mapLine_port (k : LineNo) (f : Line → Line) : (mapLine k f s).port = s.port := rfl
@[simp] theorem mapLine_journal (k : LineNo) (f : Line → Line) : (mapLine k f s).journal = s.journal := rfl
@[simp] theorem mapLine_mem (k : LineNo) (f : Line → Line) : (mapLine k f s).mem = s.mem := rfl

@[simp] theorem mapRecord_pending (o : Outlet) (f : MeterRecord → MeterRecord) : (mapRecord o f s).pending = s.pending := rfl
@[simp] theorem mapRecord_now (o : Outlet) (f : MeterRecord → MeterRecord) : (mapRecord o f s).now = s.now := rfl
@[simp] theorem mapRecord_control (o : Outlet) (f : MeterRecord → MeterRecord) : (mapRecord o f s).control = s.control := rfl
@[simp] theorem mapRecord_orders (o : Outlet) (f : MeterRecord → MeterRecord) : (mapRecord o f s).orders = s.orders := rfl
@[simp] theorem mapRecord_sessions (o : Outlet) (f : MeterRecord → MeterRecord) : (mapRecord o f s).sessions = s.sessions := rfl
@[simp] theorem mapRecord_standby (o : Outlet) (f : MeterRecord → MeterRecord) : (mapRecord o f s).standby = s.standby := rfl
@[simp] theorem mapRecord_power (o : Outlet) (f : MeterRecord → MeterRecord) : (mapRecord o f s).power = s.power := rfl
@[simp] theorem mapRecord_lines (o : Outlet) (f : MeterRecord → MeterRecord) : (mapRecord o f s).lines = s.lines := rfl
@[simp] theorem mapRecord_port (o : Outlet) (f : MeterRecord → MeterRecord) : (mapRecord o f s).port = s.port := rfl
@[simp] theorem mapRecord_journal (o : Outlet) (f : MeterRecord → MeterRecord) : (mapRecord o f s).journal = s.journal := rfl
@[simp] theorem mapRecord_mem (o : Outlet) (f : MeterRecord → MeterRecord) : (mapRecord o f s).mem = s.mem := rfl

@[simp] theorem requestPass_pending : (requestPass s).pending = s.pending := rfl
@[simp] theorem requestPass_now : (requestPass s).now = s.now := rfl
@[simp] theorem requestPass_control : (requestPass s).control = s.control := rfl
@[simp] theorem requestPass_orders : (requestPass s).orders = s.orders := rfl
@[simp] theorem requestPass_sessions : (requestPass s).sessions = s.sessions := rfl
@[simp] theorem requestPass_standby : (requestPass s).standby = s.standby := rfl
@[simp] theorem requestPass_lines : (requestPass s).lines = s.lines := rfl
@[simp] theorem requestPass_meters : (requestPass s).meters = s.meters := rfl
@[simp] theorem requestPass_port : (requestPass s).port = s.port := rfl
@[simp] theorem requestPass_journal : (requestPass s).journal = s.journal := rfl
@[simp] theorem requestPass_mem : (requestPass s).mem = s.mem := rfl

@[simp] theorem give_pending (k : EntryKind) : (give k s).pending = s.pending := rfl
@[simp] theorem give_now (k : EntryKind) : (give k s).now = s.now := rfl
@[simp] theorem give_control (k : EntryKind) : (give k s).control = s.control := rfl
@[simp] theorem give_orders (k : EntryKind) : (give k s).orders = s.orders := rfl
@[simp] theorem give_sessions (k : EntryKind) : (give k s).sessions = s.sessions := rfl
@[simp] theorem give_standby (k : EntryKind) : (give k s).standby = s.standby := rfl
@[simp] theorem give_power (k : EntryKind) : (give k s).power = s.power := rfl
@[simp] theorem give_lines (k : EntryKind) : (give k s).lines = s.lines := rfl
@[simp] theorem give_meters (k : EntryKind) : (give k s).meters = s.meters := rfl
@[simp] theorem give_port (k : EntryKind) : (give k s).port = s.port := rfl
@[simp] theorem give_mem (k : EntryKind) : (give k s).mem = s.mem := rfl

@[simp] theorem refusePost_pending (r : RefusalReason) (i : Byte) : (refusePost r i s).pending = s.pending := rfl
@[simp] theorem refusePost_now (r : RefusalReason) (i : Byte) : (refusePost r i s).now = s.now := rfl
@[simp] theorem refusePost_sessions (r : RefusalReason) (i : Byte) : (refusePost r i s).sessions = s.sessions := rfl
@[simp] theorem refusePost_standby (r : RefusalReason) (i : Byte) : (refusePost r i s).standby = s.standby := rfl
@[simp] theorem refusePost_power (r : RefusalReason) (i : Byte) : (refusePost r i s).power = s.power := rfl
@[simp] theorem refusePost_lines (r : RefusalReason) (i : Byte) : (refusePost r i s).lines = s.lines := rfl
@[simp] theorem refusePost_meters (r : RefusalReason) (i : Byte) : (refusePost r i s).meters = s.meters := rfl
@[simp] theorem refusePost_port (r : RefusalReason) (i : Byte) : (refusePost r i s).port = s.port := rfl
@[simp] theorem refusePost_journal (r : RefusalReason) (i : Byte) : (refusePost r i s).journal = s.journal := rfl
@[simp] theorem refusePost_mem (r : RefusalReason) (i : Byte) : (refusePost r i s).mem = s.mem := rfl

@[simp] theorem queueEndWord_pending (c : CellIndex) (w : OrderOutcome) : (queueEndWord c w s).pending = s.pending := rfl
@[simp] theorem queueEndWord_now (c : CellIndex) (w : OrderOutcome) : (queueEndWord c w s).now = s.now := rfl
@[simp] theorem queueEndWord_control (c : CellIndex) (w : OrderOutcome) : (queueEndWord c w s).control = s.control := rfl
@[simp] theorem queueEndWord_orders (c : CellIndex) (w : OrderOutcome) : (queueEndWord c w s).orders = s.orders := rfl
@[simp] theorem queueEndWord_standby (c : CellIndex) (w : OrderOutcome) : (queueEndWord c w s).standby = s.standby := rfl
@[simp] theorem queueEndWord_power (c : CellIndex) (w : OrderOutcome) : (queueEndWord c w s).power = s.power := rfl
@[simp] theorem queueEndWord_lines (c : CellIndex) (w : OrderOutcome) : (queueEndWord c w s).lines = s.lines := rfl
@[simp] theorem queueEndWord_meters (c : CellIndex) (w : OrderOutcome) : (queueEndWord c w s).meters = s.meters := rfl
@[simp] theorem queueEndWord_port (c : CellIndex) (w : OrderOutcome) : (queueEndWord c w s).port = s.port := rfl
@[simp] theorem queueEndWord_journal (c : CellIndex) (w : OrderOutcome) : (queueEndWord c w s).journal = s.journal := rfl
@[simp] theorem queueEndWord_mem (c : CellIndex) (w : OrderOutcome) : (queueEndWord c w s).mem = s.mem := rfl

@[simp] theorem setUnit_pending (u : UnitState) : (setUnit u s).pending = s.pending := rfl
@[simp] theorem setUnit_now (u : UnitState) : (setUnit u s).now = s.now := rfl
@[simp] theorem setUnit_control (u : UnitState) : (setUnit u s).control = s.control := rfl
@[simp] theorem setUnit_sessions (u : UnitState) : (setUnit u s).sessions = s.sessions := rfl
@[simp] theorem setUnit_standby (u : UnitState) : (setUnit u s).standby = s.standby := rfl
@[simp] theorem setUnit_power (u : UnitState) : (setUnit u s).power = s.power := rfl
@[simp] theorem setUnit_lines (u : UnitState) : (setUnit u s).lines = s.lines := rfl
@[simp] theorem setUnit_meters (u : UnitState) : (setUnit u s).meters = s.meters := rfl
@[simp] theorem setUnit_port (u : UnitState) : (setUnit u s).port = s.port := rfl
@[simp] theorem setUnit_journal (u : UnitState) : (setUnit u s).journal = s.journal := rfl
@[simp] theorem setUnit_mem (u : UnitState) : (setUnit u s).mem = s.mem := rfl

@[simp] theorem requestOrder_pending (j : OrderJob) : (requestOrder j s).pending = s.pending := rfl
@[simp] theorem requestOrder_now (j : OrderJob) : (requestOrder j s).now = s.now := rfl
@[simp] theorem requestOrder_control (j : OrderJob) : (requestOrder j s).control = s.control := rfl
@[simp] theorem requestOrder_orders (j : OrderJob) : (requestOrder j s).orders = s.orders := rfl
@[simp] theorem requestOrder_sessions (j : OrderJob) : (requestOrder j s).sessions = s.sessions := rfl
@[simp] theorem requestOrder_standby (j : OrderJob) : (requestOrder j s).standby = s.standby := rfl
@[simp] theorem requestOrder_power (j : OrderJob) : (requestOrder j s).power = s.power := rfl
@[simp] theorem requestOrder_lines (j : OrderJob) : (requestOrder j s).lines = s.lines := rfl
@[simp] theorem requestOrder_meters (j : OrderJob) : (requestOrder j s).meters = s.meters := rfl
@[simp] theorem requestOrder_journal (j : OrderJob) : (requestOrder j s).journal = s.journal := rfl
@[simp] theorem requestOrder_mem (j : OrderJob) : (requestOrder j s).mem = s.mem := rfl

@[simp] theorem requestSettle_pending (j : SettleJob) : (requestSettle j s).pending = s.pending := rfl
@[simp] theorem requestSettle_now (j : SettleJob) : (requestSettle j s).now = s.now := rfl
@[simp] theorem requestSettle_control (j : SettleJob) : (requestSettle j s).control = s.control := rfl
@[simp] theorem requestSettle_orders (j : SettleJob) : (requestSettle j s).orders = s.orders := rfl
@[simp] theorem requestSettle_sessions (j : SettleJob) : (requestSettle j s).sessions = s.sessions := rfl
@[simp] theorem requestSettle_standby (j : SettleJob) : (requestSettle j s).standby = s.standby := rfl
@[simp] theorem requestSettle_power (j : SettleJob) : (requestSettle j s).power = s.power := rfl
@[simp] theorem requestSettle_lines (j : SettleJob) : (requestSettle j s).lines = s.lines := rfl
@[simp] theorem requestSettle_meters (j : SettleJob) : (requestSettle j s).meters = s.meters := rfl
@[simp] theorem requestSettle_journal (j : SettleJob) : (requestSettle j s).journal = s.journal := rfl
@[simp] theorem requestSettle_mem (j : SettleJob) : (requestSettle j s).mem = s.mem := rfl

@[simp] theorem requestJournal_pending (j : JournalJob) : (requestJournal j s).pending = s.pending := rfl
@[simp] theorem requestJournal_now (j : JournalJob) : (requestJournal j s).now = s.now := rfl
@[simp] theorem requestJournal_control (j : JournalJob) : (requestJournal j s).control = s.control := rfl
@[simp] theorem requestJournal_orders (j : JournalJob) : (requestJournal j s).orders = s.orders := rfl
@[simp] theorem requestJournal_sessions (j : JournalJob) : (requestJournal j s).sessions = s.sessions := rfl
@[simp] theorem requestJournal_standby (j : JournalJob) : (requestJournal j s).standby = s.standby := rfl
@[simp] theorem requestJournal_power (j : JournalJob) : (requestJournal j s).power = s.power := rfl
@[simp] theorem requestJournal_lines (j : JournalJob) : (requestJournal j s).lines = s.lines := rfl
@[simp] theorem requestJournal_meters (j : JournalJob) : (requestJournal j s).meters = s.meters := rfl
@[simp] theorem requestJournal_journal (j : JournalJob) : (requestJournal j s).journal = s.journal := rfl
@[simp] theorem requestJournal_mem (j : JournalJob) : (requestJournal j s).mem = s.mem := rfl

@[simp] theorem requestSurvey_pending (p : SurveyPart) : (requestSurvey p s).pending = s.pending := rfl
@[simp] theorem requestSurvey_now (p : SurveyPart) : (requestSurvey p s).now = s.now := rfl
@[simp] theorem requestSurvey_control (p : SurveyPart) : (requestSurvey p s).control = s.control := rfl
@[simp] theorem requestSurvey_orders (p : SurveyPart) : (requestSurvey p s).orders = s.orders := rfl
@[simp] theorem requestSurvey_sessions (p : SurveyPart) : (requestSurvey p s).sessions = s.sessions := rfl
@[simp] theorem requestSurvey_standby (p : SurveyPart) : (requestSurvey p s).standby = s.standby := rfl
@[simp] theorem requestSurvey_power (p : SurveyPart) : (requestSurvey p s).power = s.power := rfl
@[simp] theorem requestSurvey_lines (p : SurveyPart) : (requestSurvey p s).lines = s.lines := rfl
@[simp] theorem requestSurvey_meters (p : SurveyPart) : (requestSurvey p s).meters = s.meters := rfl
@[simp] theorem requestSurvey_journal (p : SurveyPart) : (requestSurvey p s).journal = s.journal := rfl
@[simp] theorem requestSurvey_mem (p : SurveyPart) : (requestSurvey p s).mem = s.mem := rfl

@[simp] theorem removeEntry_pending (c : CellIndex) : (removeEntry c s).pending = s.pending := rfl
@[simp] theorem removeEntry_now (c : CellIndex) : (removeEntry c s).now = s.now := rfl
@[simp] theorem removeEntry_control (c : CellIndex) : (removeEntry c s).control = s.control := rfl
@[simp] theorem removeEntry_orders (c : CellIndex) : (removeEntry c s).orders = s.orders := rfl
@[simp] theorem removeEntry_sessions (c : CellIndex) : (removeEntry c s).sessions = s.sessions := rfl
@[simp] theorem removeEntry_power (c : CellIndex) : (removeEntry c s).power = s.power := rfl
@[simp] theorem removeEntry_lines (c : CellIndex) : (removeEntry c s).lines = s.lines := rfl
@[simp] theorem removeEntry_meters (c : CellIndex) : (removeEntry c s).meters = s.meters := rfl
@[simp] theorem removeEntry_port (c : CellIndex) : (removeEntry c s).port = s.port := rfl
@[simp] theorem removeEntry_journal (c : CellIndex) : (removeEntry c s).journal = s.journal := rfl
@[simp] theorem removeEntry_mem (c : CellIndex) : (removeEntry c s).mem = s.mem := rfl

@[simp] theorem setPartRunning_pending (b : Bool) : (setPartRunning b s).pending = s.pending := rfl
@[simp] theorem setPartRunning_now (b : Bool) : (setPartRunning b s).now = s.now := rfl
@[simp] theorem setPartRunning_control (b : Bool) : (setPartRunning b s).control = s.control := rfl
@[simp] theorem setPartRunning_orders (b : Bool) : (setPartRunning b s).orders = s.orders := rfl
@[simp] theorem setPartRunning_sessions (b : Bool) : (setPartRunning b s).sessions = s.sessions := rfl
@[simp] theorem setPartRunning_standby (b : Bool) : (setPartRunning b s).standby = s.standby := rfl
@[simp] theorem setPartRunning_lines (b : Bool) : (setPartRunning b s).lines = s.lines := rfl
@[simp] theorem setPartRunning_meters (b : Bool) : (setPartRunning b s).meters = s.meters := rfl
@[simp] theorem setPartRunning_port (b : Bool) : (setPartRunning b s).port = s.port := rfl
@[simp] theorem setPartRunning_journal (b : Bool) : (setPartRunning b s).journal = s.journal := rfl
@[simp] theorem setPartRunning_mem (b : Bool) : (setPartRunning b s).mem = s.mem := rfl

@[simp] theorem setPartState_pending (p : PartState) : (setPartState p s).pending = s.pending := rfl
@[simp] theorem setPartState_now (p : PartState) : (setPartState p s).now = s.now := rfl
@[simp] theorem setPartState_orders (p : PartState) : (setPartState p s).orders = s.orders := rfl
@[simp] theorem setPartState_sessions (p : PartState) : (setPartState p s).sessions = s.sessions := rfl
@[simp] theorem setPartState_standby (p : PartState) : (setPartState p s).standby = s.standby := rfl
@[simp] theorem setPartState_power (p : PartState) : (setPartState p s).power = s.power := rfl
@[simp] theorem setPartState_lines (p : PartState) : (setPartState p s).lines = s.lines := rfl
@[simp] theorem setPartState_meters (p : PartState) : (setPartState p s).meters = s.meters := rfl
@[simp] theorem setPartState_port (p : PartState) : (setPartState p s).port = s.port := rfl
@[simp] theorem setPartState_journal (p : PartState) : (setPartState p s).journal = s.journal := rfl
@[simp] theorem setPartState_mem (p : PartState) : (setPartState p s).mem = s.mem := rfl

@[simp] theorem setBlockMark_pending (k : LineNo) (b : Bool) : (setBlockMark k b s).pending = s.pending := rfl
@[simp] theorem setBlockMark_now (k : LineNo) (b : Bool) : (setBlockMark k b s).now = s.now := rfl
@[simp] theorem setBlockMark_control (k : LineNo) (b : Bool) : (setBlockMark k b s).control = s.control := rfl
@[simp] theorem setBlockMark_orders (k : LineNo) (b : Bool) : (setBlockMark k b s).orders = s.orders := rfl
@[simp] theorem setBlockMark_sessions (k : LineNo) (b : Bool) : (setBlockMark k b s).sessions = s.sessions := rfl
@[simp] theorem setBlockMark_standby (k : LineNo) (b : Bool) : (setBlockMark k b s).standby = s.standby := rfl
@[simp] theorem setBlockMark_power (k : LineNo) (b : Bool) : (setBlockMark k b s).power = s.power := rfl
@[simp] theorem setBlockMark_lines (k : LineNo) (b : Bool) : (setBlockMark k b s).lines = s.lines := rfl
@[simp] theorem setBlockMark_port (k : LineNo) (b : Bool) : (setBlockMark k b s).port = s.port := rfl
@[simp] theorem setBlockMark_journal (k : LineNo) (b : Bool) : (setBlockMark k b s).journal = s.journal := rfl
@[simp] theorem setBlockMark_mem (k : LineNo) (b : Bool) : (setBlockMark k b s).mem = s.mem := rfl

@[simp] theorem setPointer_pending (k : LineNo) : (setPointer k s).pending = s.pending := rfl
@[simp] theorem setPointer_now (k : LineNo) : (setPointer k s).now = s.now := rfl
@[simp] theorem setPointer_control (k : LineNo) : (setPointer k s).control = s.control := rfl
@[simp] theorem setPointer_orders (k : LineNo) : (setPointer k s).orders = s.orders := rfl
@[simp] theorem setPointer_sessions (k : LineNo) : (setPointer k s).sessions = s.sessions := rfl
@[simp] theorem setPointer_standby (k : LineNo) : (setPointer k s).standby = s.standby := rfl
@[simp] theorem setPointer_power (k : LineNo) : (setPointer k s).power = s.power := rfl
@[simp] theorem setPointer_lines (k : LineNo) : (setPointer k s).lines = s.lines := rfl
@[simp] theorem setPointer_port (k : LineNo) : (setPointer k s).port = s.port := rfl
@[simp] theorem setPointer_journal (k : LineNo) : (setPointer k s).journal = s.journal := rfl
@[simp] theorem setPointer_mem (k : LineNo) : (setPointer k s).mem = s.mem := rfl

@[simp] theorem setTariff_pending (i : TariffSlot) (t : Option Tariff) : (setTariff i t s).pending = s.pending := rfl
@[simp] theorem setTariff_now (i : TariffSlot) (t : Option Tariff) : (setTariff i t s).now = s.now := rfl
@[simp] theorem setTariff_control (i : TariffSlot) (t : Option Tariff) : (setTariff i t s).control = s.control := rfl
@[simp] theorem setTariff_orders (i : TariffSlot) (t : Option Tariff) : (setTariff i t s).orders = s.orders := rfl
@[simp] theorem setTariff_standby (i : TariffSlot) (t : Option Tariff) : (setTariff i t s).standby = s.standby := rfl
@[simp] theorem setTariff_power (i : TariffSlot) (t : Option Tariff) : (setTariff i t s).power = s.power := rfl
@[simp] theorem setTariff_lines (i : TariffSlot) (t : Option Tariff) : (setTariff i t s).lines = s.lines := rfl
@[simp] theorem setTariff_meters (i : TariffSlot) (t : Option Tariff) : (setTariff i t s).meters = s.meters := rfl
@[simp] theorem setTariff_port (i : TariffSlot) (t : Option Tariff) : (setTariff i t s).port = s.port := rfl
@[simp] theorem setTariff_journal (i : TariffSlot) (t : Option Tariff) : (setTariff i t s).journal = s.journal := rfl
@[simp] theorem setTariff_mem (i : TariffSlot) (t : Option Tariff) : (setTariff i t s).mem = s.mem := rfl

@[simp] theorem setQueues_pending (p w : List CellIndex) : (setQueues p w s).pending = s.pending := rfl
@[simp] theorem setQueues_now (p w : List CellIndex) : (setQueues p w s).now = s.now := rfl
@[simp] theorem setQueues_control (p w : List CellIndex) : (setQueues p w s).control = s.control := rfl
@[simp] theorem setQueues_sessions (p w : List CellIndex) : (setQueues p w s).sessions = s.sessions := rfl
@[simp] theorem setQueues_standby (p w : List CellIndex) : (setQueues p w s).standby = s.standby := rfl
@[simp] theorem setQueues_power (p w : List CellIndex) : (setQueues p w s).power = s.power := rfl
@[simp] theorem setQueues_lines (p w : List CellIndex) : (setQueues p w s).lines = s.lines := rfl
@[simp] theorem setQueues_meters (p w : List CellIndex) : (setQueues p w s).meters = s.meters := rfl
@[simp] theorem setQueues_port (p w : List CellIndex) : (setQueues p w s).port = s.port := rfl
@[simp] theorem setQueues_journal (p w : List CellIndex) : (setQueues p w s).journal = s.journal := rfl
@[simp] theorem setQueues_mem (p w : List CellIndex) : (setQueues p w s).mem = s.mem := rfl

@[simp] theorem writeBytes_pending (t : Transfer) (b : List Byte) : (writeBytes t b s).pending = s.pending := rfl
@[simp] theorem writeBytes_now (t : Transfer) (b : List Byte) : (writeBytes t b s).now = s.now := rfl
@[simp] theorem writeBytes_control (t : Transfer) (b : List Byte) : (writeBytes t b s).control = s.control := rfl
@[simp] theorem writeBytes_orders (t : Transfer) (b : List Byte) : (writeBytes t b s).orders = s.orders := rfl
@[simp] theorem writeBytes_sessions (t : Transfer) (b : List Byte) : (writeBytes t b s).sessions = s.sessions := rfl
@[simp] theorem writeBytes_standby (t : Transfer) (b : List Byte) : (writeBytes t b s).standby = s.standby := rfl
@[simp] theorem writeBytes_power (t : Transfer) (b : List Byte) : (writeBytes t b s).power = s.power := rfl
@[simp] theorem writeBytes_lines (t : Transfer) (b : List Byte) : (writeBytes t b s).lines = s.lines := rfl
@[simp] theorem writeBytes_meters (t : Transfer) (b : List Byte) : (writeBytes t b s).meters = s.meters := rfl
@[simp] theorem writeBytes_port (t : Transfer) (b : List Byte) : (writeBytes t b s).port = s.port := rfl
@[simp] theorem writeBytes_journal (t : Transfer) (b : List Byte) : (writeBytes t b s).journal = s.journal := rfl

@[simp] theorem freePort_pending : (freePort s).pending = s.pending := rfl
@[simp] theorem freePort_now : (freePort s).now = s.now := rfl
@[simp] theorem freePort_control : (freePort s).control = s.control := rfl
@[simp] theorem freePort_orders : (freePort s).orders = s.orders := rfl
@[simp] theorem freePort_sessions : (freePort s).sessions = s.sessions := rfl
@[simp] theorem freePort_standby : (freePort s).standby = s.standby := rfl
@[simp] theorem freePort_power : (freePort s).power = s.power := rfl
@[simp] theorem freePort_lines : (freePort s).lines = s.lines := rfl
@[simp] theorem freePort_meters : (freePort s).meters = s.meters := rfl
@[simp] theorem freePort_journal : (freePort s).journal = s.journal := rfl
@[simp] theorem freePort_mem : (freePort s).mem = s.mem := rfl

@[simp] theorem completeTransfer_pending (t : Transfer) : (completeTransfer t s).pending = s.pending := rfl
@[simp] theorem completeTransfer_now (t : Transfer) : (completeTransfer t s).now = s.now := rfl
@[simp] theorem completeTransfer_control (t : Transfer) : (completeTransfer t s).control = s.control := rfl
@[simp] theorem completeTransfer_orders (t : Transfer) : (completeTransfer t s).orders = s.orders := rfl
@[simp] theorem completeTransfer_sessions (t : Transfer) : (completeTransfer t s).sessions = s.sessions := rfl
@[simp] theorem completeTransfer_standby (t : Transfer) : (completeTransfer t s).standby = s.standby := rfl
@[simp] theorem completeTransfer_power (t : Transfer) : (completeTransfer t s).power = s.power := rfl
@[simp] theorem completeTransfer_lines (t : Transfer) : (completeTransfer t s).lines = s.lines := rfl
@[simp] theorem completeTransfer_meters (t : Transfer) : (completeTransfer t s).meters = s.meters := rfl
@[simp] theorem completeTransfer_journal (t : Transfer) : (completeTransfer t s).journal = s.journal := rfl

@[simp] theorem startJob_pending (j : Job) : (startJob j s).pending = s.pending := rfl
@[simp] theorem startJob_now (j : Job) : (startJob j s).now = s.now := rfl
@[simp] theorem startJob_control (j : Job) : (startJob j s).control = s.control := rfl
@[simp] theorem startJob_orders (j : Job) : (startJob j s).orders = s.orders := rfl
@[simp] theorem startJob_sessions (j : Job) : (startJob j s).sessions = s.sessions := rfl
@[simp] theorem startJob_standby (j : Job) : (startJob j s).standby = s.standby := rfl
@[simp] theorem startJob_power (j : Job) : (startJob j s).power = s.power := rfl
@[simp] theorem startJob_lines (j : Job) : (startJob j s).lines = s.lines := rfl
@[simp] theorem startJob_meters (j : Job) : (startJob j s).meters = s.meters := rfl
@[simp] theorem startJob_journal (j : Job) : (startJob j s).journal = s.journal := rfl
@[simp] theorem startJob_mem (j : Job) : (startJob j s).mem = s.mem := rfl

@[simp] theorem setJournal_pending (f : Journal → Journal) : (setJournal f s).pending = s.pending := rfl
@[simp] theorem setJournal_now (f : Journal → Journal) : (setJournal f s).now = s.now := rfl
@[simp] theorem setJournal_control (f : Journal → Journal) : (setJournal f s).control = s.control := rfl
@[simp] theorem setJournal_orders (f : Journal → Journal) : (setJournal f s).orders = s.orders := rfl
@[simp] theorem setJournal_sessions (f : Journal → Journal) : (setJournal f s).sessions = s.sessions := rfl
@[simp] theorem setJournal_standby (f : Journal → Journal) : (setJournal f s).standby = s.standby := rfl
@[simp] theorem setJournal_power (f : Journal → Journal) : (setJournal f s).power = s.power := rfl
@[simp] theorem setJournal_lines (f : Journal → Journal) : (setJournal f s).lines = s.lines := rfl
@[simp] theorem setJournal_meters (f : Journal → Journal) : (setJournal f s).meters = s.meters := rfl
@[simp] theorem setJournal_port (f : Journal → Journal) : (setJournal f s).port = s.port := rfl
@[simp] theorem setJournal_mem (f : Journal → Journal) : (setJournal f s).mem = s.mem := rfl

@[simp] theorem clearStandingDue_pending (o : Outlet) : (clearStandingDue o s).pending = s.pending := rfl
@[simp] theorem clearStandingDue_now (o : Outlet) : (clearStandingDue o s).now = s.now := rfl
@[simp] theorem clearStandingDue_control (o : Outlet) : (clearStandingDue o s).control = s.control := rfl
@[simp] theorem clearStandingDue_orders (o : Outlet) : (clearStandingDue o s).orders = s.orders := rfl
@[simp] theorem clearStandingDue_sessions (o : Outlet) : (clearStandingDue o s).sessions = s.sessions := rfl
@[simp] theorem clearStandingDue_power (o : Outlet) : (clearStandingDue o s).power = s.power := rfl
@[simp] theorem clearStandingDue_lines (o : Outlet) : (clearStandingDue o s).lines = s.lines := rfl
@[simp] theorem clearStandingDue_meters (o : Outlet) : (clearStandingDue o s).meters = s.meters := rfl
@[simp] theorem clearStandingDue_port (o : Outlet) : (clearStandingDue o s).port = s.port := rfl
@[simp] theorem clearStandingDue_journal (o : Outlet) : (clearStandingDue o s).journal = s.journal := rfl
@[simp] theorem clearStandingDue_mem (o : Outlet) : (clearStandingDue o s).mem = s.mem := rfl

@[simp] theorem endWordEnded_pending (w : EndWord) : (endWordEnded w s).pending = s.pending := rfl
@[simp] theorem endWordEnded_now (w : EndWord) : (endWordEnded w s).now = s.now := rfl
@[simp] theorem endWordEnded_control (w : EndWord) : (endWordEnded w s).control = s.control := rfl
@[simp] theorem endWordEnded_orders (w : EndWord) : (endWordEnded w s).orders = s.orders := rfl
@[simp] theorem endWordEnded_standby (w : EndWord) : (endWordEnded w s).standby = s.standby := rfl
@[simp] theorem endWordEnded_power (w : EndWord) : (endWordEnded w s).power = s.power := rfl
@[simp] theorem endWordEnded_lines (w : EndWord) : (endWordEnded w s).lines = s.lines := rfl
@[simp] theorem endWordEnded_meters (w : EndWord) : (endWordEnded w s).meters = s.meters := rfl
@[simp] theorem endWordEnded_port (w : EndWord) : (endWordEnded w s).port = s.port := rfl
@[simp] theorem endWordEnded_journal (w : EndWord) : (endWordEnded w s).journal = s.journal := rfl
@[simp] theorem endWordEnded_mem (w : EndWord) : (endWordEnded w s).mem = s.mem := rfl

@[simp] theorem restartMinute_pending (d : Time) : (restartMinute d s).pending = s.pending := rfl
@[simp] theorem restartMinute_now (d : Time) : (restartMinute d s).now = s.now := rfl
@[simp] theorem restartMinute_orders (d : Time) : (restartMinute d s).orders = s.orders := rfl
@[simp] theorem restartMinute_sessions (d : Time) : (restartMinute d s).sessions = s.sessions := rfl
@[simp] theorem restartMinute_standby (d : Time) : (restartMinute d s).standby = s.standby := rfl
@[simp] theorem restartMinute_power (d : Time) : (restartMinute d s).power = s.power := rfl
@[simp] theorem restartMinute_lines (d : Time) : (restartMinute d s).lines = s.lines := rfl
@[simp] theorem restartMinute_meters (d : Time) : (restartMinute d s).meters = s.meters := rfl
@[simp] theorem restartMinute_port (d : Time) : (restartMinute d s).port = s.port := rfl
@[simp] theorem restartMinute_journal (d : Time) : (restartMinute d s).journal = s.journal := rfl
@[simp] theorem restartMinute_mem (d : Time) : (restartMinute d s).mem = s.mem := rfl

@[simp] theorem context_setContext_self (o : Outlet) (c : Option Context) : (setContext o c s).context o = c :=
  Table.get_set_self _ _ _

theorem context_setContext (o o' : Outlet) (c : Option Context) :
    (setContext o c s).context o' = if o = o' then c else s.context o' := Table.get_set _ _ _ _

@[simp] theorem module_setModule_self (m : ModuleNo) (e : Module) : (setModule m e s).module m = e :=
  Table.get_set_self _ _ _

theorem module_setModule (m m' : ModuleNo) (e : Module) :
    (setModule m e s).module m' = if m = m' then e else s.module m' := Table.get_set _ _ _ _

@[simp] theorem line_mapLine_self (k : LineNo) (f : Line → Line) : (mapLine k f s).line k = f (s.line k) :=
  Table.get_set_self _ _ _

theorem line_mapLine (k k' : LineNo) (f : Line → Line) :
    (mapLine k f s).line k' = if k = k' then f (s.line k) else s.line k' := Table.get_set _ _ _ _

@[simp] theorem record_mapRecord_self (o : Outlet) (f : MeterRecord → MeterRecord) :
    (mapRecord o f s).record o = f (s.record o) := Table.get_set_self _ _ _

theorem record_mapRecord (o o' : Outlet) (f : MeterRecord → MeterRecord) :
    (mapRecord o f s).record o' = if o = o' then f (s.record o) else s.record o' := Table.get_set _ _ _ _

@[simp] theorem report_mapReport_self (o : Outlet) (f : OutletReport → OutletReport) :
    (mapReport o f s).report o = f (s.report o) := Table.get_set_self _ _ _

theorem report_mapReport (o o' : Outlet) (f : OutletReport → OutletReport) :
    (mapReport o f s).report o' = if o = o' then f (s.report o) else s.report o' := Table.get_set _ _ _ _

/-- A step of a list that keeps a value keeps it over the whole list. -/
theorem forEach_keeps {α β : Type} (p : State → β) (l : List α) (f : α → State → State)
    (h : ∀ a s, p (f a s) = p s) : p (forEach l f s) = p s := by
  unfold forEach
  induction l generalizing s with
  | nil => rfl
  | cons a l ih => simp only [List.foldl_cons]; rw [ih, h]

/-- A step of a list that keeps a property keeps it over the whole list. -/
theorem forEach_preserves {α : Type} (P : State → Prop) (l : List α) (f : α → State → State)
    (h : ∀ a s, P s → P (f a s)) (hs : P s) : P (forEach l f s) := by
  unfold forEach
  induction l generalizing s with
  | nil => exact hs
  | cons a l ih => exact ih _ (h a s hs)

/-- The same for a step repeated. -/
theorem iterate_keeps {β : Type} (p : State → β) (f : State → State) (h : ∀ s, p (f s) = p s) (n : Nat) :
    p (f^[n] s) = p s := by
  induction n generalizing s with
  | zero => rfl
  | succ n ih => simp only [Function.iterate_succ, Function.comp_apply]; rw [ih, h]

end Machine

end Sys2Proof
end

