-- ==== Sys2Proof/Laws/Memory.lean ====
section
/-! SUPPORT. Park memory: every write keeps the canonical form, and what a read finds after it. -/

namespace Sys2Proof.Machine

theorem Memory.read_writeByte (a a' : Nat) (b : Byte) (m : Memory) :
    Memory.read (Memory.writeByte a b m) a' = if a = a' then some b else Memory.read m a' := by
  induction m with
  | nil => simp [Memory.writeByte, Memory.read]
  | cons c m ih =>
    obtain ⟨x, y⟩ := c
    simp only [Memory.writeByte]
    split
    · simp [Memory.read]
    · split
      · next h => subst h; by_cases h' : a = a' <;> simp [Memory.read, h']
      · simp only [Memory.read, ih]
        by_cases h1 : x = a' <;> by_cases h2 : a = a' <;> simp_all

theorem Memory.read_write_outside (bs : List Byte) (a a' : Nat) (m : Memory) (h : a' < a ∨ a + bs.length ≤ a') :
    Memory.read (Memory.write a bs m) a' = Memory.read m a' := by
  induction bs generalizing a m with
  | nil => rfl
  | cons b bs ih =>
    simp only [List.length_cons] at h
    rw [Memory.write, ih (a + 1) _ (by omega), Memory.read_writeByte, if_neg (by omega)]

theorem Memory.read_write_inside (bs : List Byte) (a i : Nat) (m : Memory) (h : i < bs.length) :
    Memory.read (Memory.write a bs m) (a + i) = some bs[i] := by
  induction bs generalizing a i m with
  | nil => simp at h
  | cons b bs ih =>
    rw [Memory.write]
    cases i with
    | zero => rw [Memory.read_write_outside _ _ _ _ (by omega), Memory.read_writeByte]; simp
    | succ i =>
      have := ih (a + 1) i (Memory.writeByte a b m) (by simpa using h)
      rw [show a + (i + 1) = a + 1 + i by omega, this]; simp

theorem Memory.wf_cons (c : Host.Cell) (m : Memory) :
    Memory.wf (c :: m) = true ↔ (∀ d ∈ m.head?, c.1 < d.1) ∧ Memory.wf m = true := by
  cases m <;> simp [Memory.wf]

theorem Memory.head_writeByte (a x : Nat) (b : Byte) (m : Memory) (hx : x < a) (h : ∀ d ∈ m.head?, x < d.1) :
    ∀ d ∈ (Memory.writeByte a b m).head?, x < d.1 := by
  cases m with
  | nil => simpa [Memory.writeByte] using hx
  | cons c m =>
    simp only [Memory.writeByte]
    split
    · simpa using hx
    · split <;> simp_all

theorem Memory.wf_writeByte (a : Nat) (b : Byte) (m : Memory) (h : Memory.wf m = true) :
    Memory.wf (Memory.writeByte a b m) = true := by
  induction m with
  | nil => rfl
  | cons c m ih =>
    obtain ⟨x, y⟩ := c
    rw [Memory.wf_cons] at h
    simp only [Memory.writeByte]
    split
    · next hlt => rw [Memory.wf_cons]; exact ⟨by simpa using hlt, by rw [Memory.wf_cons]; exact h⟩
    · split
      · next heq => subst heq; rw [Memory.wf_cons]; exact h
      · rw [Memory.wf_cons]
        exact ⟨Memory.head_writeByte a x b m (by omega) h.1, ih h.2⟩

theorem Memory.wf_write (bs : List Byte) (a : Nat) (m : Memory) (h : Memory.wf m = true) :
    Memory.wf (Memory.write a bs m) = true := by
  induction bs generalizing a m with
  | nil => exact h
  | cons b bs ih => exact ih (a + 1) _ (Memory.wf_writeByte a b m h)

theorem memoryCanonical_writeBytes (t : Transfer) (b : List Byte) (s : State) (h : MemoryCanonical s) :
    MemoryCanonical (writeBytes t b s) := Memory.wf_write _ _ _ h

end Sys2Proof.Machine
end

