-- ==== Sys2Proof/Laws/Frame.lean ====
section
/-! SUPPORT. The frame: what the events of sessions, power, lines, metering and orders leave as it was. -/

namespace Sys2Proof.Machine

/-- What the host sees of the register window and of park memory, and the queues it fills, but for the notice flags and the
part state; and the state of the Journal Writer, which only its own transfers and the end of an event change. -/
structure Window where
  pending : List Instr
  mem : Memory
  noticeMask : Byte
  areaBase : Word
  faultAddress : Word
  faultLatched : Bool
  minuteDue : Option Time
  postQueue : List CellIndex
  withdrawList : List CellIndex
  writer : WriterState

/-- The window of a state. -/
def State.window (s : State) : Window :=
  { pending := s.pending, mem := s.mem, noticeMask := s.control.noticeMask, areaBase := s.control.areaBase,
    faultAddress := s.control.faultAddress, faultLatched := s.control.faultLatched, minuteDue := s.control.minuteDue,
    postQueue := s.orders.postQueue, withdrawList := s.orders.withdrawList,
    writer := s.journal.writer }

variable (s : State)

section plain

@[simp] theorem window_raise (n : Notice) : (raise n s).window = s.window := rfl
@[simp] theorem window_atTime (t : Time) : (atTime t s).window = s.window := rfl
@[simp] theorem window_setContext (o : Outlet) (c : Option Context) : (setContext o c s).window = s.window := rfl
@[simp] theorem window_mapContext (o : Outlet) (f : Context → Context) : (mapContext o f s).window = s.window := rfl
@[simp] theorem window_mapReport (o : Outlet) (f : OutletReport → OutletReport) :
    (mapReport o f s).window = s.window := rfl
@[simp] theorem window_setModule (m : ModuleNo) (e : Module) : (setModule m e s).window = s.window := rfl
@[simp] theorem window_mapLine (k : LineNo) (f : Line → Line) : (mapLine k f s).window = s.window := rfl
@[simp] theorem window_mapRecord (o : Outlet) (f : MeterRecord → MeterRecord) :
    (mapRecord o f s).window = s.window := rfl
@[simp] theorem window_requestPass : (requestPass s).window = s.window := rfl
@[simp] theorem window_give (k : EntryKind) : (give k s).window = s.window := by
  unfold give; split <;> rfl
@[simp] theorem window_refusePost (r : RefusalReason) (i : Byte) : (refusePost r i s).window = s.window := rfl
@[simp] theorem window_queueEndWord (c : CellIndex) (w : OrderOutcome) : (queueEndWord c w s).window = s.window := rfl
@[simp] theorem window_setUnit (u : UnitState) : (setUnit u s).window = s.window := rfl
@[simp] theorem window_requestOrder (j : OrderJob) : (requestOrder j s).window = s.window := rfl
@[simp] theorem window_requestSettle (j : SettleJob) : (requestSettle j s).window = s.window := rfl
@[simp] theorem window_requestJournal (j : JournalJob) : (requestJournal j s).window = s.window := rfl
@[simp] theorem window_requestSurvey (p : SurveyPart) : (requestSurvey p s).window = s.window := rfl
@[simp] theorem window_removeEntry (c : CellIndex) : (removeEntry c s).window = s.window := rfl
@[simp] theorem window_setPartRunning (b : Bool) : (setPartRunning b s).window = s.window := rfl
@[simp] theorem window_setPartState (p : PartState) : (setPartState p s).window = s.window := rfl
@[simp] theorem window_setBlockMark (k : LineNo) (b : Bool) : (setBlockMark k b s).window = s.window := rfl
@[simp] theorem window_setPointer (k : LineNo) : (setPointer k s).window = s.window := rfl
@[simp] theorem window_setTariff (i : TariffSlot) (t : Option Tariff) : (setTariff i t s).window = s.window := rfl
@[simp] theorem window_freePort : (freePort s).window = s.window := rfl
@[simp] theorem window_startJob (j : Job) : (startJob j s).window = s.window := rfl
@[simp] theorem window_clearStandingDue (o : Outlet) : (clearStandingDue o s).window = s.window := rfl
@[simp] theorem window_endWordEnded (w : EndWord) : (endWordEnded w s).window = s.window := rfl
@[simp] theorem window_setPhase (o : Outlet) (p : Phase) : (setPhase o p s).window = s.window := rfl

end plain

@[simp] theorem window_forEach {α : Type} (l : List α) (f : α → State → State)
    (h : ∀ a s, (f a s).window = s.window) : (forEach l f s).window = s.window :=
  forEach_keeps s State.window l f h

/-! ### The Apportioner -/

@[simp] theorem window_reduceModule (ts : List Target) (m : ModuleNo) : (reduceModule ts m s).window = s.window := by
  unfold reduceModule; split <;> (try split) <;> simp
@[simp] theorem window_reduce (ts : List Target) : (reduce ts s).window = s.window := by
  unfold reduce; simp
@[simp] theorem window_raiseOne (o : Outlet) : (raiseOne o s).window = s.window := by
  unfold raiseOne; split <;> (try split) <;> simp
@[simp] theorem window_raiseOutlet (t : Target) : (raiseOutlet t s).window = s.window := by
  unfold raiseOutlet; exact iterate_keeps s State.window _ (by simp) _
@[simp] theorem window_raises (ts : List Target) : (raises ts s).window = s.window := by
  unfold raises; split <;> simp
@[simp] theorem window_raisePeak (o : Outlet) : (raisePeak o s).window = s.window := rfl
@[simp] theorem window_clearPassRequest : (clearPassRequest s).window = s.window := rfl
@[simp] theorem window_pass : (pass s).window = s.window := by
  unfold pass; rw [window_forEach _ _ _ (fun o s => window_raisePeak s o)]; simp
@[simp] theorem window_immediatePass : (immediatePass s).window = s.window := by
  unfold immediatePass; split <;> simp
@[simp] theorem window_setInputs (o : Outlet) (f : WantInputs → WantInputs) : (setInputs o f s).window = s.window := by
  simp only [setInputs]; split <;> rfl
@[simp] theorem window_deliver (o : Outlet) (f : WantInputs → WantInputs) : (deliver o f s).window = s.window := by
  unfold deliver; simp
@[simp] theorem window_deliverActive (o : Outlet) (a : Bool) : (deliverActive o a s).window = s.window := by
  unfold deliverActive; simp
@[simp] theorem window_storeCeiling (o : Outlet) (n : Nat) : (storeCeiling o n s).window = s.window := by
  unfold storeCeiling; split
  · rfl
  · rw [window_setInputs]; rfl
@[simp] theorem window_setCeiling (o : Outlet) (n : Nat) : (setCeiling o n s).window = s.window := by
  unfold setCeiling; simp
@[simp] theorem window_deliverDemand (o : Outlet) (n : Nat) : (deliverDemand o n s).window = s.window := by
  unfold deliverDemand; rw [window_deliver]; split <;> simp
@[simp] theorem window_deliverBoth (k : LineNo) (f : WantInputs → WantInputs) :
    (deliverBoth k f s).window = s.window := by
  unfold deliverBoth; simp
@[simp] theorem window_moduleOut (m : ModuleNo) (r : OutReason) : (moduleOut m r s).window = s.window := by
  unfold moduleOut; simp
@[simp] theorem window_faultModule (m : ModuleNo) : (faultModule m s).window = s.window := by
  unfold faultModule; split <;> simp
@[simp] theorem window_releaseModule (o : Outlet) (a b : ModuleMask) (p : Fin 10) :
    (releaseModule o a b p s).window = s.window := by
  unfold releaseModule; split <;> (try split) <;> (try split) <;> simp
@[simp] theorem window_takeMasks (o : Outlet) (n : OutletNews) (m : ModuleMask) :
    (takeMasks o n m s).window = s.window := by
  unfold takeMasks; simp

/-! ### Sessions -/

@[simp] theorem window_recompute (o : Outlet) : (recompute o s).window = s.window := by unfold recompute; simp
@[simp] theorem window_recomputeAll : (recomputeAll s).window = s.window := by unfold recomputeAll; simp
@[simp] theorem window_endWait : (endWait s).window = s.window := by unfold endWait; split <;> simp
@[simp] theorem window_endProgressWait (o : Outlet) : (endProgressWait o s).window = s.window := by
  unfold endProgressWait; split <;> (try split) <;> simp
@[simp] theorem window_vacate (o : Outlet) : (vacate o s).window = s.window := by unfold vacate; simp
@[simp] theorem window_endLinkWait (c : CellIndex) : (endLinkWait c s).window = s.window := by
  unfold endLinkWait; split <;> simp
@[simp] theorem window_releaseUnused (l : Option CellIndex) : (releaseUnused l s).window = s.window := by
  unfold releaseUnused; split <;> simp
@[simp] theorem window_leaveFor (o : Outlet) (c : Context) (p : Phase) : (leaveFor o c p s).window = s.window := by
  unfold leaveFor; simp only; split <;> simp
@[simp] theorem window_enterClosing (o : Outlet) (r : EndReason) : (enterClosing o r s).window = s.window := by
  unfold enterClosing; split <;> (try split) <;> simp
@[simp] theorem window_enterSettling (o : Outlet) (r : EndReason) (t : Word) (u : Bool) :
    (enterSettling o r t u s).window = s.window := rfl
@[simp] theorem window_checkSettle (o : Outlet) : (checkSettle o s).window = s.window := by
  unfold checkSettle; repeat' split
  all_goals simp
@[simp] theorem window_closeSession (o : Outlet) (r : EndReason) : (closeSession o r s).window = s.window := by
  unfold closeSession; simp
@[simp] theorem window_enterDrained (o : Outlet) : (enterDrained o s).window = s.window := by
  unfold enterDrained; split <;> simp
@[simp] theorem window_handover (o : Outlet) (e : StandbyEntry) : (handover o e s).window = s.window := by
  unfold handover; split
  · rfl
  · simp only; split <;> simp
@[simp] theorem window_takeOn (o : Outlet) : (takeOn o s).window = s.window := by
  unfold takeOn; repeat' split
  all_goals simp
@[simp] theorem window_examineDrained (o : Outlet) : (examineDrained o s).window = s.window := by
  unfold examineDrained; repeat' split
  all_goals simp
@[simp] theorem window_enterIdle (o : Outlet) : (enterIdle o s).window = s.window := by
  unfold enterIdle; repeat' split
  all_goals simp
@[simp] theorem window_beginSession (o : Outlet) : (beginSession o s).window = s.window := by
  unfold beginSession; simp; rfl
@[simp] theorem window_evaluateStart (o : Outlet) : (evaluateStart o s).window = s.window := by
  simp only [evaluateStart]; repeat' split
  all_goals simp
@[simp] theorem window_endStart (b : State) (o : Outlet) : (endStart b o s).window = s.window := by
  unfold endStart; split <;> simp
@[simp] theorem window_startInEvent (o : Outlet) : (startInEvent o s).window = s.window := by
  unfold startInEvent; simp
@[simp] theorem window_returnToActive (o : Outlet) : (returnToActive o s).window = s.window := by
  unfold returnToActive; simp
@[simp] theorem window_enterHeld (o : Outlet) (r : HeldReason) : (enterHeld o r s).window = s.window := by
  unfold enterHeld; repeat' split
  all_goals simp
@[simp] theorem window_recover (o : Outlet) (c : Context) (r : ResumeState) (h : HeldReason) (d : Bool) :
    (recover o c r h d s).window = s.window := by
  unfold recover; cases r <;> simp only
  · simp
  · split <;> simp
  · simp
@[simp] theorem window_endHold (o : Outlet) (r : HeldReason) : (endHold o r s).window = s.window := by
  unfold endHold; repeat' split
  all_goals simp
@[simp] theorem window_takeAuditHold (o : Outlet) : (takeAuditHold o s).window = s.window := by
  unfold takeAuditHold; split <;> simp
@[simp] theorem window_auditIfFlagged (o : Outlet) : (auditIfFlagged o s).window = s.window := by
  unfold auditIfFlagged; split <;> simp
@[simp] theorem window_bill (o : Outlet) (d : Nat) (b : Band) : (bill o d b s).window = s.window := by
  unfold bill; repeat' split
  all_goals simp
@[simp] theorem window_reportPlug (o : Outlet) (p : Plug) : (reportPlug o p s).window = s.window := by
  unfold reportPlug; simp only; split <;> simp
@[simp] theorem window_deliverPlug (o : Outlet) (p : Plug) : (deliverPlug o p s).window = s.window := by
  unfold deliverPlug; cases p <;> simp
@[simp] theorem window_actOnCharge (o : Outlet) (c : Bool) (d : Nat) : (actOnCharge o c d s).window = s.window := by
  unfold actOnCharge; repeat' split
  all_goals simp
@[simp] theorem window_deliverCharge (o : Outlet) (c : Bool) (d : Nat) : (deliverCharge o c d s).window = s.window := by
  unfold deliverCharge; simp

/-! ### Lines -/

@[simp] theorem window_sendPoll (k : LineNo) : (sendPoll k s).window = s.window := rfl
@[simp] theorem window_pollNow (k : LineNo) : (pollNow k s).window = s.window := by
  unfold pollNow; split <;> simp
@[simp] theorem window_pollIfDue (k : LineNo) : (pollIfDue k s).window = s.window := by
  unfold pollIfDue; split <;> simp
@[simp] theorem window_enterWaiting (k : LineNo) : (enterWaiting k s).window = s.window := by
  unfold enterWaiting; simp
@[simp] theorem window_emptyReplySlot (k : LineNo) : (emptyReplySlot k s).window = s.window := by
  unfold emptyReplySlot; simp only; repeat' split
  all_goals simp
@[simp] theorem window_bandEdge (k : LineNo) : (bandEdge k s).window = s.window := by
  unfold bandEdge; simp only; repeat' split
  all_goals simp
@[simp] theorem window_markReports (k : LineNo) (b : Bool) : (markReports k b s).window = s.window := by
  unfold markReports; exact window_forEach _ _ _ (fun _ _ => rfl)
@[simp] theorem window_goStale (k : LineNo) : (goStale k s).window = s.window := by unfold goStale; simp
@[simp] theorem window_goFresh (k : LineNo) (n : Nat) : (goFresh k n s).window = s.window := by unfold goFresh; simp
@[simp] theorem window_missPoll (k : LineNo) : (missPoll k s).window = s.window := by
  unfold missPoll; simp only; split <;> simp
@[simp] theorem window_countFault (k : LineNo) (f : LineCounters → LineCounters) :
    (countFault k f s).window = s.window := rfl
@[simp] theorem window_failExchange (k : LineNo) : (failExchange k s).window = s.window := by unfold failExchange; simp
@[simp] theorem window_frameFault (k : LineNo) (f : LineCounters → LineCounters) :
    (frameFault k f s).window = s.window := by
  unfold frameFault; simp only; split <;> simp
@[simp] theorem window_acceptReply (k : LineNo) (f : Vector Byte 29) (p : PollRecord) :
    (acceptReply k f p s).window = s.window := by
  unfold acceptReply; simp only [window_enterWaiting]; split <;> simp
@[simp] theorem window_goodReply (k : LineNo) (f : Vector Byte 29) : (goodReply k f s).window = s.window := by
  unfold goodReply; simp only; repeat' split
  all_goals simp
@[simp] theorem window_goodAlert (k : LineNo) (f : Vector Byte 6) : (goodAlert k f s).window = s.window := by
  unfold goodAlert; simp only [window_pollIfDue]; repeat' split
  all_goals simp
@[simp] theorem window_endFrame (k : LineNo) : (endFrame k s).window = s.window := rfl
@[simp] theorem window_reline (k : LineNo) : (reline k s).window = s.window := rfl

/-! ### Metering -/

@[simp] theorem window_takeEstop (k : LineNo) (a : Bool) : (takeEstop k a s).window = s.window := by
  unfold takeEstop; split <;> simp
@[simp] theorem window_clearEstop (k : LineNo) (a : Bool) : (clearEstop k a s).window = s.window := by
  unfold clearEstop; split <;> simp
@[simp] theorem window_validate (o : Outlet) (w : Word) (t : Time) : (validate o w t s).window = s.window := by
  unfold validate; simp
@[simp] theorem window_claimNone (o : Outlet) (d : Nat) (b : Band) : (claimNone o d b s).window = s.window := by
  unfold claimNone; simp only; split <;> simp
@[simp] theorem window_acceptDelta (o : Outlet) (d : Nat) (b : Band) (w : Word) (t : Time) :
    (acceptDelta o d b w t s).window = s.window := by
  unfold acceptDelta; simp only; split <;> simp
@[simp] theorem window_rebase (o : Outlet) (w : Word) (t : Time) : (rebase o w t s).window = s.window := by
  unfold rebase; simp only; split <;> simp
@[simp] theorem window_rejectDelta (o : Outlet) (w : Word) (t : Time) : (rejectDelta o w t s).window = s.window := by
  unfold rejectDelta; simp only; repeat' split
  all_goals simp
@[simp] theorem window_readMeter (o : Outlet) (w : Word) (b : Band) (t : Time) :
    (readMeter o w b t s).window = s.window := by
  unfold readMeter; simp only; repeat' split
  all_goals simp
@[simp] theorem window_settleOthers (l : List Outlet) : (settleOthers l s).window = s.window := by
  unfold settleOthers; simp
@[simp] theorem window_closeStep (o : Outlet) (w : Bool) (m : ModuleMask) : (closeStep o w m s).window = s.window := by
  unfold closeStep; simp only [window_checkSettle]; split <;> simp
@[simp] theorem window_serveOutlet (o : Outlet) (l : List Outlet) (w : Bool) (n : OutletNews) (m : ModuleMask) (b : Band)
    (t : Time) : (serveOutlet o l w n m b t s).window = s.window := by
  unfold serveOutlet; simp
@[simp] theorem window_serveReply (k : LineNo) (r : HeldReply) : (serveReply k r s).window = s.window := by
  unfold serveReply; simp
@[simp] theorem window_serveAlert (k : LineNo) (a : HeldAlert) : (serveAlert k a s).window = s.window := by
  unfold serveAlert; simp
@[simp] theorem window_serveNextReply : (serveNextReply s).window = s.window := by
  unfold serveNextReply; repeat' split
  all_goals simp
@[simp] theorem window_serveNextAlert : (serveNextAlert s).window = s.window := by
  unfold serveNextAlert; repeat' split
  all_goals simp

/-! ### The end of every event -/

@[simp] theorem window_withdrawStale : (withdrawStale s).window = s.window := by
  unfold withdrawStale; repeat' split
  all_goals rfl
@[simp] theorem window_clearRetry (j : SettleJob) : (clearRetry j s).window = s.window := by
  unfold clearRetry; split <;> rfl
@[simp] theorem window_chooseSettle : (chooseSettle s).window = s.window := by
  unfold chooseSettle; repeat' split
  all_goals simp
@[simp] theorem window_settleRequests : (settleRequests s).window = s.window := by
  unfold settleRequests; split <;> simp
/-- The end of an event moves no writer but an IDLE one. -/
theorem window_journalRequests :
    { (journalRequests s).window with writer := s.journal.writer } = s.window := by
  unfold journalRequests; split <;> rfl
@[simp] theorem window_answerRequests : (answerRequests s).window = s.window := by
  unfold answerRequests; split <;> simp
@[simp] theorem window_startNext : (startNext s).window = s.window := by
  unfold startNext; repeat' split
  all_goals rfl
theorem window_serveRequests : { (serveRequests s).window with writer := s.journal.writer } = s.window := by
  unfold serveRequests
  rw [window_startNext]
  have h := window_journalRequests (settleRequests (answerRequests (withdrawStale s)))
  have hw : (settleRequests (answerRequests (withdrawStale s))).window = s.window := by simp
  rw [hw] at h
  rwa [show (settleRequests (answerRequests (withdrawStale s))).journal.writer = s.journal.writer from
    congrArg Window.writer hw] at h
theorem window_completeHalt : { (completeHalt s).window with writer := s.journal.writer } = s.window := by
  unfold completeHalt; split
  · have h := window_serveRequests (give .halted (raise .halted { s with control := { s.control with partState := .halted } }))
    rw [window_give, show (give .halted (raise .halted { s with control := { s.control with partState := .halted } })).journal.writer
      = s.journal.writer from congrArg Window.writer (window_give _ _)] at h
    exact h
  · rfl
theorem window_endEvent : { (endEvent s).window with writer := s.journal.writer } = s.window := by
  have h := window_completeHalt (serveRequests s)
  have h' := window_serveRequests s
  rw [← h', ← h]
  rfl

/-! ### Orders -/

@[simp] theorem window_refuse (r : OrderOutcome) : (refuse r s).state.window = s.window := rfl
@[simp] theorem state_accept : (accept s).state = s := rfl
@[simp] theorem state_refuse (r : OrderOutcome) : (refuse r s).state = s := rfl

theorem window_takeOpen (cell : CellIndex) (o : OpenOrder) (out : Outlet) (i : TariffSlot) :
    (takeOpen cell o out i s).state.window = s.window := by
  unfold takeOpen; repeat' split
  all_goals simp
theorem window_takeLink (cell : CellIndex) (o : LinkOrder) (out : Outlet) (i : TariffSlot) :
    (takeLink cell o out i s).state.window = s.window := by
  unfold takeLink; repeat' split
  all_goals simp
  rfl
theorem window_takeStop (o : Outlet) : (takeStop o s).state.window = s.window := by
  unfold takeStop; repeat' split
  all_goals simp
@[simp] theorem window_amendPriority (o : Outlet) (p : Fin 4) : (amendPriority o p s).window = s.window := by
  simp only [amendPriority]; split <;> rfl
@[simp] theorem window_amendHold (o : Outlet) (n : Nat) : (amendHold o n s).window = s.window := by
  simp only [amendHold]; split <;> simp
theorem window_takeAmend (a : AmendOrder) (o : Outlet) : (takeAmend a o s).state.window = s.window := by
  unfold takeAmend; repeat' split
  all_goals simp
theorem window_takeSync (o : Outlet) : (takeSync o s).state.window = s.window := by
  unfold takeSync; split <;> simp
theorem window_takeAudit (o : Outlet) (a : Byte) : (takeAudit o a s).state.window = s.window := by
  simp only [takeAudit]; split <;> rfl
@[simp] theorem window_resumeSession (o : Outlet) : (resumeSession o s).window = s.window := by
  unfold resumeSession; simp
theorem window_takeResume (o : Outlet) : (takeResume o s).state.window = s.window := by
  unfold takeResume; repeat' split
  all_goals simp
theorem window_takeTariff (i : TariffSlot) (a : Byte) : (takeTariff i a s).state.window = s.window := by
  unfold takeTariff; split <;> rfl
theorem window_takeBand (w : Sweep) (b : Byte) : (takeBand w b s).state.window = s.window := by
  unfold takeBand; split
  · rfl
  · simp only [state_accept]
    rw [window_forEach _ _ _ (fun o s => window_endStart s _ o), window_forEach _ _ _ (fun k s => window_bandEdge s k),
      window_forEach _ _ _ (fun o s => by simp), window_recomputeAll]
    rfl
theorem window_takeSite (n : Nat) : (takeSite n s).state.window = s.window := by
  unfold takeSite; split
  · rfl
  · simp only [state_accept, window_pass]; split
    · exact window_give _ _
    · rfl
theorem window_takeOutlet (o : Outlet) (n : Nat) : (takeOutlet o n s).state.window = s.window := by
  unfold takeOutlet; split
  · rfl
  · simp only [state_accept, window_immediatePass]; rfl
theorem window_retireModule (m : ModuleNo) : (retireModule m s).window = s.window := by
  unfold retireModule; split <;> simp
theorem window_takeModule (m : ModuleNo) (a : Byte) : (takeModule m a s).state.window = s.window := by
  unfold takeModule; split
  · unfold returnModule; split <;> simp
  · exact window_retireModule s m
  · rfl
theorem window_takePark (w : Sweep) (p : ParkOrder) : (takePark w p s).state.window = s.window := by
  unfold takePark; split
  · rfl
  · simp only [state_accept]; split
    · rfl
    · rw [window_forEach _ _ _ (fun o s => window_takeOn s o), window_recomputeAll]; rfl

theorem window_handOn (cell : CellIndex) (w : Sweep) (o : Order) : (handOn cell w o s).state.window = s.window := by
  cases o <;> simp only [handOn, withOutlet, withSlot] <;> (repeat' split) <;>
    first
    | rfl
    | exact window_takeOpen _ _ _ _ _
    | exact window_takeLink _ _ _ _ _
    | exact window_takeStop _ _
    | exact window_takeAmend _ _ _
    | exact window_takeSync _ _
    | exact window_takeAudit _ _ _
    | exact window_takeResume _ _
    | exact window_takeTariff _ _ _
    | exact window_takeBand _ _ _
    | exact window_takeSite _ _
    | exact window_takeOutlet _ _ _
    | exact window_takeModule _ _ _
    | exact window_takePark _ _ _

@[simp] theorem window_readCell (cell : CellIndex) (w : Sweep) (p : OrderPart) :
    (readCell cell w p s).window = s.window := by
  unfold readCell; split
  · simp
  · simp only [window_requestOrder, window_setUnit, takeOrder]
    split
    · exact window_handOn s cell w _
    · rfl

end Sys2Proof.Machine
end

