-- ==== Sys2Proof/Laws/EndEvent.lean ====
section
/-! SUPPORT. What the end of every event can do (Port.lean endEvent): it keeps the body of the state, or completes a halt. -/

namespace Sys2Proof.Machine

variable (s : State)

theorem contexts_body_set (v : Vector (Option Context) 32) (o : Outlet) (c c' : Option Context)
    (h : Table.get v o = c) (hb : c'.map Context.body = c.map Context.body) :
    (Table.set v o c').map (Option.map Context.body) = v.map (Option.map Context.body) := by
  ext1 i hi
  simp only [Vector.getElem_map, Table.set, Vector.getElem_set]
  split
  · next e => subst e; rw [hb, ← h]; rfl
  · rfl

/-- A change of a context that keeps its body keeps the state's. -/
theorem body_mapContext (o : Outlet) (f : Context → Context) (h : ∀ c, (f c).body = c.body) :
    (mapContext o f s).body = s.body := by
  have key := contexts_body_set s.sessions.contexts o (s.context o) ((s.context o).map f) rfl
    (by cases s.context o <;> simp [h])
  simp only [State.body, mapContext, setContext]
  rw [key]

@[simp] theorem body_setUnit (u : UnitState) : (setUnit u s).body = s.body := rfl
@[simp] theorem body_requestOrder (j : OrderJob) : (requestOrder j s).body = s.body := rfl
@[simp] theorem body_requestSettle (j : SettleJob) : (requestSettle j s).body = s.body := rfl
@[simp] theorem body_requestJournal (j : JournalJob) : (requestJournal j s).body = s.body := rfl
@[simp] theorem body_requestSurvey (p : SurveyPart) : (requestSurvey p s).body = s.body := rfl
@[simp] theorem body_freePort : (freePort s).body = s.body := rfl
@[simp] theorem body_startJob (j : Job) : (startJob j s).body = s.body := rfl

@[simp] theorem body_withdrawStale : (withdrawStale s).body = s.body := by
  unfold withdrawStale; repeat' split
  all_goals rfl

@[simp] theorem body_answerRequests : (answerRequests s).body = s.body := by
  unfold answerRequests; split <;> simp

@[simp] theorem body_clearStandingDue (o : Outlet) : (clearStandingDue o s).body = s.body := by
  simp only [State.body, clearStandingDue, List.map_map]
  congr 1
  apply List.map_congr_left
  intro e _
  simp only [Function.comp_apply]
  split <;> rfl

@[simp] theorem body_clearRetry (j : SettleJob) : (clearRetry j s).body = s.body := by
  unfold clearRetry
  split
  · exact body_mapContext s _ _ fun c => rfl
  · refine body_mapContext s _ _ fun c => ?_
    cases hg : c.givenUp <;> simp [Context.body, hg]
  · rfl

@[simp] theorem body_chooseSettle : (chooseSettle s).body = s.body := by
  unfold chooseSettle; repeat' split
  · simp
  · rw [body_requestSettle]; exact body_mapContext s _ _ fun c => rfl
  all_goals simp

@[simp] theorem body_settleRequests : (settleRequests s).body = s.body := by
  unfold settleRequests; split <;> simp

@[simp] theorem body_journalRequests : (journalRequests s).body = s.body := by
  unfold journalRequests; split <;> rfl

@[simp] theorem body_startNext : (startNext s).body = s.body := by
  unfold startNext; repeat' split
  all_goals rfl

/-- Requests and starts keep the body. -/
@[simp] theorem body_serveRequests : (serveRequests s).body = s.body := by unfold serveRequests; simp

/-- The part state is no requester's. -/
theorem partState_eq_of_body {a b : State} (h : a.body = b.body) : a.control.partState = b.control.partState := by
  show a.body.control.partState = b.body.control.partState
  rw [h]

@[simp] theorem partState_serveRequests : (serveRequests s).control.partState = s.control.partState :=
  partState_eq_of_body (body_serveRequests s)

theorem body_halted {a b : State} (h : a.body = b.body) : (halted a).body = (halted b).body := by
  have e : ∀ x : State, (halted x).body = halted x.body := fun x => by
    by_cases hq : x.journal.queue.length < 8 <;>
      simp [halted, State.body, give, raise, setPartState, hq]
  rw [e, e, h]

/-- Every event ends with the body it has reached, or in HALTED. -/
theorem ends_endEvent : Ends s (endEvent s) := by
  unfold endEvent completeHalt
  split
  · next h =>
    simp only [partState_serveRequests, Bool.and_eq_true, decide_eq_true_eq] at h
    refine Or.inr ⟨h.1, ?_⟩
    rw [body_serveRequests]
    exact body_halted (body_serveRequests s)
  · exact Or.inl (body_serveRequests s)

/-- Starting leaves the port with a transfer wherever an order request waits. -/
theorem busy_startNext (h : s.port.orderReq.isSome = true) : (startNext s).port.busy.isSome = true := by
  unfold startNext
  split
  · assumption
  · split
    · rfl
    · split
      · rfl
      · simp_all

end Sys2Proof.Machine
end

