-- ==== Sys2Proof/Laws/Events.lean ====
section
/-! SUPPORT. What the end of an event does with the Order Unit's request, and what the completion of the read of an order part
leaves. -/

namespace Sys2Proof.Machine

variable (s : State)

/-! ### The unit and its request through the requests of the others -/

@[simp] theorem orderReq_withdrawStale : (withdrawStale s).port.orderReq = s.port.orderReq := by
  unfold withdrawStale; repeat' split
  all_goals rfl

@[simp] theorem busy_withdrawStale : (withdrawStale s).port.busy = s.port.busy := by
  unfold withdrawStale; repeat' split
  all_goals rfl

@[simp] theorem orders_withdrawStale : (withdrawStale s).orders = s.orders := by
  unfold withdrawStale; repeat' split
  all_goals rfl

@[simp] theorem orders_clearRetry (j : SettleJob) : (clearRetry j s).orders = s.orders := by
  unfold clearRetry; split <;> rfl

@[simp] theorem port_clearRetry (j : SettleJob) : (clearRetry j s).port = s.port := by
  unfold clearRetry; split <;> rfl

@[simp] theorem port_clearStandingDue (o : Outlet) : (clearStandingDue o s).port = s.port := rfl
@[simp] theorem orders_clearStandingDue (o : Outlet) : (clearStandingDue o s).orders = s.orders := rfl

@[simp] theorem orders_settleRequests : (settleRequests s).orders = s.orders := by
  unfold settleRequests chooseSettle; repeat' split
  all_goals simp

@[simp] theorem orderReq_settleRequests : (settleRequests s).port.orderReq = s.port.orderReq := by
  unfold settleRequests chooseSettle; repeat' split
  all_goals simp [requestSettle]

@[simp] theorem busy_settleRequests : (settleRequests s).port.busy = s.port.busy := by
  unfold settleRequests chooseSettle; repeat' split
  all_goals simp [requestSettle]

@[simp] theorem orders_journalRequests : (journalRequests s).orders = s.orders := by
  unfold journalRequests; split <;> rfl

@[simp] theorem orderReq_journalRequests : (journalRequests s).port.orderReq = s.port.orderReq := by
  unfold journalRequests; split <;> rfl

@[simp] theorem busy_journalRequests : (journalRequests s).port.busy = s.port.busy := by
  unfold journalRequests; split <;> rfl

@[simp] theorem orders_startNext : (startNext s).orders = s.orders := by
  unfold startNext; repeat' split
  all_goals rfl

/-- A request of the Order Unit is waiting or under way after a start. -/
theorem asks_startNext (j : OrderJob) (h : s.port.orderReq = some j) : Asks (startNext s) (.order j) := by
  unfold startNext
  split
  · exact Or.inr h
  · split
    · exact Or.inr h
    · next h' => rw [h] at *; simp only; exact Or.inl ⟨_, rfl, rfl⟩

/-- The port is not idle while it has a job. -/
theorem not_idle_of_asks (j : Job) (h : Asks s j) : s.port.isIdle = false := by
  unfold Port.isIdle
  rcases h with ⟨t, ht, _⟩ | h
  · simp [ht]
  · cases j <;> simp_all

/-- An event whose state asks for a job at the port does not complete a halt. -/
theorem completeHalt_of_asks (j : Job) (h : Asks s j) : completeHalt s = s := by
  unfold completeHalt State.haltDone
  rw [not_idle_of_asks s j h]; simp

/-- The requests of the Order Unit outlast the requests of the others. -/
theorem answerRequests_eq (h : ∀ c o r, s.orders.unit ≠ .waiting c o r true .nothing) : answerRequests s = s := by
  unfold answerRequests
  split
  · next h' => exact absurd h' (h _ _ _)
  · rfl

/-- An event that leaves a request of the Order Unit: the body stands, the unit stays, the job is at the port. -/
theorem endEvent_of_orderReq (j : OrderJob) (h : s.port.orderReq = some j)
    (hu : ∀ c o r, s.orders.unit ≠ .waiting c o r true .nothing) :
    (endEvent s).body = s.body ∧ (endEvent s).orders.unit = s.orders.unit ∧ Asks (endEvent s) (.order j) := by
  have hs : serveRequests s = startNext (journalRequests (settleRequests (withdrawStale s))) := by
    unfold serveRequests; rw [answerRequests_eq]; simpa using hu
  have ha : Asks (serveRequests s) (.order j) := by rw [hs]; exact asks_startNext _ j (by simpa using h)
  have he : endEvent s = serveRequests s := completeHalt_of_asks _ _ ha
  refine ⟨by rw [he, body_serveRequests], ?_, he ▸ ha⟩
  rw [he, hs]; simp

/-- An event that finds the TAKEN write and the wait of the order in hand done: the order is answered. -/
theorem endEvent_answers (cell : CellIndex) (o : OrderPart) (r : OrderOutcome)
    (h : s.orders.unit = .waiting cell o r true .nothing) :
    (endEvent s).body = s.body ∧ Answers (endEvent s) cell o r := by
  have hw : answerRequests (withdrawStale s) =
      requestOrder (.writeAnswer cell r (answerWord o r))
        (setUnit (.answering cell r (answerWord o r)) (withdrawStale s)) := by
    unfold answerRequests
    simp only [orders_withdrawStale, h]
    rfl
  have ha : Asks (serveRequests s) (.order (.writeAnswer cell r (answerWord o r))) := by
    unfold serveRequests; rw [hw]; exact asks_startNext _ _ (by simp [requestOrder])
  have he : endEvent s = serveRequests s := completeHalt_of_asks _ _ ha
  refine ⟨by rw [he, body_serveRequests], ?_, he ▸ ha⟩
  rw [he]; unfold serveRequests; rw [hw]; simp [requestOrder, setUnit]

/-! ### Progress copies -/

/-- A request of the settlement writer is waiting or under way after a start. -/
theorem asks_settle_startNext (j : SettleJob) (h : s.port.settleReq = some j) : Asks (startNext s) (.settle j) := by
  unfold startNext
  split
  · exact Or.inr h
  · split
    · next h' => rw [h] at h'; cases h'; exact Or.inl ⟨_, rfl, rfl⟩
    · next h' => rw [h] at h'; cases h'

theorem sessions_startNext : (startNext s).sessions = s.sessions := by
  unfold startNext; repeat' split
  all_goals rfl

theorem context_mapContext (o o' : Outlet) (f : Context → Context) :
    (mapContext o f s).context o' = if o = o' then (s.context o').map f else s.context o' := by
  simp only [mapContext, setContext, State.context, Table.get_set]
  split
  · next h => subst h; rfl
  · rfl

/-- The settlement writer's choice keeps a progress copy coming. -/
theorem copyComes_settleRequests (o : Outlet) (w : Bool) (c : Context) (h : s.context o = some c)
    (hd : c.progressDue = true) (hw : w = true → c.progressWaiter = true) :
    (∃ c', (settleRequests s).context o = some c' ∧ c'.progressDue = true ∧
      (w = true → c'.progressWaiter = true)) ∨
    ∃ fc fl, (w = true → fc = true) ∧ (settleRequests s).port.settleReq = some (.progress o fc fl) := by
  unfold settleRequests
  split
  · exact Or.inl ⟨c, h, hd, hw⟩
  · unfold chooseSettle
    split
    · exact Or.inl ⟨c, h, hd, hw⟩
    · split
      · next o' _ =>
        by_cases e : o' = o
        · subst e
          refine Or.inr ⟨_, _, ?_, rfl⟩
          intro h'; simp [h, hw h']
        · refine Or.inl ⟨c, ?_, hd, hw⟩
          show (mapContext o' _ s).context o = some c
          rw [context_mapContext, if_neg e, h]
      · split
        · exact Or.inl ⟨c, h, hd, hw⟩
        · split
          · next j _ =>
            refine Or.inl ?_
            show ∃ c', (clearRetry j s).context o = some c' ∧ _
            unfold clearRetry
            split
            · rw [context_mapContext, h]; split
              · exact ⟨_, rfl, hd, hw⟩
              · exact ⟨c, rfl, hd, hw⟩
            · rw [context_mapContext, h]; split
              · exact ⟨_, rfl, hd, hw⟩
              · exact ⟨c, rfl, hd, hw⟩
            · exact ⟨c, h, hd, hw⟩
          · exact Or.inl ⟨c, h, hd, hw⟩

@[simp] theorem sessions_withdrawStale : (withdrawStale s).sessions = s.sessions := by
  unfold withdrawStale; repeat' split
  all_goals rfl

@[simp] theorem sessions_answerRequests : (answerRequests s).sessions = s.sessions := by
  unfold answerRequests; split <;> rfl

@[simp] theorem sessions_journalRequests : (journalRequests s).sessions = s.sessions := by
  unfold journalRequests; split <;> rfl

@[simp] theorem settleReq_journalRequests : (journalRequests s).port.settleReq = s.port.settleReq := by
  unfold journalRequests; split <;> rfl

/-- A set progress-due mark, or the request made for it, outlasts the event. -/
theorem copyComes_endEvent (o : Outlet) (w : Bool) (c : Context) (h : s.context o = some c)
    (hd : c.progressDue = true) (hw : w = true → c.progressWaiter = true) : CopyComes (endEvent s) o w := by
  have h' : (answerRequests (withdrawStale s)).context o = some c := by
    simp only [State.context, sessions_answerRequests, sessions_withdrawStale]; exact h
  have key := copyComes_settleRequests (answerRequests (withdrawStale s)) o w c h' hd hw
  have hc : CopyComes (serveRequests s) o w := by
    unfold serveRequests
    rcases key with ⟨c', h1, h2, h3⟩ | ⟨fc, fl, h1, h2⟩
    · refine Or.inl ⟨c', ?_, h2, h3⟩
      simp only [State.context, sessions_startNext, sessions_journalRequests]; exact h1
    · exact Or.inr ⟨fc, fl, h1, asks_settle_startNext _ _ (by simpa using h2)⟩
  have he : endEvent s = serveRequests s := by
    rcases hc with ⟨c', h1, h2, _⟩ | ⟨fc, fl, _, h2⟩
    · unfold endEvent completeHalt State.haltDone
      have : (Config.outlets.any fun o => ((serveRequests s).context o).any Context.progressDue) = true := by
        rw [List.any_eq_true]; exact ⟨o, List.mem_finRange o, by simp [h1, h2]⟩
      simp [this]
    · exact completeHalt_of_asks _ _ h2
  rw [he]; exact hc

/-! ### The read of an order part -/

@[simp] theorem posted_postedPart (o : Order) : (postedPart o).posted = true := rfl
@[simp] theorem order_postedPart (o : Order) : (postedPart o).order = some o := rfl

/-- The completion of the read of a POSTED cell that is not live: the block's answer stands, the Order Unit waits for its
TAKEN write. -/
theorem receiveOrder_taken (t : Time) (w : Sweep) (o : Order) (cell : CellIndex) (h : Receives s cell) :
    let k := handOn cell w o (freePort (atTime t s))
    ∃ u, receiveOrder t w (postedPart o) s = .next u ∧ TakenAs cell o k.outcome k.wait k.state u ∧
      Asks u (.order (.writeTaken cell)) := by
  intro k
  obtain ⟨hr, hl⟩ := h
  have hl' : (freePort (atTime t s)).cellLive cell = false := hl
  refine ⟨endEvent (readCell cell w (postedPart o) (freePort (atTime t s))), ?_, ?_⟩
  · simp only [receiveOrder, hr, finish]
  · have e : readCell cell w (postedPart o) (freePort (atTime t s)) =
        requestOrder (.writeTaken cell) (setUnit (.waiting cell (postedPart o) k.outcome false k.wait) k.state) := by
      simp only [readCell, hl', takeOrder, k, OrderPart.posted, postedPart]; rfl
    rw [e]
    obtain ⟨h1, h2, h3⟩ := endEvent_of_orderReq
      (requestOrder (.writeTaken cell) (setUnit (.waiting cell (postedPart o) k.outcome false k.wait) k.state))
      (.writeTaken cell) (by simp [requestOrder]) (by simp [requestOrder, setUnit])
    exact ⟨⟨by rw [h1, body_requestOrder, body_setUnit], by rw [h2]; rfl⟩, h3⟩

end Sys2Proof.Machine
end

