-- ==== Sys2Proof/Laws/Sessions.lean ====
section
/-! SUPPORT. What a ceiling of 0, a handover and the end of a hold leave, said once in the terms of the statements, and what
the Apportioner's deliveries leave as it was. -/

namespace Sys2Proof.Machine

/-- What no delivery to the Apportioner and no pass changes. -/
structure Beyond where
  control : Control
  orders : OrderUnit
  sessions : SessionUnit
  standby : List StandbyEntry
  lines : Vector Line 16
  port : Port
  journal : Journal

/-- That part of a state. -/
def State.beyond (s : State) : Beyond :=
  { control := s.control, orders := s.orders, sessions := s.sessions, standby := s.standby, lines := s.lines,
    port := s.port, journal := s.journal }

variable (s : State)

/-! ### Deliveries and passes -/

@[simp] theorem beyond_requestPass : (requestPass s).beyond = s.beyond := rfl

@[simp] theorem beyond_pass : (pass s).beyond = s.beyond := by
  have hr (ts : List Target) (m : ModuleNo) (s : State) : (reduceModule ts m s).beyond = s.beyond := by
    unfold reduceModule; repeat' split
    all_goals rfl
  have h1 (o : Outlet) (s : State) : (raiseOne o s).beyond = s.beyond := by
    unfold raiseOne; repeat' split
    all_goals rfl
  have ho (t : Target) (s : State) : (raiseOutlet t s).beyond = s.beyond :=
    iterate_keeps s State.beyond _ (h1 _) _
  have hs (ts : List Target) (s : State) : (raises ts s).beyond = s.beyond := by
    unfold raises; split
    · rfl
    · exact forEach_keeps s State.beyond _ _ ho
  simp only [pass]
  rw [forEach_keeps _ State.beyond _ _ (fun _ _ => rfl : ∀ o s, (raisePeak o s).beyond = s.beyond), hs]
  exact forEach_keeps _ State.beyond _ _ (hr _)

@[simp] theorem beyond_immediatePass : (immediatePass s).beyond = s.beyond := by
  unfold immediatePass; split <;> simp

@[simp] theorem beyond_setInputs (o : Outlet) (f : WantInputs → WantInputs) :
    (setInputs o f s).beyond = s.beyond := by
  simp only [setInputs]; split <;> rfl

@[simp] theorem beyond_deliver (o : Outlet) (f : WantInputs → WantInputs) : (deliver o f s).beyond = s.beyond := by
  simp [deliver]

@[simp] theorem beyond_deliverActive (o : Outlet) (a : Bool) : (deliverActive o a s).beyond = s.beyond := by
  simp [deliverActive]

@[simp] theorem beyond_deliverDemand (o : Outlet) (n : Nat) : (deliverDemand o n s).beyond = s.beyond := by
  unfold deliverDemand; simp only [beyond_deliver]; split <;> simp

@[simp] theorem beyond_deliverBoth (k : LineNo) (f : WantInputs → WantInputs) :
    (deliverBoth k f s).beyond = s.beyond := by
  simp [deliverBoth]

@[simp] theorem control_deliverActive (o : Outlet) (a : Bool) : (deliverActive o a s).control = s.control :=
  congrArg Beyond.control (beyond_deliverActive s o a)
@[simp] theorem sessions_deliverActive (o : Outlet) (a : Bool) : (deliverActive o a s).sessions = s.sessions :=
  congrArg Beyond.sessions (beyond_deliverActive s o a)
@[simp] theorem standby_deliverActive (o : Outlet) (a : Bool) : (deliverActive o a s).standby = s.standby :=
  congrArg Beyond.standby (beyond_deliverActive s o a)
@[simp] theorem journal_deliverActive (o : Outlet) (a : Bool) : (deliverActive o a s).journal = s.journal :=
  congrArg Beyond.journal (beyond_deliverActive s o a)
@[simp] theorem context_deliverActive (o o' : Outlet) (a : Bool) : (deliverActive o a s).context o' = s.context o' :=
  congrArg (fun b : Beyond => Table.get b.sessions.contexts o') (beyond_deliverActive s o a)
@[simp] theorem report_deliverActive (o o' : Outlet) (a : Bool) : (deliverActive o a s).report o' = s.report o' :=
  congrArg (fun b : Beyond => Table.get b.sessions.reports o') (beyond_deliverActive s o a)
@[simp] theorem ceiling_deliverActive (o o' : Outlet) (a : Bool) : (deliverActive o a s).ceiling o' = s.ceiling o' :=
  congrArg (fun b : Beyond => Table.get b.sessions.ceilings o') (beyond_deliverActive s o a)

/-- A ceiling stored with its pass: what lies beyond the Apportioner is as it was, but for that ceiling. -/
theorem beyond_setCeiling (o : Outlet) (n : Nat) :
    (setCeiling o n s).beyond =
      { s.beyond with sessions := { s.sessions with ceilings := Table.set s.sessions.ceilings o n } } := by
  simp only [setCeiling, storeCeiling, beyond_immediatePass]
  split
  · next h =>
    have : Table.set s.sessions.ceilings o n = s.sessions.ceilings := by
      subst h; simp [State.ceiling, Table.get, Table.set]
    rw [this]; rfl
  · rw [beyond_setInputs]; rfl

@[simp] theorem control_setCeiling (o : Outlet) (n : Nat) : (setCeiling o n s).control = s.control :=
  congrArg Beyond.control (beyond_setCeiling s o n)
@[simp] theorem standby_setCeiling (o : Outlet) (n : Nat) : (setCeiling o n s).standby = s.standby :=
  congrArg Beyond.standby (beyond_setCeiling s o n)
@[simp] theorem journal_setCeiling (o : Outlet) (n : Nat) : (setCeiling o n s).journal = s.journal :=
  congrArg Beyond.journal (beyond_setCeiling s o n)
@[simp] theorem context_setCeiling (o o' : Outlet) (n : Nat) : (setCeiling o n s).context o' = s.context o' :=
  congrArg (fun b : Beyond => Table.get b.sessions.contexts o') (beyond_setCeiling s o n)
@[simp] theorem report_setCeiling (o o' : Outlet) (n : Nat) : (setCeiling o n s).report o' = s.report o' :=
  congrArg (fun b : Beyond => Table.get b.sessions.reports o') (beyond_setCeiling s o n)
@[simp] theorem band_setCeiling (o : Outlet) (n : Nat) : (setCeiling o n s).sessions.band = s.sessions.band :=
  congrArg (fun b : Beyond => b.sessions.band) (beyond_setCeiling s o n)
theorem ceiling_setCeiling (o o' : Outlet) (n : Nat) :
    (setCeiling o n s).ceiling o' = if o = o' then n else s.ceiling o' :=
  (congrArg (fun b : Beyond => Table.get b.sessions.ceilings o') (beyond_setCeiling s o n)).trans (Table.get_set _ _ _ _)

/-! ### Entries and the Standby Table -/

/-- An entry given joins the queue, or the queue is full. -/
theorem journaled_give (k : EntryKind) : Journaled k s (give k s) := by
  by_cases h : s.journal.queue.length < 8
  · left; simp [give, h]
  · right; rw [give, if_neg h]; exact not_lt.mp h

/-- A later entry does not take it away. -/
theorem journaled_give_of (k k' : EntryKind) (u : State) (h : Journaled k s u) : Journaled k s (give k' u) := by
  by_cases hu : u.journal.queue.length < 8
  · rcases h with h | h
    · left; simp [give, hu, h]
    · omega
  · right; rw [give, if_neg hu]; exact not_lt.mp hu

/-- An entry that has joined the queue stands in every state with that journal. -/
theorem journaled_of_journal (k : EntryKind) (u v : State) (h : Journaled k s u) (e : v.journal = u.journal) :
    Journaled k s v := by
  unfold Journaled; rw [e]; exact h

/-- The journal after an entry depends on the journal and on park seconds alone. -/
theorem journal_give_congr (k : EntryKind) (u : State) (h : u.journal = s.journal) (h' : u.control = s.control) :
    (give k u).journal = (give k s).journal := by simp only [give, h, h']

/-- A removed entry is gone. -/
theorem entryOf_removeEntry (cell : CellIndex) : (removeEntry cell s).entryOf cell = none := by
  simp [State.entryOf, removeEntry]

/-- An entry's cell is the one it was sought by. -/
theorem cell_of_entryOf (l : CellIndex) (e : StandbyEntry) (h : s.entryOf l = some e) : e.cell = l := by
  simpa using List.find?_some h

/-! ### What the small updates leave of a context, a ceiling and a report -/

@[simp] theorem context_give (k : EntryKind) (o : Outlet) : (give k s).context o = s.context o := rfl
@[simp] theorem ceiling_give (k : EntryKind) (o : Outlet) : (give k s).ceiling o = s.ceiling o := rfl
@[simp] theorem context_removeEntry (c : CellIndex) (o : Outlet) : (removeEntry c s).context o = s.context o := rfl
@[simp] theorem ceiling_mapContext (o o' : Outlet) (f : Context → Context) :
    (mapContext o f s).ceiling o' = s.ceiling o' := rfl
@[simp] theorem context_mapContext_self (o : Outlet) (f : Context → Context) :
    (mapContext o f s).context o = (s.context o).map f := by simp [context_mapContext]

@[simp] theorem context_leaveFor_self (o : Outlet) (c : Context) (p : Phase) :
    (leaveFor o c p s).context o = (s.context o).map fun c => { c with phase := p } := by
  unfold leaveFor setPhase; dsimp only; split <;> simp
@[simp] theorem ceiling_leaveFor (o o' : Outlet) (c : Context) (p : Phase) :
    (leaveFor o c p s).ceiling o' = s.ceiling o' := by
  unfold leaveFor setPhase; dsimp only; split <;> simp
@[simp] theorem standby_leaveFor (o : Outlet) (c : Context) (p : Phase) : (leaveFor o c p s).standby = s.standby := by
  unfold leaveFor setPhase; dsimp only; split <;> simp
@[simp] theorem control_leaveFor (o : Outlet) (c : Context) (p : Phase) : (leaveFor o c p s).control = s.control := by
  unfold leaveFor setPhase; dsimp only; split <;> simp
@[simp] theorem journal_leaveFor (o : Outlet) (c : Context) (p : Phase) : (leaveFor o c p s).journal = s.journal := by
  unfold leaveFor setPhase; dsimp only; split <;> simp
@[simp] theorem band_mapContext (o : Outlet) (f : Context → Context) :
    (mapContext o f s).sessions.band = s.sessions.band := rfl
@[simp] theorem band_leaveFor (o : Outlet) (c : Context) (p : Phase) :
    (leaveFor o c p s).sessions.band = s.sessions.band := by
  unfold leaveFor setPhase; dsimp only; split <;> simp

/-! ### DRAINED, handover, and a ceiling of 0 -/

/-- Entry to DRAINED: the context, with its entry; the ceiling, the Standby Table and the rest of control stand. -/
theorem enterDrained_spec (o : Outlet) (c : Context) (h : s.context o = some c) :
    (enterDrained o s).context o = some { c with phase := .drained, drainedMinutes := 0 } ∧
    (enterDrained o s).ceiling o = s.ceiling o ∧ (enterDrained o s).standby = s.standby ∧
    (enterDrained o s).control = s.control ∧ (enterDrained o s).sessions.band = s.sessions.band ∧
    (enterDrained o s).journal = (give (.drained o c.cell c.hold c.chargedTotal) s).journal := by
  simp only [enterDrained, h]
  exact ⟨by simp [h], by simp, by simp, by simp, by simp, journal_give_congr _ _ _ (by simp) (by simp)⟩

/-- A ceiling recomputed is the one that computes now. -/
theorem ceiling_recompute (o : Outlet) : (recompute o s).ceiling o = s.ceilingNow o := by
  simp [recompute, ceiling_setCeiling]

/-- Of an ACTIVE session it is the purse ceiling. -/
theorem ceilingNow_active (o : Outlet) (c : Context) (h : s.context o = some c) (hp : c.phase = .active) :
    s.ceilingNow o = c.purseCeiling s.control.settings s.sessions.band := by
  simp only [State.ceilingNow, h, hp]

/-- A handover, as the statements say it: the audit-held mark is kept. -/
theorem handover_handedOver (o : Outlet) (e : StandbyEntry) (c : Context) (h : s.context o = some c) :
    HandedOver s o c e c.auditHeld (handover o e s) := by
  have hd : handover o e s =
      let r := recompute o (deliverActive o true (give (.handover o c.cell e.cell c.chargedTotal)
        (removeEntry e.cell (setContext o (some (c.takeOver o e s.control.seconds)) s))))
      if r.ceiling o = 0 then enterDrained o r else r := by simp only [handover, h]
  rw [hd]
  set t := c.takeOver o e s.control.seconds with ht
  set v := deliverActive o true (give (.handover o c.cell e.cell c.chargedTotal)
    (removeEntry e.cell (setContext o (some t) s))) with hv
  have vc : v.context o = some t := by rw [hv]; simp
  have rc : (recompute o v).context o = some t := by simp [recompute, vc]
  have rn : (recompute o v).control = s.control := by simp [recompute, hv]
  have rb : (recompute o v).sessions.band = s.sessions.band := by simp [recompute, hv]; rfl
  have rs : (recompute o v).standby = (removeEntry e.cell s).standby := by simp [recompute, hv]; rfl
  have rj : (recompute o v).journal = (give (.handover o c.cell e.cell c.chargedTotal) s).journal := by
    simp only [recompute, journal_setCeiling, hv, journal_deliverActive]
    exact journal_give_congr _ _ _ rfl rfl
  have rl : (recompute o v).ceiling o = t.purseCeiling s.control.settings s.sessions.band := by
    rw [ceiling_recompute, ceilingNow_active _ _ _ vc rfl]
    have : v.control = s.control := by rw [hv]; simp
    have hb : v.sessions.band = s.sessions.band := by rw [hv]; simp; rfl
    rw [this, hb]
  have hj : Journaled (.handover o c.cell e.cell c.chargedTotal) s (recompute o v) :=
    journaled_of_journal s _ _ _ (journaled_give s _) rj
  have gone {u : State} (hu : u.standby = (removeEntry e.cell s).standby) : u.entryOf e.cell = none := by
    have := entryOf_removeEntry s e.cell
    simpa [State.entryOf, hu] using this
  dsimp only
  split
  · next h0 =>
    obtain ⟨d1, d2, d3, d4, d5, d6⟩ := enterDrained_spec (recompute o v) o t rc
    refine ⟨?_, ?_, gone (d3.trans rs), .inl ⟨_, d1, rfl, fun h => nomatch h⟩, ?_⟩
    · simp only [Stands, d1, d2, h0]; rfl
    · rw [d2, rl, d4, d5, rn, rb]; rfl
    · exact journaled_of_journal s _ _ _ (journaled_give_of s _ (.drained o t.cell t.hold t.chargedTotal) _ hj) d6
  · next h0 =>
    refine ⟨?_, ?_, gone rs, .inl ⟨_, rc, rfl, fun h => nomatch h⟩, hj⟩
    · simp only [Stands, rc, h0]; rfl
    · rw [rl, rn, rb]; rfl

/-- An ACTIVE session with the ceiling it has is taken on, as the statements say it. -/
theorem takeOn_goesOn (o : Outlet) (c : Context) (h : s.context o = some c) (hp : c.phase = .active) :
    GoesOn s o c (s.ceiling o) false (takeOn o s) := by
  refine ⟨fun hn => ?_, fun h0 ha hs => ?_, fun l e h0 ha hg hl he => ?_⟩
  · have : takeOn o s = s := by
      simp only [takeOn, h]; split
      · next hc => rcases hn with hn | hn <;> simp_all
      · rfl
    rw [this]
    exact ⟨by simp [Stands, h], rfl⟩
  · have : takeOn o s = enterDrained o s := by
      have hno : s.successor c = none := by
        rcases hs with hs | hs
        · simp [State.successor, Option.isSome_iff_ne_none, hs]
        · unfold State.successor; split
          · rfl
          · cases hl : c.link with
            | none => rfl
            | some l => exact hs l hl
      simp [takeOn, h, hp, h0, ha, hno]
    obtain ⟨d1, d2, _, _, _, d6⟩ := enterDrained_spec s o c h
    rw [this]
    refine ⟨?_, by rw [d2, h0], journaled_of_journal s _ _ _ (journaled_give s _) d6⟩
    simp only [Stands, d1, Option.map_some]
    congr 1
    cases c; simp_all [Context.body]
  · have : takeOn o s = handover o e s := by
      have hsome : s.successor c = some e := by simp [State.successor, hg, hl, he]
      simp [takeOn, h, hp, h0, ha, hsome]
    rw [this, ← ha]
    exact handover_handedOver s o e c h

/-- A DRAINED session is handed over to the entry that its link names; without one, or audit-held, it stays. -/
theorem examineDrained_spec (o : Outlet) (c : Context) (h : s.context o = some c) (hp : c.phase = .drained) :
    (c.auditHeld = true ∨ NoSuccessor s c → examineDrained o s = s) ∧
    ∀ l e, c.auditHeld = false → c.givenUp = none → c.link = some l → s.entryOf l = some e →
      HandedOver s o c e false (examineDrained o s) := by
  refine ⟨fun hs => ?_, fun l e ha hg hl he => ?_⟩
  · simp only [examineDrained, h]
    split
    · next hc =>
      have hno : s.successor c = none := by
        rcases hs with hs | hs | hs
        · simp [hs] at hc
        · simp [State.successor, Option.isSome_iff_ne_none, hs]
        · unfold State.successor; split
          · rfl
          · cases hl : c.link with
            | none => rfl
            | some l => exact hs l hl
      simp [hno]
    · rfl
  · have : examineDrained o s = handover o e s := by
      have hsome : s.successor c = some e := by simp [State.successor, hg, hl, he]
      simp [examineDrained, h, hp, ha, hsome]
    rw [this, ← ha]
    exact handover_handedOver s o e c h

/-! ### The end of a hold, and a start -/

/-- The terms of the statements look at the state before an event through its control and its Standby Table alone. -/
theorem journaled_congr {s s' : State} (k : EntryKind) (u : State) (hc : s'.control = s.control)
    (h : Journaled k s' u) : Journaled k s u := by rw [Journaled, ← hc]; exact h

theorem handedOver_congr {s s' : State} (o : Outlet) (c : Context) (e : StandbyEntry) (held : Bool) (u : State)
    (hc : s'.control = s.control) (h : HandedOver s' o c e held u) : HandedOver s o c e held u := by
  rw [HandedOver, HandedOverTo, ← hc]; exact ⟨h.1, h.2.1, h.2.2.1, h.2.2.2.1, journaled_congr _ _ hc h.2.2.2.2⟩

theorem entryOf_congr {s s' : State} (hs : s'.standby = s.standby) (l : CellIndex) : s'.entryOf l = s.entryOf l := by
  rw [State.entryOf, hs]; rfl

theorem noSuccessor_congr {s s' : State} (c : Context) (hs : s'.standby = s.standby) (h : NoSuccessor s c) :
    NoSuccessor s' c := h.imp_right fun h l e => (entryOf_congr hs l).trans (h l e)

theorem goesOn_congr {s s' : State} (o : Outlet) (c : Context) (n : Nat) (held : Bool) (u : State)
    (hc : s'.control = s.control) (hs : s'.standby = s.standby) (h : GoesOn s' o c n held u) : GoesOn s o c n held u :=
  ⟨h.1, fun h0 ha hn =>
    have ⟨d1, d2, d3⟩ := h.2.1 h0 ha (noSuccessor_congr c hs hn)
    ⟨d1, d2, journaled_congr _ _ hc d3⟩,
   fun l e h0 ha hg hl he => handedOver_congr _ _ _ _ _ hc (h.2.2 l e h0 ha hg hl ((entryOf_congr hs l).trans he))⟩

/-- An entry given before a session is DRAINED is there after it. -/
theorem journaled_enterDrained (k : EntryKind) (o : Outlet) (u : State) (h : Journaled k s u) :
    Journaled k s (enterDrained o u) := by
  cases hc : u.context o with
  | none => simpa [enterDrained, hc] using h
  | some c => exact journaled_of_journal s _ _ _ (journaled_give_of s _ _ _ h) (enterDrained_spec u o c hc).2.2.2.2.2

/-- The same for a handover. -/
theorem journaled_handover (k : EntryKind) (o : Outlet) (e : StandbyEntry) (u : State) (h : Journaled k s u) :
    Journaled k s (handover o e u) := by
  unfold handover
  split
  · exact h
  · next c _ =>
    have hv : Journaled k s (recompute o (deliverActive o true (give (.handover o c.cell e.cell c.chargedTotal)
        (removeEntry e.cell (setContext o (some (c.takeOver o e u.control.seconds)) u))))) := by
      refine journaled_of_journal s _ _ _ (journaled_give_of s k (.handover o c.cell e.cell c.chargedTotal) u h) ?_
      simp only [recompute, journal_setCeiling, journal_deliverActive]
      exact journal_give_congr _ _ _ rfl rfl
    dsimp only
    split
    · exact journaled_enterDrained s k o _ hv
    · exact hv

/-- The same for the examination of a DRAINED session. -/
theorem journaled_examineDrained (k : EntryKind) (o : Outlet) (u : State) (h : Journaled k s u) :
    Journaled k s (examineDrained o u) := by
  unfold examineDrained
  repeat' split
  · exact h
  · exact journaled_handover s k o _ u h
  · exact h
  · exact h

/-- The same for a session taken on. -/
theorem journaled_takeOn (k : EntryKind) (o : Outlet) (u : State) (h : Journaled k s u) :
    Journaled k s (takeOn o u) := by
  unfold takeOn
  repeat' split
  · exact h
  · exact journaled_handover s k o _ u h
  · exact journaled_enterDrained s k o u h
  · exact h

/-- Recovery, as the statements say it. -/
theorem recover_recovered (o : Outlet) (c : Context) (r : ResumeState) (reason : HeldReason) (d : Bool)
    (h : s.context o = some c) : Recovered s o c r reason d (recover o c r reason d s) := by
  set v := give (.recovered o reason r c.heldMinutes) (setPhase o r.phase s) with hv
  have vc : v.context o = some { c with phase := r.phase } := by rw [hv]; simp [setPhase, h]
  have vj : Journaled (.recovered o reason r c.heldMinutes) s v := journaled_give (setPhase o r.phase s) _
  refine ⟨?_, fun hr => ?_, fun hr => ?_, fun hr => ?_⟩
  · cases r
    · exact journaled_takeOn s _ o _ (journaled_of_journal s _ v _ vj (journal_deliverActive v o true))
    · show Journaled _ s (if d = true then give (.vehicleDone o) v else v)
      split
      · exact journaled_give_of s _ _ _ vj
      · exact vj
    · exact journaled_examineDrained s _ o _ vj
  · subst hr
    have := takeOn_goesOn (deliverActive o true v) o _ ((context_deliverActive v o o true).trans vc) rfl
    rw [ceiling_deliverActive] at this
    exact goesOn_congr o _ _ _ _ ((control_deliverActive v o true).trans rfl) ((standby_deliverActive v o true).trans rfl)
      this
  · subst hr
    show Stands (if d = true then give (.vehicleDone o) v else v) o _ ∧ _
    refine ⟨?_, fun hd => ?_⟩
    · split <;> simp [Stands, vc, ResumeState.phase]
    · show Journaled _ s (if d = true then give (.vehicleDone o) v else v)
      rw [if_pos hd]; exact journaled_give v _
  · subst hr
    have := examineDrained_spec v o _ vc rfl
    refine ⟨fun hs => ?_, fun l e ha hg hl he => ?_⟩
    · show Stands (examineDrained o v) o _
      rw [this.1 (hs.imp_right (noSuccessor_congr _ rfl))]
      simp [Stands, vc, ResumeState.phase]
    · have := this.2 l e ha hg hl he
      exact handedOver_congr o _ _ _ _ rfl this

/-- The end of a hold, as the statements say it. -/
theorem endHold_recovered (o : Outlet) (c : Context) (r : ResumeState) (reason : HeldReason) (d : Bool)
    (h : s.context o = some c) (hp : c.phase = .held r reason d) (hl : (s.report o).lineStale = false)
    (hf : (s.report o).plug ≠ .fault) : Recovered s o c r reason d (endHold o reason s) := by
  have : endHold o reason s = recover o c r reason d s := by simp [endHold, h, hp, hl, hf]
  rw [this]; exact recover_recovered s o c r reason d h

/-- A start, as the statements say it. -/
theorem evaluateStart_goesOn (o : Outlet) (c : Context) (start : StartCondition) (h : s.context o = some c)
    (hp : c.phase = .armed start) (hh : s.startHolds o start = true) :
    let d := c.begun s.sessions.startSerial s.control.seconds
    GoesOn s o d (d.purseCeiling s.control.settings s.sessions.band) false (evaluateStart o s) := by
  intro d
  have he : evaluateStart o s = takeOn o (beginSession o s) := by simp [evaluateStart, h, hp, hh]
  have bc : (beginSession o s).context o = some d := by
    unfold beginSession recompute
    dsimp only
    rw [context_setCeiling, context_deliverActive]
    show (mapContext o _ s).context o = _
    simp [h]; rfl
  have bn : (beginSession o s).control = s.control := by
    unfold beginSession recompute
    dsimp only
    rw [control_setCeiling, control_deliverActive]; rfl
  have bs : (beginSession o s).standby = s.standby := by
    unfold beginSession recompute
    dsimp only
    rw [standby_setCeiling, standby_deliverActive]; rfl
  have bl : (beginSession o s).ceiling o = d.purseCeiling s.control.settings s.sessions.band := by
    unfold beginSession
    dsimp only
    rw [ceiling_recompute, ceilingNow_active _ o d, control_deliverActive, sessions_deliverActive]
    · rfl
    · rw [context_deliverActive]
      show (mapContext o _ s).context o = _
      simp [h]; rfl
    · rfl
  rw [he, ← bl]
  exact goesOn_congr o _ _ _ _ bn bs (takeOn_goesOn _ o d bc rfl)

/-- What R29 puts last in an event touches no session that the event has not started. -/
theorem endStart_of_not_armed (before : State) (o : Outlet) (h : before.phaseIs o Phase.isArmed = false) :
    endStart before o s = s := by simp [endStart, h]

/-- The same where the report shows the complete flag clear. -/
theorem endStart_of_not_complete (before : State) (o : Outlet) (h : (s.report o).complete = false) :
    endStart before o s = s := by simp [endStart, h]

/-- What stands of a session before it enters IDLE: an ACTIVE one stands in IDLE with its entry, another as it was; the ceiling,
the Standby Table, the rest of control, the port and the copy to come stay. -/
theorem enterIdle_stands (o : Outlet) (c : Context) (v : State) (h : Stands v o c) :
    (c.phase ≠ .active → enterIdle o v = v) ∧
    (c.phase = .active →
      Stands (enterIdle o v) o { c with phase := .idle } ∧ (enterIdle o v).ceiling o = v.ceiling o ∧
      (enterIdle o v).standby = v.standby ∧ (enterIdle o v).control = v.control ∧
      (enterIdle o v).sessions.band = v.sessions.band ∧
      (enterIdle o v).journal = (give (.vehicleDone o) v).journal ∧
      (CopyComes v o false → CopyComes (enterIdle o v) o false)) := by
  obtain ⟨x, hx, hb⟩ : ∃ x, v.context o = some x ∧ x.body = c.body := by
    simpa [Stands, Option.map_eq_some_iff] using h
  have hp : x.phase = c.phase := show x.body.phase = c.body.phase from congrArg Context.phase hb
  refine ⟨fun hn => by simp [enterIdle, hx, hp, hn], fun ha => ?_⟩
  have e : enterIdle o v = leaveFor o x .idle (give (.vehicleDone o) v) := by simp [enterIdle, hx, hp, ha]
  have hc : (enterIdle o v).context o = some { x with phase := .idle } := by rw [e]; simp [hx]
  have hport : (enterIdle o v).port = v.port := by
    rw [e]; unfold leaveFor setPhase; dsimp only
    split
    · exact congrArg Beyond.port (beyond_deliverActive _ o false)
    · rfl
  refine ⟨?_, by rw [e]; simp, by rw [e]; simp, by rw [e]; simp, by rw [e]; simp, by rw [e]; simp,
    fun hcopy => ?_⟩
  · have : ({ x with phase := .idle } : Context).body = { x.body with phase := .idle } := rfl
    rw [Stands, hc, Option.map_some, this, hb]; rfl
  · rcases hcopy with ⟨y, hy, hd, _⟩ | ⟨a, b, _, hask⟩
    · rw [hx] at hy; cases hy
      exact .inl ⟨_, hc, hd, nofun⟩
    · exact .inr ⟨a, b, nofun, by simpa [Asks, hport] using hask⟩

/-- A start with what R29 puts last in its event, as the statements say it. -/
theorem endStart_begins (before v : State) (o : Outlet) (d : Context) (n : Nat) (hp : d.phase = .active)
    (hb : before.phaseIs o Phase.isArmed = true) (ht : v.control = s.control) (h : GoesOn s o d n false v) :
    Begins s o d n (v.report o).complete (endStart before o v) := by
  obtain ⟨h1, h2, h3⟩ := h
  have self : ({ d with auditHeld := d.auditHeld || false } : Context) = d := by rw [Bool.or_false]
  rw [self] at h1
  have drained (ha : d.auditHeld = false) :
      ({ d with phase := .drained, drainedMinutes := 0, auditHeld := false } : Context) =
        { d with phase := .drained, drainedMinutes := 0 } := by rw [← ha]
  have done {u : State} (hj : u.journal = (give (.vehicleDone o) v).journal) : Journaled (.vehicleDone o) s u :=
    journaled_congr _ u ht (journaled_of_journal v _ _ u (journaled_give v _) hj)
  cases hr : (v.report o).complete with
  | false =>
    rw [endStart_of_not_complete v before o hr]
    exact ⟨fun hn => ⟨by have := (h1 hn).1; rwa [show d = { d with phase := .active } by rw [← hp]] at this,
        (h1 hn).2, fun h => nomatch h⟩,
      fun h0 ha hs => drained ha ▸ h2 h0 ha hs,
      fun l e h0 ha hg hl he => ⟨h3 l e h0 ha hg hl he, fun h => nomatch h⟩⟩
  | true =>
    have e : endStart before o v = enterIdle o v := by simp [endStart, hb, hr]
    rw [e]
    refine ⟨fun hn => ?_, fun h0 ha hs => ?_, fun l x h0 ha hg hl hx => ?_⟩
    · obtain ⟨k1, k2⟩ := h1 hn
      obtain ⟨i1, i2, _, _, _, i6, _⟩ := (enterIdle_stands o d v k1).2 hp
      exact ⟨i1, i2.trans k2, fun _ => done i6⟩
    · have := h2 h0 ha hs
      rw [(enterIdle_stands o _ v this.1).1 (by simp)]
      exact drained ha ▸ this
    · obtain ⟨k1, k2, k3, k4, k5⟩ := h3 l x h0 ha hg hl hx
      by_cases hz : v.ceiling o = 0
      · rw [(enterIdle_stands o _ v k1).1 (by simp [hz])]
        exact ⟨⟨by simpa [hz] using k1, k2, k3, k4, k5⟩, fun _ h => absurd hz h⟩
      · obtain ⟨i1, i2, i3, i4, i5, i6, i7⟩ := (enterIdle_stands o _ v k1).2 (by simp [hz])
        refine ⟨⟨?_, ?_, ?_, i7 k4, ?_⟩, fun _ _ => ?_⟩
        · rw [i2]; simpa [hz] using i1
        · rw [i2, i4, i5]; exact k2
        · rw [State.entryOf, i3]; exact k3
        · exact journaled_of_journal s _ _ _ (journaled_give_of s _ _ _ k5) i6
        · exact done i6

/-! ### Through the end of the event -/

/-- The sessions and the journal queue that the end of an event leaves, but for the settlement writer's marks and for HALTED
with its entry. -/
theorem endEvent_leaves : (endEvent s).body = s.body ∨ (endEvent s).body = (halted s).body :=
  (ends_endEvent s).imp_right And.right

/-- What stands of a session before the end of the event stands after it. -/
theorem stands_endEvent (o : Outlet) (c : Context) (h : Stands s o c) : Stands (endEvent s) o c := by
  have key (u : State) (hb : u.body.sessions = s.body.sessions) : Stands u o c := by
    have hc : (u.context o).map Context.body = (s.context o).map Context.body := by
      simpa [State.context, State.body, Table.get] using congrArg (fun x : SessionUnit => Table.get x.contexts o) hb
    rw [Stands, hc]; exact h
  rcases endEvent_leaves s with hb | hb
  · exact key _ (congrArg State.sessions hb)
  · exact key _ ((congrArg State.sessions hb).trans rfl)

/-- An entry that has joined the journal queue in an event is there at its end. -/
theorem journaled_endEvent (k : EntryKind) (u : State) (h : Journaled k s u) : Journaled k s (endEvent u) := by
  have key (v w : State) (hb : v.body.journal = w.body.journal) (h : Journaled k s w) : Journaled k s v := by
    have hq : v.journal.queue = w.journal.queue :=
      show v.body.journal.queue = w.body.journal.queue from congrArg Journal.queue hb
    rw [Journaled, hq]; exact h
  rcases endEvent_leaves u with hb | hb
  · exact key _ _ (congrArg State.journal hb) h
  · exact key _ _ (congrArg State.journal hb) (journaled_give_of s k .halted _ h)

end Sys2Proof.Machine
end

