-- ==== Sys2Proof/Laws/Served.lean ====
section
/-! SUPPORT. What the end of an event leaves to do: nothing for the settlement writer without a request, nothing for an IDLE
Journal Writer; and a line, a context and an outlet's modules as the statements judge them. -/

namespace Sys2Proof.Machine

variable (s : State)

/-! ### The settlement writer (R43, R146, R152, R153) -/

/-- No end word, copy or receipt is due. -/
def State.settled (s : State) : Prop :=
  s.nextEndWord = none ∧ s.nextProgress = none ∧ s.nextStanding = none ∧ s.nextReceipt = none

theorem settleBusy_eq_false :
    s.settleBusy = false ↔ s.port.settleReq = none ∧ ∀ t k, s.port.busy = some t → t.job ≠ .settle k := by
  have hk : ∀ j : Job, j.requester = .settlementWriter ↔ ∃ k, j = .settle k := by
    intro j; cases j <;> simp [Job.requester]
  unfold State.settleBusy
  cases s.port.settleReq <;> cases s.port.busy <;> simp [hk]
  exact ⟨fun h t k e => e ▸ h k, fun h k => h _ k rfl⟩

/-- What is due depends on the sessions, the Standby Table and the Order Unit alone. -/
theorem settled_congr {s s' : State} (ho : s'.orders = s.orders) (hs : s'.sessions = s.sessions)
    (ht : s'.standby = s.standby) : s'.settled ↔ s.settled := by
  cases s; cases s'; cases ho; cases hs; cases ht; rfl

/-- After its choice the settlement writer has a transfer requested or under way, or nothing to do. -/
theorem settled_settleRequests (h : (settleRequests s).settleBusy = false) : (settleRequests s).settled := by
  by_cases hb : s.settleBusy = true
  · rw [settleRequests, if_pos hb, hb] at h; cases h
  · have e : settleRequests s = chooseSettle s := by simp [settleRequests, hb]
    rw [e] at h ⊢
    have hr := ((settleBusy_eq_false _).1 h).1
    unfold chooseSettle at hr ⊢
    split at hr
    · simp [requestSettle] at hr
    · split at hr
      · simp [requestSettle] at hr
      · split at hr
        · simp [requestSettle] at hr
        · split at hr
          · simp [requestSettle] at hr
          · exact ⟨by assumption, by assumption, by assumption, by assumption⟩

@[simp] theorem standby_journalRequests : (journalRequests s).standby = s.standby := by
  unfold journalRequests; split <;> rfl

@[simp] theorem standby_startNext : (startNext s).standby = s.standby := by
  unfold startNext; repeat' split
  all_goals rfl

/-- A start leaves the settlement writer as busy as it was. -/
theorem settleBusy_startNext (h : (startNext s).settleBusy = false) : s.settleBusy = false := by
  rw [settleBusy_eq_false] at h ⊢
  unfold startNext at h
  split at h
  · exact h
  · next hb =>
    simp only [Bool.not_eq_true, Option.isSome_eq_false_iff, Option.isNone_iff_eq_none] at hb
    refine ⟨?_, fun t k e => by rw [hb] at e; cases e⟩
    split at h
    · next j _ => exact absurd rfl (h.2 _ j rfl)
    · assumption

theorem settlementServed_serveRequests : SettlementServed (serveRequests s) := by
  intro hr hb
  have h := settleBusy_startNext _ ((settleBusy_eq_false _).2 ⟨hr, hb⟩)
  set a := settleRequests (answerRequests (withdrawStale s)) with ha
  have h' : a.settleBusy = false := by simpa [State.settleBusy] using h
  refine (settled_congr (s := a) ?_ ?_ ?_).2 (settled_settleRequests _ h')
  · simp [serveRequests, ha]
  · simp [serveRequests, ha, sessions_startNext]
  · simp [serveRequests, ha]

/-- Every event that ends as events do leaves the settlement writer served. -/
theorem settlementServed_endEvent : SettlementServed (endEvent s) := by
  unfold endEvent completeHalt
  split <;> exact settlementServed_serveRequests _

/-! ### The Journal Writer (R172) -/

@[simp] theorem journal_startNext : (startNext s).journal = s.journal := by
  unfold startNext; repeat' split
  all_goals rfl

@[simp] theorem journal_settleRequests : (settleRequests s).journal = s.journal := by
  unfold settleRequests chooseSettle clearRetry; repeat' split
  all_goals rfl

@[simp] theorem journal_answerRequests : (answerRequests s).journal = s.journal := by
  unfold answerRequests; split <;> rfl

@[simp] theorem journal_withdrawStale : (withdrawStale s).journal = s.journal := by
  unfold withdrawStale; repeat' split
  all_goals rfl

/-- A request of the Journal Writer is waiting or under way after a start. -/
theorem asks_journal_startNext (j : JournalJob) (h : s.port.journalReq = some j) : Asks (startNext s) (.journal j) := by
  unfold startNext
  repeat' split
  · exact Or.inr h
  · exact Or.inr h
  · exact Or.inr h
  · next h' => rw [h] at h'; cases h'; exact Or.inl ⟨_, rfl, rfl⟩
  all_goals simp_all

/-- An IDLE writer stays IDLE with an empty queue, and enters CHECKING with another. -/
theorem journal_serveRequests (h : s.journal.writer = .idle) :
    (s.journal.queue = [] → (serveRequests s).journal = s.journal) ∧
    (s.journal.queue ≠ [] → (serveRequests s).journal = { s.journal with writer := .checking } ∧
      Asks (serveRequests s) (.journal .readSlot)) := by
  set a := settleRequests (answerRequests (withdrawStale s)) with ha
  have hj : a.journal = s.journal := by simp [ha]
  have hs : serveRequests s = startNext (journalRequests a) := rfl
  refine ⟨fun hq => ?_, fun hq => ?_⟩
  · rw [hs, journal_startNext]
    unfold journalRequests
    split
    · next h' => rw [hj, hq] at h'; cases h'
    · exact hj
  · have e : journalRequests a = requestJournal .readSlot { a with journal := { a.journal with writer := .checking } } := by
      unfold journalRequests
      split
      · rfl
      · next h' =>
        cases hl : s.journal.queue with
        | nil => exact absurd hl hq
        | cons x l => exact absurd (hj ▸ hl) (h' x l (hj ▸ h))
    rw [hs, e]
    exact ⟨by rw [journal_startNext, ← hj]; rfl, asks_journal_startNext _ _ rfl⟩

/-- An entry that comes to an IDLE writer in an event has it CHECKING at its end. -/
theorem journal_endEvent (h : s.journal.writer = .idle) (hq : (endEvent s).journal.queue ≠ []) :
    (endEvent s).journal.writer = .checking ∧ Asks (endEvent s) (.journal .readSlot) := by
  obtain ⟨h1, h2⟩ := journal_serveRequests s h
  by_cases he : s.journal.queue = []
  · unfold endEvent completeHalt at hq ⊢
    split at hq
    · next hc =>
      rw [if_pos hc]
      set g := give .halted (raise .halted
        { serveRequests s with control := { (serveRequests s).control with partState := .halted } }) with hg
      have hw : g.journal.writer = .idle := by
        have := congrArg Window.writer (window_give (raise .halted
          { serveRequests s with control := { (serveRequests s).control with partState := .halted } }) .halted)
        exact this.trans ((congrArg Journal.writer (h1 he)).trans h)
      have hn : g.journal.queue ≠ [] := by
        intro h0
        have : (serveRequests g).journal.queue = [] := by rw [(journal_serveRequests g hw).1 h0, h0]
        exact hq this
      obtain ⟨k1, k2⟩ := (journal_serveRequests g hw).2 hn
      exact ⟨by rw [k1], k2⟩
    · rw [h1 he] at hq; exact absurd he hq
  · obtain ⟨k1, k2⟩ := h2 he
    have e : endEvent s = serveRequests s := completeHalt_of_asks _ _ k2
    rw [e]
    exact ⟨by rw [k1], k2⟩

/-- The end of an event leaves the Journal Writer served. -/
theorem journalServed_endEvent : JournalServed (endEvent s) := by
  have key (s : State) : JournalServed (serveRequests s) := by
    intro h
    by_cases hw : s.journal.writer = .idle
    · obtain ⟨h1, h2⟩ := journal_serveRequests s hw
      by_cases he : s.journal.queue = []
      · rw [h1 he, he]
      · rw [(h2 he).1] at h; cases h
    · have e : journalRequests (settleRequests (answerRequests (withdrawStale s))) =
          settleRequests (answerRequests (withdrawStale s)) := by
        unfold journalRequests
        split
        · simp_all
        · rfl
      rw [serveRequests, e, journal_startNext, journal_settleRequests, journal_answerRequests, journal_withdrawStale] at h
      exact absurd h hw
  unfold endEvent completeHalt
  split <;> exact key _

/-! ### A line and its poll (R80, R82, R83) -/

/-- What is done of a poll that is due is `Line.seenTo`, and nothing else changes. -/
theorem pollIfDue_eq (k : LineNo) : pollIfDue k s = setLine k ((s.line k).seenTo k s) s := by
  have hs : setLine k (s.line k) s = s := by simp [setLine, State.line, Table.get, Table.set]
  have hp : (s.line k).polls s.now = true ↔ (s.line k).state = .waiting ∧ (s.line k).receiving = none ∧
      ((s.line k).bandEdge = true ∨ ∃ d ∈ (s.line k).due, d ≤ s.now) := by
    unfold Line.polls
    cases (s.line k).due <;> simp [and_assoc]
  unfold pollIfDue Line.seenTo
  by_cases h : (s.line k).polls s.now = true
  · rw [if_pos h, if_pos (hp.1 h), pollNow]
    by_cases hr : (s.line k).replySlot = none
    · rw [if_pos (by simp [hr]), if_pos hr]; simp [sendPoll, mapLine, setLine, ms, Nat.mul_comm]
    · rw [if_neg (by simp [hr]), if_neg hr]; rfl
  · rw [if_neg h, if_neg (mt hp.2 h), hs]

/-! ### SETTLING (R41) -/

/-- What each pending delta and each pending idle minute keeps, the application of them all keeps (R163). -/
theorem applyPending_keeps {β : Type} (f : Context → β) (c : Context) (hb : ∀ c b, f (Context.pricePending c b) = f c)
    (hi : ∀ c, f (Context.idleMinute c) = f c)
    (he : ∀ c : Context, f { c with pendingIdle := 0, auditHeld := false } = f c) : f c.applyPending = f c := by
  have hn (n : Nat) (c : Context) : f (Context.idleMinute^[n] c) = f c := by
    induction n generalizing c with
    | zero => rfl
    | succ n ih => rw [Function.iterate_succ_apply, ih, hi]
  unfold Context.applyPending
  dsimp only
  rw [he, hn, hb, hb, hb, hb]

@[simp] theorem finalUnconfirmed_applyPending (c : Context) : c.applyPending.finalUnconfirmed = c.finalUnconfirmed :=
  applyPending_keeps Context.finalUnconfirmed c (fun c b => by unfold Context.pricePending; dsimp only; split <;> rfl)
    (fun _ => rfl) fun _ => rfl

theorem setContext_self (o : Outlet) : setContext o (s.context o) s = s := by
  simp [setContext, State.context, Table.get, Table.set]

/-- The check for SETTLING is `Context.judged`, and nothing else changes. -/
theorem checkSettle_eq (o : Outlet) :
    checkSettle o s =
      mapContext o (fun c => c.judged (s.heldCount o) (s.report o).lineStale) s := by
  have same (c : Context) (hc : s.context o = some c) : mapContext o (fun _ => c) s = s := by
    rw [mapContext, hc, Option.map_some, ← hc, setContext_self]
  cases hc : s.context o with
  | none => rw [mapContext, hc, Option.map_none, ← hc, setContext_self]; simp [checkSettle, hc]
  | some c =>
    have one (f : Context → Context) : mapContext o f s = mapContext o (fun _ => f c) s := by
      simp [mapContext, hc]
    rw [one]
    have unconfirmed : (if c.auditHeld = true then c.applyPending else c).finalUnconfirmed = c.finalUnconfirmed := by
      split <;> simp
    unfold checkSettle Context.judged
    simp only [hc]
    cases hp : c.phase with
    | closing reason time =>
      simp only [enterSettling]
      by_cases h0 : s.heldCount o = 0
      · by_cases hf : c.finalReading = true
        · simp only [h0, hf, if_true, true_or, and_self, Bool.not_true]
          rw [one]; simp only [unconfirmed]
        · have hf' : c.finalReading = false := by simpa using hf
          simp only [h0, hf', if_true, Bool.false_eq_true, if_false, false_or, true_and, Bool.not_false]
          by_cases hs : (s.report o).lineStale = true ∨ 2 ≤ c.closingMinutes
          · rw [if_pos (by simpa using hs), if_pos hs, one]; simp only [unconfirmed]
          · rw [if_neg (by simpa using hs), if_neg hs, same c hc]
      · simp only [h0, if_false, false_and]; rw [same c hc]
    | _ => exact (same c hc).symm

/-- A session is judged once: with the same modules and line a second check changes nothing. -/
theorem judged_judged (c : Context) (n : Nat) (b : Bool) : (c.judged n b).judged n b = c.judged n b := by
  unfold Context.judged
  cases hp : c.phase with
  | closing r t =>
    by_cases h : n = 0 ∧ (c.finalReading = true ∨ b = true ∨ 2 ≤ c.closingMinutes)
    · simp only [if_pos h]
    · simp only [if_neg h, hp]
  | _ => simp only [hp]

end Sys2Proof.Machine
end

