-- ==== Sys2Proof/Laws/Band.lean ====
section
/-! SUPPORT. The sweep of a BAND or a PARK order, and what a BAND order does at the lines. -/

namespace Sys2Proof.Machine

variable (s : State)

/-- Whether a sweep takes one outlet before another (log 14). -/
def sweepsBefore (w : Sweep) (a b : Outlet) : Bool :=
  decide (w.idxOf a < w.idxOf b ∨ (w.idxOf a = w.idxOf b ∧ a.val < b.val))

/-- A sweep takes every outlet once, in its order. -/
theorem sweepOrder_spec (w : Sweep) :
    (sweepOrder w).Nodup ∧ (∀ o, o ∈ sweepOrder w) ∧ (sweepOrder w).Pairwise fun a b => sweepsBefore w a b = true := by
  have hp := List.perm_insertionSort
    (fun a b : Outlet => w.idxOf a < w.idxOf b ∨ (w.idxOf a = w.idxOf b ∧ a.val ≤ b.val)) Config.outlets
  have hn : (sweepOrder w).Nodup := hp.nodup_iff.2 (List.nodup_finRange 32)
  refine ⟨hn, fun o => hp.mem_iff.2 (List.mem_finRange o), ?_⟩
  have : Std.Total (fun a b : Outlet => w.idxOf a < w.idxOf b ∨ (w.idxOf a = w.idxOf b ∧ a.val ≤ b.val)) :=
    ⟨fun a b => by omega⟩
  have : IsTrans Outlet (fun a b : Outlet => w.idxOf a < w.idxOf b ∨ (w.idxOf a = w.idxOf b ∧ a.val ≤ b.val)) :=
    ⟨fun a b c => by omega⟩
  have hs := List.pairwise_insertionSort
    (fun a b : Outlet => w.idxOf a < w.idxOf b ∨ (w.idxOf a = w.idxOf b ∧ a.val ≤ b.val)) Config.outlets
  refine (hs.and hn).imp fun {a b} ⟨h, hne⟩ => ?_
  have : a.val ≠ b.val := fun h => hne (Fin.ext h)
  simp only [sweepsBefore, decide_eq_true_eq]
  omega

/-- A line after a BAND order, in a state that gives its masks, its band and its clock (R81, R83). -/
def Line.edged (l : Line) (k : LineNo) (s : State) : Line :=
  if l.state = .silent then l
  else if l.state = .waiting ∧ l.receiving = none then
    if l.replySlot = none then
      { l with
        state := .sending false, bandEdge := false, seq := l.seq + 1,
        due := some (s.now + 1000 * s.control.settings.pollPeriod),
        outstanding := some
          { seq := l.seq, mask0 := s.mask (outletA k), mask1 := s.mask (outletB k), band := s.sessions.band,
            sendTime := s.now } }
    else { l with state := .withheld }
  else { l with bandEdge := true }

/-- A BAND order changes one line at each Line Engine. -/
theorem bandEdge_eq (k : LineNo) : bandEdge k s = setLine k ((s.line k).edged k s) s := by
  have hs : setLine k (s.line k) s = s := by simp [setLine, State.line, Table.get, Table.set]
  unfold bandEdge Line.edged
  dsimp only
  by_cases h0 : (s.line k).state = .silent
  · rw [if_pos h0, if_pos h0, hs]
  · rw [if_neg h0, if_neg h0]
    by_cases h1 : (s.line k).state = .waiting ∧ (s.line k).receiving = none
    · rw [if_pos (by simp [h1]), if_pos h1, pollNow]
      by_cases hr : (s.line k).replySlot = none
      · rw [if_pos (by simp [hr]), if_pos hr]; simp [sendPoll, mapLine, setLine, ms, Nat.mul_comm]
      · rw [if_neg (by simp [hr]), if_neg hr]; rfl
    · rw [if_neg (by simpa using h1), if_neg h1]; rfl

/-- A BAND order's work at the lines: each line changes as it does alone, and nothing else changes. -/
theorem forEach_bandEdge :
    forEach Config.lines bandEdge s = { s with lines := Vector.ofFn fun k : LineNo => (s.line k).edged k s } := by
  have key (l : List LineNo) (hl : l.Nodup) (s : State) :
      forEach l bandEdge s =
        { s with lines := Vector.ofFn fun k : LineNo => if k ∈ l then (s.line k).edged k s else s.line k } := by
    induction l generalizing s with
    | nil =>
      have : (Vector.ofFn fun k : LineNo => s.line k) = s.lines := by
        ext1 i hi; simp [State.line, Table.get]
      simp [forEach, this]
    | cons k l ih =>
      obtain ⟨hk, hl⟩ := List.nodup_cons.1 hl
      rw [show forEach (k :: l) bandEdge s = forEach l bandEdge (bandEdge k s) from rfl, ih hl, bandEdge_eq]
      show State.mk .. = State.mk ..
      congr 1
      ext1 i hi
      simp only [Vector.getElem_ofFn, List.mem_cons]
      by_cases e : (⟨i, hi⟩ : LineNo) = k
      · subst e
        rw [if_neg hk, if_pos (.inl rfl)]
        exact Table.get_set_self _ _ _
      · have hg : (setLine k ((s.line k).edged k s) s).line ⟨i, hi⟩ = s.line ⟨i, hi⟩ := by
          simp only [setLine, State.line, Table.get_set]
          rw [if_neg (Ne.symm e)]
        simp only [hg, e, false_or]
        rfl
  rw [key Config.lines (List.nodup_finRange 16)]
  simp [Config.lines]

end Sys2Proof.Machine
end

