-- ==== Sys2Proof/Laws/Bytes.lean ====
section
/-! SUPPORT. The bytes of the formats: a field written least significant byte first stands where it is written. -/

namespace Sys2Proof.Machine

@[simp] theorem length_leBytes (k n : Nat) : (leBytes k n).length = k := by simp [leBytes]

/-- A field between what stands before it and what stands after it. -/
theorem hasField_leBytes (before after : List Byte) (k v : Nat) :
    HasField (before ++ leBytes k v ++ after) before.length k v := by
  intro i hi
  have h1 : before.length + i < (before ++ leBytes k v).length := by simp; omega
  rw [List.getElem?_append_left h1, List.getElem?_append_right (by omega), Nat.add_sub_cancel_left]
  simp [leBytes, hi, byteOf]

/-- A field of one byte. -/
theorem hasField_byteOf (before after : List Byte) (v : Nat) :
    HasField (before ++ [byteOf v] ++ after) before.length 1 v := by
  have h : leBytes 1 v = [byteOf v] := by simp [leBytes, List.range_succ]
  rw [← h]; exact hasField_leBytes before after 1 v

/-- A field stands in every longer list of bytes. -/
theorem hasField_append {b : List Byte} {off n v : Nat} (h : HasField b off n v) (after : List Byte) :
    HasField (b ++ after) off n v := by
  intro i hi
  have hs := h i hi
  obtain ⟨hl, _⟩ := List.getElem?_eq_some_iff.mp hs
  rw [List.getElem?_append_left hl]; exact hs

/-- A flag's bit is the one the formats write. -/
@[simp] theorem flagBit_eq_bit (b : Bool) (i : Nat) : flagBit b i = bit b i := rfl

end Sys2Proof.Machine
end

