-- ==== Sys2Proof/Laws/Held.lean ====
section
/-! SUPPORT. An outlet's count of GRANTED and RELEASING modules: a release keeps it, a grant to another outlet keeps it, so a
pass keeps that of every outlet whose want is 0 (R54, R57 to R61). -/

namespace Sys2Proof.Machine

variable (s : State)

/-- A module replaced by one that the outlet holds as it held the old one. -/
theorem heldCount_setModule (o : Outlet) (m : ModuleNo) (e : Module) (h : e.heldBy o = (s.module m).heldBy o) :
    (setModule m e s).heldCount o = s.heldCount o := by
  have hs : (s.power.modules.toList.set m.val e).map (Module.heldBy o) = s.power.modules.toList.map (Module.heldBy o) := by
    rw [List.map_set, h]
    apply List.ext_getElem (by simp)
    intro i h1 h2
    rw [List.getElem_set]
    split
    · next hi => subst hi; simp [State.module, Table.get]
    · rfl
  have hc (l : List Module) : l.countP (Module.heldBy o) = (l.map (Module.heldBy o)).countP id := by
    rw [List.countP_map]; rfl
  simp only [State.heldCount, setModule, Table.set, Vector.toList_set]
  rw [hc, hs, ← hc]

theorem heldCount_reduceModule (ts : List Target) (m : ModuleNo) (o : Outlet) :
    (reduceModule ts m s).heldCount o = s.heldCount o := by
  unfold reduceModule
  split
  · next o' hm =>
    split
    · exact heldCount_setModule s o m _ (by rw [hm]; rfl)
    · rfl
  · rfl

theorem module_freeModule (o : Outlet) (m : ModuleNo) (h : s.freeModule o = some m) : s.module m = .free := by
  have := List.find?_some h
  simp only [Bool.and_eq_true, beq_iff_eq] at this
  exact this.2

theorem heldCount_raiseOne (o o' : Outlet) (h : o' ≠ o) : (raiseOne o' s).heldCount o = s.heldCount o := by
  unfold raiseOne
  split
  · next m hm =>
    split
    · exact heldCount_setModule s o m _ (by rw [module_freeModule s o' m hm]; simp [Module.heldBy, h])
    · rfl
  · rfl

theorem outlet_roundOne (k : Stock) (rs : List Ranked) : (roundOne k rs).2.map Prod.fst = rs := by
  induction rs generalizing k with
  | nil => rfl
  | cons r rs ih => simp [roundOne, ih]

theorem outlet_roundTwo (k : Stock) (ts : List Target) : (roundTwo k ts).2.map Prod.fst = ts.map Prod.fst := by
  induction ts generalizing k with
  | nil => rfl
  | cons t ts ih => obtain ⟨r, n⟩ := t; simp [roundTwo, ih]

/-- A target is an outlet's whose want is above 0 (R57). -/
theorem want_of_mem_targets (t : Target) (h : t ∈ s.targets) : 0 < s.want t.1.outlet := by
  have hr : t.1 ∈ s.ranking := by
    have := List.mem_map_of_mem (f := Prod.fst) h
    unfold State.targets at this
    simp only at this
    rwa [outlet_roundTwo, outlet_roundOne] at this
  unfold State.ranking at hr
  rw [List.mem_insertionSort, List.mem_filterMap] at hr
  obtain ⟨o, _, ho⟩ := hr
  split at ho
  · simp only [Option.some.injEq] at ho
    rw [← ho]; assumption
  · cases ho

/-- A pass keeps the modules of an outlet whose want is 0 GRANTED or RELEASING to it. -/
theorem heldCount_pass (o : Outlet) (h : s.want o = 0) : (pass s).heldCount o = s.heldCount o := by
  have hraise (t : Target) (ht : t ∈ s.targets) (x : State) : (raiseOutlet t x).heldCount o = x.heldCount o := by
    have hne : t.1.outlet ≠ o := by
      intro e; have := want_of_mem_targets s t ht; rw [e] at this; omega
    exact iterate_keeps x (fun s => s.heldCount o) _ (fun x => heldCount_raiseOne x o _ hne) _
  have hall (ts : List Target) (hts : ∀ t ∈ ts, t ∈ s.targets) (x : State) :
      (forEach ts raiseOutlet x).heldCount o = x.heldCount o := by
    unfold forEach
    induction ts generalizing x with
    | nil => rfl
    | cons t ts ih =>
      rw [List.foldl_cons, ih (fun t' h' => hts t' (List.mem_cons_of_mem _ h')), hraise t (hts t List.mem_cons_self)]
  have hpeak (x : State) : (forEach Config.outlets raisePeak x).heldCount o = x.heldCount o :=
    forEach_keeps x (fun s => s.heldCount o) _ _ fun _ _ => rfl
  have hreduce (x : State) : (reduce s.targets x).heldCount o = x.heldCount o :=
    forEach_keeps x (fun s => s.heldCount o) _ _ fun m x => heldCount_reduceModule x s.targets m o
  simp only [pass]
  rw [hpeak]
  unfold raises
  split
  · rw [hreduce]; rfl
  · rw [hall _ (fun _ h => h), hreduce]; rfl

theorem heldCount_immediatePass (o : Outlet) (h : s.want o = 0) : (immediatePass s).heldCount o = s.heldCount o := by
  unfold immediatePass; split
  · exact heldCount_pass s o h
  · rfl

/-- No want input changes the Module Table. -/
theorem heldCount_setInputs (o o' : Outlet) (f : WantInputs → WantInputs) :
    (setInputs o' f s).heldCount o = s.heldCount o := by
  simp only [setInputs]; split <;> rfl

/-- The want of an outlet after a delivery, where no pass has been made. -/
theorem want_setInputs (o o' : Outlet) (f : WantInputs → WantInputs) :
    (setInputs o' f s).want o =
      if o' = o then (f (s.inputs o)).want (Table.get s.power.maximums o) s.power.partRunning else s.want o := by
  have key : ({ s with power := { s.power with inputs := Table.set s.power.inputs o' (f (s.inputs o')) } } : State).want o =
      if o' = o then (f (s.inputs o)).want (Table.get s.power.maximums o) s.power.partRunning else s.want o := by
    simp only [State.want, State.inputs, Table.get_set]
    split
    · next h => subst h; rfl
    · rfl
  simp only [setInputs]
  split
  · exact key
  · exact key

/-- A session that leaves ACTIVE keeps its modules GRANTED or RELEASING in the event. -/
theorem heldCount_deliverActive_false (o : Outlet) : (deliverActive o false s).heldCount o = s.heldCount o := by
  simp only [deliverActive, deliver]
  rw [heldCount_immediatePass _ _ (by rw [want_setInputs]; simp [WantInputs.want]), heldCount_setInputs]
  rfl

end Sys2Proof.Machine
end

