-- ==== Sys2Proof/Tests/Slice0.lean ====
section
/-! SUPPORT. Tests of the model's own: ill-formed terms, the spec's worked values, single steps on small states, and for each
statement with hypotheses a state and operands that meet them, at the ends of their ranges. -/

namespace Sys2Proof.Tests

set_option Elab.async false

open Sys2Proof Sys2Proof.Machine

/-! ### Well-formedness: each check refuses an ill-formed term -/

theorem test_wellFormed_words : Instr.wellFormed (.powerOnReset 0 32) = true ∧
    Instr.wellFormed (.powerOnReset 0 33) = false ∧ Instr.wellFormed (.softReset 0 33) = false ∧
    Instr.wellFormed (.busError 33) = false := by decide

theorem test_wellFormed_ignored_control : Instr.wellFormed (.registerWriteIgnored (.control 4)) = true ∧
    Instr.wellFormed (.registerWriteIgnored (.status 1)) = true ∧
    Instr.wellFormed (.registerWriteIgnored (.control 1)) = false ∧
    Instr.wellFormed (.registerWriteIgnored (.control 2)) = false ∧
    Instr.wellFormed (.registerWriteIgnored (.control 0xFFFFFF03)) = false := by decide

theorem test_wellFormed_sweep : Instr.wellFormed (.band 0 [1, 2] 0) = true ∧
    Instr.wellFormed (.band 0 [1, 1] 0) = false ∧ Instr.wellFormed (.park 0 [3, 3] ⟨0, 0, 0, 0, 0, 0⟩) = false ∧
    Instr.wellFormed (.orderReadDone 0 [0, 0] (Vector.replicate 32 0)) = false := by decide

theorem test_wellFormed_startByte : Instr.wellFormed (.replyFrame 0 0 (Vector.replicate 29 0xA3)) = true ∧
    Instr.wellFormed (.replyFrame 0 0 (Vector.replicate 29 0xE6)) = false ∧
    Instr.wellFormed (.alertFrame 0 0 (Vector.replicate 6 0xE6)) = true ∧
    Instr.wellFormed (.alertFrame 0 0 (Vector.replicate 6 0xA3)) = false := by decide

theorem test_exec_refuses_illFormed_write :
    exec (.registerWriteIgnored (.control 2)) State.reset = .refused (.illFormed "REGISTER_WRITE_IGNORED") := rfl

/-! ### Values the spec works out -/

/-- The CRC check value of R193. -/
theorem test_crc : crc [0x31, 0x32, 0x33, 0x34, 0x35, 0x36, 0x37, 0x38, 0x39] = 0x29B1#16 := by decide +kernel

/-- The bounds of the table under R111. -/
theorem test_deltaBounds : [deltaBound 0 500, deltaBound 1 500, deltaBound 4 502, deltaBound 10 2000, deltaBound 4 3500]
    = [5, 12, 33, 283, 200] := by decide

/-- The first due times of R79. -/
theorem test_firstDue : [firstDue 0 500, firstDue 1 500, firstDue 2 500, firstDue 15 500] = [0, 31000, 62000, 468000] := by
  decide

/-- The tariff of the worked examples of chapter 6: band 1 at 2000, band 2 at 5000. -/
def tariff : Tariff := { startFee := 300, prices := #v[0, 2000, 5000, 0], idleFee := 40, idleGrace := 10 }

/-- A session with a charged total of 2700 and 300 mu remaining (6.8). -/
def session (p : Phase) : Context :=
  { cell := 40, started := some { serial := 57, time := 100 }, reference := 77, phase := p, priority := 1, tariff := tariff,
    hold := 3000, startFeeCharged := 300, energyCharge := 2400, idleCharge := 0, chargedTotal := 2700, overdraw := 0,
    carry := 0, energy := #v[0, 1200, 0, 0], pendingEnergy := Vector.replicate 4 0, pendingIdle := 0, idleMinutes := 0,
    drainedMinutes := 0, heldMinutes := 0, closingMinutes := 0, link := some 41, auditHeld := false,
    finalReading := false, idleCapped := false, meterRebased := false, finalUnconfirmed := false, overdrawn := false,
    unsaved := false, rejected := 0, progressDue := false, progressWaiter := false, retryDue := false, givenUp := none }

/-- The ceilings of the table under R136's example, and those at 5000. -/
theorem test_purseCeilings :
    ([3700, 3200, 3000, 2839, 2838, 2740].map fun h =>
      ({ session .active with hold := h } : Context).purseCeiling ParkSettings.reset 1) = [10, 5, 2, 1, 0, 0] ∧
    ([3000, 2972].map fun h =>
      ({ session .active with hold := h } : Context).purseCeiling ParkSettings.reset 2) = [1, 0] := by decide

/-- Twelve Wh at 2000 is 24 mu. The carry runs on. -/
theorem test_priceDelta : ((session .active).priceDelta 12 1).chargedTotal = 2724 ∧
    (({ session .active with tariff := { tariff with prices := #v[0, 1, 0, 0] } } : Context).priceDelta 1999 1).carry
      = 999 := by decide

/-! ### Small states -/

/-- The state a command leaves; the state itself where the command stops. -/
def after (c : Instr) (s : State) : State :=
  match exec c s with
  | .next u => u
  | _ => s

/-- The part state set, with the Apportioner's input. -/
def inState (p : PartState) (s : State) : State :=
  { s with control := { s.control with partState := p, minuteDue := some 60000000 },
           power := { s.power with partRunning := decide (p = .running) } }

/-- Power-on reset, then RUNNING. -/
def running : State := inState .running State.reset

/-- A live session on O13. -/
def live (c : Context) : State := setContext 13 (some c) running

/-- The port reads the order part of a cell. -/
def reading (cell : CellIndex) (s : State) : State :=
  { s with
    orders := { s.orders with unit := .reading cell },
    port := { s.port with
      busy := some { job := .order (.readOrder cell), offset := cellOffset cell, length := 32, address := 0, data := [] } } }

/-- A job under way. -/
def doing (j : Job) (s : State) : State := { s with port := { s.port with busy := some (startedTransfer s j) } }

/-- The Order Unit's state set. -/
def unit (u : UnitState) (s : State) : State := { s with orders := { s.orders with unit := u } }

/-- A line set. -/
def line (l : Line) : State := { running with lines := Table.set running.lines 6 l }

/-- A fresh line in a state, with one poll sent at 0. -/
def polled (st : LineState) : Line :=
  { Line.reset with
    state := st, due := some 500000, stale := false,
    outstanding := some { seq := 0, mask0 := 0, mask1 := 0, band := 0, sendTime := 0 }, seq := 1 }

/-- A tariff in slot 2. -/
def loaded (s : State) : State :=
  { s with sessions := { s.sessions with tariffs := Table.set s.sessions.tariffs 2 (some tariff) } }

/-- A standing entry of O0. -/
def anEntry : StandbyEntry :=
  { cell := 99, outlet := 0, hold := 0, tariff := tariff, priority := 0, reference := 0, link := none,
    progressDue := false }

/-- An OPEN of O13 from slot 2. -/
def anOpen : OpenOrder :=
  { outlet := 13, slot := 2, priority := 3, condition := 1, band := 0, link := 0xFF, hold := 1000000, reference := 77 }

/-- A LINK for O13 from slot 2. -/
def aLink : LinkOrder := { outlet := 13, slot := 2, link := 0xFF, hold := 1000000, reference := 78 }

/-- A vehicle plugged in at O13 on a fresh line. -/
def plugged (s : State) : State := mapReport 13 (fun r => { r with plug := .plugged, lineStale := false }) s

/-! ### Witnesses: steps, resets and the register window -/

theorem test_witness_StepRunsFrontCommand :
    ({ State.reset with pending := [.pass 0, .orderTake] } : State).pending = .pass 0 :: [.orderTake] ∧
    State.reset.pending = [] := by decide

theorem test_witness_ResetsRestoreEveryBlock :
    (doing (.order (.writeTaken 5)) running).port.busy.any (fun t => t.job.isWrite) = true ∧
    (reading 5 running).port.busy.any (fun t => t.job.isWrite) = false := by decide

theorem test_reset_cuts_write :
    (after (.powerOnReset 9 1) (doing (.order (.writeTaken 5)) running)).mem = [(640, 2), (641, 0), (642, 0), (643, 0)] ∧
    (after (.softReset 9 0) (doing (.order (.writeTaken 5)) running)).mem = [] := by decide +kernel

theorem test_witness_RunByPartState : State.reset.control.partState = .stopped ∧
    running.control.partState = .running ∧ (inState .halting running).control.partState = .halting ∧
    (inState .halted running).control.partState = .halted := by decide

theorem test_run_starts_lines : ((after (.run 7) State.reset).line 15).due = some 468007 ∧
    (after (.run 7) State.reset).power.startGuard = some 3000007 := by decide +kernel

/-- A module granted to O13 and another releasing. -/
def granted : State := setModule 11 (.releasing 13 9 true) (setModule 10 (.granted 13) (live (session .active)))

theorem test_halt_releases : (after (.halt 7) granted).module 10 = .releasing 13 2500007 false ∧
    (after (.halt 7) granted).control.partState = .halting ∧
    ((after (.halt 7) granted).port.busy.map Transfer.job) = some (.settle (.progress 13 false false)) := by
  decide +kernel

theorem test_witness_HaltAndItsCompletion :
    (inState .halting State.reset).haltDone = true ∧ (inState .halting State.reset).control.partState = .halting ∧
    (∀ m : ModuleNo, ((inState .halting State.reset).module m).assigned = false) ∧
    (inState .halting State.reset).port =
      { busy := none, settleReq := none, orderReq := none, journalReq := none, surveyReq := none } ∧
    (inState .halting State.reset).journal.queue.length < 8 ∧ (inState .halting granted).haltDone = false := by
  decide +kernel

theorem test_halt_completes : (after .haltComplete (inState .halting State.reset)).control.partState = .halted ∧
    (after .haltComplete (inState .halting State.reset)).control.notice = 0x80 := by decide +kernel

theorem test_witness_OtherWritesIgnored : (0#32).setWidth 8 ≠ 1#8 ∧ (4#32).setWidth 8 ≠ 3#8 ∧
    (0x101#32).setWidth 8 = 1#8 ∧ (3#32).setWidth 8 = 3#8 := by decide

/-- A Post Queue of 32 indices. -/
def fullQueue : State := setQueues ((List.finRange 128).take 32) [] running

theorem test_witness_PostWrite : State.reset.control.partState = .stopped ∧ (128#8).toNat = 128 ∧
    (127#8).toNat = (127 : CellIndex).val ∧ (31 : CellIndex) ∈ fullQueue.orders.postQueue ∧
    (32 : CellIndex) ∉ fullQueue.orders.postQueue ∧ fullQueue.orders.postQueue.length = 32 ∧
    (setQueues ((List.finRange 128).take 31) [] running).orders.postQueue.length = 31 := by decide +kernel

theorem test_post_refusals : (after (.post 32) fullQueue).orders.lastRefusal = { reason := .full, index := 32 } ∧
    (after (.post 31) fullQueue).orders.lastRefusal = { reason := .duplicate, index := 31 } ∧
    (after (.post 128) running).orders.lastRefusal = { reason := .badIndex, index := 128 } := by decide +kernel

theorem test_withdraw_moves : (after (.withdraw 1) (setQueues [0, 1, 2] [] running)).orders.postQueue = [0, 2] ∧
    (after (.withdraw 1) (setQueues [0, 1, 2] [] running)).orders.withdrawList = [1] ∧
    (after (.withdraw 3) (setQueues [0, 1, 2] [] running)).orders.lastRefusal.reason = .withdrawLate := by
  decide +kernel

theorem test_notice_clears : (after (.noticeWrite 0x41) { running with
      control := { running.control with notice := 0xFF } }).control.notice = 0xBE ∧
    (after (.noticeMaskWrite 0x80) { running with
      control := { running.control with notice := 0x80 } }).interruptLine = true := by decide +kernel

theorem test_witness_AreaBase :
    (after (.areaBaseWrite 0xFFFFFFFF) State.reset).control.areaBase = 0xFFFF8000 ∧
    (after (.areaBaseWrite 0xFFFFFFFF) (inState .halted running)).control.areaBase = 0xFFFF8000 ∧
    (after (.areaBaseWrite 0xFFFFFFFF) running).control.areaBase = 0 ∧
    (after (.areaBaseWrite 0xFFFFFFFF) (inState .halting running)).control.areaBase = 0 := by decide +kernel

theorem test_witness_FaultAddress :
    (after (.busError 0) (doing (.order (.writeTaken 5)) running)).control.faultAddress = 640 ∧
    (after (.faultAddressWrite 1) (after (.busError 0) (doing (.order (.writeTaken 5)) running))).control.faultLatched
      = false := by decide +kernel

/-- STATUS with every field at its end, and POST with the last of its codes. -/
theorem test_register_reads :
    ({ inState .halted fullQueue with
        standby := List.replicate 16 anEntry,
        sessions := { running.sessions with contexts := Vector.replicate 32 (some (session .idle)) },
        control := { (inState .halted fullQueue).control with faultLatched := true } } : State).readRegister .status
      = 0x90202003 ∧
    ({ running with orders := { running.orders with lastRefusal := { reason := .stalePost, index := 127 } } }
      : State).readRegister .post = 0x0006007F ∧ fullQueue.readRegister .control = 0 := by decide +kernel

theorem test_witness_register_reads : QueuesSound fullQueue ∧ fullQueue.standby.length ≤ 16 := by
  unfold QueuesSound; decide +kernel

/-! ### Witnesses: orders -/

theorem test_witness_OrderTaken : (setQueues [5] [] running).orders.unit = .idle ∧
    (setQueues [5] [] running).control.partState = .running ∧
    (after .orderTake (setQueues [5] [] running)).orders.unit = .reading 5 ∧
    (after .orderTake (setQueues [5] [6] running)).orders.postQueue = [5] ∧
    (after .orderTake (setQueues [5] [] (inState .halting running))).orders.unit = .idle := by decide +kernel

/-- A read that is received: the cell in hand is no live cell. -/
theorem test_witness_receives : Receives (reading 5 running) 5 ∧ Receives (reading 127 (live (session .drained))) 127 ∧
    ¬Receives (reading 40 (live (session .drained))) 40 := by unfold Receives; decide +kernel

/-- An order part with a kind, an outlet and a slot. -/
def orderPart (ownership kind outlet slot : Byte) : Vector Byte 32 :=
  (((Vector.replicate 32 0).set 0 ownership).set 4 kind).set 5 outlet |>.set 6 slot

/-- What is kept of a POSTED cell of no known kind. -/
def unknownKind (kind : Byte) : OrderPart := { ownership := 1, kind := kind, order := none }

theorem test_reads_handed_to_no_block :
    (after (.orderReadDone 0 [] (orderPart 0 3 0 0)) (reading 5 running)).orders.lastRefusal =
      { reason := .stalePost, index := 5 } ∧
    (after (.orderReadDone 0 [] (orderPart 1 3 0 0)) (reading 40 (live (session .idle)))).orders.lastRefusal =
      { reason := .stalePost, index := 40 } ∧
    (after (.orderReadDone 0 [] (orderPart 1 0 0 0)) (reading 5 running)).orders.unit =
      .waiting 5 (unknownKind 0) .badKind false .nothing ∧
    (after (.orderReadDone 0 [] (orderPart 1 17 0 0)) (reading 5 running)).orders.unit =
      .waiting 5 (unknownKind 17) .badKind false .nothing := by decide +kernel

theorem test_reads_out_of_range :
    ([orderPart 1 3 32 0, orderPart 1 1 0 16, orderPart 1 8 0 16, orderPart 1 12 40 0, orderPart 1 16 16 0].map fun p =>
      match (after (.orderReadDone 0 [] p) (reading 5 running)).orders.unit with
      | .waiting _ _ .badField _ _ => true
      | _ => false) = [true, true, true, true, true] := by decide +kernel

/-- An order that is accepted, and one that is refused, is followed by its TAKEN write. -/
theorem test_taken_is_asked_for :
    ([encodeOrder (.clock 5), encodeOrder (.stop 13)].map fun b =>
      (after (.orderReadDone 0 [] b) (reading 5 running)).port.busy.map Transfer.job)
    = List.replicate 2 (some (.order (.writeTaken 5))) := by decide +kernel

theorem test_open_refusals :
    ([(anOpen, loaded running), ({ anOpen with hold := 1000001 }, loaded running), ({ anOpen with priority := 4 }, loaded running),
      ({ anOpen with condition := 0 }, loaded running), ({ anOpen with condition := 2, band := 4 }, loaded running),
      ({ anOpen with link := 128 }, loaded running), ({ anOpen with link := 5 }, loaded running),
      (anOpen, loaded (live (session .idle))), (anOpen, running), ({ anOpen with hold := 349 }, loaded running),
      ({ anOpen with hold := 350 }, loaded running)].map fun p =>
      match (after (.openSession 0 p.1) (reading 5 p.2)).orders.unit with
      | .waiting _ _ r _ _ => r
      | _ => .none)
    = [.ok, .badField, .badField, .badField, .badField, .badField, .badField, .refusedBusy, .refusedTariff, .refusedHold,
       .ok] := by decide +kernel

theorem test_witness_OpenArms : Receives (reading 5 (loaded running)) 5 ∧ anOpen.outlet.toNat = (13 : Outlet).val ∧
    anOpen.slot.toNat = (2 : TariffSlot).val ∧ anOpen.priority.toNat = (3 : Fin 4).val ∧ anOpen.condition = 1#8 ∧
    anOpen.hold.toNat ≤ 1000000 ∧ anOpen.link = 0xFF#8 ∧ anOpen.link.toNat ≠ (5 : CellIndex).val ∧
    (reading 5 (loaded running)).context 13 = none ∧
    Table.get (reading 5 (loaded running)).sessions.tariffs 2 = some tariff ∧
    tariff.startFee.toNat + running.control.settings.reserve ≤ anOpen.hold.toNat ∧
    (reading 5 (loaded running)).startHolds 13 .onPlug = false ∧
    (reading 5 (plugged (loaded running))).startHolds 13 .onPlug = true := by
  unfold Receives; decide +kernel

theorem test_open_starts : ((after (.openSession 0 anOpen) (reading 5 (plugged (loaded running)))).context 13).map
      (fun c => (c.phase, c.chargedTotal)) = some (.active, 300) ∧
    ((after (.openSession 0 { anOpen with hold := 350 }) (reading 5 (plugged (loaded { running with
      sessions := { running.sessions with band := 1 } })))).context 13).map (fun c => (c.phase, c.chargedTotal))
      = some (.drained, 300) := by decide +kernel

/-- A complete flag of O13 that the report still shows. -/
def complete (s : State) : State := mapReport 13 (fun r => { r with complete := true }) s

/-- The complete flag that the report shows last in the event decides a start (R29). -/
theorem test_starts_end_in_event :
    ([(.openSession 0 anOpen, reading 5 (complete (plugged (loaded running)))),
      (.band 0 [] 0, reading 5 (complete (plugged (live { session (.armed .onPlug) with
        hold := 9000, chargedTotal := 0, energyCharge := 0 })))) ].map fun (p : Instr × State) =>
      ((after p.1 p.2).context 13).map Context.phase) = [some .idle, some .idle] := by decide +kernel

/-- ARMED and SETTLING sessions and a VACANT outlet at a new margin: kept, the ceilings 0, as it was, and 0. -/
theorem test_park_keeps :
    ([some (session (.armed .onPlug)), some (session (.settling .stopped 3)), none].map fun c =>
      let s := setContext 13 c { running with sessions := { running.sessions with
        ceilings := Table.set running.sessions.ceilings 13 7 } }
      let u := after (.park 0 [] ⟨500, 301, 4, 10, 5, 1⟩) (reading 5 s)
      ((u.context 13).map Context.phase, u.ceiling 13, (u.inputs 13).ceiling))
    = [(some (.armed .onPlug), 0, 0), (some (.settling .stopped 3), 7, 0), (none, 0, 0)] := by decide +kernel

/-- Sixteen standing entries. -/
def fullTable (s : State) : State := { s with standby := List.replicate 16 anEntry }

/-- A standing entry that the link of the session on O13 names. -/
def heir : StandbyEntry := linkEntry 41 aLink 13 1 tariff

/-- An ACTIVE session whose ceiling is 0 in band 2: no entry, a standing entry, an audit hold. -/
def takenOn (c : Context) : List State := [live c, { live c with standby := [heir] }, live { c with auditHeld := true }]

theorem test_ceilings_of_zero :
    ((takenOn { session .active with hold := 2972 }).map fun s =>
      ((after (.band 0 [] 2) (reading 5 s)).context 13).map fun c => (c.cell, c.phase))
      = [some (40, .drained), some (41, .active), some (40, .active)] ∧
    ((takenOn (session .active)).map fun s =>
      ((after (.park 0 [] ⟨500, 301, 4, 10, 5, 1⟩) (reading 5 s)).context 13).map fun c => (c.cell, c.phase))
      = [some (40, .drained), some (41, .active), some (40, .active)] := by decide +kernel

/-- An OPEN that names a link cell and starts with a ceiling of 0: without a standing entry it is DRAINED, with one it is handed
over, and last enters IDLE with the complete flag. -/
theorem test_open_starts_with_link :
    ([([], false), ([heir], false), ([heir], true)].map fun (p : List StandbyEntry × Bool) =>
      let s := { loaded running with standby := p.1, sessions := { (loaded running).sessions with band := 1 } }
      let s := mapReport 13 (fun r => { r with complete := p.2 }) (plugged s)
      let u := after (.openSession 0 { anOpen with hold := 350, link := 41 }) (reading 5 s)
      ((u.context 13).map fun c => (c.cell, c.link, c.phase), u.standby.length, u.sessions.startSerial))
    = [(some (5, some 41, .drained), 0, 1), (some (41, none, .active), 0, 1), (some (41, none, .idle), 0, 1)] := by
  decide +kernel

/-- Where one session alone is live, no other names its entry. -/
theorem soleHeir_of_alone {s : State} {c : Context} (h : ∀ o, o ≠ 13 → s.context o = none) : SoleHeir s 13 c :=
  fun _ _ _ _ _ o' _ ho' hc => by simp [h o' ho'] at hc

/-- The sessions of `takenOn` that have an entry, and that have none. -/
theorem test_witness_takenOn :
    SoleHeir (reading 5 { live (session .active) with standby := [heir] }) 13 (session .active) ∧
    (reading 5 { live (session .active) with standby := [heir] }).entryOf 41 = some heir ∧
    NoSuccessor (reading 5 (live (session .active))) (session .active) ∧
    NoSuccessor running (session .drained) ∧ ¬NoSuccessor { running with standby := [heir] } (session .drained) := by
  refine ⟨soleHeir_of_alone (by decide +kernel), by decide +kernel, .inr fun l _ => ?_, .inr fun l _ => ?_, ?_⟩
  · revert l; decide +kernel
  · revert l; decide +kernel
  · rintro (h | h)
    · exact h rfl
    · exact absurd (h 41 rfl) (by decide +kernel)

theorem test_link_outcomes :
    ([(aLink, loaded (live (session .active))), ({ aLink with hold := 1000001 }, loaded (live (session .active))),
      ({ aLink with link := 128 }, loaded (live (session .active))), ({ aLink with link := 41 }, loaded (live (session .active))),
      ({ aLink with link := 40 }, loaded (live (session .active))), (aLink, loaded running),
      (aLink, loaded (live { session .active with link := none })), (aLink, live (session .active)),
      (aLink, fullTable (loaded (live (session .active))))].map fun p =>
      match (after (.link 0 p.1) (reading 41 p.2)).orders.unit with
      | .waiting _ _ r _ _ => r
      | _ => .none)
    = [.ok, .badField, .badField, .badField, .badField, .noPredecessor, .noPredecessor, .refusedTariff, .refusedFull] := by
  decide +kernel

theorem test_witness_LateLinkHandsOver : Receives (reading 41 (loaded (live (session .drained)))) 41 ∧
    (reading 41 (loaded (live (session .drained)))).context 13 = some (session .drained) ∧
    (session .drained).link = some 41 ∧ (session .drained).auditHeld = false ∧ (session .drained).givenUp = none ∧
    ((after (.link 0 aLink) (reading 41 (loaded (live (session .drained))))).context 13).map
      (fun c => (c.cell, c.phase, c.chargedTotal, c.givenUp.map fun g => (g.cell, g.receipt.total)))
      = some (41, .active, 0, some (40, 2700)) := by unfold Receives; decide +kernel

/-- A late LINK that names a further cell. -/
theorem test_late_link_names_a_cell :
    ((after (.link 0 { aLink with link := 127 }) (reading 41 (loaded (live (session .drained))))).context 13).map
      (fun c => (c.cell, c.link, c.phase)) = some (41, some 127, .active) := by decide +kernel

theorem test_witness_StopByState :
    ([running, live (session .active), live (session (.held .idle .meter false)), live (session (.closing .stopped 0)),
      live (session (.settling .stopped 0)), live (session (.armed .onPlug))].map fun s =>
      match (after (.stop 0 13) (reading 5 s)).orders.unit with
      | .waiting _ _ r _ _ => r
      | _ => .none)
    = [.noSession, .ok, .ok, .alreadyClosing, .alreadyClosing, .cancelled] ∧
    (session .active).phase.running = true ∧ (session (.settling .stopped 0)).phase.isSettling = true := by
  decide +kernel

/-- A session that is closed, or found CLOSING, settles in the event with no module held and a STALE line or a final reading. -/
theorem test_closings_settle :
    (([(.stop 0 13, live { session .idle with closingMinutes := 2, finalReading := true }),
      (.stop 0 13, plugged (live { session .idle with closingMinutes := 2, finalReading := true })),
      (.stop 0 13, setModule 10 (.granted 13) (live (session .active))),
      (.minuteEvent true, live { session .drained with drainedMinutes := 9 }),
      (.releaseDeadline, setModule 11 (.releasing 13 9 true) (live (session (.closing .stopped 3)))),
      (.releaseDeadline, setModule 11 (.releasing 13 9 true)
        (live { session (.closing .stopped 3) with finalReading := true }))] : List (Instr × State)).map fun p =>
      ((after p.1 (reading 5 p.2)).context 13).map fun c => (c.phase, c.finalUnconfirmed, c.closingMinutes))
    = [some (.settling .stopped 0, true, 0), some (.closing .stopped 0, false, 0), some (.closing .stopped 0, false, 0),
       some (.settling .purse 0, true, 0), some (.settling .stopped 3, true, 0), some (.settling .stopped 3, false, 0)] := by
  decide +kernel

theorem test_stop_cancels : (after (.stop 0 13) (reading 5 (live (session (.armed .onPlug))))).sessions.endWords =
    [{ cell := 40, outcome := .cancelled }] ∧
    (after (.stop 0 13) (reading 5 { live (session (.armed .onPlug)) with
      standby := [linkEntry 41 aLink 13 1 tariff] })).sessions.endWords =
    [{ cell := 40, outcome := .cancelled }, { cell := 41, outcome := .unused }] := by decide +kernel

theorem test_amend_outcomes :
    ([(0, 0, 0), (1, 0, 1000001), (2, 4, 0), (1, 0, 2699), (1, 0, 2700), (2, 3, 0), (3, 0, 1000000)].map
      fun (p : Byte × Byte × Word) =>
      match (after (.amend 0 { outlet := 13, present := p.1, priority := p.2.1, hold := p.2.2 })
        (reading 5 (live (session .idle)))).orders.unit with
      | .waiting _ _ r _ _ => r
      | _ => .none)
    = [.badField, .badField, .badField, .belowSpent, .ok, .ok, .ok] := by decide +kernel

/-- An AMEND that carries a hold alone. -/
def amendTo (h : Word) : AmendOrder := { outlet := 13, present := 1, priority := 0, hold := h }

theorem test_witness_AmendHold :
    ([.idle, .closing .stopped 0, .held .idle .meter false, .armed .onPlug, .settling .stopped 0, .active, .drained].map
      fun p => ((after (.amend 0 (amendTo 4000)) (reading 5 (live (session p)))).context 13).map Context.hold)
    = List.replicate 7 (some 4000) ∧
    ((after (.amend 0 (amendTo 4000)) (reading 5 (live (session .drained)))).context 13).map Context.phase
      = some .active ∧
    ((after (.amend 0 (amendTo 2740)) (reading 5 (live (session .drained)))).context 13).map Context.phase
      = some .drained ∧
    ((after (.amend 0 (amendTo 2740)) (reading 5 (live (session .active)))).context 13).map Context.phase
      = some .drained ∧ (amendTo 2740).present.getLsbD 0 = true ∧ (amendTo 2740).present.getLsbD 1 = false := by
  decide +kernel

theorem test_amend_takes_on :
    ((after (.amend 0 (amendTo 2740)) (reading 5 { live (session .active) with standby := [heir] })).context 13).map
      (fun c => (c.cell, c.phase, c.chargedTotal)) = some (41, .active, 0) ∧
    ((after (.amend 0 { amendTo 4000 with present := 3, priority := 3 })
      (reading 5 { live (session .idle) with standby := [heir] })).context 13).map
      (fun c => (c.hold, c.priority)) = some (4000, 3) ∧
    (after (.amend 0 { amendTo 4000 with present := 3, priority := 3 })
      (reading 5 { live (session .idle) with standby := [heir] })).standby.map StandbyEntry.priority = [3] := by
  decide +kernel

theorem test_sync_and_audit : (after (.sync 0 13) (reading 5 (live (session .active)))).orders.unit =
      .waiting 5 (postedPart (.sync 13)) .ok false (.progressCopy 13) ∧
    (after (.sync 0 13) (reading 5 running)).orders.unit = .waiting 5 (postedPart (.sync 13)) .noSession false .nothing ∧
    Table.get (after (.auditSet 0 31) (reading 5 running)).sessions.auditFlags 31 = true ∧
    Table.get (after (.auditClear 0 31) (reading 5 running)).sessions.auditFlags 31 = false := by decide +kernel

/-- A held session with 6 Wh and 12 minutes pending. -/
def auditHeld (p : Phase) : Context :=
  { session p with auditHeld := true, pendingEnergy := #v[0, 6, 0, 0], pendingIdle := 12 }

/-- A set audit flag of O13. -/
def flagged (s : State) : State :=
  { s with sessions := { s.sessions with auditFlags := Table.set s.sessions.auditFlags 13 true } }

theorem test_resume : ((after (.resume 0 13) (reading 5 (live (auditHeld .idle)))).context 13).map
      (fun c => (c.chargedTotal, c.idleMinutes, c.auditHeld)) = some (2792, 12, false) ∧
    (after (.resume 0 13) (reading 5 (live (session .idle)))).orders.unit =
      .waiting 5 (postedPart (.resume 13)) .notHeld false .nothing ∧
    ((after (.resume 0 13) (reading 5 (flagged (live (auditHeld .idle))))).context 13).map Context.auditHeld = some true ∧
    ((after (.resume 0 13) (reading 5 (live { auditHeld .active with hold := 2800 }))).context 13).map Context.phase
      = some .drained := by decide +kernel

/-- What RESUME does with an ACTIVE and a DRAINED session, without and with a standing entry, and with the flag set. -/
theorem test_resume_takes_on :
    ([live { auditHeld .active with hold := 2800 }, { live { auditHeld .active with hold := 2800 } with standby := [heir] },
      live (auditHeld .drained), { live (auditHeld .drained) with standby := [heir] },
      flagged { live (auditHeld .drained) with standby := [heir] }].map fun s =>
      ((after (.resume 0 13) (reading 5 s)).context 13).map fun c => (c.cell, c.phase, c.auditHeld))
    = [some (40, .drained, false), some (41, .active, false), some (40, .drained, false), some (41, .active, false),
       some (41, .active, true)] := by decide +kernel

/-- A tariff record. -/
def record (valid : Byte) : Vector Byte 32 :=
  Vector.ofFn fun i => ([valid, 0, 0x2C, 1, 0, 0, 0xD0, 7, 0x88, 0x13, 0, 0, 40, 0, 10] : List Byte).getD i.val 0

/-- A TARIFF LOAD of slot 2 that waits for its record. -/
def loading : State :=
  doing (.order (.readTariff 2)) (unit (.waiting 5 (postedPart (.tariff 2 1)) .ok true (.tariffRecord 2)) running)

theorem test_tariff : Table.get (after (.tariffReadDone (record 1)) loading).sessions.tariffs 2 = some tariff ∧
    (after (.tariffReadDone (record 0)) loading).orders.unit = .answering 5 .badField .done ∧
    (after (.tariffLoad 0 15) (reading 5 running)).orders.unit =
      .waiting 5 (postedPart (.tariff 15 1)) .ok false (.tariffRecord 15) ∧
    Table.get (after (.tariffUnload 0 2) (reading 5 (loaded running))).sessions.tariffs 2 = none ∧
    loading.port.busy.map Transfer.data = some [] := by decide +kernel

theorem test_band : (after (.band 0 [] 3) (reading 5 running)).sessions.band = 3 ∧
    (after (.band 0 [] 4) (reading 5 running)).orders.unit = .waiting 5 (postedPart (.band 4)) .badField false .nothing ∧
    ((after (.band 0 [13] 2) (reading 5 (plugged (live { session (.armed (.onBand 2)) with
      hold := 9000, startFeeCharged := 0, energyCharge := 0, chargedTotal := 0 })))).context 13).map
      (fun c => (c.phase, c.chargedTotal)) = some (.active, 300) ∧
    ([polled .silent, polled .waiting, { polled .waiting with replySlot := some (replyOf (Vector.replicate 29 0)
        { seq := 0, mask0 := 0, mask1 := 0, band := 0, sendTime := 0 } 0) },
      polled (.awaiting 9), { polled .waiting with receiving := some .alert }].map fun l =>
      (((after (.band 0 [] 1) (reading 5 (line l))).line 6).state,
       ((after (.band 0 [] 1) (reading 5 (line l))).line 6).bandEdge))
    = [(.silent, false), (.sending false, false), (.withheld, false), (.awaiting 9, true), (.waiting, true)] := by
  decide +kernel

theorem test_site_and_outlet : (after (.site 0 1600) (reading 5 running)).power.siteLimit = 1600 ∧
    (after (.site 0 1601) (reading 5 running)).power.siteLimit = 0 ∧
    (after (.site 0 0) (reading 5 granted)).journal.queue.map JournalEntry.kind = [.siteOver 0 80] ∧
    Table.get (after (.outlet 0 13 10) (reading 5 running)).power.maximums 13 = 10 ∧
    Table.get (after (.outlet 0 13 11) (reading 5 running)).power.maximums 13 = 4 ∧
    (after (.outlet 0 13 0) (reading 5 granted)).module 10 = .releasing 13 2500000 false := by decide +kernel

theorem test_module_orders :
    ((after (.moduleReturn 0 39) (reading 5 (setModule 39 (.out .noAck) running))).module 39,
     (after (.moduleReturn 0 39) (reading 5 running)).orders.unit,
     (after (.moduleRetire 0 39) (reading 5 running)).module 39,
     (after (.moduleRetire 0 10) (reading 5 granted)).module 10,
     (after (.moduleRetire 0 11) (reading 5 (setModule 11 (.releasing 13 9 false) running))).module 11,
     (after (.moduleRetire 0 39) (reading 5 (setModule 39 (.out .noAck) running))).module 39)
    = (.free, .waiting 5 (postedPart (.module 39 1)) .notOut false .nothing, .out .retired, .releasing 13 2500000 true,
       .releasing 13 9 true, .out .retired) := by decide +kernel

/-- A PARK order at the ends of its ranges. -/
def aPark : ParkOrder :=
  { pollPeriod := 2000, reserve := 65535, horizon := 30, drainedLimit := 120, heldLimit := 60, checkpoint := 15 }

theorem test_park : (after (.park 0 [] aPark) (reading 5 running)).control.settings.horizon = 30 ∧
    ([{ aPark with pollPeriod := 225 }, { aPark with pollPeriod := 2050 }, { aPark with pollPeriod := 260 },
      { aPark with horizon := 0 }, { aPark with horizon := 31 }, { aPark with drainedLimit := 121 },
      { aPark with heldLimit := 61 }, { aPark with checkpoint := 16 }].map fun p =>
      (after (.park 0 [] p) (reading 5 running)).control.settings.horizon) = List.replicate 8 4 ∧
    (after (.park 0 [] { aPark with horizon := 4, reserve := 50 }) (reading 5 running)).control.settings.pollPeriod
      = 2000 := by decide +kernel

theorem test_clock_survey_line : (after (.clock 5 0xFFFFFFFF) (reading 5 running)).control.secondDue = 1000005 ∧
    (after .parkSecondTick { running with control := { running.control with seconds := 0xFFFFFFFF } }).control.seconds = 0 ∧
    (after (.survey 0) (reading 5 running)).orders.unit = .waiting 5 (postedPart .survey) .ok false .survey ∧
    (after (.line 0 6) (reading 5 (line (polled (.awaiting 9))))).line 6 =
      { polled (.awaiting 9) with outstanding := none, state := .waiting, due := some 25000, seq := 0 } ∧
    ((after (.line 0 6) (reading 5 (line (polled (.sending false))))).line 6).state = .sending true ∧
    (after (.line 0 16) (reading 5 running)).orders.unit = .waiting 5 (postedPart (.line 16)) .badField false .nothing := by
  decide +kernel

/-! ### Witnesses: transfers -/

/-- A SURVEY whose TAKEN write is done. -/
def surveying (taken : Bool) : State := unit (.waiting 5 (postedPart .survey) .ok taken .survey) running

theorem test_survey_parts :
    (after .takenWriteDone (doing (.order (.writeTaken 5)) (surveying false))).port.busy.map Transfer.job
      = some (.survey 0) ∧
    (after .surveyPartDone (doing (.survey 5) (surveying true))).port.busy.map Transfer.job = some (.survey 6) ∧
    (after .surveyPartDone (doing (.survey 6) (surveying true))).orders.unit = .answering 5 .ok .done := by
  decide +kernel

/-- Every kind of write is a transfer with its length of bytes. -/
theorem test_writes_have_their_length :
    (let s := { live (session (.settling .stopped 0)) with
        standby := [linkEntry 41 aLink 13 1 tariff],
        journal := { running.journal with
          queue := [{ kind := .siteOver 1600 40, seconds := 1 }], writer := .writing 0 0 } }
     [.settle (.endWord { cell := 1, outcome := .settled }), .settle (.progress 13 true true), .settle (.standing 13 true),
      .settle (.receipt 13), .order (.writeTaken 5), .order (.writeAnswer 5 .ok .done), .order (.writeWithdrawn 5),
      .journal .writeEntry, .journal (.writeHeader 1 1 1), .survey 0, .survey 1, .survey 6].map fun (j : Job) =>
        (startedTransfer s j).data.length == j.length) = List.replicate 12 true := by decide +kernel

theorem test_witness_WritesReachMemory : (Job.order (.writeTaken 5)).isWrite = true ∧
    (let u := after .takenWriteDone (doing (.order (.writeTaken 5)) (unit (.waiting 5 (unknownKind 0) .badKind false .nothing) running))
     ([640, 643].map u.mem.read, [639, 644].map u.mem.read) =
       ([some 2, some 0], [639, 644].map running.mem.read)) := by decide +kernel

/-- The bytes of a progress copy and of a STANDING copy at the offsets of 12.4. -/
theorem test_copy_bytes :
    (startedTransfer (live (auditHeld (.held .idle .meter false))) (.settle (.progress 13 false false))).data =
      [5, 13, 161, 0, 0, 0xB8, 0x0B, 0, 57, 0, 0, 0, 100, 0, 0, 0, 0, 0, 0, 0, 0x8C, 0x0A, 0, 0, 0xB0, 4, 0, 0, 6, 0, 0, 0] ∧
    (startedTransfer { running with standby := [heir] } (.settle (.standing 13 true))).data =
      [8, 13, 1, 0, 0, 0x40, 0x42, 0x0F] ++ List.replicate 24 0 := by decide +kernel

/-- The bytes of a receipt at the offsets of 12.4, and of the three end words. -/
theorem test_receipt_bytes :
    (startedTransfer (live { session (.settling .purse 9) with unsaved := true, rejected := 255 })
      (.settle (.receipt 13))).data =
      [3, 13, 16, 255, 57, 0, 0, 0, 100, 0, 0, 0, 9, 0, 0, 0, 77, 0, 0, 0, 0xB8, 0x0B, 0, 0, 0x2C, 1, 0, 0, 0x60, 9, 0, 0,
       0, 0, 0, 0, 0x8C, 0x0A, 0, 0, 0, 0, 0, 0, 0, 0, 0, 0, 0xB0, 4, 0, 0, 0, 0, 0, 0, 0, 0, 0, 0, 0xB0, 4, 0, 0] ∧
    ([.settled, .cancelled, .unused].map fun r =>
      (startedTransfer running (.settle (.endWord { cell := 1, outcome := r }))).data)
      = [[4, 2, 0, 0], [4, 3, 0, 0], [4, 4, 0, 0]] := by decide +kernel

/-- The first bytes of the 17 entry kinds, one entry whole, and the header (12.6). -/
theorem test_journal_bytes :
    (([.plug 0, .unplug 0, .vehicleDone 0, .lineStale 0, .lineFresh 0 4, .lineOverrun 0 1, .moduleOut 0 .fault none,
       .held 0 .meter .idle, .recovered 0 .meter .idle 3, .drained 0 0 0 0, .handover 0 0 0 0, .auditHold 0 0 0 0,
       .estop 0 true, .siteOver 0 0, .meterDrift 0 0 0 0, .busFault .orderUnit true 0 0, .halted] : List EntryKind).map
      fun k => (entryBytes { kind := k, seconds := 0 } 0 0).take 1)
      = (List.range 17).map (fun i => [BitVec.ofNat 8 (8 * (i + 1) + 1)]) ∧
    entryBytes { kind := .drained 13 40 3000 2700, seconds := 258 } 0x1FF 65536 =
      [81, 255, 255, 255, 2, 1, 0, 0, 13, 40, 0xB8, 0x0B, 0, 0x8C, 0x0A, 0] ∧
    (startedTransfer running (.journal (.writeHeader 258 63 5))).data = [2, 1, 0, 0, 63, 0, 0, 0, 5, 0, 0, 0, 0, 0, 0, 0] := by
  decide +kernel

/-- Entries of the survey tables at the offsets of 12.7: modules 10 and 11, O13, L6. -/
theorem test_survey_bytes :
    ((startedTransfer granted (.survey 0)).data.drop 36).take 4 = [1, 13, 2, 13] ∧
    ((startedTransfer granted (.survey 2)).data.drop 80).take 16 = [2, 1, 0, 40] ++ List.replicate 12 0 ∧
    ((startedTransfer (line { polled .withheld with stale := true, missed := 4, counters := ⟨1, 2, 3, 4, 5⟩ })
      (.survey 5)).data.drop 96).take 16 = [4, 1, 4, 0, 1, 0, 2, 0, 3, 0, 4, 0, 5, 0, 0, 0] := by decide +kernel

/-- `HasField` at its ends: the lowest and the highest byte of a value, and a value that stands nowhere. -/
theorem test_HasField : HasField [0x8C, 0x0A, 0, 0] 0 4 2700 ∧ HasField [9, 0x40, 0x42, 0x0F] 1 3 1000000 ∧ ¬HasField [1] 1 1 0 := by
  unfold HasField; decide

theorem test_transfers_start_in_order :
    (let s := { running with port := { running.port with
        settleReq := some (.endWord { cell := 1, outcome := .settled }), orderReq := some (.writeTaken 5),
        journalReq := some .readSlot, surveyReq := some 0 }, journal := { running.journal with writer := .checking } }
     [s, { s with port := { s.port with settleReq := none } },
      { s with port := { s.port with settleReq := none, orderReq := none } },
      { s with port := { s.port with settleReq := none, orderReq := none, journalReq := none } }].map fun s =>
        (after .transferStart s).port.busy.map Transfer.job)
    = [some (.settle (.endWord { cell := 1, outcome := .settled })), some (.order (.writeTaken 5)),
       some (.journal .readSlot), some (.survey 0)] := by decide +kernel

theorem test_order_unit_writes :
    (after .takenWriteDone (doing (.order (.writeTaken 5))
      (unit (.waiting 5 (postedPart (.stop 13)) .ok false .nothing) running))).orders.unit = .answering 5 .ok .done ∧
    (after .takenWriteDone (doing (.order (.writeTaken 5))
      (unit (.waiting 5 (postedPart (.tariff 2 1)) .ok false (.tariffRecord 2)) running))).port.busy.map Transfer.job
      = some (.order (.readTariff 2)) ∧
    (after .answerWriteDone (doing (.order (.writeAnswer 5 .ok .done)) (unit (.answering 5 .ok .done) running))).control.notice
      = 1 ∧
    (after .withdrawStart (setQueues [] [7, 8] running)).orders.unit = .withdrawing 7 ∧
    (after .withdrawnWriteDone (doing (.order (.writeWithdrawn 7)) (unit (.withdrawing 7)
      (setQueues [] [7, 8] running)))).orders.withdrawList = [8] := by decide +kernel

theorem test_copies_answer :
    (after .progressWriteDone (doing (.settle (.progress 13 true false))
      (unit (.waiting 5 (postedPart (.openSession anOpen)) .ok true (.progressCopy 13)) (live (session .active))))).orders.unit
      = .answering 5 .ok .live ∧
    (after .progressWriteDone (doing (.settle (.progress 13 false true))
      (unit (.waiting 40 (postedPart (.link aLink)) .ok true .cellCopy) (live (session .active))))).orders.unit
      = .answering 40 .ok .live ∧
    (after .standingCopyDone (doing (.settle (.standing 13 true))
      (unit (.waiting 41 (postedPart (.link aLink)) .ok true .cellCopy)
        { live (session .active) with standby := [linkEntry 41 aLink 13 1 tariff] }))).orders.unit
      = .answering 41 .ok .live := by decide +kernel

/-- A released wait whose TAKEN write is not done, a bus error on a copy made for a LINK, and a copy that releases nothing. -/
theorem test_copies_before_taken :
    ([(.progressWriteDone, .progress 13 true false, .progressCopy 13), (.progressWriteDone, .progress 13 false true, .cellCopy),
      (.standingCopyDone, .standing 13 true, .cellCopy), (.busError 0, .progress 13 false true, .cellCopy),
      (.progressWriteDone, .progress 13 false true, .progressCopy 13), (.receiptWriteDone, .receipt 13, .progressCopy 13)].map
      fun (p : Instr × SettleJob × Wait) =>
      match (after p.1 (doing (.settle p.2.1) (unit (.waiting 5 (postedPart (.sync 13)) .ok false p.2.2)
        (live (session (.settling .stopped 0)))))).orders.unit with
      | .waiting _ _ _ false w => some w
      | _ => none)
    = [some .nothing, some .nothing, some .nothing, some .nothing, some (.progressCopy 13), some .nothing] := by
  decide +kernel

/-- A session with a given-up receipt. -/
def handedOver (p : Phase) : Context :=
  { session p with givenUp := some { cell := 39, receipt := (session .active).receipt 13 .handover 0, retryDue := false } }

theorem test_receipts : (after .receiptWriteDone (doing (.settle (.receipt 13))
      (live (session (.settling .stopped 0))))).context 13 = none ∧
    (after .receiptWriteDone (doing (.settle (.receipt 13))
      { live (session (.settling .stopped 0)) with standby := [linkEntry 41 aLink 13 1 tariff] })).sessions.endWords
      = [{ cell := 40, outcome := .settled }, { cell := 41, outcome := .unused }] ∧
    (after .givenUpReceiptDone (doing (.settle (.givenUp 13)) (live (handedOver .idle)))).sessions.endWords
      = [{ cell := 39, outcome := .settled }] ∧
    (after .endWordDone (doing (.settle (.endWord { cell := 1, outcome := .settled })) running)).control.notice = 2 ∧
    (after .endWordDone (doing (.settle (.endWord { cell := 1, outcome := .unused })) running)).control.notice = 1 := by
  decide +kernel

/-- A receipt written while a LINK is in hand: one whose entry it releases is answered once its TAKEN write is done, and one of
another cell waits on. -/
theorem test_receipt_releases_link :
    ([(41, true), (41, false), (42, true)].map fun (p : CellIndex × Bool) =>
      (after .receiptWriteDone (doing (.settle (.receipt 13)) (unit (.waiting p.1 (postedPart (.link aLink)) .ok p.2 .cellCopy)
        { live (session (.settling .stopped 0)) with standby := [heir] }))).orders.unit)
    = [.answering 41 .ok .live, .waiting 41 (postedPart (.link aLink)) .ok false .nothing,
       .waiting 42 (postedPart (.link aLink)) .ok true .cellCopy] := by decide +kernel

/-- What the settlement writer chooses: an end word past one whose cell is in hand, a due copy, a STANDING copy, a given-up receipt
before the settling one, nothing; behind another's transfer it waits. -/
theorem test_settlement_chooses :
    (let words : List EndWord := [{ cell := 1, outcome := .settled }, { cell := 2, outcome := .unused }]
     let due (c : Context) : State := { live { c with progressDue := true } with standby := [{ heir with progressDue := true }] }
     let queued (s : State) : State := { s with sessions := { s.sessions with endWords := words } }
     let settling : Context := session (.settling .stopped 0)
     [queued (due settling), unit (.reading 1) (queued (due settling)),
      unit (.waiting 40 (postedPart (.link aLink)) .ok false .cellCopy) (due settling),
      { live settling with standby := [{ heir with progressDue := true }] }, live (handedOver (.settling .stopped 0)),
      live settling, live { settling with unsaved := true }, live { settling with unsaved := true, retryDue := true },
      doing (.survey 0) (live settling)].map fun s =>
       let u := after .transferStart s
       (u.port.busy.map Transfer.job, u.port.settleReq))
    = [(some (.settle (.endWord { cell := 1, outcome := .settled })), none),
       (some (.settle (.endWord { cell := 2, outcome := .unused })), none),
       (some (.settle (.progress 13 false true)), none), (some (.settle (.standing 13 false)), none),
       (some (.settle (.givenUp 13)), none), (some (.settle (.receipt 13)), none), (none, none),
       (some (.settle (.receipt 13)), none), (some (.survey 0), some (.receipt 13))] := by decide +kernel

/-- A waiting request whose owner is gone is not made. -/
theorem test_stale_request :
    ([.progress 13 false false, .standing 13 true, .receipt 13, .givenUp 13].map fun j =>
      let u := after .transferStart (requestSettle j running)
      (u.port.busy, u.port.settleReq)) = List.replicate 4 (none, none) := by decide +kernel

/-- A journal with two entries, a state of the writer and a gap. -/
def journal (w : WriterState) (gap : Nat) : State :=
  { running with journal :=
      { nextSlot := 63, nextSeq := 0xFFFFFFFF, gap := gap, writer := w,
        queue := [{ kind := .siteOver 1600 40, seconds := 1 }, { kind := .halted, seconds := 2 }] } }

/-- An entry that comes to an IDLE writer. -/
theorem test_journal_starts :
    (after (.site 0 0) (reading 5 granted)).journal.writer = .checking ∧ granted.journal.writer = .idle ∧
    (after .transferStart (journal .idle 0)).port.busy.map Transfer.job = some (.journal .readSlot) := by decide +kernel

theorem test_journal :
    (after (.journalSlotReadDone 8) (doing (.journal .readSlot) (journal .checking 3))).journal.writer
      = .writing 0xFFFFFFFF 3 ∧
    (after (.journalSlotReadDone 1) (doing (.journal .readSlot) (journal .checking 3))).journal.gap = 4 ∧
    (after .journalEntryWriteDone (doing (.journal .writeEntry) (journal (.writing 0xFFFFFFFF 3) 5))).journal =
      { nextSlot := 0, nextSeq := 0, gap := 2, writer := .heading false, queue := [{ kind := .halted, seconds := 2 }] } ∧
    (after .journalHeaderWriteDone (doing (.journal (.writeHeader 0 0 0)) (journal (.heading false) 0))).journal.writer
      = .checking := by decide +kernel

/-- The header of a dropped or written entry is for a BUS_FAULT entry exactly where the entry was one. -/
theorem test_header_for_bus_fault :
    ([.halted, .busFault .orderUnit true 0 0].map fun (k : EntryKind) =>
      let s (w : WriterState) : State := { running with journal :=
        { running.journal with writer := w, queue := [{ kind := k, seconds := 1 }] } }
      [after (.journalSlotReadDone 1) (doing (.journal .readSlot) (s .checking)),
       after .journalEntryWriteDone (doing (.journal .writeEntry) (s (.writing 0 0))),
       after (.busError 0) (doing (.journal .writeEntry) (s (.writing 0 0)))].map fun u => u.journal.writer)
    = [List.replicate 3 (.heading false), List.replicate 3 (.heading true)] := by decide +kernel

theorem test_bus_errors :
    (after (.busError 32) (doing (.settle (.receipt 13)) (live (session (.settling .stopped 0))))).mem.length = 60 ∧
    ((after (.busError 0) (doing (.settle (.receipt 13)) (live (session (.settling .stopped 0))))).context 13).map
      Context.unsaved = some true ∧
    (after (.busError 0) loading).orders.unit = .answering 5 .busFault .done ∧
    (after (.busError 0) (doing (.journal .readSlot) (journal .checking 3))).journal.gap = 4 := by decide +kernel

theorem test_bus_error_fallbacks :
    (after (.busError 0) (reading 5 running)).orders.unit = .idle ∧
    (after (.busError 0) (doing (.order (.writeTaken 5))
      (unit (.waiting 5 (postedPart (.stop 13)) .ok false .nothing) running))).orders.unit = .answering 5 .ok .done ∧
    (after (.busError 0) (doing (.order (.writeAnswer 5 .ok .done)) (unit (.answering 5 .ok .done) running))).control.notice
      = 0x40 ∧
    (after (.busError 0) (doing (.order (.writeWithdrawn 7)) (unit (.withdrawing 7)
      (setQueues [] [7] running)))).orders.withdrawList = [] ∧
    (after (.busError 0) (doing (.settle (.progress 13 true false))
      (unit (.waiting 5 (postedPart (.sync 13)) .ok true (.progressCopy 13)) (live (session .active))))).orders.unit
      = .answering 5 .ok .done ∧
    (after (.busError 0) (doing (.settle (.standing 13 true))
      (unit (.waiting 41 (postedPart (.link aLink)) .ok true .cellCopy) running))).orders.unit = .answering 41 .ok .live ∧
    ((after (.busError 0) (doing (.settle (.givenUp 13)) (live (handedOver .idle)))).context 13).bind
      (fun c => c.givenUp.map fun g => g.receipt.unsaved) = some true ∧
    (after (.busError 0) (doing (.settle (.endWord { cell := 1, outcome := .settled }))
      { running with sessions := { running.sessions with endWords := [{ cell := 1, outcome := .settled }] } })).sessions.endWords
      = [] ∧
    (after (.busError 0) (doing (.journal (.writeHeader 0 0 0)) (journal (.heading true) 0))).journal.queue.length = 2 ∧
    (after (.busError 0) (doing (.survey 3) (surveying true))).orders.unit = .answering 5 .busFault .done := by
  decide +kernel

/-! ### Witnesses: lines and the Metering Unit -/

theorem test_polls : (after (.pollDue 6) (line (polled .waiting))).line 6 =
      { polled .waiting with
        state := .sending false, seq := 2, due := some 1000000,
        outstanding := some { seq := 1, mask0 := 0, mask1 := 0, band := 0, sendTime := 500000 } } ∧
    ((after (.pollDue 6) (line (polled (.awaiting 9)))).line 6).state = .awaiting 9 ∧
    ((after (.pollSent 6) (line (polled (.sending false)))).line 6).state = .awaiting 25320 ∧
    ((after (.pollSent 6) (line (polled (.sending true)))).line 6).due = some 25320 ∧
    (line (polled .waiting)).line 6 = polled .waiting := by decide +kernel

/-- The first poll of a line with M10 granted to O13: sequence number 0, masks 0 and position 0, and the CRC. -/
theorem test_poll_bytes : pollFrame { seq := 0, mask0 := 0, mask1 := 1, band := 0, sendTime := 0 } =
    [0x5C, 0, 0, 0, 0, 1] ++ [(crc [0, 0, 0, 0, 1]).extractLsb' 8 8, (crc [0, 0, 0, 0, 1]).extractLsb' 0 8] := by
  decide +kernel

/-- A frame of bytes with its CRC word. -/
def sealed {n : Nat} (start : Byte) (body : List Byte) : Vector Byte n :=
  let c := crc body
  Vector.ofFn fun i => ([start] ++ body ++ [c.extractLsb' 8 8, c.extractLsb' 0 8]).getD i.val 0

/-- A reply that echoes a sequence number, with O13 plugged, asking for 150 kW, and a meter register. -/
def aReply (seq : Byte) (register : List Byte) : Vector Byte 29 :=
  sealed 0xA3 ([seq, 0] ++ [0, 0, 0, 0, 0, 0, 0, 0, 0, 0, 0, 100] ++ [1, 0, 0, 150, 0, 0, 0, 0] ++ register)

/-- An alert with O12 unplugged and O13 in fault. -/
def anAlert (status : Byte) : Vector Byte 6 := sealed 0xE6 [status, 0, 2]

theorem test_exchanges_fail :
    ((after (.replyWindowEnd 6) (line (polled (.awaiting 9)))).line 6 =
      { polled .waiting with outstanding := none, missed := 1, counters := { LineCounters.reset with silentFault := 1 } }) ∧
    ((after (.replyWindowEnd 6) (line { polled (.awaiting 9) with missed := 3 })).line 6).stale = true ∧
    ((after (.frameBroken 5 6) (line { polled (.awaiting 9) with receiving := some .reply })).line 6).counters.broken = 1 ∧
    ((after (.replyFrame 5 6 ((aReply 0 [0, 0, 3, 232]).set 28 0)) (line (polled (.awaiting 9)))).line 6).counters.crcFault
      = 1 ∧
    ((after (.replyFrame 5 6 (aReply 9 [0, 0, 3, 232])) (line (polled (.awaiting 9)))).line 6).counters.seqFault = 1 := by
  decide +kernel

/-- A CLOSING session behind the line that becomes STALE, and one that an ESTOP or an UNPLUGGED state closes behind a STALE one. -/
theorem test_line_closings :
    ((after (.replyWindowEnd 6) { live (session (.closing .stopped 3)) with
      lines := (line { polled (.awaiting 9) with missed := 3 }).lines }).context 13).map Context.phase
      = some (.settling .stopped 3) ∧
    ([1, 0].map fun status => ((after (.alertService 0) (setContext 12 (some (session .active))
      (line { polled .waiting with alertSlot := some (alertOf (anAlert status) 5) }))).context 12).map
        fun c => (c.phase, c.finalUnconfirmed))
      = [some (.settling .estop 0, true), some (.settling .unplugged 0, true)] := by decide +kernel

/-- A line that has missed three polls and waits for the reply to its fourth, with a session on O13. -/
def missing (r : Option FrameKind) : State :=
  { live (session .active) with lines := (line { polled (.awaiting 9) with missed := 3, receiving := r }).lines }

/-- Each kind of failed exchange can be the fourth miss. -/
theorem test_fourth_miss :
    ([after (.replyWindowEnd 6) (missing none), after (.frameBroken 5 6) (missing (some .alert)),
      after (.alertFrame 5 6 ((anAlert 0).set 5 0)) (missing (some .alert)),
      after (.replyFrame 5 6 ((aReply 0 [0, 0, 3, 232]).set 28 0)) (missing none),
      after (.replyFrame 5 6 (aReply 9 [0, 0, 3, 232])) (missing (some .reply))].map fun s =>
      ((s.line 6).stale, (s.line 6).counters.crcFault, (s.context 13).map Context.phase))
    = [(true, 0, some (.held .active .stale false)), (true, 0, some (.held .active .stale false)),
       (true, 1, some (.held .active .stale false)), (true, 1, some (.held .active .stale false)),
       (true, 0, some (.held .active .stale false))] := by decide +kernel

/-- Outside an exchange a bad or broken frame raises its counter alone. -/
theorem test_bad_frames_outside_an_exchange :
    ([.waiting, .withheld].map fun st =>
      ((after (.replyFrame 5 6 ((aReply 0 [0, 0, 3, 232]).set 28 0)) (line (polled st))).line 6
          = { polled st with counters := { LineCounters.reset with crcFault := 1 } } ∧
       (after (.alertFrame 5 6 ((anAlert 0).set 5 0)) (line (polled st))).line 6
          = { polled st with counters := { LineCounters.reset with crcFault := 1 } } ∧
       (after (.frameBroken 5 6) (line { polled st with receiving := some .reply })).line 6
          = { polled st with counters := { LineCounters.reset with broken := 1 } } : Bool)) = [true, true] := by
  decide +kernel

/-- A held session on O13 behind a STALE line that becomes fresh. -/
def freshened (c : Context) (standby : List StandbyEntry) : State :=
  after (.replyFrame 5 6 (aReply 0 [0, 0, 3, 232]))
    { live c with standby := standby, lines := (line { polled (.awaiting 9) with stale := true, missed := 4 }).lines }

theorem test_recoveries :
    ([(ResumeState.active, []), (.idle, []), (.drained, []), (.drained, [heir])].map fun p =>
      ((freshened (session (.held p.1 .stale true)) p.2).context 13).map fun c => (c.cell, c.phase))
    = [some (40, .drained), some (40, .idle), some (40, .drained), some (41, .active)] := by decide +kernel

/-- A full reply slot. -/
def aHeld : Option HeldReply :=
  some (replyOf (aReply 0 [0, 0, 3, 232]) { seq := 0, mask0 := 0, mask1 := 0, band := 0, sendTime := 0 } 4)

/-- A poll due or a band edge marked, when an exchange fails, a frame ends and a poll after a LINE order ends. -/
theorem test_due_polls :
    ([(.replyWindowEnd 6, { polled (.awaiting 9) with bandEdge := true }),
      (.replyWindowEnd 6, { polled (.awaiting 500000) with replySlot := aHeld }),
      (.replyWindowEnd 6, { polled (.awaiting 500000) with receiving := some .reply }),
      (.replyWindowEnd 6, { polled (.awaiting 500000) with missed := 3 }),
      (.alertFrame 500000 6 (anAlert 0), polled .waiting), (.frameBroken 5 6, { polled .waiting with
        receiving := some .alert, bandEdge := true, replySlot := aHeld }),
      (.replyFrame 499999 6 (aReply 0 [0, 0, 3, 232]), polled .waiting),
      (.pollSent 6, { polled (.sending true) with bandEdge := true })].map fun (p : Instr × Line) =>
      let l := (after p.1 (line p.2)).line 6
      (l.state, l.bandEdge, l.seq.toNat, l.stale))
    = [(.sending false, false, 2, false), (.withheld, false, 1, false), (.waiting, false, 1, false),
       (.sending false, false, 2, true), (.sending false, false, 2, false), (.withheld, true, 1, false),
       (.waiting, false, 1, false), (.sending false, false, 2, false)] := by decide +kernel

/-- What comes in SILENT and SENDING is lost, and inside a frame no byte opens another. -/
theorem test_lost_frames :
    ([polled .silent, polled (.sending false)].map fun l =>
      [after (.frameStart 5 6 0xA3) (line l), after (.replyFrame 5 6 (aReply 0 [0, 0, 3, 232])) (line l),
       after (.alertFrame 5 6 (anAlert 0)) (line l), after (.frameBroken 5 6) (line l)].map fun u => u.line 6)
    = [List.replicate 4 (polled .silent), List.replicate 4 (polled (.sending false))] ∧
    ((after (.frameStart 5 6 0xE6) (line { polled .waiting with receiving := some .reply })).line 6).receiving = some .reply :=
  by decide +kernel

/-- An emptied slot of a WITHHELD line: its poll is sent, or waits for the frame being received (log 21). -/
theorem test_emptied_slot :
    ([none, some .alert].map fun r =>
      let l := (emptyReplySlot 6 { line { polled .withheld with replySlot := aHeld, receiving := r } with now := 7 }).line 6
      (l.state, l.due, l.replySlot)) = [(.sending false, some 500007, none), (.waiting, some 7, none)] := by
  decide +kernel

theorem test_replies : (aReply 0 [0, 0, 3, 232])[0] = 0xA3#8 ∧ frameGood (aReply 0 [0, 0, 3, 232]).toList = true ∧
    ((after (.replyFrame 5 6 (aReply 0 [0, 0, 3, 232])) (line (polled (.awaiting 9)))).line 6).replySlot.map
      (fun r => (r.news1.plug, r.news1.demand, r.news1.register, r.received)) = some (.plugged, 150, 1000, 5) ∧
    ((after (.replyFrame 500000 6 (aReply 0 [0, 0, 3, 232])) (line (polled (.awaiting 9)))).line 6).state = .withheld ∧
    ((after (.replyFrame 5 6 (aReply 0 [0, 0, 3, 232])) (line { polled (.awaiting 9) with stale := true })).line 6).stale
      = false ∧
    ((after (.replyFrame 5 6 (aReply 0 [0, 0, 3, 232])) (line (polled .waiting))).line 6).replySlot = none := by
  decide +kernel

theorem test_alerts : (anAlert 0)[0] = 0xE6#8 ∧ frameGood (anAlert 0).toList = true ∧
    frameGood ((anAlert 0).set 5 0).toList = false ∧
    ((after (.alertFrame 5 6 (anAlert 0)) (line (polled .withheld))).line 6).alertSlot =
      some { estop := false, plug0 := .unplugged, plug1 := .fault, received := 5 } ∧
    ([0, 1, 2, 3, 255].map fun b => (alertOf (sealed 0xE6 [0, b, 1]) 5).plug0)
      = [.unplugged, .plugged, .fault, .fault, .fault] ∧
    (after (.alertFrame 5 6 (anAlert 0)) (line { polled .waiting with
      alertSlot := some { estop := false, plug0 := .unknown, plug1 := .unknown, received := 0 } })).journal.queue.map
      JournalEntry.kind = [.lineOverrun 6 1] ∧
    ([0xA3, 0xE6, 0].map fun b => ((after (.frameStart 5 6 b) (line (polled .waiting))).line 6).receiving)
      = [some .reply, some .alert, none] := by decide +kernel

/-- A full reply slot on L6, with the meter of O13 read at 0 with a register of 994. -/
def replied (register : List Byte) (r : MeterRecord) : State :=
  let s := line { polled .waiting with
    replySlot := some (replyOf (aReply 0 register) { seq := 0, mask0 := 0, mask1 := 0, band := 1, sendTime := 0 } 500000) }
  recompute 13 (mapRecord 13 (fun _ => r) (setContext 13 (some (session .idle)) s))

/-- A meter record read at time 0, with a number of rejects. -/
def meter (rejects : Nat) : MeterRecord :=
  { baseline := 994, lastTime := some 0, peak := 1, rejects := rejects, unclaimed := 0 }

theorem test_witness_RepliesServed : (replied [0, 0, 3, 232] (meter 0)).nextAlert = none ∧
    (replied [0, 0, 3, 232] (meter 0)).nextReply = some 6 ∧
    ((replied [0, 0, 3, 232] (meter 0)).line 6).replySlot.isSome = true ∧ running.nextReply = none := by decide +kernel

theorem test_reply_service :
    ([([0, 0, 3, 232], { meter 0 with lastTime := none }), ([0, 0, 3, 232], meter 1), ([0, 0, 3, 238], meter 0),
      ([0, 0, 5, 0], meter 0), ([0, 0, 5, 0], meter 2)].map fun (p : List Byte × MeterRecord) =>
      let m := (after (.replyService 0) (replied p.1 p.2)).record 13
      (m.baseline.toNat, m.lastTime, m.rejects))
    = [(1000, some 500000, 0), (1000, some 500000, 0), (1006, some 500000, 0), (994, some 0, 1),
       (1280, some 500000, 0)] := by decide +kernel

theorem test_reply_service_bills :
    ((after (.replyService 0) (replied [0, 0, 3, 232] (meter 0))).context 13).map (fun c => (c.chargedTotal, c.phase))
      = some (2712, .active) ∧
    ((after (.replyService 0) (flagged (replied [0, 0, 3, 232] (meter 0)))).context 13).map Context.auditHeld
      = some true := by decide +kernel

/-- A start at the plug news of a reply is judged by that reply's complete flag, not by the one the report still shows (R29,
R31), and leaves a start that the reply ends in IDLE. -/
theorem test_reply_service_starts :
    ([false, true].map fun flag =>
      let s := complete (setContext 13 (some { session (.armed .onPlug) with
        hold := 9000, chargedTotal := 0, energyCharge := 0 }) (replied [0, 0, 3, 232] (meter 0)))
      let news := (replyOf (aReply 0 [0, 0, 3, 232]) { seq := 0, mask0 := 0, mask1 := 0, band := 1, sendTime := 0 } 500000)
      let s := mapReport 13 (fun r => { r with lineStale := false })
        (mapLine 6 (fun l => { l with replySlot := some { news with news1 := { news.news1 with complete := flag } } }) s)
      (((after (.replyService 0) s).context 13).map Context.phase,
       (after (.replyService 0) s).journal.queue.map JournalEntry.kind |>.contains (.vehicleDone 13)))
    = [(some .active, false), (some .idle, true)] := by decide +kernel

/-- A session on O13 that holds and wants M10, behind a line whose poll is not due. -/
def drawing (hold : Nat) : State :=
  let i : WantInputs :=
    { active := true, demand := 40, ceiling := 1, lineStale := false, baselineValid := true, blocked := false }
  let s := setModule 10 (.granted 13) (live { session .active with hold := hold })
  { s with
    lines := (line (polled .waiting)).lines,
    sessions := { s.sessions with ceilings := Table.set s.sessions.ceilings 13 1 },
    power := { s.power with siteLimit := 400, inputs := Table.set s.power.inputs 13 i } }

/-- A band-edge poll carries the new band and the masks after the ceilings' pass, and the next is due one period on. -/
theorem test_band_edge_poll :
    ([3000, 2972].map fun hold =>
      let l := (after (.band 7 [] 2) (reading 5 (drawing hold))).line 6
      (l.due, l.outstanding)) =
    [(some 500007, some { seq := 1, mask0 := 0, mask1 := 1, band := 2, sendTime := 7 }),
     (some 500007, some { seq := 1, mask0 := 0, mask1 := 0, band := 2, sendTime := 7 })] := by decide +kernel

/-- The masks of a reply: faults first, then a freed module, a retired one and one still in the mask sent. -/
theorem test_takeMasks :
    (let s := setModule 13 (.releasing 13 9 false) (setModule 12 (.releasing 13 9 true) granted)
     let n : OutletNews := { plug := .plugged, complete := false, demand := 0, applied := 0, faults := 1, register := 0 }
     let u := takeMasks 13 n 8 s
     ([10, 11, 12, 13].map u.module, u.power.passRequest, u.journal.queue.map JournalEntry.kind))
    = ([.out .fault, .out .retired, .out .retired, .releasing 13 9 false], true,
       [.moduleOut 10 .fault (some 13), .moduleOut 11 .retired (some 13), .moduleOut 12 .retired (some 13)]) := by
  decide +kernel

/-- The final-reading mark decides where the line is STALE too (log 36). -/
theorem test_closeStep :
    ([(true, 0), (false, 0), (false, 2)].map fun (p : Bool × Nat) =>
      ((closeStep 13 p.1 0 (live { session (.closing .stopped 3) with closingMinutes := p.2 })).context 13).map
        fun c => (c.phase, c.finalUnconfirmed))
    = [some (.settling .stopped 3, false), some (.settling .stopped 3, true), some (.settling .stopped 3, true)] ∧
    GrantsWithinWants running ∧ (running.record 13).lastTime = none := by
  unfold GrantsWithinWants; decide +kernel

/-- A full alert slot on L6. -/
def alerted (status : Byte) : State :=
  mapReport 12 (fun r => { r with lineStale := false }) (setContext 12 (some (session .active))
    (line { polled .waiting with alertSlot := some (alertOf (anAlert status) 5), overrunMark := true }))

theorem test_alert_service : (alerted 1).nextAlert = some 6 ∧
    ((after (.alertService 0) (alerted 1)).context 12).map Context.phase = some (.closing .estop 0) ∧
    (after (.alertService 0) (alerted 1)).blockMark 6 = true ∧
    ((after (.alertService 0) (alerted 0)).context 12).map Context.phase = some (.closing .unplugged 0) ∧
    ((after (.alertService 0) (alerted 0)).report 13).plug = .fault ∧
    ((after (.alertService 0) (alerted 0)).line 6).overrunMark = false := by decide +kernel

/-- What an alert that finds O13 in FAULT, UNPLUGGED or PLUGGED does with its session. -/
theorem test_alert_plug_news :
    (([(2, .idle), (0, .drained), (1, .held .idle .outletFault true), (1, .armed .onPlug), (1, .closing .stopped 3)]
      : List (Byte × Phase)).map fun p =>
      let s := mapReport 13 (fun r => { r with lineStale := false }) { live { session p.2 with hold := 9000 } with
        lines := (line { polled .waiting with alertSlot := some (alertOf (sealed 0xE6 [0, 0, p.1]) 5) }).lines }
      ((after (.alertService 0) s).context 13).map Context.phase)
    = [some (.held .idle .outletFault false), some (.closing .unplugged 0), some .idle, some .active,
       some (.closing .stopped 3)] := by decide +kernel

/-- Sessions on O2, O12 and O13 that wait for a vehicle or for band 2, with start serial 7 the next, and an alert that finds O12
and O13 plugged. -/
def waiting : State :=
  let c : Context := { session (.armed .onPlug) with hold := 9000, chargedTotal := 0, energyCharge := 0, link := none }
  let s := setContext 2 (some { c with phase := .armed (.onBand 2) }) (setContext 12 (some c) (live c))
  let s := { s with lines := (line { polled .waiting with alertSlot := some (alertOf (sealed 0xE6 [0, 1, 1]) 5) }).lines }
  let s := mapReport 2 (fun r => { r with plug := .plugged, lineStale := false }) (plugged s)
  complete (mapReport 12 (fun r => { r with lineStale := false })
    { s with sessions := { s.sessions with startSerial := 7 } })

/-- What an event has started: the phase and the serial on O2, O12 and O13, and the next serial. -/
def startedIn (u : State) : List (Option (Phase × Word)) × Word :=
  ([(2 : Outlet), 12, 13].map fun o => (u.context o).map fun c => (c.phase, (c.started.map Started.serial).getD 0),
   u.sessions.startSerial)

/-- Serials in the order of a BAND order's sweep, and in the order of a pedestal's outlets. -/
theorem test_start_serials :
    (startedIn (after (.band 0 [13] 2) (reading 5 waiting))).1 =
      [some (.active, 8), some (.armed .onPlug, 57), some (.idle, 7)] ∧
    (startedIn (after (.band 0 [] 2) (reading 5 waiting))).1 =
      [some (.active, 7), some (.armed .onPlug, 57), some (.idle, 8)] ∧
    startedIn (after (.alertService 0) waiting) =
      ([some (.armed (.onBand 2), 57), some (.active, 7), some (.idle, 8)], 9) ∧
    waiting.nextAlert = some 6 := by decide +kernel

/-! ### Witnesses: the Apportioner, the clocks, the money -/

/-- O13 wants 4 modules of a site of 400 kW, O12 wants 1 and ranks first. -/
def wanting : State :=
  let i : WantInputs :=
    { active := true, demand := 150, ceiling := 10, lineStale := false, baselineValid := true, blocked := false }
  let s := setContext 12 (some { session .active with priority := 0 }) (live (session .active))
  { s with power := { s.power with
      siteLimit := 120, passRequest := true,
      inputs := Table.set (Table.set s.power.inputs 13 i) 12 { i with demand := 40 } } }

theorem test_pass : ((after (.pass 0) wanting).grant 12, (after (.pass 0) wanting).grant 13) = (1, 2) ∧
    (after (.pass 0) wanting).module 10 = .granted 12 ∧ (after (.pass 0) wanting).module 12 = .granted 13 ∧
    (after (.pass 0) { wanting with power := { wanting.power with startGuard := some 1 } }).grant 13 = 0 := by
  decide +kernel

/-- O14 ranks before O13 by its serial: a budget of 2 modules ends with round one's second, one of 5 is used up by round two. -/
theorem test_pass_ranks :
    ([80, 200].map fun limit =>
      let s := setContext 14 (some { session .active with started := some { serial := 56, time := 0 } })
        { wanting with power := { wanting.power with
            siteLimit := limit, inputs := Table.set wanting.power.inputs 14 (wanting.inputs 13) } }
      [(12 : Outlet), 14, 13].map (pass s).grant) = [[1, 1, 0], [1, 3, 1]] ∧
    ([10, 11, 12].map fun m => (pass (setModule 12 (.granted 12) (setModule 11 (.granted 12) (setModule 10 (.granted 12)
      wanting)))).module m) = [.granted 12, .releasing 12 2500000 false, .releasing 12 2500000 false] := by
  decide +kernel

theorem test_apportioner_events : (after .releaseDeadline granted).module 11 = .out .noAck ∧
    (after .releaseDeadline granted).power.passRequest = true ∧ granted.nextDeadline = some 9 ∧
    (after .releaseDeadline (setModule 10 (.releasing 13 9 false) granted)).journal.queue.map JournalEntry.kind
      = [.moduleOut 10 .noAck (some 13), .moduleOut 11 .noAck (some 13)] ∧
    (after .startGuardExpiry { running with power := { running.power with startGuard := some 8 } }).power.startGuard
      = none := by decide +kernel

theorem test_minute_event :
    ([{ session .idle with idleMinutes := 10 }, { session .idle with auditHeld := true },
      { session .drained with drainedMinutes := 8 }, { session .drained with drainedMinutes := 9 },
      { session (.held .idle .meter false) with heldMinutes := 4 },
      { session (.closing .stopped 3) with closingMinutes := 1 }, session .active].map fun c =>
      ((after (.minuteEvent true) (plugged (live c))).context 13).map
        fun c => (c.phase.code, c.chargedTotal, c.pendingIdle, c.drainedMinutes))
    = [some (3, 2740, 0, 0), some (3, 2700, 1, 0), some (4, 2700, 0, 9), some (6, 2700, 0, 10), some (6, 2700, 0, 0),
       some (7, 2700, 0, 0), some (2, 2700, 0, 0)] := by decide +kernel

/-- A checkpoint's copy, a receipt to be written again, and the first closing minute. -/
theorem test_minute_event_copies :
    (after (.minuteEvent false) (plugged (live (session .active)))).port.busy.map Transfer.job
      = some (.settle (.progress 13 false false)) ∧
    (after (.minuteEvent true) (plugged (live { session (.settling .stopped 0) with unsaved := true }))).port.busy.map
      Transfer.job = some (.settle (.receipt 13)) ∧
    ((after (.minuteEvent true) (plugged (live (session (.closing .stopped 3))))).context 13).map
      (fun c => (c.phase, c.closingMinutes)) = some (.closing .stopped 3, 1) ∧
    (after (.minuteEvent true) { live (session .active) with control := { (live (session .active)).control with
      settings := { ParkSettings.reset with checkpoint := 2 } } }).sessions.checkpointCount = 1 := by decide +kernel

theorem test_witness_MinuteEvent : running.control.minuteDue = some 60000000 ∧
    (after (.minuteEvent false) (inState .halted (live (session .drained)))).control.minuteDue = some 120000000 ∧
    ((after (.minuteEvent false) (inState .halted (live (session .drained)))).context 13).map Context.drainedMinutes
      = some 0 := by decide +kernel

/-- Inputs agree with their owners in a park with one session that is not ACTIVE. -/
theorem inputsAgree_live {c : Context} (h : c.phase ≠ .active) : InputsAgree (live c) := by
  have hr : ∀ o, (running.inputs o).active = false ∧ running.context o = none ∧
      (running.inputs o).ceiling = running.ceiling o ∧
      ((running.inputs o).baselineValid = true ↔ (running.record o).lastTime.isSome = true) := by decide +kernel
  refine ⟨by constructor <;> intro <;> rfl, fun o => ⟨?_, (hr o).2.2⟩⟩
  have hc : (live c).context o = if (13 : Outlet) = o then some c else running.context o := context_setContext _ _ _ _
  rw [show ((live c).inputs o).active = false from (hr o).1, hc, (hr o).2.1]
  constructor
  · intro e; cases e
  · rintro ⟨c', e, hp⟩
    split at e
    · cases e; exact absurd hp h
    · cases e

/-- The premises of the minute statement, and those of the alert statement for a session to close and one found CLOSING. -/
theorem test_witness_InputsAgree : InputsAgree (live (session (.closing .stopped 0))) ∧
    InputsAgree { live (session .idle) with lines := (alerted 1).lines } ∧
    ({ live (session .idle) with lines := (alerted 1).lines } : State).nextAlert = some 6 ∧
    InputsAgree { live (session (.closing .stopped 0)) with lines := (alerted 1).lines } :=
  ⟨inputsAgree_live (fun h => nomatch h), inputsAgree_live (fun h => nomatch h), by decide +kernel,
    inputsAgree_live (fun h => nomatch h)⟩

/-- The premise of the alert statement for a session that an UNPLUGGED closes on a STALE line. -/
theorem test_witness_LinesAgree :
    let s : State :=
      { setContext 12 (some (session .active)) running with
        lines := (line { polled .waiting with stale := true, alertSlot := some (alertOf (anAlert 0) 5) }).lines }
    LinesAgree s ∧ s.nextAlert = some 6 ∧ ((s.line 6).alertSlot.map HeldAlert.plug0) = some .unplugged ∧
    (session .active).phase.running = true ∧ (s.report 12).lineStale = true := by
  intro s; unfold LinesAgree; decide +kernel

/-- The premises under which a late LINK is said to request a pass, with the pass it requests. -/
theorem test_witness_late_link_pass :
    InputsAgree (reading 41 (loaded (live (session .drained)))) ∧
    GrantsWithinWants (reading 41 (loaded (live (session .drained)))) ∧
    (after (.link 0 aLink) (reading 41 (loaded (live (session .drained))))).power.passRequest = true :=
  ⟨inputsAgree_live (fun h => nomatch h), by unfold GrantsWithinWants; decide +kernel, by decide +kernel⟩

/-- A session's idle minutes that a RESUME raises in ACTIVE stay on its entry to IDLE (log 44). -/
theorem test_idle_minutes_stay :
    ((enterIdle 13 (after (.resume 0 13) (reading 5 (live { auditHeld .active with hold := 9000 })))).context 13).map
      (fun c => (c.phase, c.idleMinutes)) = some (.idle, 12) := by decide +kernel

/-- A park in RUNNING with one closing session and a pass to run. -/
def kept : State := { live (session (.closing .stopped 0)) with pending := [.pass 0] }

theorem test_witness_StepsKeepInputsAgreeing : InputsAgree kept ∧ DemandsAgree kept :=
  ⟨test_witness_InputsAgree.1, by unfold DemandsAgree; decide +kernel⟩

/-- Premises of the statements about every step hold of it together. -/
theorem test_witness_StepsKeep : (∃ u, step kept = .next u) ∧ MemoryCanonical kept ∧ AreaBaseAligned kept ∧
    QueuesSound kept ∧ JournalBounded kept ∧ GrantsWithinWants kept ∧ LinesAgree kept := by
  refine ⟨⟨_, rfl⟩, ?_⟩
  unfold MemoryCanonical AreaBaseAligned QueuesSound JournalBounded GrantsWithinWants LinesAgree
  decide +kernel

theorem test_witness_StepsKeepQueuesServed : SettlementServed kept ∧ JournalServed kept ∧
    ¬JournalServed (journal .idle 0) := by
  refine ⟨fun _ _ => by decide +kernel, fun _ => rfl, fun h => absurd (h rfl) (by decide)⟩

theorem test_witness_StepsKeepMoneySound : MoneySound kept ∧ (session (.armed .onPlug)).moneySound = False := by
  refine ⟨fun o c h => ?_, ?_⟩
  · have hc : ∀ o, kept.context o = if (13 : Outlet) = o then some (session (.closing .stopped 0)) else none := by
      decide +kernel
    rw [hc o] at h
    split at h
    · cases h
      exact ⟨by decide, by decide, fun start e => nomatch e⟩
    · cases h
  · exact eq_false fun h => absurd (h.2.2 .onPlug rfl).1 (by decide)

theorem test_witness_StepsKeepModulesSound : ModulesSound kept ∧ kept.module 10 = .free := by
  refine ⟨fun m o h => ?_, by decide +kernel⟩
  have hm : ∀ m, (kept.module m).outlet? = none := by decide +kernel
  rw [hm m] at h
  cases h

theorem test_want : wanting.want 13 = 4 ∧ wanting.want 12 = 1 ∧ wanting.want 0 = 0 ∧
    ({ wanting with power := { wanting.power with partRunning := false } } : State).want 13 = 0 := by decide +kernel

theorem test_witness_CarryLosesNothing : (session .active).carry < 1000 ∧
    (session .active).chargedTotal + (([(6, 1), (7, 2)] : List (Nat × Band)).map fun d =>
      d.1 * (Table.get tariff.prices d.2).toNat).sum / 1000 ≤ max32 := by decide

end Sys2Proof.Tests
end

