-- ==== Sys2Proof/Proofs/Backdrop.lean ====
section
/-! SUPPORT. The frame, continued: what the doings of sessions, power, lines, meters and orders leave as it was beside
the window of Laws/Frame.lean. Their entries join the journal queue one by one, and only where it has room (R171,
R172). -/

namespace Sys2Proof.Machine

/-- What no session, module, line, meter or order touches: the Memory Port, the part state, and whether the entry queue
of the journal is within its 8 places. -/
structure Backdrop where
  port : Port
  partState : PartState
  journalFits : Bool

/-- The backdrop of a state. -/
def State.backdrop (s : State) : Backdrop :=
  { port := s.port, partState := s.control.partState, journalFits := decide (s.journal.queue.length ≤ 8) }

/-- The queue is within its places exactly where the backdrop says so. -/
theorem journalBounded_iff (s : State) : JournalBounded s ↔ s.backdrop.journalFits = true := by
  simp [JournalBounded, State.backdrop]

variable (s : State)

/-- A full queue takes no entry, so an entry given neither brings the queue past its places nor back within them. -/
@[simp] theorem backdrop_give (k : EntryKind) : (give k s).backdrop = s.backdrop := by
  unfold give
  split
  · have h : s.journal.queue.length + 1 ≤ 8 ↔ s.journal.queue.length ≤ 8 := by omega
    simp [State.backdrop, h]
  · rfl

@[simp] theorem backdrop_raise (n : Notice) : (raise n s).backdrop = s.backdrop := rfl
@[simp] theorem backdrop_atTime (t : Time) : (atTime t s).backdrop = s.backdrop := rfl
@[simp] theorem backdrop_setContext (o : Outlet) (c : Option Context) :
    (setContext o c s).backdrop = s.backdrop := rfl
@[simp] theorem backdrop_mapContext (o : Outlet) (f : Context → Context) :
    (mapContext o f s).backdrop = s.backdrop := rfl
@[simp] theorem backdrop_mapReport (o : Outlet) (f : OutletReport → OutletReport) :
    (mapReport o f s).backdrop = s.backdrop := rfl
@[simp] theorem backdrop_setModule (m : ModuleNo) (e : Module) : (setModule m e s).backdrop = s.backdrop := rfl
@[simp] theorem backdrop_mapLine (k : LineNo) (f : Line → Line) : (mapLine k f s).backdrop = s.backdrop := rfl
@[simp] theorem backdrop_mapRecord (o : Outlet) (f : MeterRecord → MeterRecord) :
    (mapRecord o f s).backdrop = s.backdrop := rfl
@[simp] theorem backdrop_requestPass : (requestPass s).backdrop = s.backdrop := rfl
@[simp] theorem backdrop_queueEndWord (c : CellIndex) (w : OrderOutcome) :
    (queueEndWord c w s).backdrop = s.backdrop := rfl
@[simp] theorem backdrop_setUnit (u : UnitState) : (setUnit u s).backdrop = s.backdrop := rfl
@[simp] theorem backdrop_removeEntry (c : CellIndex) : (removeEntry c s).backdrop = s.backdrop := rfl
@[simp] theorem backdrop_setBlockMark (k : LineNo) (b : Bool) : (setBlockMark k b s).backdrop = s.backdrop := rfl
@[simp] theorem backdrop_setPointer (k : LineNo) : (setPointer k s).backdrop = s.backdrop := rfl
@[simp] theorem backdrop_setTariff (i : TariffSlot) (t : Option Tariff) :
    (setTariff i t s).backdrop = s.backdrop := rfl
@[simp] theorem backdrop_endWordEnded (w : EndWord) : (endWordEnded w s).backdrop = s.backdrop := rfl
@[simp] theorem backdrop_setPhase (o : Outlet) (p : Phase) : (setPhase o p s).backdrop = s.backdrop := rfl

@[simp] theorem backdrop_forEach {α : Type} (l : List α) (f : α → State → State)
    (h : ∀ a s, (f a s).backdrop = s.backdrop) : (forEach l f s).backdrop = s.backdrop :=
  forEach_keeps s State.backdrop l f h

/-! ### The Apportioner -/

/-- What touches nothing beyond the Apportioner (Laws/Sessions.lean) keeps the backdrop. -/
theorem backdrop_of_beyond {s u : State} (h : u.beyond = s.beyond) : u.backdrop = s.backdrop :=
  congrArg (fun b : Beyond =>
    { port := b.port, partState := b.control.partState,
      journalFits := decide (b.journal.queue.length ≤ 8) : Backdrop }) h

@[simp] theorem backdrop_pass : (pass s).backdrop = s.backdrop := backdrop_of_beyond (beyond_pass s)
@[simp] theorem backdrop_immediatePass : (immediatePass s).backdrop = s.backdrop :=
  backdrop_of_beyond (beyond_immediatePass s)
@[simp] theorem backdrop_setInputs (o : Outlet) (f : WantInputs → WantInputs) :
    (setInputs o f s).backdrop = s.backdrop := backdrop_of_beyond (beyond_setInputs s o f)
@[simp] theorem backdrop_deliver (o : Outlet) (f : WantInputs → WantInputs) :
    (deliver o f s).backdrop = s.backdrop := backdrop_of_beyond (beyond_deliver s o f)
@[simp] theorem backdrop_deliverActive (o : Outlet) (a : Bool) : (deliverActive o a s).backdrop = s.backdrop :=
  backdrop_of_beyond (beyond_deliverActive s o a)
@[simp] theorem backdrop_deliverDemand (o : Outlet) (n : Nat) : (deliverDemand o n s).backdrop = s.backdrop :=
  backdrop_of_beyond (beyond_deliverDemand s o n)
@[simp] theorem backdrop_deliverBoth (k : LineNo) (f : WantInputs → WantInputs) :
    (deliverBoth k f s).backdrop = s.backdrop := backdrop_of_beyond (beyond_deliverBoth s k f)
@[simp] theorem backdrop_storeCeiling (o : Outlet) (n : Nat) : (storeCeiling o n s).backdrop = s.backdrop := by
  unfold storeCeiling; split
  · rfl
  · rw [backdrop_setInputs]; rfl
@[simp] theorem backdrop_setCeiling (o : Outlet) (n : Nat) : (setCeiling o n s).backdrop = s.backdrop := by
  unfold setCeiling; simp
@[simp] theorem backdrop_moduleOut (m : ModuleNo) (r : OutReason) : (moduleOut m r s).backdrop = s.backdrop := by
  unfold moduleOut; simp
@[simp] theorem backdrop_faultModule (m : ModuleNo) : (faultModule m s).backdrop = s.backdrop := by
  unfold faultModule; split <;> simp
@[simp] theorem backdrop_releaseModule (o : Outlet) (a b : ModuleMask) (p : Fin 10) :
    (releaseModule o a b p s).backdrop = s.backdrop := by
  unfold releaseModule; split <;> (try split) <;> (try split) <;> simp
@[simp] theorem backdrop_takeMasks (o : Outlet) (n : OutletNews) (m : ModuleMask) :
    (takeMasks o n m s).backdrop = s.backdrop := by
  unfold takeMasks; simp

/-! ### Sessions -/

@[simp] theorem backdrop_recompute (o : Outlet) : (recompute o s).backdrop = s.backdrop := by unfold recompute; simp
@[simp] theorem backdrop_recomputeAll : (recomputeAll s).backdrop = s.backdrop := by unfold recomputeAll; simp
@[simp] theorem backdrop_endWait : (endWait s).backdrop = s.backdrop := by unfold endWait; split <;> simp
@[simp] theorem backdrop_endProgressWait (o : Outlet) : (endProgressWait o s).backdrop = s.backdrop := by
  unfold endProgressWait; split <;> (try split) <;> simp
@[simp] theorem backdrop_vacate (o : Outlet) : (vacate o s).backdrop = s.backdrop := by unfold vacate; simp
@[simp] theorem backdrop_endLinkWait (c : CellIndex) : (endLinkWait c s).backdrop = s.backdrop := by
  unfold endLinkWait; split <;> simp
@[simp] theorem backdrop_releaseUnused (l : Option CellIndex) : (releaseUnused l s).backdrop = s.backdrop := by
  unfold releaseUnused; split <;> simp
@[simp] theorem backdrop_leaveFor (o : Outlet) (c : Context) (p : Phase) :
    (leaveFor o c p s).backdrop = s.backdrop := by
  unfold leaveFor; simp only; split <;> simp
@[simp] theorem backdrop_enterClosing (o : Outlet) (r : EndReason) : (enterClosing o r s).backdrop = s.backdrop := by
  unfold enterClosing; split <;> (try split) <;> simp
@[simp] theorem backdrop_enterSettling (o : Outlet) (r : EndReason) (t : Word) (u : Bool) :
    (enterSettling o r t u s).backdrop = s.backdrop := rfl
@[simp] theorem backdrop_checkSettle (o : Outlet) : (checkSettle o s).backdrop = s.backdrop := by
  rw [checkSettle_eq]; rfl
@[simp] theorem backdrop_closeSession (o : Outlet) (r : EndReason) : (closeSession o r s).backdrop = s.backdrop := by
  unfold closeSession; simp
@[simp] theorem backdrop_enterDrained (o : Outlet) : (enterDrained o s).backdrop = s.backdrop := by
  unfold enterDrained; split <;> simp
@[simp] theorem backdrop_handover (o : Outlet) (e : StandbyEntry) : (handover o e s).backdrop = s.backdrop := by
  unfold handover; split
  · rfl
  · simp only; split <;> simp
@[simp] theorem backdrop_takeOn (o : Outlet) : (takeOn o s).backdrop = s.backdrop := by
  unfold takeOn; repeat' split
  all_goals simp
@[simp] theorem backdrop_examineDrained (o : Outlet) : (examineDrained o s).backdrop = s.backdrop := by
  unfold examineDrained; repeat' split
  all_goals simp
@[simp] theorem backdrop_enterIdle (o : Outlet) : (enterIdle o s).backdrop = s.backdrop := by
  unfold enterIdle; repeat' split
  all_goals simp
@[simp] theorem backdrop_beginSession (o : Outlet) : (beginSession o s).backdrop = s.backdrop := by
  unfold beginSession; simp; rfl
@[simp] theorem backdrop_evaluateStart (o : Outlet) : (evaluateStart o s).backdrop = s.backdrop := by
  simp only [evaluateStart]; repeat' split
  all_goals simp
@[simp] theorem backdrop_endStart (b : State) (o : Outlet) : (endStart b o s).backdrop = s.backdrop := by
  unfold endStart; split <;> simp
@[simp] theorem backdrop_startInEvent (o : Outlet) : (startInEvent o s).backdrop = s.backdrop := by
  unfold startInEvent; simp
@[simp] theorem backdrop_returnToActive (o : Outlet) : (returnToActive o s).backdrop = s.backdrop := by
  unfold returnToActive; simp
@[simp] theorem backdrop_enterHeld (o : Outlet) (r : HeldReason) : (enterHeld o r s).backdrop = s.backdrop := by
  unfold enterHeld; repeat' split
  all_goals simp
@[simp] theorem backdrop_recover (o : Outlet) (c : Context) (r : ResumeState) (h : HeldReason) (d : Bool) :
    (recover o c r h d s).backdrop = s.backdrop := by
  unfold recover; cases r <;> simp only
  · simp
  · split <;> simp
  · simp
@[simp] theorem backdrop_endHold (o : Outlet) (r : HeldReason) : (endHold o r s).backdrop = s.backdrop := by
  unfold endHold; repeat' split
  all_goals simp
@[simp] theorem backdrop_takeAuditHold (o : Outlet) : (takeAuditHold o s).backdrop = s.backdrop := by
  unfold takeAuditHold; split <;> simp
@[simp] theorem backdrop_auditIfFlagged (o : Outlet) : (auditIfFlagged o s).backdrop = s.backdrop := by
  unfold auditIfFlagged; split <;> simp
@[simp] theorem backdrop_bill (o : Outlet) (d : Nat) (b : Band) : (bill o d b s).backdrop = s.backdrop := by
  unfold bill; repeat' split
  all_goals simp
@[simp] theorem backdrop_reportPlug (o : Outlet) (p : Plug) : (reportPlug o p s).backdrop = s.backdrop := by
  unfold reportPlug; simp only; split <;> simp
@[simp] theorem backdrop_deliverPlug (o : Outlet) (p : Plug) : (deliverPlug o p s).backdrop = s.backdrop := by
  unfold deliverPlug; cases p <;> simp
@[simp] theorem backdrop_actOnCharge (o : Outlet) (c : Bool) (d : Nat) :
    (actOnCharge o c d s).backdrop = s.backdrop := by
  unfold actOnCharge; repeat' split
  all_goals simp
@[simp] theorem backdrop_deliverCharge (o : Outlet) (c : Bool) (d : Nat) :
    (deliverCharge o c d s).backdrop = s.backdrop := by
  unfold deliverCharge; simp

/-! ### Lines -/

@[simp] theorem backdrop_sendPoll (k : LineNo) : (sendPoll k s).backdrop = s.backdrop := rfl
@[simp] theorem backdrop_pollNow (k : LineNo) : (pollNow k s).backdrop = s.backdrop := by
  unfold pollNow; split <;> simp
@[simp] theorem backdrop_pollIfDue (k : LineNo) : (pollIfDue k s).backdrop = s.backdrop := by
  rw [pollIfDue_eq]; rfl
@[simp] theorem backdrop_enterWaiting (k : LineNo) : (enterWaiting k s).backdrop = s.backdrop := by
  unfold enterWaiting; simp
@[simp] theorem backdrop_emptyReplySlot (k : LineNo) : (emptyReplySlot k s).backdrop = s.backdrop := by
  unfold emptyReplySlot; simp only; repeat' split
  all_goals simp
@[simp] theorem backdrop_bandEdge (k : LineNo) : (bandEdge k s).backdrop = s.backdrop := by
  rw [bandEdge_eq]; rfl
@[simp] theorem backdrop_markReports (k : LineNo) (b : Bool) : (markReports k b s).backdrop = s.backdrop := by
  unfold markReports; exact backdrop_forEach _ _ _ (fun _ _ => rfl)
@[simp] theorem backdrop_goStale (k : LineNo) : (goStale k s).backdrop = s.backdrop := by unfold goStale; simp
@[simp] theorem backdrop_goFresh (k : LineNo) (n : Nat) :
    (goFresh k n s).backdrop = s.backdrop := by unfold goFresh; simp
@[simp] theorem backdrop_missPoll (k : LineNo) : (missPoll k s).backdrop = s.backdrop := by
  unfold missPoll; simp only; split <;> simp
@[simp] theorem backdrop_countFault (k : LineNo) (f : LineCounters → LineCounters) :
    (countFault k f s).backdrop = s.backdrop := rfl
@[simp] theorem backdrop_failExchange (k : LineNo) :
    (failExchange k s).backdrop = s.backdrop := by unfold failExchange; simp
@[simp] theorem backdrop_frameFault (k : LineNo) (f : LineCounters → LineCounters) :
    (frameFault k f s).backdrop = s.backdrop := by
  unfold frameFault; simp only; split <;> simp
@[simp] theorem backdrop_acceptReply (k : LineNo) (f : Vector Byte 29) (p : PollRecord) :
    (acceptReply k f p s).backdrop = s.backdrop := by
  unfold acceptReply; simp only [backdrop_enterWaiting]; split <;> simp
@[simp] theorem backdrop_goodReply (k : LineNo) (f : Vector Byte 29) : (goodReply k f s).backdrop = s.backdrop := by
  unfold goodReply; simp only; repeat' split
  all_goals simp
@[simp] theorem backdrop_goodAlert (k : LineNo) (f : Vector Byte 6) : (goodAlert k f s).backdrop = s.backdrop := by
  unfold goodAlert; simp only [backdrop_pollIfDue]; repeat' split
  all_goals simp
@[simp] theorem backdrop_endFrame (k : LineNo) : (endFrame k s).backdrop = s.backdrop := rfl
@[simp] theorem backdrop_reline (k : LineNo) : (reline k s).backdrop = s.backdrop := rfl

/-! ### Metering -/

@[simp] theorem backdrop_takeEstop (k : LineNo) (a : Bool) : (takeEstop k a s).backdrop = s.backdrop := by
  unfold takeEstop; split <;> simp
@[simp] theorem backdrop_clearEstop (k : LineNo) (a : Bool) : (clearEstop k a s).backdrop = s.backdrop := by
  unfold clearEstop; split <;> simp
@[simp] theorem backdrop_validate (o : Outlet) (w : Word) (t : Time) : (validate o w t s).backdrop = s.backdrop := by
  unfold validate; simp
@[simp] theorem backdrop_claimNone (o : Outlet) (d : Nat) (b : Band) : (claimNone o d b s).backdrop = s.backdrop := by
  unfold claimNone; simp only; split <;> simp
@[simp] theorem backdrop_acceptDelta (o : Outlet) (d : Nat) (b : Band) (w : Word) (t : Time) :
    (acceptDelta o d b w t s).backdrop = s.backdrop := by
  unfold acceptDelta; simp only; split <;> simp
@[simp] theorem backdrop_rebase (o : Outlet) (w : Word) (t : Time) : (rebase o w t s).backdrop = s.backdrop := by
  unfold rebase; simp only; split <;> simp
@[simp] theorem backdrop_rejectDelta (o : Outlet) (w : Word) (t : Time) :
    (rejectDelta o w t s).backdrop = s.backdrop := by
  unfold rejectDelta; simp only; repeat' split
  all_goals simp
@[simp] theorem backdrop_readMeter (o : Outlet) (w : Word) (b : Band) (t : Time) :
    (readMeter o w b t s).backdrop = s.backdrop := by
  unfold readMeter; simp only; repeat' split
  all_goals simp
@[simp] theorem backdrop_settleOthers (l : List Outlet) : (settleOthers l s).backdrop = s.backdrop := by
  unfold settleOthers; simp
@[simp] theorem backdrop_closeStep (o : Outlet) (w : Bool) (m : ModuleMask) :
    (closeStep o w m s).backdrop = s.backdrop := by
  unfold closeStep; simp only [backdrop_checkSettle]; split <;> simp
@[simp] theorem backdrop_serveOutlet (o : Outlet) (l : List Outlet) (w : Bool) (n : OutletNews) (m : ModuleMask)
    (b : Band) (t : Time) : (serveOutlet o l w n m b t s).backdrop = s.backdrop := by
  unfold serveOutlet; simp
@[simp] theorem backdrop_serveReply (k : LineNo) (r : HeldReply) : (serveReply k r s).backdrop = s.backdrop := by
  unfold serveReply; simp
@[simp] theorem backdrop_serveAlert (k : LineNo) (a : HeldAlert) : (serveAlert k a s).backdrop = s.backdrop := by
  unfold serveAlert; simp
@[simp] theorem backdrop_serveNextReply : (serveNextReply s).backdrop = s.backdrop := by
  unfold serveNextReply; repeat' split
  all_goals simp
@[simp] theorem backdrop_serveNextAlert : (serveNextAlert s).backdrop = s.backdrop := by
  unfold serveNextAlert; repeat' split
  all_goals simp

/-! ### Orders -/

@[simp] theorem backdrop_refuse (r : OrderOutcome) : (refuse r s).state.backdrop = s.backdrop := rfl

theorem backdrop_takeOpen (cell : CellIndex) (o : OpenOrder) (out : Outlet) (i : TariffSlot) :
    (takeOpen cell o out i s).state.backdrop = s.backdrop := by
  unfold takeOpen; repeat' split
  all_goals simp
theorem backdrop_takeLink (cell : CellIndex) (o : LinkOrder) (out : Outlet) (i : TariffSlot) :
    (takeLink cell o out i s).state.backdrop = s.backdrop := by
  unfold takeLink; repeat' split
  all_goals simp
  rfl
theorem backdrop_takeStop (o : Outlet) : (takeStop o s).state.backdrop = s.backdrop := by
  unfold takeStop; repeat' split
  all_goals simp
@[simp] theorem backdrop_amendPriority (o : Outlet) (p : Fin 4) : (amendPriority o p s).backdrop = s.backdrop := by
  simp only [amendPriority]; split <;> rfl
@[simp] theorem backdrop_amendHold (o : Outlet) (n : Nat) : (amendHold o n s).backdrop = s.backdrop := by
  simp only [amendHold]; split <;> simp
theorem backdrop_takeAmend (a : AmendOrder) (o : Outlet) : (takeAmend a o s).state.backdrop = s.backdrop := by
  unfold takeAmend; repeat' split
  all_goals simp
theorem backdrop_takeSync (o : Outlet) : (takeSync o s).state.backdrop = s.backdrop := by
  unfold takeSync; split <;> simp
theorem backdrop_takeAudit (o : Outlet) (a : Byte) : (takeAudit o a s).state.backdrop = s.backdrop := by
  simp only [takeAudit]; split <;> rfl
@[simp] theorem backdrop_resumeSession (o : Outlet) : (resumeSession o s).backdrop = s.backdrop := by
  unfold resumeSession; simp
theorem backdrop_takeResume (o : Outlet) : (takeResume o s).state.backdrop = s.backdrop := by
  unfold takeResume; repeat' split
  all_goals simp
theorem backdrop_takeTariff (i : TariffSlot) (a : Byte) : (takeTariff i a s).state.backdrop = s.backdrop := by
  unfold takeTariff; split <;> rfl
theorem backdrop_takeBand (w : Sweep) (b : Byte) : (takeBand w b s).state.backdrop = s.backdrop := by
  unfold takeBand; split
  · rfl
  · simp only [state_accept]
    rw [backdrop_forEach _ _ _ (fun o s => backdrop_endStart s _ o),
      backdrop_forEach _ _ _ (fun k s => backdrop_bandEdge s k), backdrop_forEach _ _ _ (fun o s => by simp),
      backdrop_recomputeAll]
    rfl
theorem backdrop_takeSite (n : Nat) : (takeSite n s).state.backdrop = s.backdrop := by
  unfold takeSite; split
  · rfl
  · simp only [state_accept, backdrop_pass]; split
    · exact backdrop_give _ _
    · rfl
theorem backdrop_takeOutlet (o : Outlet) (n : Nat) : (takeOutlet o n s).state.backdrop = s.backdrop := by
  unfold takeOutlet; split
  · rfl
  · simp only [state_accept, backdrop_immediatePass]; rfl
theorem backdrop_retireModule (m : ModuleNo) : (retireModule m s).backdrop = s.backdrop := by
  unfold retireModule; split <;> simp
theorem backdrop_takeModule (m : ModuleNo) (a : Byte) : (takeModule m a s).state.backdrop = s.backdrop := by
  unfold takeModule; split
  · unfold returnModule; split <;> simp
  · exact backdrop_retireModule s m
  · rfl
theorem backdrop_takePark (w : Sweep) (p : ParkOrder) : (takePark w p s).state.backdrop = s.backdrop := by
  unfold takePark; split
  · rfl
  · simp only [state_accept]; split
    · rfl
    · rw [backdrop_forEach _ _ _ (fun o s => backdrop_takeOn s o), backdrop_recomputeAll]; rfl

/-- An outlet's answer keeps the backdrop, and so does the refusal of a byte that names none (R15). -/
theorem backdrop_withOutlet (b : Byte) (f : Outlet → Taken) (h : ∀ o, (f o).state.backdrop = s.backdrop) :
    (withOutlet b s f).state.backdrop = s.backdrop := by
  unfold withOutlet; split
  · exact h _
  · rfl

/-- The same for a tariff slot. -/
theorem backdrop_withSlot (b : Byte) (f : TariffSlot → Taken) (h : ∀ i, (f i).state.backdrop = s.backdrop) :
    (withSlot b s f).state.backdrop = s.backdrop := by
  unfold withSlot; split
  · exact h _
  · rfl

theorem backdrop_handOn (cell : CellIndex) (w : Sweep) (o : Order) :
    (handOn cell w o s).state.backdrop = s.backdrop := by
  cases o with
  | openSession o =>
    exact backdrop_withOutlet _ _ _ fun _ => backdrop_withSlot _ _ _ fun _ => backdrop_takeOpen ..
  | link o => exact backdrop_withOutlet _ _ _ fun _ => backdrop_withSlot _ _ _ fun _ => backdrop_takeLink ..
  | stop b => exact backdrop_withOutlet _ _ _ fun _ => backdrop_takeStop ..
  | amend a => exact backdrop_withOutlet _ _ _ fun _ => backdrop_takeAmend ..
  | sync b => exact backdrop_withOutlet _ _ _ fun _ => backdrop_takeSync ..
  | audit b a => exact backdrop_withOutlet _ _ _ fun _ => backdrop_takeAudit ..
  | resume b => exact backdrop_withOutlet _ _ _ fun _ => backdrop_takeResume ..
  | tariff b a => exact backdrop_withSlot _ _ _ fun _ => backdrop_takeTariff ..
  | band b => exact backdrop_takeBand ..
  | site l => exact backdrop_takeSite ..
  | outlet b m => exact backdrop_withOutlet _ _ _ fun _ => backdrop_takeOutlet ..
  | module b a =>
    simp only [handOn]; split
    · exact backdrop_takeModule ..
    · rfl
  | park p => exact backdrop_takePark ..
  | clock v => rfl
  | survey => rfl
  | line b => simp only [handOn]; split <;> rfl

theorem backdrop_takeOrder (cell : CellIndex) (w : Sweep) (p : OrderPart) :
    (takeOrder cell w p s).state.backdrop = s.backdrop := by
  unfold takeOrder; split
  · exact backdrop_handOn ..
  · rfl

end Sys2Proof.Machine
end

