-- ==== Sys2Proof/Proofs/Event.lean ====
section
/-! SUPPORT. What a command can do, said once for every step property of this family: nothing; a reset; a write of the
register window; or a doing with the end of an event after it (R3, R168, R185; log 1, log 9). -/

namespace Sys2Proof.Machine

/-- What the doings of an event leave to park memory, AREA_BASE, the queues of the Order Unit and the journal queue:
memory keeps its form, the base stands, no index joins a queue (only the host posts and withdraws), and the entry queue
stays within its places. -/
structure Doing (s r : State) : Prop where
  memory : MemoryCanonical s → MemoryCanonical r
  areaBase : r.control.areaBase = s.control.areaBase
  postQueue : r.orders.postQueue.Sublist s.orders.postQueue
  withdrawList : r.orders.withdrawList.Sublist s.orders.withdrawList
  journal : JournalBounded s → JournalBounded r

namespace Doing

theorem refl (s : State) : Doing s s :=
  { memory := id, areaBase := rfl, postQueue := .refl _, withdrawList := .refl _, journal := id }

theorem trans {s r u : State} (h : Doing s r) (h' : Doing r u) : Doing s u :=
  { memory := h'.memory ∘ h.memory, areaBase := h'.areaBase.trans h.areaBase,
    postQueue := h'.postQueue.trans h.postQueue, withdrawList := h'.withdrawList.trans h.withdrawList,
    journal := h'.journal ∘ h.journal }

/-- What moves nothing of the window but the Journal Writer's state is a doing, if the entry queue stays within its
places. -/
theorem of_frame {s r : State} (hw : { r.window with writer := s.journal.writer } = s.window)
    (hj : JournalBounded s → JournalBounded r) : Doing s r :=
  { memory := fun h => (congrArg (fun w : Window => w.mem.wf) hw).trans h
    areaBase := congrArg Window.areaBase hw
    postQueue := by rw [show r.orders.postQueue = s.orders.postQueue from congrArg Window.postQueue hw]
    withdrawList := by rw [show r.orders.withdrawList = s.orders.withdrawList from congrArg Window.withdrawList hw]
    journal := hj }

/-- What keeps the window and the backdrop is a doing. -/
theorem of_backdrop {s r : State} (hw : r.window = s.window) (hb : r.backdrop = s.backdrop) : Doing s r :=
  of_frame (by rw [hw]; rfl) fun h => by rw [journalBounded_iff] at h ⊢; rw [hb, h]

/-- What keeps the window and the journal is a doing. -/
theorem of_journal {s r : State} (hw : r.window = s.window) (hj : r.journal = s.journal) : Doing s r :=
  of_frame (by rw [hw]; rfl) fun h => by rw [JournalBounded, hj]; exact h

/-- What changes the journal alone is a doing, if the entry queue grows no longer. -/
theorem of_setJournal (s : State) (f : Journal → Journal)
    (h : (f s.journal).queue.length ≤ s.journal.queue.length) : Doing s (setJournal f s) :=
  of_frame rfl fun hs => h.trans hs

/-- Bytes of a transfer reach park memory, and the port is free (R167, R170). -/
theorem freed (s : State) (t : Transfer) (bytes : List Byte) : Doing s (freePort (writeBytes t bytes s)) :=
  { memory := memoryCanonical_writeBytes t bytes s, areaBase := rfl, postQueue := .refl _, withdrawList := .refl _,
    journal := id }

theorem completed (s : State) (t : Transfer) : Doing s (completeTransfer t s) := freed s t t.data

/-- An entry is given only where the queue has room (R172). -/
theorem given (k : EntryKind) (s : State) : Doing s (give k s) := of_backdrop (window_give s k) (backdrop_give s k)

end Doing

variable (s : State)

/-! ### The end of an event -/

theorem queue_serveRequests : (serveRequests s).journal.queue = s.journal.queue := by
  have h (u : State) : (journalRequests u).journal.queue = u.journal.queue := by
    unfold journalRequests; split <;> rfl
  simp [serveRequests, h]

theorem doing_serveRequests : Doing s (serveRequests s) :=
  .of_frame (window_serveRequests s) fun h => by rw [JournalBounded, queue_serveRequests]; exact h

theorem doing_completeHalt : Doing s (completeHalt s) := by
  unfold completeHalt
  split
  · have h : Doing s (raise .halted (setPartState .halted s)) := .of_journal rfl rfl
    exact (h.trans (.given _ _)).trans (doing_serveRequests _)
  · exact .refl s

/-- Outside HALTING no halt is judged. -/
theorem endEvent_of_not_halting (h : s.control.partState ≠ .halting) : endEvent s = serveRequests s := by
  simp [endEvent, completeHalt, h]

theorem doing_endEvent : Doing s (endEvent s) := (doing_serveRequests s).trans (doing_completeHalt _)

/-! ### What a command can do -/

/-- What a command that goes on can do. A reset leaves State.reset but for the clock, the waiting commands, park memory
and what a soft reset keeps (R185; log 32); a write of the register window moves the Control Block's registers, the
queues and the last-refusal record of the Order Unit and nothing else (R5, R6, R9, R10, R20, R21). -/
inductive Event (s : State) : State → Prop
  | idle : Event s s
  | reset (p : List Instr) (t : Time) (m : Memory) (c : Control) (l : Vector Line 16)
      (hm : MemoryCanonical s → m.wf = true) (ha : c.areaBase = 0) :
      Event s { State.reset with pending := p, now := t, mem := m, control := c, lines := l }
  | write (c : Control) (p w : List CellIndex) (r : LastRefusal)
      (ha : AreaBaseAligned s → c.areaBase &&& 0x7FFF = 0)
      (hq : QueuesSound s → p.length + w.length ≤ 32 ∧ (p ++ w).Nodup) :
      Event s { s with
        control := c, orders := { s.orders with postQueue := p, withdrawList := w, lastRefusal := r } }
  | doing {r : State} (h : Doing s r) : Event s (endEvent r)

/-- Every state that an outcome goes on to is one of those. -/
def Leads (s : State) (o : Outcome) : Prop := ∀ u, o = .next u → Event s u

theorem leads_next {u : State} (h : Event s u) : Leads s (.next u) := by
  rintro _ ⟨⟩; exact h

theorem leads_idle : Leads s (.next s) := leads_next s .idle

theorem leads_finish {r : State} (h : Doing s r) : Leads s (finish r) := leads_next s (.doing h)

theorem leads_refused (r : Refusal) : Leads s (.refused r) := by rintro _ ⟨⟩

end Sys2Proof.Machine
end

