-- ==== Sys2Proof/Proofs/Commands.lean ====
section
/-! SUPPORT. Each command against what a command can do (Proofs/Event.lean), block by block. -/

namespace Sys2Proof.Machine

variable (s : State)

/-! ### Resets and the register window -/

theorem memoryCanonical_cutTransfer (words : Nat) (h : MemoryCanonical s) : MemoryCanonical (cutTransfer words s) := by
  unfold cutTransfer
  split
  · split
    · exact memoryCanonical_writeBytes _ _ _ h
    · exact h
  · exact h

theorem leads_powerOnReset (t : Time) (words : Nat) : Leads s (execPowerOnReset t words s) :=
  leads_next s <| .reset _ _ _ _ _ (memoryCanonical_cutTransfer (atTime t s) words) rfl

theorem leads_softReset (t : Time) (words : Nat) : Leads s (execSoftReset t words s) :=
  leads_next s <| .reset _ _ _ _ _ (memoryCanonical_cutTransfer (atTime t s) words) rfl

/-- A write that sets registers of the Control Block alone. -/
theorem leads_controlWrite (c : Control) (h : AreaBaseAligned s → c.areaBase &&& 0x7FFF = 0) :
    Leads s (.next { s with control := c }) :=
  leads_next s <| .write c _ _ _ h id

theorem leads_refusePost (r : RefusalReason) (b : Byte) : Leads s (.next (refusePost r b s)) :=
  leads_next s <| .write _ _ _ _ id id

/-- A write that moves the queues of the Order Unit and nothing else. -/
theorem leads_setQueues (p w : List CellIndex) (h : QueuesSound s → p.length + w.length ≤ 32 ∧ (p ++ w).Nodup) :
    Leads s (.next (setQueues p w s)) :=
  leads_next s <| .write _ p w _ id h

/-- A POST write: an index joins the Post Queue only where it is in neither queue and there is room (R9, R13). -/
theorem leads_post (b : Byte) : Leads s (execPost b s) := by
  unfold execPost postIndex
  split
  · exact leads_refusePost s _ _
  · split
    · exact leads_refusePost s _ _
    · next c _ =>
      split
      · exact leads_refusePost s _ _
      · next hin =>
        split
        · exact leads_refusePost s _ _
        · next hroom =>
          refine leads_setQueues _ _ _ fun ⟨_, hnodup⟩ => ⟨by simp; omega, ?_⟩
          have hnew : c ∉ s.orders.postQueue ++ s.orders.withdrawList := by simpa using hin
          have hp := (List.perm_middle (a := c) (l₁ := s.orders.postQueue) (l₂ := s.orders.withdrawList)).nodup_iff
          simpa using hp.2 (List.nodup_cons.2 ⟨hnew, hnodup⟩)

/-- The withdrawal of a posted index moves it from one queue to the other. -/
theorem perm_withdrawn (p w : List CellIndex) (c : CellIndex) (hp : p.Nodup) (hc : c ∈ p) :
    (p.filter (· ≠ c) ++ (w ++ [c])).Perm (p ++ w) := by
  have he : p.filter (· ≠ c) = p.erase c := by
    rw [hp.erase_eq_filter]; exact List.filter_congr fun x _ => by simp [bne, BEq.beq]
  calc (p.filter (· ≠ c) ++ (w ++ [c])).Perm (c :: p.erase c ++ w) := by
        rw [he, ← List.append_assoc]
        exact (List.perm_append_comm (l₂ := [c]))
    _ |>.Perm (p ++ w) := (List.perm_cons_erase hc).symm.append_right w

theorem leads_withdraw (b : Byte) : Leads s (execWithdraw b s) := by
  unfold execWithdraw withdrawIndex
  split
  · exact leads_refusePost s _ _
  · split
    · exact leads_refusePost s _ _
    · next c _ =>
      split
      · next hin =>
        refine leads_setQueues _ _ _ fun ⟨hlen, hnodup⟩ => ?_
        have hp := perm_withdrawn _ s.orders.withdrawList c (List.nodup_append.1 hnodup).1 (by simpa using hin)
        exact ⟨by simpa using hp.length_eq.le.trans (by simpa using hlen), hp.nodup_iff.2 hnodup⟩
      · exact leads_refusePost s _ _

/-- The mask of R5 clears the low 15 bits. -/
theorem aligned_areaBase (v : Word) : v &&& 0xFFFF8000 &&& 0x7FFF = 0 := by
  rw [BitVec.and_assoc]; simp

theorem leads_areaBaseWrite (v : Word) : Leads s (execAreaBaseWrite v s) := by
  unfold execAreaBaseWrite
  split
  · exact leads_controlWrite s _ fun _ => aligned_areaBase v
  · exact leads_controlWrite s _ fun _ => aligned_areaBase v
  · exact leads_idle s

theorem leads_registerWriteIgnored (w : IgnoredWrite) : Leads s (execRegisterWriteIgnored w s) := by
  unfold execRegisterWriteIgnored
  split
  · exact leads_idle s
  · exact leads_refused s _

/-! ### The part state and the clocks -/

theorem doing_atTime (t : Time) : Doing s (atTime t s) := .of_backdrop rfl rfl

theorem doing_runWrite : Doing s (runWrite s) := by
  unfold runWrite
  have hrun : Doing s (enterRunning s) := .of_journal rfl rfl
  split
  · have hl : Doing (enterRunning s) (startLines (enterRunning s)) :=
      .of_backdrop (window_forEach _ _ _ fun _ _ => rfl) (backdrop_forEach _ _ _ fun _ _ => rfl)
    refine (hrun.trans hl).trans
      { memory := id, areaBase := rfl, postQueue := .refl _, withdrawList := .refl _, journal := id }
  · exact .refl s
  · exact hrun
  · exact hrun

theorem doing_haltWrite : Doing s (haltWrite s) := by
  unfold haltWrite
  split
  · have h0 : Doing s (setPartRunning false (setPartState .halting s)) := .of_journal rfl rfl
    exact (h0.trans (.of_backdrop (by simp) (by simp))).trans
      (.of_backdrop (window_forEach _ _ _ fun _ _ => rfl) (backdrop_forEach _ _ _ fun _ _ => rfl))
  · exact .refl s


/-- The completion of a halt is a doing too: HALTED, with its notice and its entry (R183). -/
theorem leads_haltComplete : Leads s (execHaltComplete s) := by
  unfold execHaltComplete completeHalt
  split
  · rw [← endEvent_of_not_halting _ (by simp [raise])]
    have h : Doing s (raise .halted (setPartState .halted s)) := .of_journal rfl rfl
    exact leads_next s (.doing (h.trans (.given _ _)))
  · exact leads_idle s

theorem doing_checkpoint : Doing s (checkpoint s) := by
  have hmark (n : Nat) : Doing s { s with sessions := { s.sessions with checkpointCount := n } } := .of_backdrop rfl rfl
  unfold checkpoint
  dsimp only
  split
  · exact .refl s
  · split
    · exact (hmark _).trans
        (.of_backdrop (window_forEach _ _ _ fun _ _ => rfl) (backdrop_forEach _ _ _ fun _ _ => rfl))
    · exact hmark _

theorem frame_minuteOf (o : Outlet) : (minuteOf o s).window = s.window ∧ (minuteOf o s).backdrop = s.backdrop := by
  unfold minuteOf retryMarks idleMinuteEvent drainedMinuteEvent heldMinuteEvent closingMinuteEvent
  dsimp only
  repeat' split
  all_goals simp

theorem doing_minuteEffects (last : Bool) : Doing s (minuteEffects last s) := by
  have hall (u : State) : Doing u (forEach Config.outlets minuteOf u) :=
    .of_backdrop (window_forEach _ _ _ fun o u => (frame_minuteOf u o).1)
      (backdrop_forEach _ _ _ fun o u => (frame_minuteOf u o).2)
  unfold minuteEffects
  split
  · exact (hall s).trans (doing_checkpoint _)
  · exact (doing_checkpoint s).trans (hall _)

theorem leads_minuteEvent (last : Bool) : Leads s (execMinuteEvent last s) := by
  unfold execMinuteEvent
  split
  · next d _ =>
    have h : Doing s (restartMinute d (atTime d s)) :=
      { memory := id, areaBase := rfl, postQueue := .refl _, withdrawList := .refl _, journal := id }
    exact leads_finish s (h.trans (doing_minuteEffects _ _))
  · exact leads_idle s

theorem leads_parkSecondTick : Leads s (execParkSecondTick s) :=
  leads_finish s
    { memory := id, areaBase := rfl, postQueue := .refl _, withdrawList := .refl _, journal := id }

/-! ### The Apportioner -/

theorem leads_pass (t : Time) : Leads s (execPass t s) :=
  leads_finish s <| .of_backdrop (by split <;> simp) (by split <;> simp)

theorem leads_releaseDeadline : Leads s (execReleaseDeadline s) := by
  unfold execReleaseDeadline
  split
  · exact leads_finish s <| .of_backdrop (by simp [expireModules]) (by simp [expireModules])
  · exact leads_idle s

theorem leads_startGuardExpiry : Leads s (execStartGuardExpiry s) := by
  unfold execStartGuardExpiry
  split
  · exact leads_finish s (.of_backdrop rfl rfl)
  · exact leads_idle s

/-! ### Lines and meters -/

theorem leads_pollDue (k : LineNo) : Leads s (execPollDue k s) :=
  leads_finish s <| .of_backdrop (by split <;> simp) (by split <;> simp)

theorem leads_pollSent (k : LineNo) : Leads s (execPollSent k s) := by
  refine leads_finish s ?_
  split
  · split
    · exact .of_backdrop (by simp) (by simp)
    · exact .of_backdrop (by simp) (by simp)
  · exact .refl s

theorem leads_replyWindowEnd (k : LineNo) : Leads s (execReplyWindowEnd k s) :=
  leads_finish s <| .of_backdrop (by split <;> simp) (by split <;> simp)

theorem leads_frameStart (t : Time) (k : LineNo) (b : Byte) : Leads s (execFrameStart t k b s) := by
  refine leads_finish s ?_
  split
  · split <;> exact .of_backdrop rfl rfl
  · exact doing_atTime s t

theorem leads_replyFrame (t : Time) (k : LineNo) (f : Vector Byte 29) : Leads s (execReplyFrame t k f s) := by
  refine leads_finish s ?_
  split
  · dsimp only
    split
    · exact .of_backdrop (by simp) (by simp)
    · exact .of_backdrop (by simp) (by simp)
  · exact doing_atTime s t

theorem leads_alertFrame (t : Time) (k : LineNo) (f : Vector Byte 6) : Leads s (execAlertFrame t k f s) := by
  refine leads_finish s ?_
  split
  · dsimp only
    split
    · exact .of_backdrop (by simp) (by simp)
    · exact .of_backdrop (by simp) (by simp)
  · exact doing_atTime s t

theorem leads_frameBroken (t : Time) (k : LineNo) : Leads s (execFrameBroken t k s) :=
  leads_finish s <| .of_backdrop (by split <;> simp) (by split <;> simp)

theorem leads_replyService (t : Time) : Leads s (execReplyService t s) :=
  leads_finish s <| .of_backdrop (by simp) (by simp)

theorem leads_alertService (t : Time) : Leads s (execAlertService t s) :=
  leads_finish s <| .of_backdrop (by simp) (by simp)

/-! ### Orders -/

theorem doing_takeOrder (cell : CellIndex) (w : Sweep) (p : OrderPart) : Doing s (takeOrder cell w p s).state :=
  .of_backdrop (by unfold takeOrder; split; exacts [window_handOn s cell w _, rfl]) (backdrop_takeOrder s cell w p)

theorem doing_readCell (cell : CellIndex) (w : Sweep) (p : OrderPart) : Doing s (readCell cell w p s) := by
  unfold readCell
  split
  · exact .of_journal rfl rfl
  · exact (doing_takeOrder s cell w p).trans (.of_journal rfl rfl)

theorem leads_receiveOrder (t : Time) (w : Sweep) (p : OrderPart) : Leads s (receiveOrder t w p s) := by
  unfold receiveOrder
  split
  · have h : Doing s (freePort (atTime t s)) := .of_journal rfl rfl
    exact leads_finish s (h.trans (doing_readCell _ _ _ _))
  · exact leads_idle s

theorem leads_orderTake : Leads s (execOrderTake s) := by
  unfold execOrderTake
  split
  · next c rest _ _ hw hq =>
    exact leads_finish s
      { memory := id, areaBase := rfl, postQueue := by rw [hq]; exact List.sublist_cons_self c rest,
        withdrawList := .refl _, journal := id }
  · exact leads_idle s

/-! ### Transfers -/

theorem leads_withdrawStart : Leads s (execWithdrawStart s) := by
  unfold execWithdrawStart
  split
  · split
    · exact leads_idle s
    · exact leads_finish s (.of_journal rfl rfl)
  · exact leads_idle s

theorem doing_takenWritten : Doing s (takenWritten s) := by
  unfold takenWritten
  split
  · dsimp only
    split <;> exact .of_journal rfl rfl
  · exact .refl s

theorem doing_withdrawEnded (c : CellIndex) : Doing s (withdrawEnded c s) :=
  { memory := id, areaBase := rfl, postQueue := .refl _, withdrawList := List.filter_sublist, journal := id }

theorem doing_endWaitWith (r : OrderOutcome) : Doing s (endWaitWith r s) := by
  unfold endWaitWith
  split
  · exact .of_journal rfl rfl
  · exact .refl s

theorem doing_takeRecord (i : TariffSlot) (record : Vector Byte 32) : Doing s (takeRecord i record s) := by
  unfold takeRecord
  split
  · next t _ =>
    have h : Doing s (setTariff i (some t) s) := .of_journal rfl rfl
    exact h.trans (doing_endWaitWith _ _)
  · exact doing_endWaitWith s _

theorem frame_endCopyWait : (endCopyWait s).window = s.window ∧ (endCopyWait s).backdrop = s.backdrop := by
  unfold endCopyWait; split <;> simp

theorem doing_standingEnded (l : Bool) : Doing s (standingEnded l s) := by
  unfold standingEnded
  split
  · exact .of_backdrop (frame_endCopyWait s).1 (frame_endCopyWait s).2
  · exact .refl s

theorem doing_progressEnded (o : Outlet) (c l : Bool) : Doing s (progressEnded o c l s) := by
  refine Doing.trans ?_ (doing_standingEnded _ l)
  split
  · exact .of_backdrop (by simp) (by simp)
  · exact .refl s

theorem doing_settleSession (o : Outlet) : Doing s (settleSession o s) := by
  unfold settleSession
  repeat' split
  all_goals exact .of_backdrop (by simp) (by simp)

theorem doing_givenUpWritten (o : Outlet) : Doing s (givenUpWritten o s) := by
  unfold givenUpWritten
  split <;> exact .of_backdrop (by simp) (by simp)

theorem doing_requestHeader (b : Bool) : Doing s (requestHeader b s) :=
  .of_frame rfl id

theorem doing_dropHead : Doing s (dropHead s) :=
  (Doing.of_setJournal s _ (by simp)).trans (doing_requestHeader _ _)

theorem doing_takeSlotWord (w : Word) : Doing s (takeSlotWord w s) := by
  unfold takeSlotWord
  split
  · exact .of_frame rfl id
  · exact doing_dropHead s

theorem doing_entryWritten : Doing s (entryWritten s) := by
  have hnext : Doing s (setJournal (fun j =>
      { j with queue := j.queue.tail, gap := j.gap - s.carriedGap, nextSeq := j.nextSeq + 1,
               nextSlot := j.nextSlot + 1 }) s) := .of_setJournal s _ (by simp)
  refine (hnext.trans ?_).trans (doing_requestHeader _ s.busFaultInHand)
  split <;> exact .of_backdrop rfl rfl

theorem doing_headerEnded : Doing s (headerEnded s) := .of_frame rfl id

theorem doing_surveyWritten (p : SurveyPart) : Doing s (surveyWritten p s) := by
  unfold surveyWritten
  split
  · exact doing_endWaitWith s _
  · exact .of_journal rfl rfl

/-- R170's table. -/
theorem doing_fallback (j : Job) : Doing s (fallback j s) := by
  cases j with
  | settle j =>
    cases j with
    | endWord w => exact .of_journal rfl rfl
    | progress o c l => exact doing_progressEnded s o c l
    | standing o l => exact doing_standingEnded s l
    | receipt o => exact .of_journal rfl rfl
    | givenUp o => exact .of_journal rfl rfl
  | order j =>
    cases j with
    | readOrder c => exact .of_journal rfl rfl
    | writeTaken c => exact doing_takenWritten s
    | writeAnswer c r f => exact .of_journal rfl rfl
    | writeWithdrawn c => exact doing_withdrawEnded s c
    | readTariff i => exact doing_endWaitWith s _
  | journal j =>
    cases j with
    | readSlot => exact doing_dropHead s
    | writeEntry => exact doing_dropHead s
    | writeHeader q n g => exact doing_headerEnded s
  | survey p => exact doing_endWaitWith s _

/-- A bus error: the latch moves FAULT_ADDRESS alone (R6, R170). -/
theorem doing_busError (t : Transfer) (words : Nat) : Doing s (busError t words s) := by
  have hlatch (u : State) : Doing u (raise .busFault (latchFault t.address u)) := by
    unfold latchFault
    split <;> exact { memory := id, areaBase := rfl, postQueue := .refl _, withdrawList := .refl _, journal := id }
  have hgive (u : State) : Doing u (if u.forBusFault t.job then u else give t.faultEntry u) := by
    split
    · exact .refl u
    · exact .given _ u
  exact (((Doing.freed s t _).trans (hlatch _)).trans (hgive _)).trans (doing_fallback _ _)

theorem leads_busError (words : Nat) : Leads s (execBusError words s) := by
  unfold execBusError
  split
  · exact leads_idle s
  · exact leads_finish s (doing_busError s _ words)

/-! A completion is for the transfer under way, of its own kind; else nothing happens (log 1). -/

theorem leads_takenWriteDone : Leads s (execTakenWriteDone s) := by
  unfold execTakenWriteDone
  split
  · exact leads_idle s
  · split
    · exact leads_finish s ((Doing.completed s _).trans (doing_takenWritten _))
    · exact leads_idle s

theorem leads_answerWriteDone : Leads s (execAnswerWriteDone s) := by
  unfold execAnswerWriteDone
  split
  · exact leads_idle s
  · split
    · exact leads_finish s ((Doing.completed s _).trans (.of_journal rfl rfl))
    · exact leads_idle s

theorem leads_withdrawnWriteDone : Leads s (execWithdrawnWriteDone s) := by
  unfold execWithdrawnWriteDone
  split
  · exact leads_idle s
  · split
    · exact leads_finish s (((Doing.completed s _).trans (doing_withdrawEnded _ _)).trans (.of_journal rfl rfl))
    · exact leads_idle s

theorem leads_tariffReadDone (record : Vector Byte 32) : Leads s (execTariffReadDone record s) := by
  unfold execTariffReadDone
  split
  · exact leads_idle s
  · split
    · exact leads_finish s ((Doing.completed s _).trans (doing_takeRecord _ _ record))
    · exact leads_idle s

theorem leads_progressWriteDone : Leads s (execProgressWriteDone s) := by
  unfold execProgressWriteDone
  split
  · exact leads_idle s
  · split
    · exact leads_finish s ((Doing.completed s _).trans (doing_progressEnded _ _ _ _))
    · exact leads_idle s

theorem leads_standingCopyDone : Leads s (execStandingCopyDone s) := by
  unfold execStandingCopyDone
  split
  · exact leads_idle s
  · split
    · exact leads_finish s ((Doing.completed s _).trans (doing_standingEnded _ _))
    · exact leads_idle s

theorem leads_receiptWriteDone : Leads s (execReceiptWriteDone s) := by
  unfold execReceiptWriteDone
  split
  · exact leads_idle s
  · split
    · exact leads_finish s ((Doing.completed s _).trans (doing_settleSession _ _))
    · exact leads_idle s

theorem leads_givenUpReceiptDone : Leads s (execGivenUpReceiptDone s) := by
  unfold execGivenUpReceiptDone
  split
  · exact leads_idle s
  · split
    · exact leads_finish s ((Doing.completed s _).trans (doing_givenUpWritten _ _))
    · exact leads_idle s

theorem leads_endWordDone : Leads s (execEndWordDone s) := by
  unfold execEndWordDone
  split
  · exact leads_idle s
  · split
    · exact leads_finish s ((Doing.completed s _).trans (.of_journal rfl rfl))
    · exact leads_idle s

theorem leads_journalSlotReadDone (w : Word) : Leads s (execJournalSlotReadDone w s) := by
  unfold execJournalSlotReadDone
  split
  · exact leads_idle s
  · split
    · exact leads_finish s ((Doing.completed s _).trans (doing_takeSlotWord _ w))
    · exact leads_idle s

theorem leads_journalEntryWriteDone : Leads s (execJournalEntryWriteDone s) := by
  unfold execJournalEntryWriteDone
  split
  · exact leads_idle s
  · split
    · exact leads_finish s ((Doing.completed s _).trans (doing_entryWritten _))
    · exact leads_idle s

theorem leads_journalHeaderWriteDone : Leads s (execJournalHeaderWriteDone s) := by
  unfold execJournalHeaderWriteDone
  split
  · exact leads_idle s
  · split
    · exact leads_finish s ((Doing.completed s _).trans (doing_headerEnded _))
    · exact leads_idle s

theorem leads_surveyPartDone : Leads s (execSurveyPartDone s) := by
  unfold execSurveyPartDone
  split
  · exact leads_idle s
  · split
    · exact leads_finish s ((Doing.completed s _).trans (doing_surveyWritten _ _))
    · exact leads_idle s

/-! ### Every command -/

/-- What a command that goes on can do (log 1, log 9). -/
theorem leads_exec (i : Instr) : Leads s (exec i s) := by
  cases i with
  | powerOnReset t n => exact leads_powerOnReset s t n
  | softReset t n => exact leads_softReset s t n
  | run t => exact leads_finish s ((doing_atTime s t).trans (doing_runWrite _))
  | halt t => exact leads_finish s ((doing_atTime s t).trans (doing_haltWrite _))
  | registerWriteIgnored w => exact leads_registerWriteIgnored s w
  | post b => exact leads_post s b
  | withdraw b => exact leads_withdraw s b
  | noticeWrite v => exact leads_controlWrite s _ id
  | noticeMaskWrite v => exact leads_controlWrite s _ id
  | areaBaseWrite v => exact leads_areaBaseWrite s v
  | faultAddressWrite v => exact leads_controlWrite s _ id
  | orderTake => exact leads_orderTake s
  | orderReadDone t w b => exact leads_receiveOrder s t _ _
  | openSession t o => exact leads_receiveOrder s t _ _
  | link t o => exact leads_receiveOrder s t _ _
  | stop t o => exact leads_receiveOrder s t _ _
  | amend t o => exact leads_receiveOrder s t _ _
  | sync t o => exact leads_receiveOrder s t _ _
  | auditSet t o => exact leads_receiveOrder s t _ _
  | auditClear t o => exact leads_receiveOrder s t _ _
  | resume t o => exact leads_receiveOrder s t _ _
  | tariffLoad t x => exact leads_receiveOrder s t _ _
  | tariffUnload t x => exact leads_receiveOrder s t _ _
  | band t w b => exact leads_receiveOrder s t _ _
  | site t l => exact leads_receiveOrder s t _ _
  | outlet t o m => exact leads_receiveOrder s t _ _
  | moduleReturn t m => exact leads_receiveOrder s t _ _
  | moduleRetire t m => exact leads_receiveOrder s t _ _
  | park t w o => exact leads_receiveOrder s t _ _
  | clock t v => exact leads_receiveOrder s t _ _
  | survey t => exact leads_receiveOrder s t _ _
  | line t k => exact leads_receiveOrder s t _ _
  | takenWriteDone => exact leads_takenWriteDone s
  | answerWriteDone => exact leads_answerWriteDone s
  | withdrawStart => exact leads_withdrawStart s
  | withdrawnWriteDone => exact leads_withdrawnWriteDone s
  | tariffReadDone r => exact leads_tariffReadDone s r
  | progressWriteDone => exact leads_progressWriteDone s
  | standingCopyDone => exact leads_standingCopyDone s
  | receiptWriteDone => exact leads_receiptWriteDone s
  | givenUpReceiptDone => exact leads_givenUpReceiptDone s
  | endWordDone => exact leads_endWordDone s
  | journalSlotReadDone w => exact leads_journalSlotReadDone s w
  | journalEntryWriteDone => exact leads_journalEntryWriteDone s
  | journalHeaderWriteDone => exact leads_journalHeaderWriteDone s
  | surveyPartDone => exact leads_surveyPartDone s
  | busError n => exact leads_busError s n
  | transferStart => exact leads_finish s (.refl s)
  | pollDue k => exact leads_pollDue s k
  | pollSent k => exact leads_pollSent s k
  | replyWindowEnd k => exact leads_replyWindowEnd s k
  | replyFrame t k f => exact leads_replyFrame s t k f
  | alertFrame t k f => exact leads_alertFrame s t k f
  | frameBroken t k => exact leads_frameBroken s t k
  | replyService t => exact leads_replyService s t
  | alertService t => exact leads_alertService s t
  | pass t => exact leads_pass s t
  | releaseDeadline => exact leads_releaseDeadline s
  | startGuardExpiry => exact leads_startGuardExpiry s
  | minuteEvent c => exact leads_minuteEvent s c
  | parkSecondTick => exact leads_parkSecondTick s
  | haltComplete => exact leads_haltComplete s
  | frameStart t k b => exact leads_frameStart s t k b

end Sys2Proof.Machine
end

