-- ==== Sys2Proof/Proofs/KeptBySteps.lean ====
section
/-! SUPPORT. What every step keeps of park memory, AREA_BASE and the queues (O55, O56), from what a command can do. -/

namespace Sys2Proof.Machine

/-- A property that does not look at the waiting commands, and that every command keeps, is kept by every step. -/
theorem keptByStep_of_event {P : State → Prop} (hp : ∀ s rest, P s → P { s with pending := rest })
    (he : ∀ s u, Event s u → P s → P u) : KeptByStep P := by
  intro s u hs hstep
  unfold step at hstep
  split at hstep
  · cases hstep; exact hs
  · exact he _ _ (leads_exec _ _ _ hstep) (hp _ _ hs)

/-! ### Memory and AREA_BASE -/

theorem keptByStep_memoryCanonical : KeptByStep MemoryCanonical := by
  refine keptByStep_of_event (fun _ _ h => h) fun s u e h => ?_
  cases e with
  | idle => exact h
  | reset _ _ _ _ _ hm => exact hm h
  | write => exact h
  | doing d => exact (d.trans (doing_endEvent _)).memory h

/-- A doing leaves the base as it is, and so its low bits. -/
theorem Doing.aligned {s r : State} (d : Doing s r) (h : AreaBaseAligned s) : AreaBaseAligned r := by
  rw [AreaBaseAligned, d.areaBase]; exact h

theorem keptByStep_areaBaseAligned : KeptByStep AreaBaseAligned := by
  refine keptByStep_of_event (fun _ _ h => h) fun s u e h => ?_
  cases e with
  | idle => exact h
  | reset _ _ _ c _ _ ha => show c.areaBase &&& 0x7FFF = 0; rw [ha]; rfl
  | write _ _ _ _ ha => exact ha h
  | doing d => exact (d.trans (doing_endEvent _)).aligned h

/-- Settles O55: every command is a reset, a write of the window or a doing, and each keeps the form of park memory and
the low bits of the base. -/
theorem stepsKeepMemoryAndBase : Obligations.StepsKeepMemoryAndBase :=
  ⟨keptByStep_memoryCanonical, keptByStep_areaBaseAligned⟩

/-! ### The queues -/

/-- Queues that only lose indices stay sound. -/
theorem Doing.queuesSound {s r : State} (d : Doing s r) (h : QueuesSound s) : QueuesSound r := by
  obtain ⟨hlen, hnodup⟩ := h
  have hp := d.postQueue.length_le
  have hw := d.withdrawList.length_le
  exact ⟨by omega, hnodup.sublist (d.postQueue.append d.withdrawList)⟩

theorem keptByStep_queuesSound : KeptByStep QueuesSound := by
  refine keptByStep_of_event (fun _ _ h => h) fun s u e h => ?_
  cases e with
  | idle => exact h
  | reset => exact ⟨Nat.zero_le 32, List.nodup_nil⟩
  | write _ _ _ _ _ hq => exact hq h
  | doing d => exact (d.trans (doing_endEvent _)).queuesSound h

theorem keptByStep_journalBounded : KeptByStep JournalBounded := by
  refine keptByStep_of_event (fun _ _ h => h) fun s u e h => ?_
  cases e with
  | idle => exact h
  | reset => exact Nat.zero_le 8
  | write => exact h
  | doing d => exact (d.trans (doing_endEvent _)).journal h

/-! ### No queue stands unserved -/

@[simp] theorem context_reset (o : Outlet) : State.reset.context o = none := by
  simp [State.context, Table.get, State.reset, SessionUnit.reset]

/-- At reset there is no session and no entry, so nothing is due. -/
theorem settlementServed_reset : SettlementServed State.reset := fun _ _ =>
  ⟨rfl, List.find?_eq_none.2 fun o _ => by simp, List.find?_eq_none.2 fun _ _ => Bool.false_ne_true,
    List.findSome?_eq_none_iff.2 fun o _ => by simp⟩

theorem keptByStep_settlementServed : KeptByStep SettlementServed := by
  refine keptByStep_of_event (fun _ _ h => h) fun s u e h => ?_
  cases e with
  | idle => exact h
  | reset => exact settlementServed_reset
  | write => exact h
  | doing => exact settlementServed_endEvent _

theorem keptByStep_journalServed : KeptByStep JournalServed := by
  refine keptByStep_of_event (fun _ _ h => h) fun s u e h => ?_
  cases e with
  | idle => exact h
  | reset => exact fun _ => rfl
  | write => exact h
  | doing => exact journalServed_endEvent _

/-- Settles O56: the host posts and withdraws within the bounds, a doing only takes indices from the queues and gives
entries where there is room, and the end of every event makes the requests that are due. -/
theorem stepsKeepQueuesBounded : Obligations.StepsKeepQueuesBounded :=
  ⟨keptByStep_queuesSound, keptByStep_journalBounded, keptByStep_settlementServed, keptByStep_journalServed⟩

end Sys2Proof.Machine
end

