-- ==== Sys2Proof/Proofs/Registers.lean ====
section
/-! SUPPORT. The register window (O7 to O11): POST and its withdraw mark, notices and the interrupt line, AREA_BASE and
FAULT_ADDRESS. -/

namespace Sys2Proof.Machine

variable (s : State)

/-! ### Indices (R15) -/

theorem asFin_eq_some {n : Nat} {b : Byte} {i : Fin n} (h : b.toNat = i.val) : asFin n b = some i := by
  unfold asFin
  rw [dif_pos (h ▸ i.isLt)]
  exact congrArg some (Fin.ext h)

theorem asFin_eq_none {n : Nat} {b : Byte} (h : n ≤ b.toNat) : asFin n b = none := dif_neg (Nat.not_lt.2 h)

/-! ### POST (R9, R10) -/

theorem postIndex_of_stopped {b : Byte} (h : s.control.partState = .stopped) :
    postIndex b s = refusePost .notRunning b s := if_pos h

theorem postIndex_of_badIndex {b : Byte} (h : s.control.partState ≠ .stopped) (hb : 128 ≤ b.toNat) :
    postIndex b s = refusePost .badIndex b s := by rw [postIndex, if_neg h, asFin_eq_none hb]

/-- An index of a cell posted outside STOPPED. -/
theorem postIndex_of_cell {b : Byte} {c : CellIndex} (h : s.control.partState ≠ .stopped) (hb : b.toNat = c.val) :
    postIndex b s =
      if c ∈ s.orders.postQueue ∨ c ∈ s.orders.withdrawList then refusePost .duplicate b s
      else if 32 ≤ s.orders.postQueue.length + s.orders.withdrawList.length then refusePost .full b s
      else setQueues (s.orders.postQueue ++ [c]) s.orders.withdrawList s := by
  rw [postIndex, if_neg h, asFin_eq_some hb]
  simp

/-- Settles O7, case by case as R9 lists them. -/
theorem postWrite : Obligations.PostWrite := by
  intro b s
  refine ⟨fun h => congrArg _ (postIndex_of_stopped s h), fun h hb => congrArg _ (postIndex_of_badIndex s h hb), ?_⟩
  intro c hb h
  have he := postIndex_of_cell s h hb
  refine ⟨fun hin => congrArg _ (he.trans (if_pos hin)), fun hp hw => ?_⟩
  rw [if_neg (not_or.2 ⟨hp, hw⟩)] at he
  exact ⟨fun hfull => congrArg _ (he.trans (if_pos hfull)),
    fun hroom => congrArg _ (he.trans (if_neg (Nat.not_le.2 hroom)))⟩

theorem withdrawIndex_of_stopped {b : Byte} (h : s.control.partState = .stopped) :
    withdrawIndex b s = refusePost .notRunning b s := if_pos h

theorem withdrawIndex_of_badIndex {b : Byte} (h : s.control.partState ≠ .stopped) (hb : 128 ≤ b.toNat) :
    withdrawIndex b s = refusePost .badIndex b s := by rw [withdrawIndex, if_neg h, asFin_eq_none hb]

/-- An index of a cell withdrawn outside STOPPED. -/
theorem withdrawIndex_of_cell {b : Byte} {c : CellIndex} (h : s.control.partState ≠ .stopped) (hb : b.toNat = c.val) :
    withdrawIndex b s =
      if c ∈ s.orders.postQueue then
        setQueues (s.orders.postQueue.filter (· ≠ c)) (s.orders.withdrawList ++ [c]) s
      else refusePost .withdrawLate b s := by
  rw [withdrawIndex, if_neg h, asFin_eq_some hb]
  simp

/-- Settles O8, case by case as R10 lists them. -/
theorem withdrawWrite : Obligations.WithdrawWrite := by
  intro b s
  refine ⟨fun h => congrArg _ (withdrawIndex_of_stopped s h),
    fun h hb => congrArg _ (withdrawIndex_of_badIndex s h hb), ?_⟩
  intro c hb h
  have he := withdrawIndex_of_cell s h hb
  exact ⟨fun hout => congrArg _ (he.trans (if_neg hout)), fun hin => congrArg _ (he.trans (if_pos hin))⟩

/-! ### Notices and the interrupt line (R20, R21) -/

/-- The number of a notice flag's bit (12.3). -/
def Notice.bit : Notice → Nat
  | .order => 0
  | .receipt => 1
  | .journal => 2
  | .gap => 3
  | .postRefused => 4
  | .audit => 5
  | .busFault => 6
  | .halted => 7

theorem Notice.mask_eq_twoPow (n : Notice) : n.mask = BitVec.twoPow 8 n.bit := by cases n <;> rfl

/-- Each bit of the register is a flag's. -/
theorem Notice.exists_bit : ∀ i < 8, ∃ n : Notice, n.bit = i
  | 0, _ => ⟨.order, rfl⟩
  | 1, _ => ⟨.receipt, rfl⟩
  | 2, _ => ⟨.journal, rfl⟩
  | 3, _ => ⟨.gap, rfl⟩
  | 4, _ => ⟨.postRefused, rfl⟩
  | 5, _ => ⟨.audit, rfl⟩
  | 6, _ => ⟨.busFault, rfl⟩
  | 7, _ => ⟨.halted, rfl⟩

theorem Notice.bit_lt (n : Notice) : n.bit < 8 := by cases n <;> decide

/-- A flag's bit in the mask of another is clear. -/
theorem Notice.getLsbD_mask (n m : Notice) : n.mask.getLsbD m.bit = decide (m = n) := by
  cases n <;> cases m <;> rfl

/-- A value masked with a flag's mask is its bit. -/
theorem Notice.and_mask_ne_zero (x : Byte) (n : Notice) : x &&& n.mask ≠ 0 ↔ x.getLsbD n.bit = true := by
  have hbit : (BitVec.twoPow 8 n.bit).getLsbD n.bit = true := by simp [n.bit_lt]
  have hne : BitVec.twoPow 8 n.bit ≠ 0#8 := fun h => by rw [h] at hbit; simp at hbit
  rw [n.mask_eq_twoPow, BitVec.and_twoPow]
  split <;> simp_all

theorem noticed_eq (n : Notice) : s.noticed n = s.control.notice.getLsbD n.bit := by
  rw [Bool.eq_iff_iff, ← Notice.and_mask_ne_zero]
  simp [State.noticed]

/-- The line is asserted while one bit is set in both registers. -/
theorem interruptLine_iff :
    s.interruptLine = true ↔ ∃ n : Notice, s.noticed n = true ∧ s.control.noticeMask &&& n.mask ≠ 0 := by
  have hbits (x : Byte) : x ≠ 0 ↔ ∃ i < 8, x.getLsbD i = true := by
    constructor
    · intro hx
      by_contra hall
      push Not at hall
      exact hx (BitVec.eq_of_getLsbD_eq fun i hi => by simpa using hall i hi)
    · rintro ⟨i, -, hi⟩ rfl
      simp at hi
  simp only [noticed_eq, Notice.and_mask_ne_zero]
  rw [State.interruptLine, bne_iff_ne, hbits]
  simp only [BitVec.getLsbD_and, Bool.and_eq_true]
  constructor
  · rintro ⟨i, hi, h⟩
    obtain ⟨n, rfl⟩ := Notice.exists_bit i hi
    exact ⟨n, h⟩
  · rintro ⟨n, h⟩
    exact ⟨n.bit, n.bit_lt, h⟩

/-- Both resets leave the Control Block at its reset values but for the latch and the next second (R185). -/
theorem control_of_reset (t : Time) (words : Nat) (u : State)
    (h : exec (.powerOnReset t words) s = .next u ∨ exec (.softReset t words) s = .next u) :
    u.control.notice = 0 ∧ u.control.noticeMask = 0 ∧ u.control.areaBase = 0 := by
  rcases h with h | h <;> cases h <;> exact ⟨rfl, rfl, rfl⟩

/-- Settles O9, by the bits of the two registers. -/
theorem noticesAndInterruptLine : Obligations.NoticesAndInterruptLine := by
  refine ⟨fun n s => ⟨rfl, fun m => ?_⟩, fun v s => ⟨_, rfl, rfl, fun n => ?_⟩, fun _ => rfl,
    fun t words s u h => (control_of_reset s t words u h).1, interruptLine_iff, fun v s => ⟨_, rfl, rfl, rfl⟩,
    fun t words s u h => ?_⟩
  · rw [noticed_eq, noticed_eq, raise, BitVec.getLsbD_or, n.getLsbD_mask, Bool.or_comm]
  · have hclear : (v.setWidth 8 &&& n.mask == 0) = !(v.setWidth 8).getLsbD n.bit := by
      rw [Bool.eq_iff_iff, beq_iff_eq, ← not_iff_not, ← ne_eq, Notice.and_mask_ne_zero]; simp
    rw [noticed_eq, noticed_eq, hclear, BitVec.getLsbD_and, BitVec.getLsbD_not]
    simp [n.bit_lt]
  · obtain ⟨_, hmask, _⟩ := control_of_reset s t words u h
    exact ⟨hmask, by simp [State.interruptLine, hmask]⟩

/-! ### AREA_BASE (R5) -/

/-- The mask of R5 rounds down to a multiple of 32 KiB. -/
theorem toNat_and_areaMask (v : Word) : (v &&& 0xFFFF8000).toNat = v.toNat / 32768 * 32768 := by
  rw [BitVec.toNat_and]
  refine Nat.eq_of_testBit_eq fun i => ?_
  have htop : 32 ≤ i → v.toNat.testBit i = false := fun hi =>
    Nat.testBit_lt_two_pow (v.isLt.trans_le (Nat.pow_le_pow_right (by omega) hi))
  show (v.toNat &&& (2 ^ 17 - 1) * 2 ^ 15).testBit i = (v.toNat / 2 ^ 15 * 2 ^ 15).testBit i
  rw [Nat.testBit_and, Nat.testBit_mul_two_pow, Nat.testBit_mul_two_pow, Nat.testBit_div_two_pow,
    Nat.testBit_two_pow_sub_one]
  by_cases hlow : 15 ≤ i
  · by_cases hi : i < 32
    · simp [hlow, show i - 15 < 17 by omega]
    · simp [hlow, htop (by omega)]
  · simp [hlow]

/-- Settles O10, by the part states, the mask of R5 and the reset values. -/
theorem areaBase : Obligations.AreaBase := by
  refine ⟨fun v s => ⟨fun h => ?_, fun h => ?_⟩, fun _ _ => rfl,
    fun t words s u h => (control_of_reset s t words u h).2.2⟩
  · have he : exec (.areaBaseWrite v) s =
        .next { s with control := { s.control with areaBase := v &&& 0xFFFF8000 } } := by
      show execAreaBaseWrite v s = _
      rcases h with h | h <;> simp [execAreaBaseWrite, h]
    exact ⟨_, he, rfl, toNat_and_areaMask v, rfl⟩
  · show execAreaBaseWrite v s = _
    rcases h with h | h <;> simp [execAreaBaseWrite, h]

/-! ### FAULT_ADDRESS (R6) -/

@[simp] theorem control_endWait : (endWait s).control = s.control := by unfold endWait; split <;> rfl

@[simp] theorem control_endCopyWait : (endCopyWait s).control = s.control := by unfold endCopyWait; split <;> simp

@[simp] theorem control_endProgressWait (o : Outlet) : (endProgressWait o s).control = s.control := by
  unfold endProgressWait; repeat' split
  all_goals simp

@[simp] theorem control_endWaitWith (r : OrderOutcome) : (endWaitWith r s).control = s.control := by
  unfold endWaitWith; split <;> rfl

/-- What a requester does with a bus error touches no register (R170). -/
theorem control_fallback (j : Job) : (fallback j s).control = s.control := by
  cases j with
  | settle j =>
    cases j with
    | endWord w => rfl
    | progress o c l =>
      simp only [fallback, progressEnded]; repeat' split
      all_goals simp
    | standing o l => simp only [fallback, standingEnded]; split <;> simp
    | receipt o => rfl
    | givenUp o => rfl
  | order j =>
    cases j with
    | readOrder c => rfl
    | writeTaken c =>
      simp only [fallback, takenWritten]; repeat' split
      all_goals rfl
    | writeAnswer c r f => rfl
    | writeWithdrawn c => rfl
    | readTariff i => exact control_endWaitWith s _
  | journal j => cases j <;> rfl
  | survey p => exact control_endWaitWith s _

/-- The end of an event leaves the latch as it is. -/
theorem latch_endEvent : (endEvent s).control.faultLatched = s.control.faultLatched ∧
    (endEvent s).control.faultAddress = s.control.faultAddress :=
  ⟨congrArg Window.faultLatched (window_endEvent s), congrArg Window.faultAddress (window_endEvent s)⟩

theorem control_busError (t : Transfer) (words : Nat) :
    (busError t words s).control =
      (raise .busFault (latchFault t.address (freePort (writeBytes t (t.madeBytes words) s)))).control := by
  have hgive (u : State) : (if u.forBusFault t.job then u else give t.faultEntry u).control = u.control := by
    split <;> simp
  unfold busError
  rw [control_fallback, hgive]

/-- The latch takes an address where its mark is clear, and keeps the one it has where it is set. -/
theorem latch_latchFault (a : Word) : (latchFault a s).control.faultLatched = true ∧
    (latchFault a s).control.faultAddress = if s.control.faultLatched then s.control.faultAddress else a := by
  unfold latchFault
  split
  · next h => exact ⟨h, rfl⟩
  · exact ⟨rfl, rfl⟩

/-- Settles O11: nothing after the latch in the event of a bus error touches it. -/
theorem faultAddress : Obligations.FaultAddress := by
  refine ⟨fun words s tr hbusy => ?_, fun _ _ => rfl, fun t words s u h => ?_, fun t words s u h => ?_⟩
  · obtain ⟨hmark, haddress⟩ := latch_endEvent (busError tr words s)
    have he : exec (.busError words) s = .next (endEvent (busError tr words s)) := by
      show execBusError words s = _
      simp only [execBusError, hbusy, finish]
    obtain ⟨hmark', haddress'⟩ := latch_latchFault (freePort (writeBytes tr (tr.madeBytes words) s)) tr.address
    have hc := control_busError s tr words
    exact ⟨_, he, hmark.trans ((congrArg Control.faultLatched hc).trans hmark'),
      haddress.trans ((congrArg Control.faultAddress hc).trans haddress')⟩
  · cases h; exact ⟨rfl, rfl⟩
  · cases h; exact ⟨rfl, rfl⟩

end Sys2Proof.Machine
end

