-- ==== Sys2Proof/Proofs/OrderUnit.lean ====
section
/-! SUPPORT. The Order Unit (O12 to O15, O36): the take and the read of an order, the formats of an order part, and the
unit's writes. -/

namespace Sys2Proof.Machine

variable (s : State)

/-! ### The end of an event, by the unit state -/

/-- What an event ends with depends on the body it has reached alone. -/
theorem ends_of_body {r r' u : State} (h : r.body = r'.body) (hu : Ends r u) : Ends r' u := by
  rcases hu with hu | ⟨hp, hu⟩
  · exact .inl (hu.trans h)
  · exact .inr ⟨partState_eq_of_body h ▸ hp, hu.trans (body_halted h)⟩

/-- The end of an event moves the unit only where an order waits for nothing more. -/
theorem unit_endEvent (h : ∀ c o r, s.orders.unit ≠ .waiting c o r true .nothing) :
    (endEvent s).orders.unit = s.orders.unit := by
  have hserve (u : State) (hu : ∀ c o r, u.orders.unit ≠ .waiting c o r true .nothing) :
      (serveRequests u).orders = u.orders := by
    unfold serveRequests
    rw [answerRequests_eq _ (by simpa using hu)]
    simp
  unfold endEvent completeHalt
  split
  · have hs : (give .halted (raise .halted (setPartState .halted (serveRequests s)))).orders = s.orders := by
      simp [hserve s h]
    have := hserve _ (by rw [hs]; exact h)
    exact congrArg OrderUnit.unit (this.trans hs)
  · rw [hserve s h]

/-! ### ORDER_TAKE (R14) -/

/-- Settles O12: the take requests the read in its own event, and every other state is refused by one of its four
conditions. -/
theorem orderTaken : Obligations.OrderTaken := by
  intro s
  refine ⟨fun c rest hunit hrun hlist hqueue => ?_, fun h => ?_⟩
  · obtain ⟨hbody, hu, hasks⟩ := endEvent_of_orderReq
      (requestOrder (.readOrder c) { s with orders := { s.orders with postQueue := rest, unit := .reading c } })
      (.readOrder c) rfl (by simp [requestOrder])
    have he : exec .orderTake s = finish
        (requestOrder (.readOrder c) { s with orders := { s.orders with postQueue := rest, unit := .reading c } }) := by
      show execOrderTake s = _
      simp only [execOrderTake, hunit, hrun, hlist, hqueue]
    exact ⟨_, he, hu, hasks, hbody⟩
  · show execOrderTake s = _
    unfold execOrderTake
    split
    · next hunit hrun hlist hqueue => simp [hunit, hrun, hlist, hqueue] at h
    · rfl

/-! ### The completion of the read of an order part (R14 to R16) -/

theorem orderReadDone_eq {cell : CellIndex} (t : Time) (w : Sweep) (b : Vector Byte 32)
    (h : s.readingCell = some cell) :
    exec (.orderReadDone t w b) s =
      .next (endEvent (readCell cell w (decodeOrderPart b) (freePort (atTime t s)))) := by
  show receiveOrder t w (decodeOrderPart b) s = _
  simp only [receiveOrder, h, finish]

theorem posted_decodeOrderPart (b : Vector Byte 32) : (decodeOrderPart b).posted = decide (b[0] = 1#8) := rfl

theorem readCell_stale {cell : CellIndex} {p : OrderPart} (w : Sweep)
    (h : p.posted = false ∨ s.cellLive cell = true) :
    readCell cell w p s = setUnit .idle (refusePost .stalePost (byteOf cell.val) s) := by
  rw [readCell, if_pos (by simpa using h)]

theorem readCell_taken {cell : CellIndex} {p : OrderPart} (w : Sweep) (hp : p.posted = true)
    (hl : s.cellLive cell = false) :
    readCell cell w p s =
      requestOrder (.writeTaken cell)
        (setUnit (.waiting cell p (takeOrder cell w p s).outcome false (takeOrder cell w p s).wait)
          (takeOrder cell w p s).state) := by
  rw [readCell, if_neg (by simp [hp, hl])]

/-- A POSTED cell that is not live leaves the unit WAITING with what has been read, and its TAKEN write at the port. -/
theorem endEvent_readCell_taken {cell : CellIndex} {p : OrderPart} (w : Sweep) (hp : p.posted = true)
    (hl : s.cellLive cell = false) :
    let k := takeOrder cell w p s
    let u := endEvent (readCell cell w p s)
    u.body = k.state.body ∧ u.orders.unit = .waiting cell p k.outcome false k.wait ∧
      Asks u (.order (.writeTaken cell)) := by
  intro k u
  obtain ⟨hbody, hunit, hasks⟩ := endEvent_of_orderReq
    (requestOrder (.writeTaken cell) (setUnit (.waiting cell p k.outcome false k.wait) k.state)) (.writeTaken cell) rfl
    (by simp [requestOrder, setUnit])
  have hu : u = endEvent _ := congrArg endEvent (readCell_taken s w hp hl)
  rw [hu]
  exact ⟨hbody, hunit, hasks⟩

theorem withOutlet_bad {b : Byte} (f : Outlet → Taken) (h : 32 ≤ b.toNat) : withOutlet b s f = refuse .badField s := by
  rw [withOutlet, asFin_eq_none h]

theorem withSlot_bad {b : Byte} (f : TariffSlot → Taken) (h : 16 ≤ b.toNat) : withSlot b s f = refuse .badField s := by
  rw [withSlot, asFin_eq_none h]

/-- An outlet in range or not, an order whose slot is out of range is refused. -/
theorem withOutlet_withSlot_bad {b i : Byte} (f : Outlet → TariffSlot → Taken) (h : 16 ≤ i.toNat) :
    (withOutlet b s fun o => withSlot i s (f o)) = refuse .badField s := by
  unfold withOutlet
  split
  · exact withSlot_bad s _ h
  · rfl

/-- A kind byte that is none of the sixteen gives no order (R15). -/
theorem orderOfBytes_none {b : Vector Byte 32} (h : b[4].toNat = 0 ∨ 16 < b[4].toNat) : orderOfBytes b = none := by
  unfold orderOfBytes
  dsimp only
  split
  case h_17 => rfl
  all_goals omega

/-- An order with an outlet, a slot, a module or a line out of range is refused BAD_FIELD (R15). -/
theorem takeOrder_badField {b : Vector Byte 32} (cell : CellIndex) (w : Sweep)
    (h : (b[4].toNat ∈ [1, 2, 3, 4, 5, 6, 7, 11] ∧ 32 ≤ b[5].toNat) ∨ (b[4].toNat ∈ [1, 2, 8] ∧ 16 ≤ b[6].toNat) ∨
      (b[4].toNat = 12 ∧ 40 ≤ b[5].toNat) ∨ (b[4].toNat = 16 ∧ 16 ≤ b[5].toNat)) :
    takeOrder cell w (decodeOrderPart b) s = refuse .badField s := by
  rcases h with ⟨hk, hb⟩ | ⟨hk, hb⟩ | ⟨hk, hb⟩ | ⟨hk, hb⟩
  · simp only [List.mem_cons, List.not_mem_nil, or_false] at hk
    rcases hk with hk | hk | hk | hk | hk | hk | hk | hk <;>
      simp only [takeOrder, decodeOrderPart, orderOfBytes, hk] <;> exact withOutlet_bad s _ hb
  · simp only [List.mem_cons, List.not_mem_nil, or_false] at hk
    rcases hk with hk | hk | hk <;> simp only [takeOrder, decodeOrderPart, orderOfBytes, hk]
    · exact withOutlet_withSlot_bad s _ hb
    · exact withOutlet_withSlot_bad s _ hb
    · exact withSlot_bad s _ hb
  · simp only [takeOrder, decodeOrderPart, orderOfBytes, hk, handOn, asFin_eq_none hb]
  · simp only [takeOrder, decodeOrderPart, orderOfBytes, hk, handOn, asFin_eq_none hb]

/-- Settles O13: a refused read leaves the unit IDLE, and an order that no block is given is answered by its kind or its
range alone. -/
theorem readsHandedToNoBlock : Obligations.ReadsHandedToNoBlock := by
  intro t w part s cell hr s' kind
  set r := freePort (atTime t s)
  have taken (hp : part[0] = 1#8) (hl : s.cellLive cell = false) :=
    endEvent_readCell_taken r (p := decodeOrderPart part) w (by simp [posted_decodeOrderPart, hp]) hl
  refine ⟨_, orderReadDone_eq s t w part hr, fun hstale => ?_, fun hp hl hk => ?_, fun hp hl hk => ?_⟩
  · have he : readCell cell w (decodeOrderPart part) r = setUnit .idle (refusePost .stalePost (byteOf cell.val) r) :=
      readCell_stale r w (hstale.imp_left fun h => by simp [posted_decodeOrderPart, h])
    rw [he]
    exact ⟨unit_endEvent _ (by simp [setUnit]), ends_of_body rfl (ends_endEvent _)⟩
  · have hk' : orderOfBytes part = none := orderOfBytes_none hk
    have ht : takeOrder cell w (decodeOrderPart part) r = refuse .badKind r := by
      simp [takeOrder, decodeOrderPart, hk']
    obtain ⟨hbody, hunit, hasks⟩ := taken hp hl
    rw [ht] at hbody hunit
    refine ⟨hbody, hunit.trans ?_, hasks⟩
    simp [decodeOrderPart, hk', hp, refuse]
  · have ht := takeOrder_badField r cell w hk
    obtain ⟨hbody, hunit, hasks⟩ := taken hp hl
    rw [ht] at hbody hunit
    exact ⟨hbody, hunit, hasks⟩

/-! ### The formats of an order part (12.4, R191) -/

/-- Two bytes of a word that follow each other are the half word that begins there. -/
theorem half_wordByte (w : Word) (i j : Nat) (h : 8 * j = 8 * i + 8) :
    half (wordByte w i) (wordByte w j) = w.extractLsb' (8 * i) 16 :=
  BitVec.extractLsb'_append_extractLsb'_eq_extractLsb' h

/-- The four bytes of a word give it back. -/
theorem word_wordByte (w : Word) : word (wordByte w 0) (wordByte w 1) (wordByte w 2) (wordByte w 3) = w := by
  have h32 : w.extractLsb' 24 8 ++ w.extractLsb' 16 8 = w.extractLsb' 16 16 :=
    BitVec.extractLsb'_append_extractLsb'_eq_extractLsb' rfl
  have h321 : w.extractLsb' 16 16 ++ w.extractLsb' 8 8 = w.extractLsb' 8 24 :=
    BitVec.extractLsb'_append_extractLsb'_eq_extractLsb' rfl
  have h3210 : w.extractLsb' 8 24 ++ w.extractLsb' 0 8 = w.extractLsb' 0 32 :=
    BitVec.extractLsb'_append_extractLsb'_eq_extractLsb' rfl
  calc word (wordByte w 0) (wordByte w 1) (wordByte w 2) (wordByte w 3)
      = w.extractLsb' 24 8 ++ w.extractLsb' 16 8 ++ w.extractLsb' 8 8 ++ w.extractLsb' 0 8 := rfl
    _ = w := by rw [h32, h321, h3210, BitVec.extractLsb'_eq_self]

/-- The halves of a PARK order's first word. -/
theorem half_wordByte_append (hi lo : Half) :
    half (wordByte (hi ++ lo) 0) (wordByte (hi ++ lo) 1) = lo ∧
    half (wordByte (hi ++ lo) 2) (wordByte (hi ++ lo) 3) = hi := by
  rw [half_wordByte _ 0 1 rfl, half_wordByte _ 2 3 rfl]
  exact ⟨BitVec.extractLsb'_append_eq_right, BitVec.extractLsb'_append_eq_left⟩

/-- The bytes of a PARK order's second word. -/
theorem wordByte_append (b3 b2 b1 b0 : Byte) :
    wordByte (b3 ++ b2 ++ b1 ++ b0) 0 = b0 ∧ wordByte (b3 ++ b2 ++ b1 ++ b0) 1 = b1 ∧
    wordByte (b3 ++ b2 ++ b1 ++ b0) 2 = b2 ∧ wordByte (b3 ++ b2 ++ b1 ++ b0) 3 = b3 := by
  have skip {n : Nat} (x : BitVec n) (b : Byte) (i : Nat) :
      (x ++ b).extractLsb' (i + 8) 8 = x.extractLsb' i 8 := by
    rw [BitVec.extractLsb'_append_eq_of_le (by omega), Nat.add_sub_cancel]
  exact ⟨BitVec.extractLsb'_append_eq_right, (skip _ b0 0).trans BitVec.extractLsb'_append_eq_right,
    ((skip _ b0 8).trans (skip _ b1 0)).trans BitVec.extractLsb'_append_eq_right,
    ((skip _ b0 16).trans (skip _ b1 8)).trans BitVec.extractLsb'_append_eq_left⟩

/-- Every order written is read back whole. -/
theorem orderOfBytes_encodeOrder (o : Order) : orderOfBytes (encodeOrder o) = some o := by
  cases o with
  | openSession o =>
    exact congrArg₂ (fun h r => some (Order.openSession { o with hold := h, reference := r })) (word_wordByte o.hold)
      (word_wordByte o.reference)
  | link o =>
    exact congrArg₂ (fun h r => some (Order.link { o with hold := h, reference := r })) (word_wordByte o.hold)
      (word_wordByte o.reference)
  | amend o => exact congrArg (fun h => some (Order.amend { o with hold := h })) (word_wordByte o.hold)
  | site l => exact congrArg (fun h => some (Order.site h)) (word_wordByte l)
  | clock v => exact congrArg (fun h => some (Order.clock h)) (word_wordByte v)
  | park o =>
    obtain ⟨hpoll, hreserve⟩ := half_wordByte_append o.reserve o.pollPeriod
    obtain ⟨hhorizon, hdrained, hheld, hcheckpoint⟩ :=
      wordByte_append o.checkpoint o.heldLimit o.drainedLimit o.horizon
    show some (Order.park ⟨half (wordByte _ 0) (wordByte _ 1), half (wordByte _ 2) (wordByte _ 3), wordByte _ 0,
      wordByte _ 1, wordByte _ 2, wordByte _ 3⟩) = _
    rw [hpoll, hreserve, hhorizon, hdrained, hheld, hcheckpoint]
  | stop b => rfl
  | sync b => rfl
  | audit b a => rfl
  | resume b => rfl
  | tariff i a => rfl
  | band b => rfl
  | outlet b m => rfl
  | module b a => rfl
  | survey => rfl
  | line b => rfl

/-- What is kept of an order's cell: POSTED, its kind and the order (R8). -/
theorem decodeOrderPart_encodeOrder (o : Order) : decodeOrderPart (encodeOrder o) = postedPart o := by
  have hbytes : (encodeOrder o)[0] = 1 ∧ (encodeOrder o)[4] = kindCode o := by cases o <;> exact ⟨rfl, rfl⟩
  simp only [decodeOrderPart, postedPart, orderOfBytes_encodeOrder, hbytes]

theorem receiveOrder_encodeOrder (t : Time) (w : Sweep) (o : Order) :
    exec (.orderReadDone t w (encodeOrder o)) s = receiveOrder t w (postedPart o) s := by
  show receiveOrder t w (decodeOrderPart (encodeOrder o)) s = _
  rw [decodeOrderPart_encodeOrder]

/-- An order whose hand-on looks at no sweep is received alike with every sweep. -/
theorem receiveOrder_sweep (t : Time) (w : Sweep) (o : Order) (h : ∀ cell u, handOn cell w o u = handOn cell [] o u) :
    receiveOrder t w (postedPart o) s = receiveOrder t [] (postedPart o) s := by
  unfold receiveOrder
  split
  · simp only [readCell, takeOrder, order_postedPart, h]
  · rfl

/-- Settles O15: what is read of an order's own cell is the order's own row, which BAND and PARK alone give a sweep. -/
theorem readGivesTheOrder : Obligations.ReadGivesTheOrder := by
  intro t w s read
  have hread (o : Order) : read o = receiveOrder t w (postedPart o) s := receiveOrder_encodeOrder s t w o
  have row (o : Order) (h : ∀ cell u, handOn cell w o u = handOn cell [] o u) :
      read o = receiveOrder t [] (postedPart o) s := (hread o).trans (receiveOrder_sweep s t w o h)
  refine ⟨fun o => row _ ?_, fun o => row _ ?_, fun b => row _ ?_, fun o => row _ ?_, fun b => row _ ?_,
    fun b => row _ ?_, fun b => row _ ?_, fun b => row _ ?_, fun b => row _ ?_, fun b => row _ ?_, fun b => hread _,
    fun l => row _ ?_, fun b m => row _ ?_, fun b => row _ ?_, fun b => row _ ?_, fun o => hread _, fun v => row _ ?_,
    row _ ?_, fun b => row _ ?_⟩
  all_goals exact fun _ _ => rfl

/-- Settles O14. The fields stand where 12.4 puts them by the definition of the read; what is written is read back by
`orderOfBytes_encodeOrder`. -/
theorem encodedOrdersDecode : Obligations.EncodedOrdersDecode := by
  refine ⟨?_, fun t w b s cell h hp => ?_, decodeOrderPart_encodeOrder⟩
  · intro b p w12 w16
    have hnone : b[4] = 0#8 ∨ 16 < b[4].toNat → p.order = none := fun hk =>
      orderOfBytes_none (hk.imp_left fun h => by rw [h]; rfl)
    refine ⟨rfl, rfl, ?_, ?_, ?_, ?_, ?_, ?_, ?_, ?_, ?_, ?_, ?_, ?_, ?_, ?_, ?_, ?_, hnone⟩
    all_goals
      intro hk
      simp only [p, decodeOrderPart, orderOfBytes, hk]
      rfl
  · obtain ⟨hr, hl⟩ := h
    obtain ⟨-, hunit, hasks⟩ := endEvent_readCell_taken (freePort (atTime t s)) (p := decodeOrderPart b) w
      (by simp [posted_decodeOrderPart, hp]) hl
    exact ⟨_, _, _, orderReadDone_eq s t w b hr, hunit, hasks⟩

/-! ### The unit's writes (R10, R14, R16) -/

/-- Only the unit state and the port move when the TAKEN write is made. -/
theorem body_takenWritten : (takenWritten s).body = s.body := by
  unfold takenWritten
  split
  · dsimp only
    split <;> rfl
  · rfl

theorem unit_takenWritten {cell : CellIndex} {o : OrderPart} {r : OrderOutcome} {taken : Bool} {wait : Wait}
    (h : s.orders.unit = .waiting cell o r taken wait) :
    (takenWritten s).orders.unit = .waiting cell o r true wait := by
  simp only [takenWritten, h]
  split <;> rfl

/-- An order that waits for a tariff record has its read requested then (R123). -/
theorem orderReq_takenWritten {cell : CellIndex} {o : OrderPart} {r : OrderOutcome} {taken : Bool} {i : TariffSlot}
    (h : s.orders.unit = .waiting cell o r taken (.tariffRecord i)) :
    (takenWritten s).port.orderReq = some (.readTariff i) := by
  simp only [takenWritten, h, requestOrder]

theorem takenWriteDone_eq {tr : Transfer} {cell : CellIndex} (h : UnderWay s tr (.order (.writeTaken cell))) :
    exec .takenWriteDone s = .next (endEvent (takenWritten (completeTransfer tr s))) := by
  show execTakenWriteDone s = _
  simp only [execTakenWriteDone, h.1, h.2, finish]

theorem answerWriteDone_eq {tr : Transfer} {cell : CellIndex} {r : OrderOutcome} {f : Ownership}
    (h : UnderWay s tr (.order (.writeAnswer cell r f))) :
    exec .answerWriteDone s = .next (endEvent (raise .order (setUnit .idle (completeTransfer tr s)))) := by
  show execAnswerWriteDone s = _
  simp only [execAnswerWriteDone, h.1, h.2, finish]

theorem withdrawnWriteDone_eq {tr : Transfer} {cell : CellIndex}
    (h : UnderWay s tr (.order (.writeWithdrawn cell))) :
    exec .withdrawnWriteDone s = .next (endEvent (raise .order (withdrawEnded cell (completeTransfer tr s)))) := by
  show execWithdrawnWriteDone s = _
  simp only [execWithdrawnWriteDone, h.1, h.2, finish]

theorem withdrawStart_eq {cell : CellIndex} {rest : List CellIndex} (hu : s.orders.unit = .idle)
    (hw : s.orders.withdrawList = cell :: rest) (hp : s.control.partState ≠ .stopped) :
    exec .withdrawStart s = .next (endEvent (requestOrder (.writeWithdrawn cell) (setUnit (.withdrawing cell) s))) := by
  show execWithdrawStart s = _
  simp only [execWithdrawStart, hu, hw, if_neg hp, finish]

/-- Settles O36: each completion by the unit state it finds, and the end of its event. -/
theorem orderUnitWrites : Obligations.OrderUnitWrites := by
  refine ⟨fun s c r f => ?_, fun s tr cell o r wait hw hu => ?_, fun s tr cell r f hw => ?_,
    fun s cell rest hu hl hp => ?_, fun s tr cell hw => ?_⟩
  · refine ⟨Nat.mul_comm .., Nat.mul_comm .., Nat.mul_comm .., rfl, rfl, ?_⟩
    refine congrArg₂ (fun a b : Byte => [a, b, 0, 0]) ?_ ?_
    · cases f <;> rfl
    · cases r <;> rfl
  · set v := takenWritten (completeTransfer tr s)
    have hunit : v.orders.unit = .waiting cell o r true wait := unit_takenWritten (completeTransfer tr s) hu
    have stays (hne : wait ≠ .nothing) : (endEvent v).orders.unit = .waiting cell o r true wait :=
      (unit_endEvent v (by simp [hunit, hne])).trans hunit
    refine ⟨_, takenWriteDone_eq s hw, ends_of_body (body_takenWritten _) (ends_endEvent v), ?_, ?_, ?_, ?_⟩
    · rintro rfl
      exact (endEvent_answers v cell o r hunit).2
    · rintro i rfl
      obtain ⟨-, hu', hasks⟩ := endEvent_of_orderReq v _ (orderReq_takenWritten (completeTransfer tr s) hu)
        (by simp [hunit])
      exact ⟨hasks, hu'.trans hunit⟩
    · rintro out rfl
      exact stays (by simp)
    · rintro rfl
      exact stays (by simp)
  · exact ⟨_, answerWriteDone_eq s hw, unit_endEvent _ (by simp [setUnit]), ends_of_body rfl (ends_endEvent _)⟩
  · obtain ⟨hbody, hunit, hasks⟩ := endEvent_of_orderReq
      (requestOrder (.writeWithdrawn cell) (setUnit (.withdrawing cell) s)) (.writeWithdrawn cell) rfl
      (by simp [requestOrder, setUnit])
    exact ⟨_, withdrawStart_eq s hu hl hp, hunit, hasks, hbody⟩
  · exact ⟨_, withdrawnWriteDone_eq s hw, unit_endEvent _ (by simp [withdrawEnded, setUnit]),
      ends_of_body rfl (ends_endEvent _)⟩

end Sys2Proof.Machine
end

