-- ==== Sys2Proof/Proofs/Reset.lean ====
section
/-! SUPPORT. The machine at reset (O2, O54), and what a read of the register window returns (O6). -/

namespace Sys2Proof

theorem Table.get_replicate {α : Type} {n : Nat} (x : α) (i : Fin n) : Table.get (Vector.replicate n x) i = x :=
  Vector.getElem_replicate _

namespace Machine

/-! ### State.reset, table by table -/

@[simp] theorem report_reset (o : Outlet) :
    State.reset.report o = { plug := .unknown, complete := false, demand := 0, lineStale := true } :=
  Table.get_replicate _ o

@[simp] theorem ceiling_reset (o : Outlet) : State.reset.ceiling o = 0 := Table.get_replicate _ o

@[simp] theorem module_reset (m : ModuleNo) : State.reset.module m = .free := Table.get_replicate _ m

@[simp] theorem inputs_reset (o : Outlet) :
    State.reset.inputs o =
      { active := false, demand := 0, ceiling := 0, lineStale := true, baselineValid := false, blocked := false } :=
  Table.get_replicate _ o

@[simp] theorem line_reset (k : LineNo) : State.reset.line k = Line.reset := Table.get_replicate _ k

@[simp] theorem blockMark_reset (k : LineNo) : State.reset.blockMark k = false := Table.get_replicate _ k

@[simp] theorem record_reset (o : Outlet) :
    State.reset.record o = { baseline := 0, lastTime := none, peak := 0, rejects := 0, unclaimed := 0 } :=
  Table.get_replicate _ o

@[simp] theorem liveCount_reset : State.reset.liveCount = 0 := by
  simp [State.liveCount, State.reset, SessionUnit.reset]

/-- Every register reads as 0. -/
theorem readRegister_reset (r : Register) : State.reset.readRegister r = 0 := by
  cases r with
  | status => simp only [State.readRegister, State.statusWord, liveCount_reset]; rfl
  | control => rfl
  | post => rfl
  | notice => rfl
  | noticeMask => rfl
  | areaBase => rfl
  | faultAddress => rfl

/-- Settles O2, table by table. -/
theorem resetValues : Obligations.ResetValues := by
  refine ⟨readRegister_reset, rfl, rfl, rfl, rfl, rfl, rfl, rfl,
    fun o => ⟨context_reset o, report_reset o, ceiling_reset o, Table.get_replicate _ o⟩,
    fun i => Table.get_replicate _ i, rfl, rfl, rfl, rfl, rfl, rfl, module_reset, rfl,
    fun o => ⟨Table.get_replicate _ o, inputs_reset o⟩, rfl, rfl, rfl, fun k => ⟨blockMark_reset k, line_reset k⟩,
    record_reset, rfl, rfl, rfl, rfl, rfl⟩

/-! ### The kept properties at reset -/

/-- No module is granted at reset. -/
theorem grantsWithinWants_reset : GrantsWithinWants State.reset := fun o => by
  simp [State.grant, State.reset, Apportioner.reset, Module.grantedTo]

theorem inputsAgree_reset : InputsAgree State.reset :=
  ⟨by simp [State.reset, Apportioner.reset, Control.reset], fun o => by simp⟩

theorem linesAgree_reset : LinesAgree State.reset := fun k o _ => by simp [Line.reset]

/-- Settles O54: there is no session, no entry, no grant and no write at reset. -/
theorem resetIsSound : Obligations.ResetIsSound :=
  ⟨rfl, rfl, ⟨Nat.zero_le 32, List.nodup_nil⟩, Nat.zero_le 8, grantsWithinWants_reset, inputsAgree_reset,
    linesAgree_reset, fun o => by simp, fun o c h => by simp at h, fun m o h => by simp [Module.outlet?] at h,
    settlementServed_reset, fun _ => rfl⟩

/-! ### The register window (R3, R4, R6, R12) -/

variable (s : State)

/-- A field above the bits of a word is added to it. -/
theorem toNat_or_field {x : Word} {v : Nat} (k n : Nat) (hx : x.toNat = v) (hv : v < 2 ^ k) (hn : n * 2 ^ k < 2 ^ 32) :
    (x ||| (BitVec.ofNat 32 n <<< k)).toNat = v + 2 ^ k * n := by
  have hlt : n < 2 ^ 32 := (Nat.le_mul_of_pos_right n (Nat.two_pow_pos k)).trans_lt hn
  rw [BitVec.toNat_or, BitVec.toNat_shiftLeft, BitVec.toNat_ofNat, Nat.mod_eq_of_lt hlt, Nat.shiftLeft_eq,
    Nat.mod_eq_of_lt hn, Nat.or_comm, Nat.mul_comm n, hx, ← Nat.two_pow_add_eq_or_of_lt hv, Nat.add_comm]

/-- The last-refusal record as a read of POST shows it (R12, 12.3). -/
theorem toNat_lastRefusal (r : LastRefusal) : r.word.toNat = r.index.toNat + 65536 * r.reason.code := by
  have hindex : (r.index.setWidth 32).toNat = r.index.toNat := by
    rw [BitVec.toNat_setWidth, Nat.mod_eq_of_lt (by omega)]
  have hcode : r.reason.code ≤ 6 := by cases r.reason <;> decide
  exact toNat_or_field 16 _ hindex (by omega) (by omega)

/-- The live sessions, counted outlet by outlet. -/
theorem liveCount_eq : s.liveCount = (Config.outlets.filter fun o => (s.context o).isSome).length := by
  have htable : s.sessions.contexts.toList = Config.outlets.map s.context := by
    refine List.ext_getElem (by simp [Config.outlets]) fun i h1 h2 => ?_
    simp [Config.outlets, State.context, Table.get]
  rw [State.liveCount, htable, List.countP_map, List.countP_eq_length_filter]
  rfl

/-- STATUS, field by field (R4, 12.3). -/
theorem toNat_statusWord (hq : QueuesSound s) (hs : s.standby.length ≤ 16) :
    s.statusWord.toNat = s.control.partState.code + 256 * s.orders.postQueue.length + 65536 * s.liveCount
      + 16777216 * s.standby.length + (if s.control.faultLatched then 2147483648 else 0) := by
  have hpost : s.orders.postQueue.length ≤ 32 := by have := hq.1; omega
  have hcode : s.control.partState.code ≤ 3 := by cases s.control.partState <;> decide
  have hlive : s.liveCount ≤ 32 := by
    simpa [State.liveCount] using s.sessions.contexts.toList.countP_le_length (p := Option.isSome)
  have hmark : (if s.control.faultLatched then 0x80000000 else 0 : Word) =
      BitVec.ofNat 32 (if s.control.faultLatched then 1 else 0) <<< 31 := by
    split <;> rfl
  have hone : (if s.control.faultLatched then 1 else 0) ≤ 1 := by split <;> omega
  have h0 : (BitVec.ofNat 32 s.control.partState.code).toNat = s.control.partState.code := by
    rw [BitVec.toNat_ofNat, Nat.mod_eq_of_lt (by omega)]
  have h1 := toNat_or_field 8 s.orders.postQueue.length h0 (by omega) (by omega)
  have h2 := toNat_or_field 16 s.liveCount h1 (by omega) (by omega)
  have h3 := toNat_or_field 24 s.standby.length h2 (by omega) (by omega)
  have h4 := toNat_or_field 31 (if s.control.faultLatched then 1 else 0) h3 (by omega) (by omega)
  rw [State.statusWord, hmark, h4]
  split <;> omega

/-- Settles O6, register by register, and by the three codes of CONTROL. -/
theorem otherWritesIgnored : Obligations.OtherWritesIgnored := by
  refine ⟨fun s => ⟨rfl, rfl, toNat_lastRefusal _, fun hq hs => ?_⟩, fun v s => ⟨rfl, fun h => ?_, fun h => ?_⟩⟩
  · rw [← liveCount_eq]
    exact toNat_statusWord s hq hs
  · have hwf : WellFormed.ignored (.control v) = true := by simp [WellFormed.ignored, h]
    exact if_pos hwf
  · have hwf : WellFormed.ignored (.control v) = false := by
      rcases h with h | h | h <;> simp [WellFormed.ignored, h]
    exact if_neg (by simp [hwf])

end Machine

end Sys2Proof
end

