-- ==== Sys2Proof/Proofs/EndOfEvent.lean ====
section
/-! SUPPORT. What the end of an event (Laws/EndEvent.lean) leaves of one session as the statements say it: its copy to
come, its context, its ceiling, its end words, a handover, a start; and the event of an order that is taken. -/

namespace Sys2Proof.Machine

variable (s : State)

/-! ### A transfer of the settlement writer -/

/-- A transfer of the settlement writer under way or requested has it busy. -/
theorem settleBusy_of_asks {j : SettleJob} (h : Asks s (.settle j)) : s.settleBusy = true := by
  rcases h with ⟨t, ht, hj⟩ | h
  · simp [State.settleBusy, ht, hj, Job.requester]
  · simp [State.settleBusy, show s.port.settleReq = some j from h]

/-- A transfer of the settlement writer that still has its owner outlasts the event (R43). -/
theorem asks_settle_endEvent {j : SettleJob} (h : Asks s (.settle j)) (ho : j.owned s = true) :
    Asks (endEvent s) (.settle j) := by
  have hstale : Asks (withdrawStale s) (.settle j) := by
    rcases h with ⟨t, ht, hj⟩ | h
    · exact .inl ⟨t, by simpa using ht, hj⟩
    · have : withdrawStale s = s := by simp [withdrawStale, show s.port.settleReq = some j from h, ho]
      rw [this]; exact .inr h
  have hanswer : Asks (answerRequests (withdrawStale s)) (.settle j) := by
    unfold answerRequests; split <;> exact hstale
  have hsettle : Asks (settleRequests (answerRequests (withdrawStale s))) (.settle j) := by
    rw [settleRequests, if_pos (settleBusy_of_asks _ hanswer)]; exact hanswer
  have hserve : Asks (serveRequests s) (.settle j) := by
    unfold serveRequests
    set v := journalRequests (settleRequests (answerRequests (withdrawStale s))) with hv
    have hjournal : Asks v (.settle j) := by rw [hv]; unfold journalRequests; split <;> exact hsettle
    rcases hjournal with ⟨t, ht, hj⟩ | hreq
    · have : startNext v = v := by simp [startNext, ht]
      rw [this]; exact .inl ⟨t, ht, hj⟩
    · exact asks_settle_startNext v j hreq
  have he : endEvent s = serveRequests s := completeHalt_of_asks _ _ hserve
  exact he ▸ hserve

/-- A progress copy to come of a live session is to come after the event. -/
theorem CopyComes.endEvent {s : State} {o : Outlet} {w : Bool} (h : CopyComes s o w)
    (hlive : (s.context o).isSome = true) : CopyComes (endEvent s) o w := by
  rcases h with ⟨c, hc, hdue, hw⟩ | ⟨forContext, forLink, hw, hasks⟩
  · exact copyComes_endEvent s o w c hc hdue hw
  · exact .inr ⟨forContext, forLink, hw, asks_settle_endEvent s hasks hlive⟩

/-! ### What every event leaves -/

/-- What depends on the body alone, and not on the entry to HALTED, the end of an event keeps. -/
theorem endEvent_keeps {β : Type} (f : State → β) (hbody : ∀ u : State, f u.body = f u)
    (hhalted : ∀ u : State, f (halted u) = f u) : f (endEvent s) = f s := by
  rcases endEvent_leaves s with h | h
  · rw [← hbody, h, hbody]
  · rw [← hbody, h, hbody, hhalted]

theorem body_body (c : Context) : c.body.body = c.body := by
  cases hg : c.givenUp <;> simp [Context.body, hg]

@[simp] theorem settings_endEvent : (endEvent s).control.settings = s.control.settings :=
  endEvent_keeps s (·.control.settings) (fun _ => rfl) fun _ => rfl
@[simp] theorem ceiling_endEvent (o : Outlet) : (endEvent s).ceiling o = s.ceiling o :=
  endEvent_keeps s (·.ceiling o) (fun _ => rfl) fun _ => rfl
@[simp] theorem band_endEvent : (endEvent s).sessions.band = s.sessions.band :=
  endEvent_keeps s (·.sessions.band) (fun _ => rfl) fun _ => rfl
@[simp] theorem startSerial_endEvent : (endEvent s).sessions.startSerial = s.sessions.startSerial :=
  endEvent_keeps s (·.sessions.startSerial) (fun _ => rfl) fun _ => rfl
@[simp] theorem endWords_endEvent : (endEvent s).sessions.endWords = s.sessions.endWords :=
  endEvent_keeps s (·.sessions.endWords) (fun _ => rfl) fun _ => rfl

/-- A context changes in the settlement writer's marks alone. -/
theorem context_endEvent (o : Outlet) :
    ((endEvent s).context o).map Context.body = (s.context o).map Context.body :=
  endEvent_keeps s (fun u => (u.context o).map Context.body)
    (fun u => by
      cases h : Table.get u.sessions.contexts o <;>
        simp_all [State.context, State.body, Table.get, body_body])
    fun _ => rfl

theorem context_endEvent_eq_none {o : Outlet} (h : s.context o = none) : (endEvent s).context o = none := by
  simpa [h] using context_endEvent s o

/-- No entry comes to the Standby Table, nor does one leave it. -/
theorem entryOf_endEvent_eq_none {l : CellIndex} (h : s.entryOf l = none) : (endEvent s).entryOf l = none := by
  have key := endEvent_keeps s (fun u => (u.entryOf l).isNone)
    (fun u => by simp [State.entryOf, State.body, List.find?_map]) fun _ => rfl
  simpa [h] using key

/-! ### A session taken on, handed over or started -/

theorem HandedOverTo.endEvent {p : Phase} {s u : State} {o : Outlet} {c : Context} {e : StandbyEntry} {held : Bool}
    (h : HandedOverTo p s o c e held u) : HandedOverTo p s o c e held (endEvent u) := by
  obtain ⟨hstands, hceiling, hgone, hcopy, hentry⟩ := h
  have hlive : (u.context o).isSome = true := by
    cases hc : u.context o with
    | none => simp [Stands, hc] at hstands
    | some x => rfl
  refine ⟨?_, ?_, entryOf_endEvent_eq_none u hgone, hcopy.endEvent hlive, journaled_endEvent s _ u hentry⟩
  · rw [ceiling_endEvent]; exact stands_endEvent u o _ hstands
  · rw [ceiling_endEvent, settings_endEvent, band_endEvent]; exact hceiling

theorem GoesOn.endEvent {s u : State} {o : Outlet} {c : Context} {n : Nat} {held : Bool} (h : GoesOn s o c n held u) :
    GoesOn s o c n held (endEvent u) := by
  obtain ⟨hactive, hdrained, hhanded⟩ := h
  refine ⟨fun hn => ?_, fun h0 ha hs => ?_, fun l e h0 ha hg hl he => (hhanded l e h0 ha hg hl he).endEvent⟩
  · obtain ⟨hstands, hceiling⟩ := hactive hn
    exact ⟨stands_endEvent u o _ hstands, (ceiling_endEvent u o).trans hceiling⟩
  · obtain ⟨hstands, hceiling, hentry⟩ := hdrained h0 ha hs
    exact ⟨stands_endEvent u o _ hstands, (ceiling_endEvent u o).trans hceiling, journaled_endEvent s _ u hentry⟩

theorem Begins.endEvent {s u : State} {o : Outlet} {d : Context} {n : Nat} {complete : Bool}
    (h : Begins s o d n complete u) : Begins s o d n complete (endEvent u) := by
  obtain ⟨hactive, hdrained, hhanded⟩ := h
  refine ⟨fun hn => ?_, fun h0 ha hs => ?_, fun l e h0 ha hg hl he => ?_⟩
  · obtain ⟨hstands, hceiling, hidle⟩ := hactive hn
    exact ⟨stands_endEvent u o _ hstands, (ceiling_endEvent u o).trans hceiling,
      fun hc => journaled_endEvent s _ u (hidle hc)⟩
  · obtain ⟨hstands, hceiling, hentry⟩ := hdrained h0 ha hs
    exact ⟨stands_endEvent u o _ hstands, (ceiling_endEvent u o).trans hceiling, journaled_endEvent s _ u hentry⟩
  · obtain ⟨hto, hidle⟩ := hhanded l e h0 ha hg hl he
    exact ⟨hto.endEvent, fun hc hn => journaled_endEvent s _ u (hidle hc (by simpa using hn))⟩

/-! ### The event of an order that is taken (R16) -/

/-- The state that a block's answer to an order leaves, with the Order Unit WAITING and its TAKEN write requested. -/
def awaitTaken (cell : CellIndex) (o : Order) (k : Taken) : State :=
  requestOrder (.writeTaken cell) (setUnit (.waiting cell (postedPart o) k.outcome false k.wait) k.state)

/-- The read of a POSTED cell that is not live ends its event with the block's answer. -/
theorem receiveOrder_eq {s : State} {cell : CellIndex} (t : Time) (w : Sweep) (o : Order) (h : Receives s cell) :
    receiveOrder t w (postedPart o) s =
      .next (endEvent (awaitTaken cell o (handOn cell w o (freePort (atTime t s))))) := by
  obtain ⟨hread, hlive⟩ := h
  have hcell := readCell_taken (freePort (atTime t s)) (p := postedPart o) w rfl hlive
  simp only [receiveOrder, hread, hcell, finish]
  rfl

theorem unit_awaitTaken (cell : CellIndex) (o : Order) (k : Taken) :
    (endEvent (awaitTaken cell o k)).orders.unit = .waiting cell (postedPart o) k.outcome false k.wait :=
  unit_endEvent _ (by simp [awaitTaken, requestOrder, setUnit])

theorem body_awaitTaken (cell : CellIndex) (o : Order) (k : Taken) :
    (endEvent (awaitTaken cell o k)).body = k.state.body :=
  (endEvent_of_orderReq (awaitTaken cell o k) _ rfl (by simp [awaitTaken, requestOrder, setUnit])).1

theorem takenAs_awaitTaken (cell : CellIndex) (o : Order) {k : Taken} {r : State} (h : k.state.body = r.body) :
    TakenAs cell o k.outcome k.wait r (endEvent (awaitTaken cell o k)) :=
  ⟨(body_awaitTaken cell o k).trans h, unit_awaitTaken cell o k⟩

/-- What the block leaves of a session and of its ceiling stands at the end of the event. -/
theorem stands_awaitTaken {k : Taken} {out : Outlet} {c : Context} (cell : CellIndex) (o : Order)
    (h : k.state.context out = some c) : Stands (endEvent (awaitTaken cell o k)) out c :=
  stands_endEvent (awaitTaken cell o k) out c (congrArg (Option.map Context.body) h)

theorem ceiling_awaitTaken (cell : CellIndex) (o : Order) (k : Taken) (out : Outlet) :
    (endEvent (awaitTaken cell o k)).ceiling out = k.state.ceiling out := ceiling_endEvent _ out

/-- A refusal changes no block. -/
theorem takenAs_refuse (cell : CellIndex) (o : Order) (t : Time) {k : Taken} {r : OrderOutcome}
    (h : k = refuse r (freePort (atTime t s))) :
    TakenAs cell o r .nothing (atTime t s) (endEvent (awaitTaken cell o k)) := by
  subst h; exact takenAs_awaitTaken cell o rfl

end Sys2Proof.Machine
end

