-- ==== Sys2Proof/Proofs/Elsewhere.lean ====
section
/-! SUPPORT. The doings of one outlet's session at the other outlets: beside its own context and ceiling, the Standby
Table, the Apportioner and the journal, nothing changes; and the copy of its own session that is to come stays so. -/

namespace Sys2Proof.Machine

variable (s : State)

/-! ### The other outlets -/

/-- A state without an outlet's own context and ceiling, the Standby Table, the Apportioner and the journal. -/
def State.elsewhere (s : State) (o : Outlet) : Beyond :=
  { s.beyond with
    sessions := { s.sessions with
      contexts := Table.set s.sessions.contexts o none, ceilings := Table.set s.sessions.ceilings o 0 },
    standby := [], journal := Journal.reset }

theorem elsewhere_of_beyond {s u : State} (o : Outlet) (h : u.beyond = s.beyond) : u.elsewhere o = s.elsewhere o :=
  congrArg (fun b : Beyond =>
    { b with
      sessions := { b.sessions with
        contexts := Table.set b.sessions.contexts o none, ceilings := Table.set b.sessions.ceilings o 0 },
      standby := [], journal := Journal.reset }) h

theorem context_of_elsewhere {s u : State} {o o' : Outlet} (h : u.elsewhere o = s.elsewhere o) (hne : o' ≠ o) :
    u.context o' = s.context o' := by
  have := congrArg (fun b : Beyond => Table.get b.sessions.contexts o') h
  simpa [State.elsewhere, Table.get_set_ne _ _ _ _ hne.symm, State.context] using this

theorem report_of_elsewhere {s u : State} {o : Outlet} (h : u.elsewhere o = s.elsewhere o) (o' : Outlet) :
    u.report o' = s.report o' :=
  congrArg (fun b : Beyond => Table.get b.sessions.reports o') h

theorem control_of_elsewhere {s u : State} {o : Outlet} (h : u.elsewhere o = s.elsewhere o) : u.control = s.control :=
  congrArg Beyond.control h

theorem startSerial_of_elsewhere {s u : State} {o : Outlet} (h : u.elsewhere o = s.elsewhere o) :
    u.sessions.startSerial = s.sessions.startSerial := congrArg (·.sessions.startSerial) h

theorem endWords_of_elsewhere {s u : State} {o : Outlet} (h : u.elsewhere o = s.elsewhere o) :
    u.sessions.endWords = s.sessions.endWords := congrArg (·.sessions.endWords) h

@[simp] theorem elsewhere_setContext (o : Outlet) (c : Option Context) :
    (setContext o c s).elsewhere o = s.elsewhere o := by
  simp [State.elsewhere, State.beyond, setContext, Table.set]
@[simp] theorem elsewhere_mapContext (o : Outlet) (f : Context → Context) :
    (mapContext o f s).elsewhere o = s.elsewhere o := elsewhere_setContext s o _
@[simp] theorem elsewhere_give (o : Outlet) (k : EntryKind) : (give k s).elsewhere o = s.elsewhere o := rfl
@[simp] theorem elsewhere_removeEntry (o : Outlet) (c : CellIndex) :
    (removeEntry c s).elsewhere o = s.elsewhere o := rfl
@[simp] theorem elsewhere_deliverActive (o : Outlet) (a : Bool) :
    (deliverActive o a s).elsewhere o = s.elsewhere o := elsewhere_of_beyond o (beyond_deliverActive s o a)
@[simp] theorem elsewhere_setCeiling (o : Outlet) (n : Nat) : (setCeiling o n s).elsewhere o = s.elsewhere o := by
  have hb := beyond_setCeiling s o n
  have hs : (setCeiling o n s).sessions = { s.sessions with ceilings := Table.set s.sessions.ceilings o n } :=
    congrArg Beyond.sessions hb
  simp [State.elsewhere, hb, hs, Table.set]
@[simp] theorem elsewhere_recompute (o : Outlet) : (recompute o s).elsewhere o = s.elsewhere o :=
  elsewhere_setCeiling s o _
@[simp] theorem elsewhere_leaveFor (o : Outlet) (c : Context) (p : Phase) :
    (leaveFor o c p s).elsewhere o = s.elsewhere o := by
  unfold leaveFor setPhase; dsimp only; split <;> simp
@[simp] theorem elsewhere_enterDrained (o : Outlet) : (enterDrained o s).elsewhere o = s.elsewhere o := by
  unfold enterDrained; split <;> simp
@[simp] theorem elsewhere_handover (o : Outlet) (e : StandbyEntry) :
    (handover o e s).elsewhere o = s.elsewhere o := by
  unfold handover; split
  · rfl
  · dsimp only; split <;> simp
@[simp] theorem elsewhere_takeOn (o : Outlet) : (takeOn o s).elsewhere o = s.elsewhere o := by
  unfold takeOn; repeat' split
  all_goals simp
@[simp] theorem elsewhere_examineDrained (o : Outlet) : (examineDrained o s).elsewhere o = s.elsewhere o := by
  unfold examineDrained; repeat' split
  all_goals simp
@[simp] theorem elsewhere_enterIdle (o : Outlet) : (enterIdle o s).elsewhere o = s.elsewhere o := by
  unfold enterIdle; repeat' split
  all_goals simp
@[simp] theorem elsewhere_endStart (before : State) (o : Outlet) :
    (endStart before o s).elsewhere o = s.elsewhere o := by
  unfold endStart; split <;> simp

/-- A start moves the start serial counter too (R29). -/
def countStart (s : State) : State :=
  { s with sessions := { s.sessions with startSerial := s.sessions.startSerial + 1 } }

theorem elsewhere_beginSession (o : Outlet) : (beginSession o s).elsewhere o = (countStart s).elsewhere o := by
  simp only [beginSession, elsewhere_recompute, elsewhere_deliverActive]
  exact elsewhere_mapContext (countStart s) o _

/-! ### The copy to come that an OPEN waits for (R27, R44) -/

/-- A progress copy of the outlet's session is due, and releases the context's waiter. -/
def CopyAwaited (s : State) (o : Outlet) : Prop :=
  ∃ c, s.context o = some c ∧ c.progressDue = true ∧ c.progressWaiter = true

theorem CopyAwaited.endEvent {s : State} {o : Outlet} (h : CopyAwaited s o) : CopyComes (endEvent s) o true := by
  obtain ⟨c, hc, hdue, hwaiter⟩ := h
  exact copyComes_endEvent s o true c hc hdue fun _ => hwaiter

/-- A session whose context keeps both marks has its copy awaited still. -/
theorem CopyAwaited.of_map {s u : State} {o : Outlet} (f : Context → Context) (h : CopyAwaited s o)
    (hu : u.context o = (s.context o).map f)
    (hf : ∀ c, (f c).progressDue = c.progressDue ∧ (f c).progressWaiter = c.progressWaiter) : CopyAwaited u o := by
  obtain ⟨c, hc, hdue, hwaiter⟩ := h
  exact ⟨f c, by rw [hu, hc]; rfl, (hf c).1.trans hdue, (hf c).2.trans hwaiter⟩

theorem CopyAwaited.enterDrained {s : State} {o : Outlet} (h : CopyAwaited s o) : CopyAwaited (enterDrained o s) o := by
  obtain ⟨c, hc, hmarks⟩ := h
  exact ⟨_, (enterDrained_spec s o c hc).1, hmarks⟩

theorem CopyAwaited.recompute {s : State} {o : Outlet} (h : CopyAwaited s o) : CopyAwaited (recompute o s) o := by
  unfold CopyAwaited Machine.recompute; rwa [context_setCeiling]

/-- A handover asks for the copy itself, and the waiter stays. -/
theorem CopyAwaited.handover {s : State} {o : Outlet} (e : StandbyEntry) (h : CopyAwaited s o) :
    CopyAwaited (handover o e s) o := by
  obtain ⟨c, hc, -, hwaiter⟩ := h
  simp only [Machine.handover, hc]
  have hrecomputed (v : State) (hv : v.context o = some (c.takeOver o e s.control.seconds)) :
      CopyAwaited (Machine.recompute o (deliverActive o true v)) o :=
    CopyAwaited.recompute ⟨_, (context_deliverActive v o o true).trans hv, rfl, hwaiter⟩
  split
  · exact (hrecomputed _ (by simp)).enterDrained
  · exact hrecomputed _ (by simp)

theorem CopyAwaited.takeOn {s : State} {o : Outlet} (h : CopyAwaited s o) : CopyAwaited (takeOn o s) o := by
  unfold Machine.takeOn
  repeat' split
  · exact h
  · exact h.handover _
  · exact h.enterDrained
  · exact h

theorem CopyAwaited.endStart {s : State} {o : Outlet} (before : State) (h : CopyAwaited s o) :
    CopyAwaited (endStart before o s) o := by
  unfold Machine.endStart enterIdle
  repeat' split
  · exact h
  · exact h.of_map (fun c => { c with phase := .idle }) (by simp) fun _ => ⟨rfl, rfl⟩
  · exact h
  · exact h

theorem CopyAwaited.beginSession {s : State} {o : Outlet} (h : CopyAwaited s o) : CopyAwaited (beginSession o s) o := by
  refine CopyAwaited.recompute ?_
  refine h.of_map (fun c => c.start s.sessions.startSerial s.control.seconds) ?_ fun _ => ⟨rfl, rfl⟩
  rw [context_deliverActive]
  exact context_mapContext_self s o _

/-! ### A start in its event (R28, R29) -/

/-- A session whose start condition holds starts and is taken on; what R29 puts last follows. -/
theorem startInEvent_of_holds (o : Outlet) (c : Context) (start : StartCondition) (h : s.context o = some c)
    (hp : c.phase = .armed start) (hh : s.startHolds o start = true) :
    startInEvent o s = endStart s o (takeOn o (beginSession o s)) := by
  simp [startInEvent, evaluateStart, h, hp, hh]

/-- Another changes nothing. -/
theorem startInEvent_of_not_holds (o : Outlet) (c : Context) (start : StartCondition) (h : s.context o = some c)
    (hp : c.phase = .armed start) (hh : s.startHolds o start = false) : startInEvent o s = s := by
  simp [startInEvent, evaluateStart, endStart, enterIdle, h, hp, hh]

/-- A start, as the statements say it, to the end of its doing. -/
theorem startInEvent_begins (o : Outlet) (c : Context) (start : StartCondition) (h : s.context o = some c)
    (hp : c.phase = .armed start) (hh : s.startHolds o start = true) :
    let d := c.begun s.sessions.startSerial s.control.seconds
    Begins s o d (d.purseCeiling s.control.settings s.sessions.band) (s.report o).complete (startInEvent o s) := by
  intro d
  have hstart : evaluateStart o s = takeOn o (beginSession o s) := by simp [evaluateStart, h, hp, hh]
  have helse : (evaluateStart o s).elsewhere o = (countStart s).elsewhere o := by
    rw [hstart, elsewhere_takeOn, elsewhere_beginSession]
  have hreport : (evaluateStart o s).report o = s.report o := report_of_elsewhere (s := countStart s) helse o
  have hcontrol : (evaluateStart o s).control = s.control := control_of_elsewhere (s := countStart s) helse
  rw [← hreport]
  exact endStart_begins s s (evaluateStart o s) o d _ rfl (by simp [State.phaseIs, h, hp, Phase.isArmed]) hcontrol
    (evaluateStart_goesOn s o c start h hp hh)

end Sys2Proof.Machine
end

