-- ==== Sys2Proof/Proofs/OpenOrders.lean ====
section
/-! SUPPORT. OPEN (O16 to O18): its refusals in the order of R26, and an accepted OPEN that arms or starts its
session. -/

namespace Sys2Proof.Machine

variable (s : State)

/-! ### The fields of an OPEN (R26) -/

theorem badLink_iff (own : CellIndex) (b : Byte) :
    badLink own b = true ↔ (b ≠ 0xFF#8 ∧ 128 ≤ b.toNat) ∨ b.toNat = own.val := by
  simp [badLink]

theorem startOf_onPlug {o : OpenOrder} (h : o.condition.toNat = 1) : startOf o = some .onPlug := by
  simp only [startOf, h]

theorem startOf_onBand {o : OpenOrder} {b : Band} (h : o.condition.toNat = 2) (hb : o.band.toNat = b.val) :
    startOf o = some (.onBand b) := by
  simp only [startOf, h, asFin_eq_some hb, Option.map_some]

/-- A condition code of another kind, or a band that is none, gives no start condition. -/
theorem startOf_eq_none {o : OpenOrder}
    (h : (o.condition.toNat ≠ 1 ∧ o.condition.toNat ≠ 2) ∨ (o.condition.toNat = 2 ∧ 3 < o.band.toNat)) :
    startOf o = none := by
  rcases h with ⟨h1, h2⟩ | ⟨h2, hb⟩
  · unfold startOf; split
    · exact absurd ‹_› h1
    · exact absurd ‹_› h2
    · rfl
  · simp only [startOf, h2, asFin_eq_none hb, Option.map_none]

/-- The fields of an OPEN are within their ranges, and give this start condition and this priority. -/
structure OpenInRange (cell : CellIndex) (o : OpenOrder) (start : StartCondition) (priority : Fin 4) : Prop where
  start : startOf o = some start
  priority : o.priority.toNat = priority.val
  hold : o.hold.toNat ≤ 1000000
  link : badLink cell o.link = false

section
variable {cell : CellIndex} {o : OpenOrder} {out : Outlet} {i : TariffSlot} {start : StartCondition} {priority : Fin 4}

/-- An OPEN with no field out of range has them all within. -/
theorem exists_openInRange (hpriority : o.priority.toNat ≤ 3)
    (hstart : o.condition.toNat = 1 ∨ (o.condition.toNat = 2 ∧ o.band.toNat ≤ 3)) (hhold : o.hold.toNat ≤ 1000000)
    (hlink : badLink cell o.link = false) : ∃ start priority, OpenInRange cell o start priority := by
  have hp : o.priority.toNat = (⟨o.priority.toNat, by omega⟩ : Fin 4).val := rfl
  rcases hstart with h | ⟨h, hb⟩
  · exact ⟨_, _, startOf_onPlug h, hp, hhold, hlink⟩
  · exact ⟨_, _, startOf_onBand (b := ⟨o.band.toNat, by omega⟩) h rfl, hp, hhold, hlink⟩

theorem takeOpen_badField
    (h : 3 < o.priority.toNat ∨ (o.condition.toNat ≠ 1 ∧ o.condition.toNat ≠ 2) ∨
      (o.condition.toNat = 2 ∧ 3 < o.band.toNat) ∨ 1000000 < o.hold.toNat ∨ badLink cell o.link = true) :
    takeOpen cell o out i s = refuse .badField s := by
  unfold takeOpen
  split
  · next start priority hstart hpriority =>
    have hfields : 1000000 < o.hold.toNat ∨ badLink cell o.link = true := by
      rcases h with h | h | h | h
      · rw [asFin_eq_none h] at hpriority; cases hpriority
      · rw [startOf_eq_none (.inl h)] at hstart; cases hstart
      · rw [startOf_eq_none (.inr h)] at hstart; cases hstart
      · exact h
    rw [if_pos (by simpa using hfields)]
  · rfl

/-- With its fields in range, an OPEN is judged by the context, the tariff slot and the hold, in this order. -/
theorem takeOpen_of_inRange (h : OpenInRange cell o start priority) :
    takeOpen cell o out i s =
      if (s.context out).isSome then refuse .refusedBusy s
      else
        (Table.get s.sessions.tariffs i).elim (refuse .refusedTariff s) fun t =>
          if o.hold.toNat < t.startFee.toNat + s.control.settings.reserve then refuse .refusedHold s
          else
            { outcome := .ok, wait := .progressCopy out,
              state := startInEvent out (setContext out (some (openContext cell o start priority t)) s) } := by
  have hfields : ¬(1000000 < o.hold.toNat || badLink cell o.link) = true := by simp [h.link, h.hold]
  simp only [takeOpen, h.start, asFin_eq_some h.priority, if_neg hfields]
  cases Table.get s.sessions.tariffs i <;> rfl

theorem takeOpen_busy (h : OpenInRange cell o start priority) (hc : s.context out ≠ none) :
    takeOpen cell o out i s = refuse .refusedBusy s := by
  rw [takeOpen_of_inRange s h, if_pos (Option.isSome_iff_ne_none.2 hc)]

theorem takeOpen_noTariff (h : OpenInRange cell o start priority) (hc : s.context out = none)
    (ht : Table.get s.sessions.tariffs i = none) : takeOpen cell o out i s = refuse .refusedTariff s := by
  rw [takeOpen_of_inRange s h, hc]
  rw [ht]; rfl

theorem takeOpen_lowHold {tariff : Tariff} (h : OpenInRange cell o start priority) (hc : s.context out = none)
    (ht : Table.get s.sessions.tariffs i = some tariff)
    (hhold : o.hold.toNat < tariff.startFee.toNat + s.control.settings.reserve) :
    takeOpen cell o out i s = refuse .refusedHold s := by
  rw [takeOpen_of_inRange s h, hc]
  rw [ht]
  exact if_pos hhold

theorem takeOpen_accepted {tariff : Tariff} (h : OpenInRange cell o start priority) (hc : s.context out = none)
    (ht : Table.get s.sessions.tariffs i = some tariff)
    (hhold : tariff.startFee.toNat + s.control.settings.reserve ≤ o.hold.toNat) :
    takeOpen cell o out i s =
      { outcome := .ok, wait := .progressCopy out,
        state := startInEvent out (setContext out (some (openContext cell o start priority tariff)) s) } := by
  rw [takeOpen_of_inRange s h, hc]
  rw [ht]
  exact if_neg (Nat.not_lt.2 hhold)

theorem handOn_open (w : Sweep) (hout : o.outlet.toNat = out.val) (hslot : o.slot.toNat = i.val) :
    handOn cell w (.openSession o) s = takeOpen cell o out i s := by
  simp only [handOn, withOutlet, withSlot, asFin_eq_some hout, asFin_eq_some hslot]

/-- The event of an OPEN. -/
theorem exec_open (t : Time) (h : Receives s cell) (hout : o.outlet.toNat = out.val) (hslot : o.slot.toNat = i.val) :
    exec (.openSession t o) s =
      .next (endEvent (awaitTaken cell (.openSession o) (takeOpen cell o out i (freePort (atTime t s))))) := by
  rw [← handOn_open _ [] hout hslot]
  exact receiveOrder_eq t [] _ h

/-- The hypotheses of O17 and O18 put the fields in range. -/
theorem openInRange_of_fields (hpriority : o.priority.toNat = priority.val)
    (hstart : (o.condition = 1#8 ∧ start = .onPlug) ∨
      (o.condition = 2#8 ∧ ∃ b : Band, o.band.toNat = b.val ∧ start = .onBand b))
    (hhold : o.hold.toNat ≤ 1000000) (hlink : o.link = 0xFF#8 ∨ o.link.toNat < 128)
    (hown : o.link.toNat ≠ cell.val) : OpenInRange cell o start priority := by
  refine ⟨?_, hpriority, hhold, ?_⟩
  · rcases hstart with ⟨h, rfl⟩ | ⟨h, b, hb, rfl⟩
    · exact startOf_onPlug (by rw [h]; rfl)
    · exact startOf_onBand (by rw [h]; rfl) hb
  · rw [Bool.eq_false_iff]
    intro hbad
    rcases (badLink_iff cell o.link).1 hbad with ⟨hne, hge⟩ | heq
    · exact hlink.elim hne fun hlt => absurd hlt (Nat.not_lt.2 hge)
    · exact hown heq

end

/-! ### The refusals (O16) -/

/-- Settles O16: a field out of range is judged first, and what is in range by the context, the slot and the hold. -/
theorem openRefusals : Obligations.OpenRefusals := by
  intro t s cell o out i hr hout hslot bad refusedWith
  have inRange (hgood : ¬bad) : ∃ start priority, OpenInRange cell o start priority := by
    simp only [bad, not_or, ← or_assoc] at hgood
    obtain ⟨⟨⟨⟨⟨hpriority, hcondition⟩, hband⟩, hhold⟩, hlink⟩, hown⟩ := hgood
    refine exists_openInRange (by omega) (by omega) (by omega) ?_
    rw [Bool.eq_false_iff, ne_eq, badLink_iff]
    tauto
  set r := freePort (atTime t s)
  have refused {outcome : OrderOutcome} (h : takeOpen cell o out i r = refuse outcome r) :
      refusedWith outcome (endEvent (awaitTaken cell (.openSession o) (takeOpen cell o out i r))) :=
    takenAs_refuse s cell _ t h
  refine ⟨_, exec_open s t hr hout hslot, fun hbad => refused ?_, fun hgood hc => refused ?_,
    fun hgood hc ht => refused ?_, fun tariff hgood hc ht hhold => refused ?_⟩
  · refine takeOpen_badField r (hbad.imp_right (Or.imp_right (Or.imp_right (Or.imp_right fun h => ?_))))
    exact (badLink_iff cell o.link).2 h
  · obtain ⟨start, priority, h⟩ := inRange hgood
    exact takeOpen_busy r h hc
  · obtain ⟨start, priority, h⟩ := inRange hgood
    exact takeOpen_noTariff r h hc ht
  · obtain ⟨start, priority, h⟩ := inRange hgood
    exact takeOpen_lowHold r h hc ht hhold

/-! ### An OPEN that arms (O17) -/

/-- Settles O17: a start that does not hold leaves the context as it was filled, with both marks of its copy set. -/
theorem openArms : Obligations.OpenArms := by
  intro t s cell o out i tariff start priority hr hout hslot hpriority hstart hhold hlink hown hc ht hfee hno
  have hrange := openInRange_of_fields hpriority hstart hhold hlink hown
  set r := freePort (atTime t s)
  set c := openContext cell o start priority tariff
  have hstate : startInEvent out (setContext out (some c) r) = setContext out (some c) r :=
    startInEvent_of_not_holds _ out c start (context_setContext_self _ _ _) rfl hno
  have htaken : takeOpen cell o out i r =
      { outcome := .ok, wait := .progressCopy out, state := setContext out (some c) r } := by
    rw [takeOpen_accepted r hrange hc ht hfee, hstate]
  have hawaited : CopyAwaited (setContext out (some c) r) out := ⟨c, context_setContext_self _ _ _, rfl, rfl⟩
  refine ⟨_, exec_open s t hr hout hslot, ?_, ?_⟩
  · rw [htaken]; exact CopyAwaited.endEvent (s := awaitTaken cell _ _) hawaited
  · rw [htaken]; exact takenAs_awaitTaken cell _ rfl

/-! ### An OPEN that starts (O18) -/

theorem exists_context_of_stands {u : State} {o : Outlet} {c : Context} (h : Stands u o c) :
    ∃ x, u.context o = some x ∧ x.body = c.body := by
  simpa [Stands, Option.map_eq_some_iff] using h

/-- The terms of a session do not hang on the settlement writer's marks. -/
theorem terms_of_body {x c : Context} (h : x.body = c.body) :
    x.started = c.started ∧ x.priority = c.priority ∧ x.phase = c.phase ∧ x.cell = c.cell ∧ x.hold = c.hold ∧
    x.tariff = c.tariff ∧ x.reference = c.reference ∧ x.link = c.link ∧ x.startFeeCharged = c.startFeeCharged ∧
    x.chargedTotal = c.chargedTotal ∧ ∀ p b, x.purseCeiling p b = c.purseCeiling p b :=
  have field {β : Type} (f : Context → β) (hf : ∀ y : Context, f y.body = f y) : f x = f c := by rw [← hf, h, hf]
  ⟨field _ fun _ => rfl, field _ fun _ => rfl, field _ fun _ => rfl, field _ fun _ => rfl, field _ fun _ => rfl,
    field _ fun _ => rfl, field _ fun _ => rfl, field _ fun _ => rfl, field _ fun _ => rfl, field _ fun _ => rfl,
    fun p b => field (fun y => y.purseCeiling p b) fun _ => rfl⟩

/-- What a session that has begun with nothing against a handover holds at the end of its event, whichever way it
went. -/
theorem Begins.context {s u : State} {o : Outlet} {d : Context} {n : Nat} {complete : Bool}
    (h : Begins s o d n complete u) (hheld : d.auditHeld = false) (hgiven : d.givenUp = none)
    (hn : n = d.purseCeiling u.control.settings u.sessions.band) :
    ∃ c, u.context o = some c ∧ c.started = d.started ∧ c.priority = d.priority ∧
      u.ceiling o = c.purseCeiling u.control.settings u.sessions.band ∧
      c.phase = (if u.ceiling o = 0 then .drained else if complete then .idle else .active) ∧
      (0 < n ∨ (∀ l, d.link = some l → s.entryOf l = none) →
        c.cell = d.cell ∧ c.hold = d.hold ∧ c.tariff = d.tariff ∧ c.reference = d.reference ∧ c.link = d.link ∧
        c.startFeeCharged = d.startFeeCharged ∧ c.chargedTotal = d.chargedTotal ∧ u.ceiling o = n) := by
  obtain ⟨hactive, hdrained, hhanded⟩ := h
  by_cases hpos : 0 < n
  · obtain ⟨hstands, hceiling, -⟩ := hactive (.inl hpos)
    obtain ⟨c, hc, hbody⟩ := exists_context_of_stands hstands
    obtain ⟨h1, h2, h3, h4, h5, h6, h7, h8, h9, h10, h11⟩ := terms_of_body hbody
    refine ⟨c, hc, h1, h2, ?_, ?_, fun _ => ⟨h4, h5, h6, h7, h8, h9, h10, hceiling⟩⟩
    · rw [hceiling, hn, h11]; rfl
    · rw [hceiling, if_neg (by omega), h3]
  · have h0 : n = 0 := by omega
    by_cases hsucc : ∀ l, d.link = some l → s.entryOf l = none
    · obtain ⟨hstands, hceiling, -⟩ := hdrained h0 hheld (.inr hsucc)
      obtain ⟨c, hc, hbody⟩ := exists_context_of_stands hstands
      obtain ⟨h1, h2, h3, h4, h5, h6, h7, h8, h9, h10, h11⟩ := terms_of_body hbody
      refine ⟨c, hc, h1, h2, ?_, ?_, fun _ => ⟨h4, h5, h6, h7, h8, h9, h10, hceiling.trans h0.symm⟩⟩
      · rw [hceiling, ← h0, hn, h11]; rfl
      · rw [hceiling, if_pos rfl, h3]
    · push Not at hsucc
      obtain ⟨l, hl, he⟩ := hsucc
      obtain ⟨e, he⟩ := Option.ne_none_iff_exists'.1 he
      obtain ⟨⟨hstands, hceiling, -⟩, -⟩ := hhanded l e h0 hheld hgiven hl he
      obtain ⟨c, hc, hbody⟩ := exists_context_of_stands hstands
      obtain ⟨h1, h2, h3, -, -, -, -, -, -, -, h11⟩ := terms_of_body hbody
      refine ⟨c, hc, h1, h2, ?_, h3, fun hor => ?_⟩
      · rw [h11]; exact hceiling
      · rcases hor with hor | hor
        · exact absurd hor hpos
        · rw [hor l hl] at he; cases he

/-- Settles O18: the start as `startInEvent_begins` says it, read off at the end of the event. -/
theorem openStarts : Obligations.OpenStarts := by
  intro t s cell o out i tariff start priority hr hout hslot hpriority hstart hhold hlink hown hc ht hfee hholds fee d n
  have hrange := openInRange_of_fields hpriority hstart hhold hlink hown
  set filled := openContext cell o start priority tariff with hfilled
  set r := setContext out (some filled) (freePort (atTime t s))
  have hcontext : r.context out = some filled := context_setContext_self _ _ _
  have htaken := takeOpen_accepted (freePort (atTime t s)) hrange hc ht hfee
  set k := takeOpen cell o out i (freePort (atTime t s))
  have hd : filled.begun s.sessions.startSerial s.control.seconds = d := by
    simp only [hfilled, openContext, Context.begun, Nat.zero_add]; rfl
  have hstate : k.state = startInEvent out r := by rw [htaken]
  have hbegins : Begins s out d n (s.report out).complete (awaitTaken cell (.openSession o) k) := by
    have h : Begins s out (filled.begun s.sessions.startSerial s.control.seconds)
        ((filled.begun s.sessions.startSerial s.control.seconds).purseCeiling s.control.settings s.sessions.band)
        (s.report out).complete (startInEvent out r) := startInEvent_begins r out filled start hcontext rfl hholds
    rw [hd, ← hstate] at h
    exact h
  have hrun : startInEvent out r = endStart r out (takeOn out (beginSession out r)) :=
    startInEvent_of_holds r out filled start hcontext rfl hholds
  have helse : k.state.elsewhere out = (countStart (freePort (atTime t s))).elsewhere out := by
    rw [hstate, hrun, elsewhere_endStart, elsewhere_takeOn, elsewhere_beginSession]
    exact elsewhere_setContext (countStart (freePort (atTime t s))) out _
  have hawaited : CopyAwaited k.state out := by
    rw [hstate, hrun]
    exact ((CopyAwaited.beginSession ⟨filled, hcontext, rfl, rfl⟩).takeOn).endStart r
  set u := endEvent (awaitTaken cell (.openSession o) k) with hu
  have hcontrol : k.state.control = s.control := (control_of_elsewhere helse :)
  have hsettings : u.control.settings = s.control.settings :=
    (settings_endEvent _).trans (congrArg Control.settings hcontrol)
  have hband : u.sessions.band = s.sessions.band :=
    (band_endEvent _).trans (congrArg (fun b : Beyond => b.sessions.band) helse)
  obtain ⟨c, hc', hstarted, hprio, hceiling, hphase, hterms⟩ :=
    hbegins.endEvent.context rfl rfl (by rw [← hu, hsettings, hband])
  rw [← hu, hsettings, hband] at hceiling
  have hunit : u.orders.unit = .waiting cell (postedPart (.openSession o)) k.outcome false k.wait :=
    unit_awaitTaken cell _ k
  rw [htaken] at hunit
  refine ⟨u, c, exec_open s t hr hout hslot, CopyAwaited.endEvent (s := awaitTaken cell _ k) hawaited, hunit,
    (startSerial_endEvent _).trans (startSerial_of_elsewhere helse :), hc', hstarted, hprio, hceiling, hphase, hterms,
    hbegins.endEvent, fun out' hne => ?_⟩
  have hother : k.state.context out' = s.context out' := (context_of_elsewhere helse hne :)
  exact (context_endEvent _ out').trans (congrArg (Option.map Context.body) hother)

end Sys2Proof.Machine
end

