-- ==== Sys2Proof/Proofs/StopOrders.lean ====
section
/-! SUPPORT. STOP (O21), and the end of a session with the release of its standing entry (R30, R47, R157); SYNC and
AUDIT (O24). -/

namespace Sys2Proof.Machine

variable (s : State)

/-! ### The waits of the order in hand -/

@[simp] theorem sessions_endWait : (endWait s).sessions = s.sessions := by unfold endWait; split <;> rfl
@[simp] theorem standby_endWait : (endWait s).standby = s.standby := by unfold endWait; split <;> rfl
@[simp] theorem body_endWait : (endWait s).body = s.body := by unfold endWait; split <;> rfl

@[simp] theorem sessions_endProgressWait (o : Outlet) : (endProgressWait o s).sessions = s.sessions := by
  unfold endProgressWait; repeat' split
  all_goals simp
@[simp] theorem standby_endProgressWait (o : Outlet) : (endProgressWait o s).standby = s.standby := by
  unfold endProgressWait; repeat' split
  all_goals simp
@[simp] theorem body_endProgressWait (o : Outlet) : (endProgressWait o s).body = s.body := by
  unfold endProgressWait; repeat' split
  all_goals simp

@[simp] theorem sessions_endLinkWait (l : CellIndex) : (endLinkWait l s).sessions = s.sessions := by
  unfold endLinkWait; split <;> simp
@[simp] theorem standby_endLinkWait (l : CellIndex) : (endLinkWait l s).standby = s.standby := by
  unfold endLinkWait; split <;> simp

/-! ### A context that becomes VACANT (R22, R136) -/

theorem context_vacate (o o' : Outlet) : (vacate o s).context o' = if o = o' then none else s.context o' := by
  rw [vacate, context_setCeiling, State.context, sessions_endProgressWait]
  exact context_setContext s o o' none

theorem ceiling_vacate (o : Outlet) : (vacate o s).ceiling o = 0 := by
  rw [vacate, ceiling_setCeiling, if_pos rfl]

@[simp] theorem standby_vacate (o : Outlet) : (vacate o s).standby = s.standby := by
  rw [vacate, standby_setCeiling, standby_endProgressWait, setContext_standby]

@[simp] theorem endWords_vacate (o : Outlet) : (vacate o s).sessions.endWords = s.sessions.endWords := by
  have h : (vacate o s).sessions.endWords = (endProgressWait o (setContext o none s)).sessions.endWords :=
    congrArg (fun b : Beyond => b.sessions.endWords) (beyond_setCeiling _ o 0)
  rw [h, sessions_endProgressWait]; rfl

/-! ### The end of a session (R30, R47, R157) -/

/-- A link that names no standing entry releases none. -/
theorem releaseUnused_of_none {link : Option CellIndex} (h : ∀ l, link = some l → s.entryOf l = none) :
    releaseUnused link s = s := by
  cases link with
  | none => rfl
  | some l => simp only [releaseUnused, Option.bind_some, h l rfl]

theorem releaseUnused_of_some {l : CellIndex} {e : StandbyEntry} (h : s.entryOf l = some e) :
    releaseUnused (some l) s = endLinkWait l (queueEndWord l .unused (removeEntry l s)) := by
  simp only [releaseUnused, Option.bind_some, h, cell_of_entryOf s l e h]

/-- What the release of an entry leaves of the sessions, but for the end words. -/
theorem contexts_releaseUnused (link : Option CellIndex) :
    (releaseUnused link s).sessions.contexts = s.sessions.contexts ∧
    (releaseUnused link s).sessions.ceilings = s.sessions.ceilings := by
  unfold releaseUnused; split
  · exact ⟨rfl, rfl⟩
  · rw [sessions_endLinkWait]; exact ⟨rfl, rfl⟩

/-- A session that ends with an outcome: VACANT, its end word queued, its standing entry released. -/
def endSession (o : Outlet) (c : Context) (r : OrderOutcome) (s : State) : State :=
  releaseUnused c.link (queueEndWord c.cell r (vacate o s))

section
variable (o : Outlet) (c : Context) (r : OrderOutcome)

theorem context_endSession (o' : Outlet) :
    (endSession o c r s).context o' = if o = o' then none else s.context o' := by
  have h : (endSession o c r s).sessions.contexts = (vacate o s).sessions.contexts :=
    (contexts_releaseUnused (queueEndWord c.cell r (vacate o s)) c.link).1
  rw [State.context, h]
  exact context_vacate s o o'

theorem ceiling_endSession : (endSession o c r s).ceiling o = 0 := by
  have h : (endSession o c r s).sessions.ceilings = (vacate o s).sessions.ceilings :=
    (contexts_releaseUnused (queueEndWord c.cell r (vacate o s)) c.link).2
  rw [State.ceiling, h]
  exact ceiling_vacate s o

theorem entryOf_vacated (l : CellIndex) : (queueEndWord c.cell r (vacate o s)).entryOf l = s.entryOf l := by
  rw [State.entryOf, queueEndWord_standby, standby_vacate]; rfl

theorem endSession_of_none (h : ∀ l, c.link = some l → s.entryOf l = none) :
    endSession o c r s = queueEndWord c.cell r (vacate o s) :=
  releaseUnused_of_none _ fun l hl => (entryOf_vacated s o c r l).trans (h l hl)

theorem endSession_of_some {l : CellIndex} {e : StandbyEntry} (hl : c.link = some l) (he : s.entryOf l = some e) :
    endSession o c r s =
      endLinkWait l (queueEndWord l .unused (removeEntry l (queueEndWord c.cell r (vacate o s)))) := by
  rw [endSession, hl]
  exact releaseUnused_of_some _ ((entryOf_vacated s o c r l).trans he)

theorem endWords_endSession_of_none (h : ∀ l, c.link = some l → s.entryOf l = none) :
    (endSession o c r s).sessions.endWords = s.sessions.endWords ++ [{ cell := c.cell, outcome := r }] := by
  rw [endSession_of_none s o c r h]
  exact congrArg (· ++ [_]) (endWords_vacate s o)

theorem endSession_releases {l : CellIndex} {e : StandbyEntry} (hl : c.link = some l) (he : s.entryOf l = some e) :
    (endSession o c r s).entryOf l = none ∧
    (endSession o c r s).sessions.endWords =
      s.sessions.endWords ++ [{ cell := c.cell, outcome := r }, { cell := l, outcome := .unused }] := by
  rw [endSession_of_some s o c r hl he]
  refine ⟨?_, ?_⟩
  · rw [State.entryOf, standby_endLinkWait, queueEndWord_standby]
    exact entryOf_removeEntry _ l
  · rw [sessions_endLinkWait]
    show ((vacate o s).sessions.endWords ++ [_]) ++ [_] = _
    rw [endWords_vacate, List.append_assoc]
    rfl

end

/-! ### STOP (R30, R37) -/

theorem withOutlet_eq {b : Byte} {out : Outlet} (f : Outlet → Taken) (h : b.toNat = out.val) :
    withOutlet b s f = f out := by
  rw [withOutlet, asFin_eq_some h]

/-- The event of an order that is given to a block by its outlet. -/
theorem receiveOrder_withOutlet {s : State} {cell : CellIndex} {b : Byte} {out : Outlet} {o : Order} (t : Time)
    (w : Sweep) (f : State → Outlet → Taken) (h : Receives s cell) (hout : b.toNat = out.val)
    (hf : ∀ u, handOn cell w o u = withOutlet b u (f u)) :
    receiveOrder t w (postedPart o) s = .next (endEvent (awaitTaken cell o (f (freePort (atTime t s)) out))) := by
  rw [receiveOrder_eq t w o h, hf, withOutlet_eq _ _ hout]

section
variable {o : Outlet} {c : Context}

theorem takeStop_vacant (h : s.context o = none) : takeStop o s = refuse .noSession s := by
  simp only [takeStop, h]

theorem takeStop_armed {start : StartCondition} (h : s.context o = some c) (hp : c.phase = .armed start) :
    takeStop o s = { outcome := .cancelled, wait := .nothing, state := endSession o c .cancelled s } := by
  simp only [takeStop, h, hp]; rfl

theorem takeStop_ending (h : s.context o = some c) (hp : c.phase.isClosing = true ∨ c.phase.isSettling = true) :
    takeStop o s = refuse .alreadyClosing s := by
  simp only [takeStop, h]
  cases hc : c.phase with
  | closing => rfl
  | settling => rfl
  | _ => rw [hc] at hp; exact absurd hp (by simp [Phase.isClosing, Phase.isSettling])

theorem takeStop_running (h : s.context o = some c) (hp : c.phase.running = true) :
    takeStop o s = accept (closeSession o .stopped s) := by
  simp only [takeStop, h]
  cases hc : c.phase with
  | armed | closing | settling => rw [hc] at hp; cases hp
  | _ => rfl

theorem heldCount_leaveFor (p : Phase) : (leaveFor o c p s).heldCount o = s.heldCount o := by
  unfold leaveFor; dsimp only; split
  · exact heldCount_deliverActive_false _ o
  · rfl

/-- A running session enters CLOSING; its modules stay GRANTED or RELEASING in the event, and its report as it was. -/
theorem enterClosing_spec (reason : EndReason) (h : s.context o = some c) (hp : c.phase.running = true) :
    let v := enterClosing o reason s
    v.context o = some (c.closing reason s.control.seconds) ∧ v.heldCount o = s.heldCount o ∧
      v.report o = s.report o := by
  intro v
  have hv : v = mapContext o (fun c => { c with closingMinutes := 0, finalReading := false })
      (leaveFor o c (.closing reason s.control.seconds) s) := by simp only [v, enterClosing, h, hp, if_true]
  rw [hv]
  refine ⟨?_, heldCount_leaveFor s _, report_of_elsewhere (elsewhere_leaveFor s o c _) o⟩
  rw [context_mapContext_self, context_leaveFor_self, h]; rfl

/-- A running session that is closed is judged by the modules and the line it has (R41). -/
theorem context_closeSession (reason : EndReason) (h : s.context o = some c) (hp : c.phase.running = true) :
    (closeSession o reason s).context o =
      some ((c.closing reason s.control.seconds).judged (s.heldCount o) (s.report o).lineStale) := by
  obtain ⟨hcontext, hheld, hreport⟩ := enterClosing_spec s reason h hp
  rw [closeSession, checkSettle_eq, context_mapContext_self, hcontext, hheld, hreport, Option.map_some]

end

/-- Settles O21, by the phase that the STOP finds. -/
theorem stopByState : Obligations.StopByState := by
  intro t s cell b out hr hout
  set r := freePort (atTime t s)
  have hexec : exec (.stop t b) s = .next (endEvent (awaitTaken cell (.stop b) (takeStop out r))) :=
    receiveOrder_withOutlet t [] (fun u o => takeStop o u) hr hout fun _ => rfl
  refine ⟨_, hexec, fun hc => takenAs_refuse s cell _ t (takeStop_vacant r hc), fun c hc => ⟨fun hp => ?_, fun hp => ?_,
    fun start hp => ?_⟩⟩
  · exact takenAs_refuse s cell _ t (takeStop_ending r hc hp)
  · have htaken := takeStop_running r hc hp
    have hcontext := context_closeSession r .stopped hc hp
    refine ⟨by rw [unit_awaitTaken, htaken]; rfl, ?_⟩
    rw [htaken]
    exact stands_awaitTaken cell _ hcontext
  · rw [takeStop_armed r hc hp]
    set k : Taken := { outcome := .cancelled, wait := .nothing, state := endSession out c .cancelled r }
    have hcontext : k.state.context out = none := (context_endSession r out c _ out).trans (if_pos rfl)
    refine ⟨unit_awaitTaken cell _ k, context_endEvent_eq_none (awaitTaken cell _ k) hcontext,
      (ceiling_awaitTaken cell _ k out).trans (ceiling_endSession r out c _), fun hnone => ?_, fun l e hl he => ?_⟩
    · exact (endWords_endEvent _).trans (endWords_endSession_of_none r out c _ hnone)
    · obtain ⟨hgone, hwords⟩ := endSession_releases r out c .cancelled hl he
      exact ⟨(endWords_endEvent _).trans hwords, entryOf_endEvent_eq_none (awaitTaken cell _ k) hgone⟩

/-! ### SYNC and AUDIT (R45, R158) -/

/-- Contexts that differ in the settlement writer's marks alone make states with one body. -/
theorem body_setContext_congr (o : Outlet) {x y : Option Context} (h : x.map Context.body = y.map Context.body) :
    (setContext o x s).body = (setContext o y s).body := by
  have hset (z : Option Context) : (Table.set s.sessions.contexts o z).map (Option.map Context.body) =
      Table.set (s.sessions.contexts.map (Option.map Context.body)) o (z.map Context.body) := Vector.map_set ..
  simp only [State.body, setContext, hset, h]

theorem takeSync_vacant {o : Outlet} (h : s.context o = none) : takeSync o s = refuse .noSession s := by
  simp [takeSync, h]

theorem takeSync_live {o : Outlet} {c : Context} (h : s.context o = some c) :
    takeSync o s =
      { outcome := .ok, wait := .progressCopy o,
        state := setContext o (some { c with progressDue := true, progressWaiter := true }) s } := by
  simp [takeSync, h, mapContext]

theorem takeAudit_badField {o : Outlet} {action : Byte} (h1 : action ≠ 1#8) (h2 : action ≠ 2#8) :
    takeAudit o action s = refuse .badField s := by
  unfold takeAudit
  dsimp only
  split
  · exact absurd (BitVec.eq_of_toNat_eq ‹_›) h1
  · exact absurd (BitVec.eq_of_toNat_eq ‹_›) h2
  · rfl

/-- Settles O24: a SYNC by the context it finds, an AUDIT by its action. -/
theorem syncAndAuditOrders : Obligations.SyncAndAuditOrders := by
  refine ⟨fun t s cell b out hr hout => ?_, ?_⟩
  · set r := freePort (atTime t s)
    have hexec : exec (.sync t b) s = .next (endEvent (awaitTaken cell (.sync b) (takeSync out r))) :=
      receiveOrder_withOutlet t [] (fun u o => takeSync o u) hr hout fun _ => rfl
    refine ⟨_, hexec, fun hc => takenAs_refuse s cell _ t (takeSync_vacant r hc), fun c hc => ?_⟩
    rw [takeSync_live r hc]
    set k : Taken := { outcome := .ok, wait := .progressCopy out,
                       state := setContext out (some { c with progressDue := true, progressWaiter := true }) r }
    have hawaited : CopyAwaited k.state out := ⟨_, context_setContext_self _ _ _, rfl, rfl⟩
    refine ⟨CopyAwaited.endEvent (s := awaitTaken cell _ k) hawaited, takenAs_awaitTaken cell _ (k := k) ?_⟩
    exact body_setContext_congr r out (x := some { c with progressDue := true, progressWaiter := true }) rfl
  · intro t s cell b out hr hout flagged
    refine ⟨?_, ?_, fun action w h1 h2 => ?_⟩
    · have hexec : exec (.auditSet t b) s =
          .next (endEvent (awaitTaken cell (.audit b 1) (takeAudit out 1 (freePort (atTime t s))))) :=
        receiveOrder_withOutlet t [] (fun u o => takeAudit o 1 u) hr hout fun _ => rfl
      exact ⟨_, hexec, takenAs_awaitTaken cell _ rfl⟩
    · have hexec : exec (.auditClear t b) s =
          .next (endEvent (awaitTaken cell (.audit b 2) (takeAudit out 2 (freePort (atTime t s))))) :=
        receiveOrder_withOutlet t [] (fun u o => takeAudit o 2 u) hr hout fun _ => rfl
      exact ⟨_, hexec, takenAs_awaitTaken cell _ rfl⟩
    · have hexec : exec (.orderReadDone t w (encodeOrder (.audit b action))) s =
          .next (endEvent (awaitTaken cell (.audit b action) (takeAudit out action (freePort (atTime t s))))) := by
        rw [receiveOrder_encodeOrder]
        exact receiveOrder_withOutlet t w (fun u o => takeAudit o action u) hr hout fun _ => rfl
      exact ⟨_, hexec, takenAs_refuse s cell _ t (takeAudit_badField _ h1 h2)⟩

end Sys2Proof.Machine
end

