-- ==== Sys2Proof/Proofs/AmendOrders.lean ====
section
/-! SUPPORT. AMEND (O22, O23): its refusals in the order of R35, the priority it replaces, and the hold it replaces with
the ceiling that follows (R36, R137, R138). -/

namespace Sys2Proof

namespace Machine

variable (s : State)

/-! ### The refusals (R35) -/

theorem badAmend_iff (a : AmendOrder) :
    badAmend a = true ↔
      (¬a.present.getLsbD 0 = true ∧ ¬a.present.getLsbD 1 = true) ∨
      (a.present.getLsbD 0 = true ∧ 1000000 < a.hold.toNat) ∨
      (a.present.getLsbD 1 = true ∧ 3 < a.priority.toNat) := by
  simp [badAmend, amendsHold, amendsPriority, or_assoc]

section
variable {a : AmendOrder} {o : Outlet} {c : Context}

theorem takeAmend_badField (h : badAmend a = true) : takeAmend a o s = refuse .badField s := by
  rw [takeAmend, if_pos h]

theorem takeAmend_vacant (h : badAmend a = false) (hc : s.context o = none) :
    takeAmend a o s = refuse .noSession s := by
  simp [takeAmend, h, hc]

theorem takeAmend_belowSpent (h : badAmend a = false) (hc : s.context o = some c) (hold : amendsHold a = true)
    (hlow : a.hold.toNat < c.chargedTotal) : takeAmend a o s = refuse .belowSpent s := by
  simp [takeAmend, h, hc, hold, hlow]

/-- An AMEND that is not refused: the priority, where it is present, and then the hold, where it is. -/
theorem takeAmend_accepted (h : badAmend a = false) (hc : s.context o = some c)
    (hold : amendsHold a = true → c.chargedTotal ≤ a.hold.toNat) :
    takeAmend a o s =
      let v := if amendsPriority a then amendPriority o (Fin.ofNat 4 a.priority.toNat) s else s
      accept (if amendsHold a then amendHold o a.hold.toNat v else v) := by
  have hspent : ¬(amendsHold a && decide (a.hold.toNat < c.chargedTotal)) = true := by
    simpa using hold
  simp only [takeAmend, h, hc, if_neg hspent, Bool.false_eq_true, if_false]

theorem takeAmend_priority {p : Fin 4} (h : badAmend a = false) (hc : s.context o = some c)
    (hold : amendsHold a = false) (hpriority : amendsPriority a = true) (hp : a.priority.toNat = p.val) :
    takeAmend a o s = accept (amendPriority o p s) := by
  rw [takeAmend_accepted s h hc fun h => absurd h (by simp [hold]), hp, Fin.ofNat_val_eq_self]
  simp [hold, hpriority]

theorem takeAmend_hold (h : badAmend a = false) (hc : s.context o = some c) (hold : amendsHold a = true)
    (hpriority : amendsPriority a = false) (hspent : c.chargedTotal ≤ a.hold.toNat) :
    takeAmend a o s = accept (amendHold o a.hold.toNat s) := by
  rw [takeAmend_accepted s h hc fun _ => hspent]
  simp [hold, hpriority]

theorem takeAmend_both {p : Fin 4} (h : badAmend a = false) (hc : s.context o = some c) (hold : amendsHold a = true)
    (hpriority : amendsPriority a = true) (hspent : c.chargedTotal ≤ a.hold.toNat) (hp : a.priority.toNat = p.val) :
    takeAmend a o s = accept (amendHold o a.hold.toNat (amendPriority o p s)) := by
  rw [takeAmend_accepted s h hc fun _ => hspent, hp, Fin.ofNat_val_eq_self]
  simp [hold, hpriority]

/-- An AMEND of a hold alone is judged by the hold alone. -/
theorem badAmend_of_hold (hold : amendsHold a = true) (hpriority : amendsPriority a = false)
    (hmax : a.hold.toNat ≤ 1000000) : badAmend a = false := by
  simp [badAmend, hold, hpriority, hmax]

/-- The event of an AMEND. -/
theorem exec_amend {cell : CellIndex} (t : Time) (h : Receives s cell) (hout : a.outlet.toNat = o.val) :
    exec (.amend t a) s = .next (endEvent (awaitTaken cell (.amend a) (takeAmend a o (freePort (atTime t s))))) :=
  receiveOrder_withOutlet t [] (fun u o => takeAmend a o u) h hout fun _ => rfl

end

/-! ### The priority (R36, R147) -/

/-- The priority of a session and of its outlet's entry replaced, with a pass where it differs. -/
theorem amendPriority_eq {o : Outlet} {c : Context} (p : Fin 4) (h : s.context o = some c) :
    amendPriority o p s =
      { setContext o (some { c with priority := p }) s with
        standby := s.standby.map fun e => if e.outlet = o then { e with priority := p } else e,
        power := { s.power with passRequest := s.power.passRequest || decide (c.priority ≠ p) } } := by
  have hmap : mapContext o (fun c => { c with priority := p }) s = setContext o (some { c with priority := p }) s := by
    simp [mapContext, h]
  by_cases hp : c.priority = p
  · simp [amendPriority, h, hmap, hp]
  · simp [amendPriority, h, hmap, hp, requestPass]

/-- No cell becomes live by it, and none vacant. -/
theorem cellLive_amendPriority (o : Outlet) (p : Fin 4) (cell : CellIndex) :
    (amendPriority o p s).cellLive cell = s.cellLive cell := by
  have hcontext (o' : Outlet) : ((amendPriority o p s).context o').any (fun c => decide (c.cell = cell)) =
      (s.context o').any fun c => decide (c.cell = cell) := by
    have hmap : (amendPriority o p s).context o' = (mapContext o (fun c => { c with priority := p }) s).context o' := by
      unfold amendPriority; dsimp only; split <;> rfl
    rw [hmap, context_mapContext]
    split
    · next h => subst h; cases s.context o <;> rfl
    · rfl
  have hstandby : (amendPriority o p s).standby =
      s.standby.map fun e => if e.outlet = o then { e with priority := p } else e := by
    unfold amendPriority; dsimp only; split <;> rfl
  have hentry (e : StandbyEntry) :
      decide ((if e.outlet = o then { e with priority := p } else e).cell = cell) = decide (e.cell = cell) := by
    split <;> rfl
  simp only [State.cellLive, hcontext, hstandby, List.any_map, Function.comp_def, hentry]

theorem receives_amendPriority {cell : CellIndex} (o : Outlet) (p : Fin 4) (h : Receives s cell) :
    Receives (amendPriority o p s) cell := by
  refine ⟨?_, (cellLive_amendPriority s o p cell).trans h.2⟩
  rw [← h.1]
  unfold amendPriority; dsimp only; split <;> rfl

/-- The priority is replaced alike before and after the clock is read and the port freed. -/
theorem amendPriority_comm (o : Outlet) (p : Fin 4) (t : Time) :
    amendPriority o p (freePort (atTime t s)) = freePort (atTime t (amendPriority o p s)) := by
  have h : (freePort (atTime t s)).context o = s.context o := rfl
  unfold amendPriority
  simp only [h]
  split <;> rfl

/-- Settles O22: the refusals in their order, the priority alone, and both parts as an AMEND of the hold alone in the
state with the priority replaced. -/
theorem amendRefusalsAndPriority : Obligations.AmendRefusalsAndPriority := by
  intro t s cell a out hr hout holdPresent priorityPresent bad refusedWith
  set r := freePort (atTime t s) with hr0
  have good (h : ¬bad) : badAmend a = false := Bool.eq_false_iff.2 (mt (badAmend_iff a).1 h)
  refine ⟨_, exec_amend s t hr hout, fun hbad => ?_, fun hgood hc => ?_, fun c hgood hc => ⟨fun hhold hlow => ?_,
    fun hnohold p hp => ?_, fun hhold hspent hpriority p hp => ?_⟩⟩
  · exact takenAs_refuse s cell _ t (takeAmend_badField r ((badAmend_iff a).2 hbad))
  · exact takenAs_refuse s cell _ t (takeAmend_vacant r (good hgood) hc)
  · exact takenAs_refuse s cell _ t (takeAmend_belowSpent r (good hgood) hc hhold hlow)
  · have hpriority : priorityPresent := by
      by_contra h
      exact hgood (.inl ⟨hnohold, h⟩)
    rw [takeAmend_priority r (good hgood) hc (Bool.eq_false_iff.2 hnohold) hpriority hp, amendPriority_eq r p hc]
    exact takenAs_awaitTaken cell _ rfl
  · have hamended := amendPriority_eq s p hc
    rw [← hamended]
    set s' := amendPriority out p s with hs'
    have hc' : (freePort (atTime t s')).context out = some { c with priority := p } :=
      hamended ▸ context_setContext_self s out _
    have hboth := takeAmend_both r (good hgood) hc hhold hpriority hspent hp
    rw [hr0, amendPriority_comm, ← hs'] at hboth
    have hmax : a.hold.toNat ≤ 1000000 := by
      by_contra h
      exact hgood (.inr (.inl ⟨hhold, by omega⟩))
    have bit0 : (1 : Byte).getLsbD 0 = true := by decide
    have bit1 : (1 : Byte).getLsbD 1 = false := by decide
    have hone := takeAmend_hold (a := { a with present := 1 }) (freePort (atTime t s'))
      (badAmend_of_hold bit0 bit1 hmax) hc' bit0 bit1 hspent
    refine ⟨_, exec_amend s' t (receives_amendPriority s out p hr) hout, ?_, ?_⟩
    · rw [body_awaitTaken, body_awaitTaken, hboth, hone]
    · rw [unit_awaitTaken, hboth]; rfl

/-! ### The hold (R36, R137, R138) -/

/-- A session that has gone on is live. -/
theorem GoesOn.live {s u : State} {o : Outlet} {c : Context} {n : Nat} {held : Bool} (h : GoesOn s o c n held u) :
    ∃ x, u.context o = some x := by
  have live {x : Context} (hx : Stands u o x) : ∃ y, u.context o = some y :=
    (exists_context_of_stands hx).imp fun _ h => h.1
  obtain ⟨hactive, hdrained, hhanded⟩ := h
  by_cases hn : 0 < n ∨ c.auditHeld = true
  · exact live (hactive hn).1
  · obtain ⟨h0, ha⟩ := not_or.1 hn
    have h0' : n = 0 := by omega
    have ha' : c.auditHeld = false := by simpa using ha
    by_cases hs : NoSuccessor s c
    · exact live (hdrained h0' ha' hs).1
    · simp only [NoSuccessor, not_or, not_not, not_forall] at hs
      obtain ⟨hg, l, hl, he⟩ := hs
      obtain ⟨e, he⟩ := Option.ne_none_iff_exists'.1 he
      exact live (hhanded l e h0' ha' hg hl he).1

section
variable {o : Outlet} {c : Context}

theorem takeOn_of_not_active (h : s.context o = some c) (hp : c.phase ≠ .active) : takeOn o s = s := by
  simp [takeOn, h, hp]

/-- The ceiling of a session that is not ARMED and not SETTLING is its purse ceiling (R135 to R137). -/
theorem ceilingNow_of_phase (h : s.context o = some c) (ha : ∀ start, c.phase ≠ .armed start)
    (hs : c.phase.isSettling = false) : s.ceilingNow o = c.purseCeiling s.control.settings s.sessions.band := by
  simp only [State.ceilingNow, h]
  cases hp : c.phase with
  | armed start => exact absurd hp (ha start)
  | settling => rw [hp] at hs; cases hs
  | _ => rfl

theorem ceilingNow_armed {start : StartCondition} (h : s.context o = some c) (hp : c.phase = .armed start) :
    s.ceilingNow o = 0 := by
  simp only [State.ceilingNow, h, hp]

theorem ceilingNow_settling (h : s.context o = some c) (hp : c.phase.isSettling = true) :
    s.ceilingNow o = s.ceiling o := by
  simp only [State.ceilingNow, h]
  cases hc : c.phase with
  | settling => rfl
  | _ => rw [hc] at hp; cases hp

/-- A session with a new hold that covers what it has charged. -/
def Context.rehold (c : Context) (hold : Nat) : Context := { c with hold := hold, overdraw := 0 }

/-- The state with the hold replaced and the ceiling computed anew, before what the ceiling brings. -/
def rehold (o : Outlet) (c : Context) (hold : Nat) (s : State) : State :=
  recompute o (setContext o (some (c.rehold hold)) s)

variable {hold : Nat}

theorem context_rehold : (rehold o c hold s).context o = some (c.rehold hold) := by
  rw [rehold, recompute, context_setCeiling, context_setContext_self]

theorem ceiling_rehold : (rehold o c hold s).ceiling o =
    (setContext o (some (c.rehold hold)) s).ceilingNow o := ceiling_recompute _ o

theorem amendHold_eq (h : s.context o = some c) (hspent : c.chargedTotal ≤ hold) :
    amendHold o hold s =
      if c.phase = .drained ∧ 0 < (rehold o c hold s).ceiling o then
        deliverActive o true
          (mapContext o (fun c => { c with phase := .active, drainedMinutes := 0 }) (rehold o c hold s))
      else takeOn o (rehold o c hold s) := by
  have hmap : recompute o (mapContext o (fun c => { c with hold := hold, overdraw := c.chargedTotal - hold }) s) =
      rehold o c hold s := by
    simp [rehold, Context.rehold, mapContext, h, Nat.sub_eq_zero_of_le hspent]
  simp only [amendHold, hmap, State.phaseIs, context_rehold]
  simp [Context.rehold]

/-- The ceiling that the new hold computes to. -/
def reheldCeiling (o : Outlet) (c : Context) (hold : Nat) (s : State) : Nat :=
  (setContext o (some (c.rehold hold)) s).ceilingNow o

theorem reheldCeiling_of_phase (ha : ∀ start, c.phase ≠ .armed start) (hs : c.phase.isSettling = false) :
    reheldCeiling o c hold s =
      (c.rehold hold).purseCeiling s.control.settings s.sessions.band :=
  ceilingNow_of_phase _ (context_setContext_self s o _) ha hs

theorem reheldCeiling_armed {start : StartCondition} (hp : c.phase = .armed start) : reheldCeiling o c hold s = 0 :=
  ceilingNow_armed _ (context_setContext_self s o _) hp

theorem reheldCeiling_settling (hp : c.phase.isSettling = true) : reheldCeiling o c hold s = s.ceiling o :=
  ceilingNow_settling _ (context_setContext_self s o _) hp

/-- A DRAINED session whose new hold gives it a ceiling is ACTIVE again (R137). -/
theorem amendHold_reactivates (h : s.context o = some c) (hspent : c.chargedTotal ≤ hold) (hp : c.phase = .drained)
    (hpos : 0 < reheldCeiling o c hold s) :
    (amendHold o hold s).context o =
      some { c.rehold hold with phase := .active, drainedMinutes := 0 } ∧
    (amendHold o hold s).ceiling o = reheldCeiling o c hold s := by
  rw [amendHold_eq s h hspent, if_pos ⟨hp, (ceiling_rehold s).symm ▸ hpos⟩]
  refine ⟨by rw [context_deliverActive, context_mapContext_self, context_rehold]; rfl, ?_⟩
  rw [ceiling_deliverActive, ceiling_mapContext]
  exact ceiling_rehold s

/-- One that is neither ACTIVE nor DRAINED with a ceiling stays as it is. -/
theorem amendHold_stays (h : s.context o = some c) (hspent : c.chargedTotal ≤ hold) (hp : c.phase ≠ .active)
    (hd : c.phase = .drained → reheldCeiling o c hold s = 0) :
    (amendHold o hold s).context o = some (c.rehold hold) ∧
    (amendHold o hold s).ceiling o = reheldCeiling o c hold s := by
  have hceiling : (rehold o c hold s).ceiling o = reheldCeiling o c hold s := ceiling_rehold s
  have hno : ¬(c.phase = .drained ∧ 0 < (rehold o c hold s).ceiling o) := by
    rintro ⟨hdrained, hpos⟩
    rw [hceiling, hd hdrained] at hpos
    exact absurd hpos (Nat.lt_irrefl 0)
  rw [amendHold_eq s h hspent, if_neg hno, takeOn_of_not_active _ (context_rehold s) hp]
  exact ⟨context_rehold s, hceiling⟩

/-- An ACTIVE one goes on with its new ceiling (R138). -/
theorem amendHold_goesOn (h : s.context o = some c) (hspent : c.chargedTotal ≤ hold) (hp : c.phase = .active) :
    GoesOn s o (c.rehold hold) (reheldCeiling o c hold s) false (amendHold o hold s) := by
  have hno : ¬(c.phase = .drained ∧ 0 < (rehold o c hold s).ceiling o) := by
    rintro ⟨hdrained, -⟩
    rw [hp] at hdrained; cases hdrained
  have hgoes := takeOn_goesOn (rehold o c hold s) o _ (context_rehold s) hp
  rw [ceiling_rehold] at hgoes
  rw [amendHold_eq s h hspent, if_neg hno]
  have hcontrol : (rehold o c hold s).control = s.control := (control_setCeiling (setContext o _ s) o _).trans rfl
  have hstandby : (rehold o c hold s).standby = s.standby := (standby_setCeiling (setContext o _ s) o _).trans rfl
  exact goesOn_congr o _ _ _ _ hcontrol hstandby hgoes

/-- A new hold ends no session. -/
theorem live_amendHold (h : s.context o = some c) (hspent : c.chargedTotal ≤ hold) :
    ∃ x, (amendHold o hold s).context o = some x := by
  by_cases hp : c.phase = .active
  · exact (amendHold_goesOn s h hspent hp).live
  · by_cases hd : c.phase = .drained ∧ 0 < reheldCeiling o c hold s
    · exact ⟨_, (amendHold_reactivates s h hspent hd.1 hd.2).1⟩
    · exact ⟨_, (amendHold_stays s h hspent hp fun hdrained => by simpa [hdrained] using hd).1⟩

/-- In IDLE, CLOSING and HELD the ceiling is the purse ceiling, and it brings nothing else. -/
theorem phase_unmoved (hp : c.phase = .idle ∨ c.phase.isClosing = true ∨ ∃ r h d, c.phase = .held r h d) :
    c.phase ≠ .active ∧ c.phase ≠ .drained ∧ (∀ start, c.phase ≠ .armed start) ∧ c.phase.isSettling = false := by
  rcases hp with hp | hp | ⟨_, _, _, hp⟩
  · simp [hp, Phase.isSettling]
  · cases hq : c.phase with
    | closing => simp [Phase.isSettling]
    | _ => rw [hq] at hp; cases hp
  · simp [hp, Phase.isSettling]

end

end Machine

open Machine in
/-- Settles O23, by the phase that the AMEND finds: an ACTIVE session goes on, a DRAINED one with a ceiling is ACTIVE
again, and every other stays with its ceiling computed anew. -/
theorem amendHold : Obligations.AmendHold := by
  intro t s cell a out c hr hout hhold hnopriority hmax hc hspent n
  set r := freePort (atTime t s)
  have hexec := exec_amend s t hr hout
  rw [takeAmend_hold r (badAmend_of_hold hhold hnopriority hmax) hc hhold hnopriority hspent] at hexec
  have purse (ha : ∀ start, c.phase ≠ .armed start) (hs : c.phase.isSettling = false) :
      reheldCeiling out c a.hold.toNat r = n := reheldCeiling_of_phase r ha hs
  have stays := amendHold_stays (hold := a.hold.toNat) r hc hspent
  have reactivates := amendHold_reactivates (hold := a.hold.toNat) r hc hspent
  have goesOn (hp : c.phase = .active) : GoesOn s out (c.rehold a.hold.toNat) _ false _ :=
    goesOn_congr (s' := r) out _ _ _ _ rfl rfl (amendHold_goesOn r hc hspent hp)
  obtain ⟨x, hx⟩ := live_amendHold (hold := a.hold.toNat) r hc hspent
  -- from here on, what these say of the state that the AMEND leaves is all that is used of it
  generalize Machine.amendHold out a.hold.toNat r = v at hexec stays reactivates goesOn hx
  have hceiling := ceiling_awaitTaken cell (.amend a) (accept v) out
  have stands {y : Context} (hy : v.context out = some y) := stands_awaitTaken (k := accept v) cell (.amend a) hy
  obtain ⟨c', hc', -⟩ := exists_context_of_stands (stands hx)
  have body {y : Context} (hy : v.context out = some y) : c'.body = y.body := by
    simpa [Stands, hc'] using stands hy
  refine ⟨_, c', hexec, unit_awaitTaken cell _ _, hc', fun hp => ?_, fun ⟨start, hp⟩ => ?_, fun hp => ?_, fun hp => ?_,
    fun hp hpos => ?_, fun hp h0 => ?_⟩
  · obtain ⟨hactive, hdrained, harmed, hsettling⟩ := phase_unmoved hp
    obtain ⟨h1, h2⟩ := stays hactive fun h => absurd h hdrained
    exact ⟨body h1, hceiling.trans (h2.trans (purse harmed hsettling))⟩
  · obtain ⟨h1, h2⟩ := stays (by simp [hp]) (by simp [hp])
    exact ⟨body h1, hceiling.trans (h2.trans (reheldCeiling_armed r hp))⟩
  · have hne (p : Phase) (h : p.isSettling = false) : c.phase ≠ p := by rintro rfl; rw [h] at hp; cases hp
    obtain ⟨h1, h2⟩ := stays (hne _ rfl) fun h => absurd h (hne _ rfl)
    exact ⟨body h1, hceiling.trans (h2.trans (reheldCeiling_settling r hp))⟩
  · rw [← purse (by simp [hp]) (by simp [hp, Phase.isSettling])]
    exact GoesOn.endEvent (u := awaitTaken cell (.amend a) (accept v)) (goesOn hp)
  · have hn := purse (by simp [hp]) (by simp [hp, Phase.isSettling])
    obtain ⟨h1, h2⟩ := reactivates hp (hn ▸ hpos)
    exact ⟨body h1, hceiling.trans (h2.trans hn)⟩
  · have hn := purse (by simp [hp]) (by simp [hp, Phase.isSettling])
    obtain ⟨h1, h2⟩ := stays (by simp [hp]) fun _ => hn.trans h0
    exact ⟨body h1, hceiling.trans (h2.trans (hn.trans h0))⟩

end Sys2Proof
end

