-- ==== Sys2Proof/Proofs/CellBytes.lean ====
section
/-! SUPPORT. The bytes that the settlement writer puts into a cell (12.1, 12.4): a field is found by leaving the fields
before it. -/

namespace Sys2Proof.Machine

/-! ### Where a field stands -/

section
variable {rest : List Byte} {off n v : Nat}

theorem HasField.of_eq {b : List Byte} {w : Nat} (h : HasField b off n v) (e : w = v) : HasField b off n w := e ▸ h

/-- A field behind a byte. -/
theorem hasField_cons (x : Byte) : HasField (x :: rest) (off + 1) n v ↔ HasField rest off n v := by
  simp only [HasField, Nat.add_right_comm off 1, List.getElem?_cons_succ]

/-- A field behind another. -/
theorem hasField_skip (k u : Nat) : HasField (leBytes k u ++ rest) (off + k) n v ↔ HasField rest off n v := by
  have h (i : Nat) : (leBytes k u ++ rest)[off + k + i]? = rest[off + i]? := by
    rw [List.getElem?_append_right (by simp; omega), length_leBytes]
    congr 1; omega
  simp only [HasField, h]

theorem hasField_byte (rest : List Byte) (v : Nat) : HasField (byteOf v :: rest) 0 1 v := hasField_byteOf [] rest v

theorem hasField_head (rest : List Byte) (k v : Nat) : HasField (leBytes k v ++ rest) 0 k v :=
  hasField_leBytes [] rest k v

theorem hasField_last (k v : Nat) : HasField (leBytes k v) 0 k v := by
  simpa using hasField_head [] k v

end

/-! ### A progress copy and a STANDING copy (R44, R146) -/

section
variable (s : State) (o : Outlet) (c : Context)

theorem length_progressBytes : (progressBytes s o c).length = 32 := by simp [progressBytes]

/-- The fields of a progress copy, in the order of 12.4. -/
theorem fields_progressBytes :
    let b := progressBytes s o c
    HasField b 0 1 c.phase.code ∧ HasField b 1 1 o.val ∧
    HasField b 2 1 (c.priority.val + c.phase.heldCode * 16 + bit c.auditHeld 7) ∧
    HasField b 3 1 (bit c.idleCapped 0 + bit c.meterRebased 1 + bit c.overdrawn 2 + s.ceiling o * 16) ∧
    HasField b 4 1 (s.grant o + s.want o * 16) ∧ HasField b 5 3 c.hold ∧
    HasField b 8 4 ((c.started.map fun x => x.serial.toNat).getD 0) ∧
    HasField b 12 4 ((c.started.map fun x => x.time.toNat).getD 0) ∧ HasField b 16 4 s.control.seconds.toNat ∧
    HasField b 20 4 c.chargedTotal ∧ HasField b 24 4 (energyTotal c.energy) ∧
    HasField b 28 4 (energyTotal c.pendingEnergy) := by
  simp only [progressBytes, List.append_assoc, List.cons_append, List.nil_append, hasField_cons, hasField_skip 3,
    hasField_skip 4, flagBit_eq_bit, hasField_byte, hasField_head, hasField_last, and_self]

variable {c} in
/-- The offset and the contents of a progress copy when the port starts it. -/
theorem startedTransfer_progress (forContext forLink : Bool) (h : s.context o = some c) :
    let w := startedTransfer s (.settle (.progress o forContext forLink))
    w.offset = 0x80 * c.cell.val + 0x20 ∧ w.data = progressBytes s o c := by
  simp [startedTransfer, jobOffset, settleOffset, jobData, settleData, h, cellOffset, Nat.mul_comm]

variable {o} {e : StandbyEntry}

theorem outlet_of_entryAt (h : s.entryAt o = some e) : e.outlet = o := by simpa using List.find?_some h

theorem startedTransfer_standing (forLink : Bool) (h : s.entryAt o = some e) :
    let w := startedTransfer s (.settle (.standing o forLink))
    w.offset = 0x80 * e.cell.val + 0x20 ∧ w.data = standingBytes s e := by
  simp [startedTransfer, jobOffset, settleOffset, jobData, settleData, h, cellOffset, Nat.mul_comm]

theorem length_standingBytes : (standingBytes s e).length = 32 := by simp [standingBytes]

/-- Two fields of 0 that follow each other are one field of 0. -/
theorem hasField_zero {b : List Byte} {off : Nat} (k n : Nat) (h1 : HasField b off k 0)
    (h2 : HasField b (off + k) n 0) : HasField b off (k + n) 0 := by
  intro i hi
  by_cases hlt : i < k
  · exact h1 i hlt
  · have := h2 (i - k) (by omega)
    rw [show off + k + (i - k) = off + i by omega] at this
    simpa using this

/-- The fields of a STANDING copy, in the order of 12.4. -/
theorem fields_standingBytes :
    let b := standingBytes s e
    HasField b 0 1 8 ∧ HasField b 1 1 e.outlet.val ∧ HasField b 2 1 e.priority.val ∧ HasField b 3 2 0 ∧
    HasField b 5 3 e.hold ∧ HasField b 8 8 0 ∧ HasField b 16 4 s.control.seconds.toNat ∧ HasField b 20 12 0 := by
  intro b
  have hb : b = byteOf 8 :: byteOf e.outlet.val :: byteOf e.priority.val :: byteOf 0 :: byteOf 0 :: (leBytes 3 e.hold ++
      (leBytes 4 0 ++ (leBytes 4 0 ++ (leBytes 4 s.control.seconds.toNat ++
        (leBytes 4 0 ++ (leBytes 4 0 ++ leBytes 4 0)))))) := by
    simp only [b, standingBytes, List.append_assoc, List.cons_append, List.nil_append]; rfl
  have one : HasField b 0 1 8 ∧ HasField b 1 1 e.outlet.val ∧ HasField b 2 1 e.priority.val ∧ HasField b 3 1 0 ∧
      HasField b 4 1 0 ∧ HasField b 5 3 e.hold ∧ HasField b 8 4 0 ∧ HasField b 12 4 0 ∧
      HasField b 16 4 s.control.seconds.toNat ∧ HasField b 20 4 0 ∧ HasField b 24 4 0 ∧ HasField b 28 4 0 := by
    simp only [hb, hasField_cons, hasField_skip 3, hasField_skip 4, hasField_byte, hasField_head, hasField_last,
      and_self]
  obtain ⟨h0, h1, h2, h3, h4, h5, h8, h12, h16, h20, h24, h28⟩ := one
  exact ⟨h0, h1, h2, hasField_zero 1 1 h3 h4, h5, hasField_zero 4 4 h8 h12, h16,
    hasField_zero 4 8 h20 (hasField_zero 4 4 h24 h28)⟩

end

/-! ### Receipts and end words (R47, R149, 12.1) -/

/-- The fields of a receipt, in the order of 12.4. -/
theorem fields_receiptBytes (r : Receipt) :
    let b := receiptBytes r
    HasField b 0 1 r.reason.code ∧ HasField b 1 1 r.outlet.val ∧
    HasField b 2 1
      (bit r.idleCapped 0 + bit r.meterRebased 1 + bit r.finalUnconfirmed 2 + bit r.overdrawn 3 + bit r.unsaved 4) ∧
    HasField b 3 1 r.rejected ∧ HasField b 4 4 r.serial.toNat ∧ HasField b 8 4 r.startTime.toNat ∧
    HasField b 12 4 r.closeTime.toNat ∧ HasField b 16 4 r.reference.toNat ∧ HasField b 20 4 r.hold ∧
    HasField b 24 4 r.startFee ∧ HasField b 28 4 r.energyCharge ∧ HasField b 32 4 r.idleCharge ∧
    HasField b 36 4 r.total ∧ HasField b 40 4 r.overdraw ∧ HasField b 44 4 r.energy[0] ∧ HasField b 48 4 r.energy[1] ∧
    HasField b 52 4 r.energy[2] ∧ HasField b 56 4 r.energy[3] ∧ HasField b 60 4 (energyTotal r.energy) := by
  simp only [receiptBytes, List.append_assoc, List.cons_append, List.nil_append, hasField_cons, hasField_skip 4,
    flagBit_eq_bit, hasField_byte, hasField_head, hasField_last, and_self]

theorem length_receiptBytes (r : Receipt) : (receiptBytes r).length = 64 := by simp [receiptBytes]

section
variable (s : State) {o : Outlet} {c : Context}

theorem startedTransfer_givenUp {g : GivenUp} (h : s.context o = some c) (hg : c.givenUp = some g) :
    let w := startedTransfer s (.settle (.givenUp o))
    w.offset = 0x80 * g.cell.val + 0x40 ∧ w.data = receiptBytes g.receipt := by
  simp [startedTransfer, jobOffset, settleOffset, jobData, settleData, h, hg, cellOffset, Nat.mul_comm]

theorem startedTransfer_receipt {reason : EndReason} {closeTime : Word} (h : s.context o = some c)
    (hp : c.phase = .settling reason closeTime) :
    let w := startedTransfer s (.settle (.receipt o))
    w.offset = 0x80 * c.cell.val + 0x40 ∧ w.data = receiptBytes (c.receipt o reason closeTime) := by
  simp [startedTransfer, jobOffset, settleOffset, jobData, settleData, h, Context.settlingReceipt, hp, cellOffset,
    Nat.mul_comm]

end

end Sys2Proof.Machine
end

