-- ==== Sys2Proof/Proofs/CopyWrites.lean ====
section
/-! SUPPORT. Progress copies and STANDING copies (O37): their bytes, and the waits that their writes release (R44 to
R46, R146). -/

namespace Sys2Proof.Machine

variable (s : State)

/-! ### The waits of the order in hand, by the unit state -/

section
variable {s} {cell : CellIndex} {p : OrderPart} {r : OrderOutcome} {taken : Bool} {wait : Wait}

theorem unit_endWait (h : s.orders.unit = .waiting cell p r taken wait) :
    (endWait s).orders.unit = .waiting cell p r taken .nothing := by
  simp only [endWait, h]; rfl

theorem unit_endProgressWait {o : Outlet} (h : s.orders.unit = .waiting cell p r taken (.progressCopy o)) :
    (endProgressWait o s).orders.unit = .waiting cell p r taken .nothing := by
  have : endProgressWait o s = endWait s := by simp [endProgressWait, h]
  rw [this]; exact unit_endWait h

theorem endProgressWait_of_other {o : Outlet} (h : s.orders.unit = .waiting cell p r taken wait)
    (hne : wait ≠ .progressCopy o) : endProgressWait o s = s := by
  unfold endProgressWait
  split
  · next h' =>
    rw [h] at h'; cases h'
    exact if_neg fun e => hne (congrArg Wait.progressCopy e)
  · rfl

theorem linkWaits_of_cellCopy (h : s.orders.unit = .waiting cell p r taken .cellCopy) : s.linkWaits = some cell := by
  simp only [State.linkWaits, h]

theorem linkWaits_of_other (h : s.orders.unit = .waiting cell p r taken wait) (hne : wait ≠ .cellCopy) :
    s.linkWaits = none := by
  unfold State.linkWaits
  split
  · next h' => rw [h] at h'; cases h'; exact absurd rfl hne
  · rfl

theorem unit_endCopyWait (h : s.orders.unit = .waiting cell p r taken .cellCopy) :
    (endCopyWait s).orders.unit = .waiting cell p r taken .nothing := by
  rw [endCopyWait, linkWaits_of_cellCopy h]; exact unit_endWait h

theorem endCopyWait_of_other (h : s.orders.unit = .waiting cell p r taken wait) (hne : wait ≠ .cellCopy) :
    endCopyWait s = s := by
  rw [endCopyWait, linkWaits_of_other h hne]; rfl

/-- An order whose wait is done is answered in the event where its TAKEN write is done, and waits for that write where
it is not (R16). -/
theorem released_endEvent (h : s.orders.unit = .waiting cell p r taken .nothing) :
    Released (endEvent s) cell p r taken := by
  refine ⟨?_, ?_⟩
  · rintro rfl
    exact (endEvent_answers s cell p r h).2
  · rintro rfl
    exact (unit_endEvent s (by simp [h])).trans h

/-- One that waits for a copy waits on. -/
theorem unit_endEvent_of_waiting (h : s.orders.unit = .waiting cell p r taken wait) (hne : wait ≠ .nothing) :
    (endEvent s).orders.unit = .waiting cell p r taken wait :=
  (unit_endEvent s (by simp [h, hne])).trans h

end

@[simp] theorem body_endCopyWait : (endCopyWait s).body = s.body := by unfold endCopyWait; split <;> simp

/-! ### The end of a progress write (R44, R45) -/

/-- The state that the end of a progress write leaves, but for the unit. -/
theorem body_progressEnded (o : Outlet) (forContext forLink : Bool) :
    (progressEnded o forContext forLink s).body =
      (if forContext then mapContext o (fun c => { c with progressWaiter := false }) s else s).body := by
  cases forContext <;> cases forLink <;> simp [progressEnded]

section
variable {s} {cell : CellIndex} {p : OrderPart} {r : OrderOutcome} {taken : Bool}

/-- The wait of an OPEN or a SYNC is released by a copy of its outlet that was requested for its context's waiter. -/
theorem unit_progressEnded_of_progressCopy {out : Outlet} (o : Outlet) (forContext forLink : Bool)
    (h : s.orders.unit = .waiting cell p r taken (.progressCopy out)) :
    (progressEnded o forContext forLink s).orders.unit =
      if forContext = true ∧ out = o then .waiting cell p r taken .nothing else s.orders.unit := by
  have link {v : State} {wait : Wait} (hv : v.orders.unit = .waiting cell p r taken wait) (hne : wait ≠ .cellCopy) :
      (if forLink then endCopyWait v else v).orders.unit = .waiting cell p r taken wait := by
    rw [endCopyWait_of_other hv hne, ite_self, hv]
  cases forContext with
  | false => rw [if_neg (by simp), h]; exact link h (by simp)
  | true =>
    set v := mapContext o (fun c => { c with progressWaiter := false }) s
    have hunit : v.orders.unit = .waiting cell p r taken (.progressCopy out) := h
    by_cases ho : out = o
    · subst ho
      rw [if_pos ⟨rfl, rfl⟩]; exact link (unit_endProgressWait hunit) (by simp)
    · rw [if_neg (by simp [ho]), h]
      have hsame : endProgressWait o v = v := endProgressWait_of_other hunit (by simp [ho])
      have hcontext : (endProgressWait o v).orders.unit = .waiting cell p r taken (.progressCopy out) := by
        rw [hsame, hunit]
      exact link hcontext (by simp)

/-- The wait of a LINK is released by a copy that was requested for it. -/
theorem unit_progressEnded_of_cellCopy (o : Outlet) (forContext forLink : Bool)
    (h : s.orders.unit = .waiting cell p r taken .cellCopy) :
    (progressEnded o forContext forLink s).orders.unit =
      if forLink = true then .waiting cell p r taken .nothing else s.orders.unit := by
  have hcontext : (if forContext then endProgressWait o (mapContext o (fun c => { c with progressWaiter := false }) s)
      else s).orders.unit = .waiting cell p r taken .cellCopy := by
    split
    · rw [endProgressWait_of_other (s := mapContext o _ s) h (by simp)]; exact h
    · exact h
  cases forLink with
  | false => exact hcontext.trans h.symm
  | true => exact unit_endCopyWait hcontext

end

theorem progressWriteDone_eq {tr : Transfer} {o : Outlet} {forContext forLink : Bool}
    (h : UnderWay s tr (.settle (.progress o forContext forLink))) :
    exec .progressWriteDone s = .next (endEvent (progressEnded o forContext forLink (completeTransfer tr s))) := by
  show execProgressWriteDone s = _
  simp only [execProgressWriteDone, h.1, h.2, finish]

theorem standingCopyDone_eq {tr : Transfer} {o : Outlet} {forLink : Bool}
    (h : UnderWay s tr (.settle (.standing o forLink))) :
    exec .standingCopyDone s = .next (endEvent (standingEnded forLink (completeTransfer tr s))) := by
  show execStandingCopyDone s = _
  simp only [execStandingCopyDone, h.1, h.2, finish]

/-- Settles O37: the bytes field by field, and each completion by the wait that it finds. -/
theorem copiesCompleted : Obligations.CopiesCompleted := by
  refine ⟨?_, ?_, fun s tr o forContext forLink hw => ?_, fun s tr o forLink hw => ?_⟩
  · intro s o c forContext forLink hc w sum
    obtain ⟨hoffset, hdata⟩ := startedTransfer_progress s o forContext forLink hc
    obtain ⟨h0, h1, h2, h3, h4, h5, h8, h12, h16, h20, h24, h28⟩ := fields_progressBytes s o c
    rw [← hdata] at h0 h1 h2 h3 h4 h5 h8 h12 h16 h20 h24 h28
    refine ⟨hoffset, hdata ▸ length_progressBytes s o c, h0.of_eq ?_, h1, h2.of_eq ?_, h3.of_eq ?_, h4.of_eq ?_, h5, h8,
      h12, h16, h20, h24, h28⟩
    · cases c.phase <;> rfl
    · rw [Nat.mul_comm 16]
      refine congrArg (c.priority.val + · * 16 + bit c.auditHeld 7) ?_
      cases c.phase with
      | held resume reason done => cases reason <;> rfl
      | _ => rfl
    · rw [Nat.mul_comm]
    · rw [Nat.mul_comm]
  · intro s o e forLink he w
    obtain ⟨hoffset, hdata⟩ := startedTransfer_standing s forLink he
    obtain ⟨h0, h1, h2, h3, h5, h8, h16, h20⟩ := fields_standingBytes s (e := e)
    rw [outlet_of_entryAt s he] at h1
    rw [← hdata] at h0 h1 h2 h3 h5 h8 h16 h20
    exact ⟨hoffset, hdata ▸ length_standingBytes s, h0, h1, h2, h3, h5, h8, h16, h20⟩
  · set v := progressEnded o forContext forLink (completeTransfer tr s)
    refine ⟨_, progressWriteDone_eq s hw, ends_of_body (body_progressEnded (completeTransfer tr s) o forContext forLink)
      (ends_endEvent v), fun cell order r taken out hu => ?_, fun cell order r taken hu => ?_⟩
    · have hunit := unit_progressEnded_of_progressCopy (s := completeTransfer tr s) o forContext forLink hu
      refine ⟨fun h => released_endEvent (hunit.trans (if_pos h)), fun h => ?_⟩
      have hno : ¬(forContext = true ∧ out = o) := fun ⟨h1, h2⟩ => h.elim (by simp [h1]) (absurd h2)
      exact (unit_endEvent_of_waiting ((hunit.trans (if_neg hno)).trans hu) (by simp)).trans hu.symm
    · have hunit := unit_progressEnded_of_cellCopy (s := completeTransfer tr s) o forContext forLink hu
      refine ⟨fun h => released_endEvent (hunit.trans (if_pos h)), fun h => ?_⟩
      exact (unit_endEvent_of_waiting ((hunit.trans (if_neg (by simp [h]))).trans hu) (by simp)).trans hu.symm
  · set v := completeTransfer tr s
    have hbody : (standingEnded forLink v).body = v.body := by unfold standingEnded; split <;> simp
    refine ⟨_, standingCopyDone_eq s hw, ends_of_body hbody (ends_endEvent _), fun cell order r taken hu => ⟨?_, ?_⟩⟩
    · rintro rfl
      exact released_endEvent (unit_endCopyWait (s := v) hu)
    · rintro rfl
      exact (unit_endEvent_of_waiting (s := v) hu (by simp)).trans hu.symm

end Sys2Proof.Machine
end

