-- ==== Sys2Proof/Proofs/ReceiptWrites.lean ====
section
/-! SUPPORT. Receipts, given-up receipts and end words (O38): their bytes, and what their writes leave (R47, R49, R152,
R157). -/

namespace Sys2Proof.Machine

variable (s : State)

/-! ### The order in hand at the end of a session (R45, R146) -/

section
variable {s} {cell l : CellIndex} {p : OrderPart} {r : OrderOutcome} {taken : Bool} {o : Outlet} {c : Context}

theorem endLinkWait_of_other (h : s.linkWaits ≠ some l) : endLinkWait l s = s := by
  simp [endLinkWait, h]

/-- With no copy under way the wait of the LINK ends (log 31). -/
theorem unit_endLinkWait (h : s.orders.unit = .waiting l p r taken .cellCopy) (hb : s.port.busy = none) :
    (endLinkWait l s).orders.unit = .waiting l p r taken .nothing := by
  have : endLinkWait l s = endWait s := by
    simp [endLinkWait, linkWaits_of_cellCopy h, State.linkCopyUnderWay, hb]
  rw [this]; exact unit_endWait h

theorem releaseUnused_of_other (link : Option CellIndex) (h : ∀ l, link = some l → s.linkWaits ≠ some l) :
    (releaseUnused link s).orders = s.orders := by
  cases link with
  | none => rfl
  | some l =>
    cases he : s.entryOf l with
    | none => rw [releaseUnused_of_none s fun l' h' => by cases h'; exact he]
    | some e =>
      rw [releaseUnused_of_some s he, endLinkWait_of_other (s := queueEndWord l .unused (removeEntry l s)) (h l rfl)]
      rfl

theorem orders_vacate (o : Outlet) : (vacate o s).orders = (endProgressWait o (setContext o none s)).orders :=
  congrArg Beyond.orders (beyond_setCeiling _ o 0)

theorem port_vacate (o : Outlet) : (vacate o s).port = s.port := congrArg Backdrop.port (backdrop_vacate s o)

/-- A wait for the session's own copy ends with the session. -/
theorem unit_endSession_of_progressCopy (outcome : OrderOutcome)
    (h : s.orders.unit = .waiting cell p r taken (.progressCopy o)) :
    (endSession o c outcome s).orders.unit = .waiting cell p r taken .nothing := by
  have hv : (queueEndWord c.cell outcome (vacate o s)).orders.unit = .waiting cell p r taken .nothing := by
    rw [queueEndWord_orders, orders_vacate]
    exact unit_endProgressWait (s := setContext o none s) h
  have hlink := linkWaits_of_other hv (by simp)
  rw [endSession, releaseUnused_of_other c.link fun l _ => by rw [hlink]; simp, hv]

theorem unit_vacate_of_cellCopy (h : s.orders.unit = .waiting cell p r taken .cellCopy) :
    (vacate o s).orders.unit = .waiting cell p r taken .cellCopy := by
  rw [orders_vacate, endProgressWait_of_other (s := setContext o none s) h (by simp)]
  exact h

/-- The wait of the LINK whose entry the session releases ends with the session. -/
theorem unit_endSession_of_entry (outcome : OrderOutcome) (h : s.orders.unit = .waiting cell p r taken .cellCopy)
    (hb : s.port.busy = none) (hl : c.link = some cell) (he : s.entryOf cell ≠ none) :
    (endSession o c outcome s).orders.unit = .waiting cell p r taken .nothing := by
  obtain ⟨e, he⟩ := Option.ne_none_iff_exists'.1 he
  have hv := unit_vacate_of_cellCopy (o := o) h
  have hfree : (vacate o s).port.busy = none := by rw [port_vacate, hb]
  rw [endSession_of_some s o c outcome hl he]
  exact unit_endLinkWait (s := queueEndWord cell .unused (removeEntry cell (queueEndWord c.cell outcome (vacate o s))))
    hv hfree

/-- A LINK of another cell, or of one without an entry, waits on. -/
theorem unit_endSession_of_other (outcome : OrderOutcome) (h : s.orders.unit = .waiting cell p r taken .cellCopy)
    (hno : c.link ≠ some cell ∨ s.entryOf cell = none) :
    (endSession o c outcome s).orders.unit = .waiting cell p r taken .cellCopy := by
  have hv := unit_vacate_of_cellCopy (o := o) h
  by_cases hl : c.link = some cell
  · have he : s.entryOf cell = none := hno.resolve_left (absurd hl)
    rw [endSession_of_none s o c outcome fun l h' => by rw [hl] at h'; cases h'; exact he]
    exact hv
  · have hlink : (queueEndWord c.cell outcome (vacate o s)).linkWaits = some cell := linkWaits_of_cellCopy hv
    rw [endSession, releaseUnused_of_other c.link fun l h' h'' => hl (h'.trans (h''.symm.trans hlink))]
    exact hv

end

/-! ### The completions (R47, R49, R152) -/

theorem receiptWriteDone_eq {tr : Transfer} {o : Outlet} {c : Context} (h : UnderWay s tr (.settle (.receipt o)))
    (hc : s.context o = some c) (hp : c.phase.isSettling = true) :
    exec .receiptWriteDone s = .next (endEvent (endSession o c .settled (completeTransfer tr s))) := by
  have hc' : (completeTransfer tr s).context o = some c := hc
  show execReceiptWriteDone s = _
  simp only [execReceiptWriteDone, h.1, h.2, finish, settleSession, hc', hp, if_true]
  rfl

/-- A session without its given-up receipt, whose end word is queued. -/
def dropGivenUp (o : Outlet) (c : Context) (g : GivenUp) (s : State) : State :=
  queueEndWord g.cell .settled (setContext o (some { c with givenUp := none }) s)

theorem givenUpReceiptDone_eq {tr : Transfer} {o : Outlet} {c : Context} {g : GivenUp}
    (h : UnderWay s tr (.settle (.givenUp o))) (hc : s.context o = some c) (hg : c.givenUp = some g) :
    exec .givenUpReceiptDone s =
      .next (endEvent (examineDrained o (dropGivenUp o c g (completeTransfer tr s)))) := by
  have hc' : (completeTransfer tr s).context o = some c := hc
  show execGivenUpReceiptDone s = _
  simp only [execGivenUpReceiptDone, h.1, h.2, finish, givenUpWritten, hc', hg, Option.bind_some, mapContext,
    Option.map_some, dropGivenUp]

theorem endWordDone_eq {tr : Transfer} {w : EndWord} (h : UnderWay s tr (.settle (.endWord w))) :
    exec .endWordDone s = .next (endEvent (raise w.notice (endWordEnded w (completeTransfer tr s)))) := by
  show execEndWordDone s = _
  simp only [execEndWordDone, h.1, h.2, finish]

theorem mask_notice (w : EndWord) : w.notice.mask = if w.outcome = .settled then 0x02#8 else 0x01#8 := by
  unfold EndWord.notice; split <;> rfl

theorem examineDrained_of_not_drained {o : Outlet} {c : Context} (h : s.context o = some c) (hp : c.phase ≠ .drained) :
    examineDrained o s = s := by
  simp [examineDrained, h, hp]

/-- Settles O38: the bytes field by field; a receipt by the end of its session, a given-up one by the phase that it
finds. -/
theorem receiptsAndEndWordsCompleted : Obligations.ReceiptsAndEndWordsCompleted := by
  refine ⟨?_, ?_, fun s tr o c hw hc hp => ?_, fun s tr o c g hw hc hg => ?_,
    fun s tr w hw => ?_⟩
  · intro s o c hc filled
    have fills {w : Transfer} {cell : CellIndex} {r : Receipt}
        (h : w.offset = 0x80 * cell.val + 0x40 ∧ w.data = receiptBytes r) : filled w cell r := by
      obtain ⟨hoffset, hdata⟩ := h
      obtain ⟨hreason, hfields⟩ := fields_receiptBytes r
      rw [← hdata] at hreason hfields
      refine ⟨hoffset, hdata ▸ length_receiptBytes r, hreason.of_eq ?_, hfields⟩
      cases r.reason <;> rfl
    exact ⟨fun g hg => fills (startedTransfer_givenUp s hc hg),
      fun reason closeTime hp => fills (startedTransfer_receipt s hc hp)⟩
  · intro s c r w
    exact ⟨Nat.mul_comm .., by rintro rfl; rfl, by rintro rfl; rfl, by rintro rfl; rfl⟩
  · set r := completeTransfer tr s
    set v := endSession o c .settled r
    have hcontext (o' : Outlet) : v.context o' = if o = o' then none else s.context o' :=
      context_endSession r o c .settled o'
    refine ⟨_, receiptWriteDone_eq s hw hc hp, context_endEvent_eq_none v ((hcontext o).trans (if_pos rfl)),
      (ceiling_endEvent v o).trans (ceiling_endSession r o c .settled), fun o' hne => ?_,
      fun cell order out taken hu => ?_, fun cell order out taken hu => ⟨fun hl he => ?_, fun hno => ?_⟩, fun hnone => ?_, fun l e hl he => ?_⟩
    · rw [context_endEvent, hcontext, if_neg hne.symm]
    · exact released_endEvent (unit_endSession_of_progressCopy (s := r) .settled hu)
    · exact released_endEvent (unit_endSession_of_entry (s := r) .settled hu rfl hl he)
    · exact (unit_endEvent_of_waiting (unit_endSession_of_other (s := r) .settled hu hno) (by simp)).trans hu.symm
    · exact (endWords_endEvent v).trans (endWords_endSession_of_none r o c .settled hnone)
    · obtain ⟨hgone, hwords⟩ := endSession_releases r o c .settled hl he
      exact ⟨entryOf_endEvent_eq_none v hgone, (endWords_endEvent v).trans hwords⟩
  · set v := dropGivenUp o c g (completeTransfer tr s)
    have hcontext : v.context o = some { c with givenUp := none } := context_setContext_self (completeTransfer tr s) o _
    have hwords : (examineDrained o v).sessions.endWords = v.sessions.endWords :=
      endWords_of_elsewhere (elsewhere_examineDrained v o)
    refine ⟨_, givenUpReceiptDone_eq s hw hc hg, (endWords_endEvent _).trans hwords, fun hp => ?_, ?_⟩
    · rw [examineDrained_of_not_drained v hcontext hp]
      exact ends_endEvent v
    · intro hp d
      obtain ⟨hstays, hhanded⟩ := examineDrained_spec v o d hcontext hp
      refine ⟨fun h => ?_, fun l e ha hl he => ?_⟩
      · rw [hstays (h.imp_right (noSuccessor_congr d rfl))]
        exact stands_endEvent v o d (congrArg (Option.map Context.body) hcontext)
      · exact HandedOverTo.endEvent (handedOver_congr (s' := v) o d e false _ rfl (hhanded l e ha rfl hl he))
  · refine ⟨_, endWordDone_eq s hw, ?_⟩
    rw [← mask_notice]
    exact ends_endEvent _

end Sys2Proof.Machine
end

