-- ==== Sys2Proof/Proofs/Allotment.lean ====
section
/-! SUPPORT. Shares given in rank order out of a stock (R57 to R59, R61). Both rounds of targets and the raises of a pass give
each outlet the smaller of what it asks for and what its cabinet and the budget have left. -/

namespace Sys2Proof.Machine

/-! ### What a list of outlets takes from a stock -/

/-- The shares of a list of outlets together. -/
def total (f : Outlet → Nat) (l : List Outlet) : Nat := (l.map f).sum

@[simp] theorem total_nil (f : Outlet → Nat) : total f [] = 0 := rfl
@[simp] theorem total_cons (f : Outlet → Nat) (o : Outlet) (l : List Outlet) :
    total f (o :: l) = f o + total f l := rfl

theorem total_congr {f g : Outlet → Nat} {l : List Outlet} (h : ∀ o ∈ l, f o = g o) : total f l = total g l :=
  congrArg List.sum (List.map_congr_left h)

/-- Whether two outlets have the same cabinet. -/
def together (a b : Outlet) : Bool := cabinetOf a == cabinetOf b

/-- The shares of a list of outlets of one cabinet. -/
def totalAt (c : Cabinet) (f : Outlet → Nat) (l : List Outlet) : Nat := total f (l.filter fun b => c == cabinetOf b)

theorem totalAt_cons (c : Cabinet) (f : Outlet → Nat) (o : Outlet) (l : List Outlet) :
    totalAt c f (o :: l) = (if c = cabinetOf o then f o else 0) + totalAt c f l := by
  by_cases h : c = cabinetOf o <;> simp [totalAt, h]

/-- The stock once each outlet of a list has taken its share. -/
def Stock.spend (f : Outlet → Nat) (k : Stock) (l : List Outlet) : Stock := l.foldl (fun k o => k.take o (f o)) k

@[simp] theorem spend_nil (f : Outlet → Nat) (k : Stock) : k.spend f [] = k := rfl
@[simp] theorem spend_cons (f : Outlet → Nat) (k : Stock) (o : Outlet) (l : List Outlet) :
    k.spend f (o :: l) = (k.take o (f o)).spend f l := rfl

theorem spend_congr {f g : Outlet → Nat} {l : List Outlet} (k : Stock) (h : ∀ o ∈ l, f o = g o) :
    k.spend f l = k.spend g l := by
  induction l generalizing k with
  | nil => rfl
  | cons o l ih =>
    rw [spend_cons, spend_cons, h o List.mem_cons_self]
    exact ih _ fun b hb => h b (List.mem_cons_of_mem o hb)

theorem budget_spend (f : Outlet → Nat) (k : Stock) (l : List Outlet) :
    (k.spend f l).budget = k.budget - total f l := by
  induction l generalizing k with
  | nil => rfl
  | cons o l ih => rw [spend_cons, ih, total_cons, Stock.take]; dsimp only; omega

theorem cabinets_spend (f : Outlet → Nat) (k : Stock) (l : List Outlet) (c : Cabinet) :
    Table.get (k.spend f l).cabinets c = Table.get k.cabinets c - totalAt c f l := by
  induction l generalizing k with
  | nil => rfl
  | cons o l ih =>
    rw [spend_cons, ih, totalAt_cons, Stock.take]
    dsimp only
    rw [Table.get_set]
    by_cases h : cabinetOf o = c
    · rw [if_pos h, if_pos h.symm, h]; omega
    · rw [if_neg h, if_neg (Ne.symm h)]; omega

theorem left_spend (f : Outlet → Nat) (k : Stock) (l : List Outlet) (o : Outlet) :
    (k.spend f l).left o =
      min (Table.get k.cabinets (cabinetOf o) - totalAt (cabinetOf o) f l) (k.budget - total f l) := by
  rw [Stock.left, cabinets_spend, budget_spend]

/-! ### Shares in rank order -/

/-- Shares in the order of a list: each outlet gets what it asks for, as far as the stock reaches. -/
def allot (ask : Outlet → Nat) : Stock → List Outlet → Outlet → Nat
  | _, [] => fun _ => 0
  | k, o :: l =>
    Function.update (allot ask (k.take o (min (ask o) (k.left o))) l) o (min (ask o) (k.left o))

variable (ask : Outlet → Nat)

@[simp] theorem allot_cons_self (k : Stock) (o : Outlet) (l : List Outlet) :
    allot ask k (o :: l) o = min (ask o) (k.left o) := Function.update_self ..

theorem allot_cons_of_ne (k : Stock) {o b : Outlet} (l : List Outlet) (h : b ≠ o) :
    allot ask k (o :: l) b = allot ask (k.take o (min (ask o) (k.left o))) l b := Function.update_of_ne h ..

theorem allot_of_not_mem (k : Stock) {o : Outlet} {l : List Outlet} (h : o ∉ l) : allot ask k l o = 0 := by
  induction l generalizing k with
  | nil => rfl
  | cons b l ih =>
    obtain ⟨hb, hl⟩ := not_or.1 (mt List.mem_cons.2 h)
    rw [allot_cons_of_ne ask k l hb, ih _ hl]

/-- The share of an outlet, from those before it. -/
theorem allot_eq (k : Stock) {before after : List Outlet} {o : Outlet} (h : (before ++ o :: after).Nodup) :
    allot ask k (before ++ o :: after) o =
      min (ask o) ((k.spend (allot ask k (before ++ o :: after)) before).left o) := by
  induction before generalizing k with
  | nil => exact allot_cons_self ask k o after
  | cons b before ih =>
    obtain ⟨hb, hn⟩ := List.nodup_cons.1 h
    have hrest : ∀ x ∈ before ++ o :: after, allot ask k (b :: (before ++ o :: after)) x =
        allot ask (k.take b (min (ask b) (k.left b))) (before ++ o :: after) x :=
      fun x hx => allot_cons_of_ne ask k _ fun e => hb (e ▸ hx)
    rw [List.cons_append, hrest o (by simp), ih _ hn, spend_cons, allot_cons_self]
    rw [spend_congr _ fun x hx => hrest x (List.mem_append_left _ hx)]

theorem allot_le_ask (k : Stock) (l : List Outlet) (o : Outlet) : allot ask k l o ≤ ask o := by
  induction l generalizing k with
  | nil => exact Nat.zero_le _
  | cons b l ih =>
    by_cases h : o = b
    · subst h; rw [allot_cons_self]; exact Nat.min_le_left ..
    · rw [allot_cons_of_ne ask k l h]; exact ih _

/-- The shares stay within the budget. -/
theorem total_allot_le (k : Stock) {l : List Outlet} (h : l.Nodup) : total (allot ask k l) l ≤ k.budget := by
  induction l generalizing k with
  | nil => exact Nat.zero_le _
  | cons o l ih =>
    obtain ⟨ho, hl⟩ := List.nodup_cons.1 h
    have hrest : total (allot ask k (o :: l)) l = total (allot ask (k.take o (min (ask o) (k.left o))) l) l :=
      total_congr fun b hb => allot_cons_of_ne ask k l fun e => ho (e ▸ hb)
    have := ih (k.take o (min (ask o) (k.left o))) hl
    have hleft : k.left o ≤ k.budget := Nat.min_le_right ..
    rw [total_cons, allot_cons_self, hrest]
    simp only [Stock.take] at this ⊢
    omega

/-- Behind the first, the shares are those of what it leaves of the stock. -/
theorem map_allot_cons {α : Type} (g : α → Outlet) (k : Stock) {a : α} {as : List α} (h : g a ∉ as.map g)
    {β : Type} (f : α → Nat → β) :
    (as.map fun b => f b (allot ask k (g a :: as.map g) (g b))) =
      as.map fun b => f b (allot ask (k.take (g a) (min (ask (g a)) (k.left (g a)))) (as.map g) (g b)) :=
  List.map_congr_left fun b hb => by
    rw [allot_cons_of_ne ask k _ fun e : g b = g a => h (e ▸ List.mem_map_of_mem hb)]

/-! ### The two rounds of targets (R58, R59) -/

/-- Round one gives a first module each, in rank order. -/
theorem roundOne_eq (k : Stock) {rs : List Ranked} (h : (rs.map Ranked.outlet).Nodup) :
    let first := allot (fun _ => 1) k (rs.map Ranked.outlet)
    roundOne k rs = (k.spend first (rs.map Ranked.outlet), rs.map fun r => (r, first r.outlet)) := by
  induction rs generalizing k with
  | nil => rfl
  | cons r rs ih =>
    obtain ⟨hr, hrs⟩ := List.nodup_cons.1 h
    have hrest := map_allot_cons (fun _ => 1) Ranked.outlet k hr fun b n => (b, n)
    have hspend := fun k' => spend_congr k' fun b (hb : b ∈ rs.map Ranked.outlet) =>
      allot_cons_of_ne (fun _ => 1) k (rs.map Ranked.outlet) fun e : b = r.outlet => hr (e ▸ hb)
    simp only [roundOne, ih _ hrs, List.map_cons, spend_cons, allot_cons_self, hrest, hspend]

/-- What an outlet asks for in round two, which leaves a target of 0 at 0. -/
def askMore (first want : Outlet → Nat) (o : Outlet) : Nat := if first o = 0 then 0 else want o - first o

/-- Round two raises each target toward its want, in rank order. -/
theorem roundTwo_eq (first want : Outlet → Nat) (k : Stock) {rs : List Ranked} (h : (rs.map Ranked.outlet).Nodup)
    (hw : ∀ r ∈ rs, r.want = want r.outlet) :
    let second := allot (askMore first want) k (rs.map Ranked.outlet)
    (roundTwo k (rs.map fun r => (r, first r.outlet))).2 =
      rs.map fun r => (r, first r.outlet + second r.outlet) := by
  induction rs generalizing k with
  | nil => rfl
  | cons r rs ih =>
    obtain ⟨hr, hrs⟩ := List.nodup_cons.1 h
    have hmore : (if first r.outlet = 0 then 0 else min (r.want - first r.outlet) (k.left r.outlet)) =
        min (askMore first want r.outlet) (k.left r.outlet) := by
      rw [hw r List.mem_cons_self, askMore]; split <;> simp
    have hrest := map_allot_cons (askMore first want) Ranked.outlet k hr fun b n => (b, first b.outlet + n)
    have hrs' := ih (k.take r.outlet (min (askMore first want r.outlet) (k.left r.outlet))) hrs
      fun b hb => hw b (List.mem_cons_of_mem r hb)
    simp only [roundTwo, List.map_cons, hmore, allot_cons_self, hrest]
    rw [hrs']

/-! ### The ranking (R57) -/

variable (s : State)

/-- An outlet with what ranks it. -/
def State.rankedOf (o : Outlet) : Ranked :=
  { outlet := o, priority := s.rankPriority o, serial := s.rankSerial o, want := s.want o }

/-- The outlets whose want is above 0, best rank first. -/
def State.rank : List Outlet := s.ranking.map Ranked.outlet

/-- The ranking sorts the outlets whose want is above 0. -/
theorem perm_ranking : s.ranking.Perm ((Config.outlets.filter fun o => decide (0 < s.want o)).map s.rankedOf) := by
  have he : (Config.outlets.filterMap fun o => if 0 < s.want o then some (s.rankedOf o) else none) =
      (Config.outlets.filter fun o => decide (0 < s.want o)).map s.rankedOf := by
    induction Config.outlets with
    | nil => rfl
    | cons o l ih => by_cases h : 0 < s.want o <;> simp [h, ih]
  rw [← he]
  exact List.perm_insertionSort _ _

theorem mem_ranking {r : Ranked} (h : r ∈ s.ranking) : r = s.rankedOf r.outlet ∧ 0 < s.want r.outlet := by
  obtain ⟨o, ho, rfl⟩ := List.mem_map.1 ((perm_ranking s).mem_iff.1 h)
  exact ⟨rfl, of_decide_eq_true (List.mem_filter.1 ho).2⟩

theorem perm_rank : s.rank.Perm (Config.outlets.filter fun o => decide (0 < s.want o)) := by
  have h := (perm_ranking s).map Ranked.outlet
  rwa [List.map_map, show Ranked.outlet ∘ s.rankedOf = id from rfl, List.map_id] at h

theorem nodup_rank : s.rank.Nodup :=
  (perm_rank s).nodup_iff.2 ((List.nodup_finRange 32).filter _)

theorem mem_rank {o : Outlet} : o ∈ s.rank ↔ 0 < s.want o := by
  rw [(perm_rank s).mem_iff]; simp [Config.outlets]

theorem Ranked.le_iff (a b : Ranked) :
    a.le b = true ↔ a.priority < b.priority ∨ (a.priority = b.priority ∧
      (a.serial < b.serial ∨ (a.serial = b.serial ∧ a.outlet.val ≤ b.outlet.val))) := by
  simp [Ranked.le]

/-- Priority, then start serial, then outlet number. -/
theorem pairwise_rank : s.rank.Pairwise fun a b =>
    s.rankPriority a < s.rankPriority b ∨ (s.rankPriority a = s.rankPriority b ∧
      (s.rankSerial a < s.rankSerial b ∨ (s.rankSerial a = s.rankSerial b ∧ a.val < b.val))) := by
  have htotal : Std.Total fun a b : Ranked => a.le b = true := ⟨fun a b => by simp only [Ranked.le_iff]; omega⟩
  have htrans : IsTrans Ranked fun a b => a.le b = true := ⟨fun a b c => by simp only [Ranked.le_iff]; omega⟩
  have hsorted : s.ranking.Pairwise fun a b => a.le b = true := List.pairwise_insertionSort _ _
  have hne : s.ranking.Pairwise fun a b => a.outlet ≠ b.outlet := List.pairwise_map.1 (nodup_rank s)
  refine List.pairwise_map.2 ((hsorted.and hne).imp_of_mem fun {a b} ha hb ⟨hle, hab⟩ => ?_)
  have hval : a.outlet.val ≠ b.outlet.val := fun e => hab (Fin.ext e)
  rw [(mem_ranking s ha).1, (mem_ranking s hb).1, Ranked.le_iff] at hle
  simp only [State.rankedOf] at hle
  omega

/-! ### The targets of a pass -/

/-- What round one gives each outlet. -/
def State.first : Outlet → Nat := allot (fun _ => 1) s.stock s.rank

/-- What round two gives each outlet, from what round one leaves. -/
def State.second : Outlet → Nat := allot (askMore s.first s.want) (s.stock.spend s.first s.rank) s.rank

/-- The target of an outlet; 0 where it is not ranked. -/
def State.target (o : Outlet) : Nat := s.first o + s.second o

/-- The targets of a pass, outlet by outlet. -/
theorem targets_eq : s.targets = s.ranking.map fun r => (r, s.target r.outlet) := by
  have h1 := roundOne_eq s.stock (nodup_rank s)
  have h2 := roundTwo_eq s.first s.want (s.stock.spend s.first s.rank) (nodup_rank s)
    fun r hr => congrArg Ranked.want (mem_ranking s hr).1
  simp only [State.targets]
  rw [h1]
  exact h2

theorem target_of_not_ranked {o : Outlet} (h : o ∉ s.rank) : s.target o = 0 := by
  rw [State.target, State.first, State.second, allot_of_not_mem _ _ h, allot_of_not_mem _ _ h]

theorem targetOf_targets (o : Outlet) : targetOf s.targets o = s.target o := by
  rw [targets_eq, targetOf, List.find?_map]
  cases hf : s.ranking.find? ((fun t : Target => decide (t.1.outlet = o)) ∘ fun r => (r, s.target r.outlet)) with
  | some r =>
    have : r.outlet = o := by simpa using List.find?_some hf
    simp [this]
  | none =>
    have hno : o ∉ s.rank := fun h => by
      obtain ⟨r, hr, rfl⟩ := List.mem_map.1 h
      simpa using List.find?_eq_none.1 hf r hr
    simp [target_of_not_ranked s hno]

/-- No target is above its want. -/
theorem target_le_want (o : Outlet) : s.target o ≤ s.want o := by
  by_cases h : o ∈ s.rank
  · have hfirst : s.first o ≤ 1 := allot_le_ask ..
    have hsecond : s.second o ≤ askMore s.first s.want o := allot_le_ask ..
    have hwant := (mem_rank s).1 h
    rw [State.target]
    unfold askMore at hsecond
    split at hsecond <;> omega
  · rw [target_of_not_ranked s h]; exact Nat.zero_le _

/-- The targets stay within the site budget. -/
theorem total_target_le : total s.target s.rank ≤ s.siteBudget := by
  have hfirst : total s.first s.rank ≤ s.stock.budget := total_allot_le _ _ (nodup_rank s)
  have hsecond : total s.second s.rank ≤ _ := total_allot_le _ _ (nodup_rank s)
  have hsum : total s.target s.rank = total s.first s.rank + total s.second s.rank :=
    List.sum_map_add
  rw [budget_spend] at hsecond
  have : s.stock.budget = s.siteBudget := rfl
  omega

end Sys2Proof.Machine
end

