-- ==== Sys2Proof/Proofs/ModuleTable.lean ====
section
/-! SUPPORT. The Module Table in a pass (R54, R60, R61): its counts, what the reductions leave GRANTED, and the raises of one
outlet, which take the FREE modules of its cabinet from the lowest-numbered up. -/

namespace Sys2Proof.Machine

variable (s : State)

/-! ### Counts -/

/-- A count of the table, module by module. -/
theorem countP_modules (p : Module → Bool) :
    s.power.modules.toList.countP p = Config.modules.countP fun m => p (s.module m) := by
  have htable : s.power.modules.toList = Config.modules.map s.module := by
    refine List.ext_getElem (by simp [Config.modules]) fun i h1 h2 => ?_
    simp [Config.modules, State.module, Table.get]
  rw [htable, List.countP_map]
  rfl

/-- A module replaced is counted as the new one and no more as the old one. -/
theorem countP_setModule (p : Module → Bool) (m : ModuleNo) (e : Module) :
    (setModule m e s).power.modules.toList.countP p + (if p (s.module m) then 1 else 0) =
      s.power.modules.toList.countP p + (if p e then 1 else 0) := by
  have hi : m.val < s.power.modules.toList.length := by simp
  have hget : s.power.modules.toList[m.val] = s.module m := by simp [State.module, Table.get]
  have hpos : p (s.module m) = true → 0 < s.power.modules.toList.countP p := fun h =>
    List.countP_pos_iff.2 ⟨_, hget ▸ List.getElem_mem hi, h⟩
  have hset := List.countP_set (p := p) (a := e) hi
  rw [hget] at hset
  have hlist : (setModule m e s).power.modules.toList = s.power.modules.toList.set m.val e :=
    Vector.toList_set m.isLt
  rw [hlist, hset]
  by_cases h : p (s.module m) = true
  · have := hpos h; simp only [h, if_true]; omega
  · simp only [h]; simp

theorem grant_setModule (o : Outlet) (m : ModuleNo) (e : Module) :
    (setModule m e s).grant o + (if (s.module m).grantedTo o then 1 else 0) =
      s.grant o + (if e.grantedTo o then 1 else 0) := countP_setModule s _ m e

theorem assignedCount_setModule (m : ModuleNo) (e : Module) :
    (setModule m e s).assignedCount + (if (s.module m).assigned then 1 else 0) =
      s.assignedCount + (if e.assigned then 1 else 0) := countP_setModule s _ m e

@[simp] theorem grantedTo_granted (o o' : Outlet) : (Module.granted o').grantedTo o = decide (o' = o) := rfl

theorem grantedTo_iff {o : Outlet} {e : Module} : e.grantedTo o = true ↔ e = .granted o := by
  cases e <;> simp [Module.grantedTo]

theorem grant_eq (o : Outlet) : s.grant o = Config.modules.countP fun m => decide (s.module m = .granted o) := by
  rw [State.grant, countP_modules]
  exact List.countP_congr fun m _ => by rw [grantedTo_iff]; simp

/-- A split of the modules at one of them is by number. -/
theorem countP_below {pre post : List ModuleNo} {m : ModuleNo} (h : pre ++ m :: post = Config.modules)
    (p : ModuleNo → Bool) : (Config.modules.countP fun m' => decide (m'.val < m.val) && p m') = pre.countP p := by
  have hlt : (pre ++ m :: post).Pairwise (· < ·) := h ▸ List.pairwise_lt_finRange 40
  obtain ⟨-, hpost, hpre⟩ := List.pairwise_append.1 hlt
  rw [← h, List.countP_append]
  have hhigh : ((m :: post).countP fun m' => decide (m'.val < m.val) && p m') = 0 := by
    refine List.countP_eq_zero.2 fun x hx => ?_
    rcases List.mem_cons.1 hx with rfl | hx
    · simp
    · have : m.val < x.val := List.rel_of_pairwise_cons hpost hx
      simp only [Bool.and_eq_true, decide_eq_true_eq, not_and]; omega
  rw [hhigh, Nat.add_zero]
  refine List.countP_congr fun x hx => ?_
  have : x < m := hpre x hx m List.mem_cons_self
  simp only [Bool.and_eq_true, decide_eq_true_eq, and_iff_right_iff_imp]
  exact fun _ => this

/-! ### Reduction (R60) -/

/-- How many modules below one are GRANTED to an outlet. -/
def State.grantedBelow (s : State) (o : Outlet) (m : ModuleNo) : Nat :=
  Config.modules.countP fun m' => decide (m'.val < m.val) && decide (s.module m' = .granted o)

/-- A module as the reductions leave it: RELEASING where enough modules below it are GRANTED to its outlet. -/
def State.reduced (s : State) (ts : List Target) (m : ModuleNo) : Module :=
  match s.module m with
  | .granted o => if s.grantedBelow o m < targetOf ts o then .granted o else .releasing o s.releaseDeadline false
  | e => e

theorem reduced_of_granted {ts : List Target} {m : ModuleNo} {o : Outlet} (h : s.module m = .granted o) :
    s.reduced ts m =
      if s.grantedBelow o m < targetOf ts o then .granted o else .releasing o s.releaseDeadline false := by
  rw [State.reduced, h]

theorem reduced_of_not_granted {ts : List Target} {m : ModuleNo} (h : ∀ o, s.module m ≠ .granted o) :
    s.reduced ts m = s.module m := by
  unfold State.reduced
  split
  · next o ho => exact absurd ho (h o)
  · rfl

theorem setModule_self (m : ModuleNo) : setModule m (s.module m) s = s := by
  simp [setModule, State.module, Table.get, Table.set]

/-- How many modules of a list are GRANTED to an outlet. -/
def State.grantedIn (s : State) (l : List ModuleNo) (o : Outlet) : Nat :=
  l.countP fun m => decide (s.module m = .granted o)

theorem grantedIn_le {pre post : List ModuleNo} (h : pre ++ post = Config.modules) (o : Outlet) :
    s.grantedIn pre o ≤ s.grant o := by
  rw [grant_eq, ← h, List.countP_append]; exact Nat.le_add_right ..

/-- The state with the reductions made from the top of the table down to the module after `pre`. -/
structure ReducedTo (ts : List Target) (pre post : List ModuleNo) (s r : State) : Prop where
  time : r.releaseDeadline = s.releaseDeadline
  grant : ∀ o, r.grant o = max (s.grantedIn pre o) (min (s.grant o) (targetOf ts o))
  module : ∀ m, r.module m = if m ∈ post then s.reduced ts m else s.module m

variable {s}

/-- The next reduction sees more modules GRANTED than the target where those below its module reach it. -/
theorem ReducedTo.reduceModule_eq {ts : List Target} {pre post : List ModuleNo} {r : State} {m : ModuleNo}
    (h : ReducedTo ts (pre ++ [m]) post s r) (hsplit : pre ++ m :: post = Config.modules) (hm : m ∉ post) :
    reduceModule ts m r = setModule m (s.reduced ts m) r := by
  have hself : r.module m = s.module m := by rw [h.module, if_neg hm]
  unfold reduceModule
  split
  · next o ho =>
    rw [hself] at ho
    have hbelow : s.grantedBelow o m = s.grantedIn pre o := countP_below hsplit _
    have hpre : s.grantedIn (pre ++ [m]) o = s.grantedIn pre o + 1 := by
      simp [State.grantedIn, List.countP_append, ho]
    have hall : s.grantedIn (pre ++ [m]) o ≤ s.grant o := grantedIn_le s (List.append_cons .. ▸ hsplit) o
    have hgrant := h.grant o
    rw [reduced_of_granted s ho, h.time]
    by_cases ht : targetOf ts o < r.grant o
    · rw [if_pos ht, if_neg (by omega)]
    · rw [if_neg ht, if_pos (by omega), ← ho, ← hself, setModule_self]
  · next hno => rw [reduced_of_not_granted s fun o ho => hno o (hself.trans ho), ← hself, setModule_self]

theorem ReducedTo.step {ts : List Target} {pre post : List ModuleNo} {r : State} {m : ModuleNo}
    (h : ReducedTo ts (pre ++ [m]) post s r) (hsplit : pre ++ m :: post = Config.modules) :
    ReducedTo ts pre (m :: post) s (reduceModule ts m r) := by
  have hnodup : (pre ++ m :: post).Nodup := hsplit ▸ List.nodup_finRange 40
  have hm : m ∉ post := (List.nodup_cons.1 (List.nodup_append.1 hnodup).2.1).1
  rw [h.reduceModule_eq hsplit hm]
  refine ⟨h.time, fun o => ?_, fun m' => ?_⟩
  · have hset := grant_setModule r o m (s.reduced ts m)
    have hgrant := h.grant o
    have hpre : s.grantedIn (pre ++ [m]) o = s.grantedIn pre o + if s.module m = .granted o then 1 else 0 := by
      simp [State.grantedIn, List.countP_append, List.countP_singleton]
    have hall : s.grantedIn (pre ++ [m]) o ≤ s.grant o := grantedIn_le s (List.append_cons .. ▸ hsplit) o
    rw [h.module, if_neg hm] at hset
    by_cases ho : s.module m = .granted o
    · have hbelow : s.grantedBelow o m = s.grantedIn pre o := countP_below hsplit _
      have hreduced : (s.reduced ts m).grantedTo o = decide (s.grantedIn pre o < targetOf ts o) := by
        rw [reduced_of_granted s ho, hbelow]; split <;> simp_all [Module.grantedTo]
      rw [hreduced] at hset
      simp only [ho, grantedTo_granted, decide_true, if_true, decide_eq_true_eq] at hset hpre
      split at hset <;> omega
    · have hnot : (s.reduced ts m).grantedTo o = false ∧ (s.module m).grantedTo o = false := by
        simp only [← Bool.not_eq_true, grantedTo_iff]
        refine ⟨?_, ho⟩
        by_cases hg : ∃ o', s.module m = .granted o'
        · obtain ⟨o', ho'⟩ := hg
          rw [reduced_of_granted s ho']
          split
          · rwa [← ho']
          · nofun
        · rwa [reduced_of_not_granted s fun o' ho' => hg ⟨o', ho'⟩]
      simp only [hnot, ho, if_false, Bool.false_eq_true, Nat.add_zero] at hset hpre
      rw [hset, hgrant, hpre]
  · rw [module_setModule]
    by_cases he : m = m'
    · subst he; simp
    · rw [if_neg he, h.module]; simp [Ne.symm he]

variable (s)

theorem reducedTo_foldr (ts : List Target) (pre post : List ModuleNo) (h : pre ++ post = Config.modules) :
    ReducedTo ts pre post s (post.foldr (reduceModule ts) s) := by
  induction post generalizing pre with
  | nil =>
    refine ⟨rfl, fun o => ?_, fun m => rfl⟩
    rw [← List.append_nil pre, h, State.grantedIn, ← grant_eq]; simp
  | cons m post ih => exact (ih (pre ++ [m]) (by simpa using h)).step h

theorem reduce_eq_foldr (ts : List Target) : reduce ts s = Config.modules.foldr (reduceModule ts) s := by
  rw [reduce, forEach, List.foldl_reverse]

/-- What the reductions leave of each module. -/
theorem module_reduce (ts : List Target) (m : ModuleNo) : (reduce ts s).module m = s.reduced ts m := by
  rw [reduce_eq_foldr, (reducedTo_foldr s ts [] Config.modules rfl).module m]
  exact if_pos (List.mem_finRange m)

/-- The reductions bring each grant down to its target. -/
theorem grant_reduce (ts : List Target) (o : Outlet) : (reduce ts s).grant o = min (s.grant o) (targetOf ts o) := by
  rw [reduce_eq_foldr, (reducedTo_foldr s ts [] Config.modules rfl).grant o]
  exact Nat.zero_max _

theorem reduced_eq_free {ts : List Target} {m : ModuleNo} : s.reduced ts m = .free ↔ s.module m = .free := by
  unfold State.reduced
  split
  · next o ho => rw [ho]; split <;> simp
  · rfl

theorem assigned_reduced (ts : List Target) (m : ModuleNo) : (s.reduced ts m).assigned = (s.module m).assigned := by
  unfold State.reduced
  split
  · next o ho => rw [ho]; split <;> rfl
  · rfl

/-- A module that is being released counts as before. -/
theorem assignedCount_reduce (ts : List Target) : (reduce ts s).assignedCount = s.assignedCount := by
  simp only [State.assignedCount, countP_modules, module_reduce, assigned_reduced]

/-! ### The raises of one outlet (R61) -/

/-- The FREE modules of a cabinet, lowest-numbered first. -/
def State.freeModules (s : State) (c : Cabinet) : List ModuleNo :=
  Config.modules.filter fun m => cabinetOfModule m = c && s.module m == .free

theorem mem_freeModules {c : Cabinet} {m : ModuleNo} :
    m ∈ s.freeModules c ↔ cabinetOfModule m = c ∧ s.module m = .free := by
  simp [State.freeModules, Config.modules]

theorem nodup_freeModules (c : Cabinet) : (s.freeModules c).Nodup := (List.nodup_finRange 40).filter _

theorem freeModule_eq (o : Outlet) : s.freeModule o = (s.freeModules (cabinetOf o)).head? :=
  (List.head?_filter ..).symm

/-- A FREE module that is GRANTED leaves the list of its cabinet. -/
theorem freeModules_setModule {m : ModuleNo} (o : Outlet) (c : Cabinet) :
    (setModule m (.granted o) s).freeModules c = (s.freeModules c).filter (· ≠ m) := by
  simp only [State.freeModules, List.filter_filter]
  refine List.filter_congr fun x _ => ?_
  rw [module_setModule]
  by_cases h : m = x
  · subst h; simp
  · simp [h, Ne.symm h]

/-- What one outlet's raises leave of a state: `n` more modules are its own, the lowest-numbered FREE ones of its cabinet. -/
structure Raised (o : Outlet) (n : Nat) (s r : State) : Prop where
  module : ∀ m, r.module m = if m ∈ (s.freeModules (cabinetOf o)).take n then .granted o else s.module m
  free : ∀ c, r.freeModules c = (s.freeModules c).drop (if cabinetOf o = c then n else 0)
  grant : ∀ o', r.grant o' = s.grant o' + if o = o' then n else 0
  assigned : r.assignedCount = s.assignedCount + n
  budget : r.siteBudget = s.siteBudget

theorem Raised.refl (o : Outlet) (s : State) : Raised o 0 s s :=
  { module := by simp, free := by simp, grant := by simp, assigned := rfl, budget := rfl }

/-- One raise, where a FREE module is left and the budget reaches. -/
theorem raised_one {o : Outlet} {m : ModuleNo} {l : List ModuleNo} (h : s.freeModules (cabinetOf o) = m :: l) :
    Raised o 1 s (setModule m (.granted o) s) := by
  have hmem : m ∈ s.freeModules (cabinetOf o) := h ▸ List.mem_cons_self
  obtain ⟨hcab, hfree⟩ := (mem_freeModules s).1 hmem
  refine ⟨fun m' => ?_, fun c => ?_, fun o' => ?_, ?_, rfl⟩
  · rw [module_setModule, h]; simp [eq_comm]
  · rw [freeModules_setModule]
    by_cases hc : cabinetOf o = c
    · subst hc
      have hn : (m :: l).Nodup := h ▸ nodup_freeModules s _
      rw [h, if_pos rfl, List.drop_one, List.tail_cons, List.filter_cons_of_neg (by simp)]
      exact List.filter_eq_self.2 fun x hx => by
        simpa using fun e : x = m => (List.nodup_cons.1 hn).1 (e ▸ hx)
    · rw [if_neg hc, List.drop_zero]
      refine List.filter_eq_self.2 fun x hx => ?_
      have : x ≠ m := by rintro rfl; exact hc (hcab.symm.trans ((mem_freeModules s).1 hx).1)
      simpa using this
  · have := grant_setModule s o' m (.granted o)
    rw [hfree] at this
    simpa [Module.grantedTo] using this
  · have := assignedCount_setModule s m (.granted o)
    rw [hfree] at this
    simpa [Module.assigned] using this

theorem Raised.trans {o : Outlet} {i j : Nat} {s r u : State} (h : Raised o i s r) (h' : Raised o j r u) :
    Raised o (i + j) s u := by
  refine ⟨fun m => ?_, fun c => ?_, fun o' => ?_, ?_, h'.budget.trans h.budget⟩
  · simp only [h'.module, h.module, h.free, if_true, List.take_add, List.mem_append]
    by_cases hi : m ∈ (s.freeModules (cabinetOf o)).take i <;> simp [hi]
  · rw [h'.free, h.free]; split <;> simp
  · rw [h'.grant, h.grant]; split <;> omega
  · rw [h'.assigned, h.assigned]; omega

/-- What the stock of modules that can be GRANTED is: the FREE ones of each cabinet, within the site budget. -/
def State.spare (s : State) : Stock :=
  { cabinets := Vector.ofFn fun c : Cabinet => (s.freeModules c).length, budget := s.siteBudget - s.assignedCount }

theorem left_spare (o : Outlet) : s.spare.left o =
    min (s.freeModules (cabinetOf o)).length (s.siteBudget - s.assignedCount) := by
  simp [State.spare, Stock.left, Table.get]

theorem Raised.spare {o : Outlet} {n : Nat} {s r : State} (h : Raised o n s r) : r.spare = s.spare.take o n := by
  have hcab : r.spare.cabinets = (s.spare.take o n).cabinets := by
    ext1 i hi
    simp only [State.spare, Stock.take, Table.set, Table.get, Vector.getElem_ofFn, Vector.getElem_set, h.free,
      List.length_drop]
    by_cases hc : cabinetOf o = ⟨i, hi⟩
    · simp [hc]
    · have : (cabinetOf o).val ≠ i := fun e => hc (Fin.ext e)
      simp [hc, this]
  have hbudget : r.spare.budget = (s.spare.take o n).budget := by
    simp only [State.spare, Stock.take, h.assigned, h.budget]; omega
  cases hr : r.spare
  cases hs : s.spare.take o n
  rw [hr, hs] at hcab hbudget
  cases hcab; cases hbudget; rfl

/-- Without a FREE module, or with the budget used up, no raise is made. -/
theorem raiseOne_of_none {o : Outlet} (h : s.spare.left o = 0) : raiseOne o s = s := by
  unfold raiseOne
  rw [freeModule_eq]
  split
  · next m hm =>
    obtain ⟨l, hl⟩ := List.head?_eq_some_iff.1 hm
    rw [left_spare, hl, List.length_cons] at h
    rw [if_neg (by omega)]
  · rfl

theorem raised_raiseOne {o : Outlet} (h : 0 < s.spare.left o) : Raised o 1 s (raiseOne o s) := by
  rw [left_spare] at h
  obtain ⟨m, l, hl⟩ := List.exists_cons_of_length_pos (Nat.lt_of_lt_of_le h (Nat.min_le_left ..))
  have : raiseOne o s = setModule m (.granted o) s := by
    unfold raiseOne
    rw [freeModule_eq, hl, List.head?_cons]
    exact if_pos (by omega)
  rw [this]
  exact raised_one s hl

/-- Raises asked for are made as far as the spare modules reach. -/
theorem raised_iterate (o : Outlet) (n : Nat) :
    Raised o (min n (s.spare.left o)) s ((raiseOne o)^[n] s) := by
  induction n generalizing s with
  | zero => rw [Nat.zero_min]; exact .refl o s
  | succ n ih =>
    rw [Function.iterate_succ_apply]
    by_cases h : 0 < s.spare.left o
    · have h1 := raised_raiseOne s h
      have hleft : (raiseOne o s).spare.left o = s.spare.left o - 1 := by
        rw [h1.spare, Stock.left, Stock.take, Stock.left]
        dsimp only
        rw [Table.get_set_self]; omega
      have := h1.trans (ih (raiseOne o s))
      rwa [hleft, show 1 + min n (s.spare.left o - 1) = min (n + 1) (s.spare.left o) by omega] at this
    · have h0 : s.spare.left o = 0 := by omega
      rw [raiseOne_of_none s h0]
      simpa [h0] using ih s

end Sys2Proof.Machine
end

