-- ==== Sys2Proof/Proofs/Pass.lean ====
section
/-! SUPPORT. The pass (O48): its raises in rank order, what it leaves of each module, each grant and each peak, and what it leaves
unchanged. -/

namespace Sys2Proof.Machine

variable (s : State)

/-! ### Who gets a FREE module -/

/-- The outlet that gets the FREE module which stands at a place in the list of its cabinet, where each outlet of a list takes
its share from the front (R61). -/
def recipient (g : Outlet → Nat) (c : Cabinet) : List Outlet → Nat → Option Outlet
  | [], _ => none
  | o :: l, n => if cabinetOf o = c then if n < g o then some o else recipient g c l (n - g o) else recipient g c l n

theorem mem_of_recipient {g : Outlet → Nat} {c : Cabinet} {l : List Outlet} {n : Nat} {o : Outlet}
    (h : recipient g c l n = some o) : o ∈ l ∧ cabinetOf o = c ∧ 0 < g o := by
  induction l generalizing n with
  | nil => cases h
  | cons b l ih =>
    unfold recipient at h
    split at h
    · next hb =>
      split at h
      · next hn => cases h; exact ⟨List.mem_cons_self, hb, Nat.zero_lt_of_lt hn⟩
      · exact (ih h).imp_left (List.mem_cons_of_mem b)
    · exact (ih h).imp_left (List.mem_cons_of_mem b)

theorem recipient_congr {f g : Outlet → Nat} {c : Cabinet} {l : List Outlet} (h : ∀ o ∈ l, f o = g o) (n : Nat) :
    recipient f c l n = recipient g c l n := by
  induction l generalizing n with
  | nil => rfl
  | cons o l ih =>
    have hl := ih fun b hb => h b (List.mem_cons_of_mem o hb)
    simp only [recipient, h o List.mem_cons_self, hl]

/-- An outlet gets the places behind those of the outlets before it. -/
theorem recipient_eq_some {g : Outlet → Nat} {c : Cabinet} {before after : List Outlet} {o : Outlet} (n : Nat)
    (h : (before ++ o :: after).Nodup) :
    recipient g c (before ++ o :: after) n = some o ↔
      cabinetOf o = c ∧ totalAt c g before ≤ n ∧ n < totalAt c g before + g o := by
  induction before generalizing n with
  | nil =>
    have hafter (n : Nat) : recipient g c after n ≠ some o := fun e => (List.nodup_cons.1 h).1 (mem_of_recipient e).1
    by_cases hc : cabinetOf o = c
    · by_cases hn : n < g o <;> simp [recipient, hc, hn, hafter, totalAt]
    · simp [recipient, hc, hafter]
  | cons b before ih =>
    obtain ⟨hb, hn⟩ := List.nodup_cons.1 h
    have hne : b ≠ o := fun e => hb (by simp [e])
    rw [List.cons_append, recipient, totalAt_cons]
    by_cases hc : cabinetOf b = c
    · rw [if_pos hc, if_pos hc.symm]
      by_cases hlt : n < g b
      · rw [if_pos hlt]
        simp only [Option.some.injEq, hne, false_iff]; omega
      · rw [if_neg hlt, ih _ hn]
        exact and_congr_right fun _ => by omega
    · rw [if_neg hc, if_neg (Ne.symm hc), Nat.zero_add, ih _ hn]

/-! ### The raises (R61, R62) -/

theorem allot_congr {ask ask' : Outlet → Nat} {l : List Outlet} (h : ∀ o ∈ l, ask o = ask' o) (k : Stock) :
    allot ask k l = allot ask' k l := by
  induction l generalizing k with
  | nil => rfl
  | cons o l ih =>
    rw [allot, allot, h o List.mem_cons_self, ih fun b hb => h b (List.mem_cons_of_mem o hb)]

/-- The place of a module among the FREE ones of its cabinet. -/
def State.place (s : State) (m : ModuleNo) : Nat := (s.freeModules (cabinetOfModule m)).idxOf m

/-- What the raises of a list of outlets leave of a state. -/
structure RaisedBy (g : Outlet → Nat) (l : List Outlet) (s r : State) : Prop where
  module : ∀ m, r.module m =
    if s.module m = .free then ((recipient g (cabinetOfModule m) l (s.place m)).map Module.granted).getD .free
    else s.module m
  grant : ∀ o, r.grant o = s.grant o + if o ∈ l then g o else 0
  assigned : r.assignedCount = s.assignedCount + total g l

theorem RaisedBy.nil (g : Outlet → Nat) (s : State) : RaisedBy g [] s s :=
  { module := fun m => by split <;> simp_all [recipient], grant := by simp, assigned := rfl }

variable {s}

theorem RaisedBy.congr {f g : Outlet → Nat} {l : List Outlet} {r : State} (h : RaisedBy f l s r)
    (hfg : ∀ o ∈ l, f o = g o) : RaisedBy g l s r :=
  { module := fun m => by rw [h.module, recipient_congr hfg]
    grant := fun o => by rw [h.grant]; split <;> simp_all
    assigned := by rw [h.assigned, total_congr hfg] }

/-- The raises of one outlet and then of those behind it. -/
theorem RaisedBy.cons {g : Outlet → Nat} {o : Outlet} {l : List Outlet} {x r : State} (h1 : Raised o (g o) s x)
    (h2 : RaisedBy g l x r) (ho : o ∉ l) : RaisedBy g (o :: l) s r := by
  refine ⟨fun m => ?_, fun o' => ?_, ?_⟩
  · by_cases hfree : s.module m = .free
    · have hmem : m ∈ s.freeModules (cabinetOfModule m) := (mem_freeModules s).2 ⟨rfl, hfree⟩
      rw [if_pos hfree, recipient]
      by_cases hc : cabinetOf o = cabinetOfModule m
      · have htake : m ∈ (s.freeModules (cabinetOf o)).take (g o) ↔ s.place m < g o := by
          rw [hc]; exact List.mem_take_iff_idxOf_lt hmem
        rw [if_pos hc]
        by_cases hlt : s.place m < g o
        · have hx : x.module m = .granted o := by rw [h1.module, if_pos (htake.2 hlt)]
          rw [if_pos hlt, h2.module, hx]; rfl
        · have hnot := mt htake.1 hlt
          have hx : x.module m = .free := by rw [h1.module, if_neg hnot, hfree]
          have hplace : s.place m = g o + x.place m := by
            have hsplit : s.freeModules (cabinetOfModule m) =
                (s.freeModules (cabinetOf o)).take (g o) ++ x.freeModules (cabinetOfModule m) := by
              rw [h1.free, if_pos hc, hc, List.take_append_drop]
            have hlen : ((s.freeModules (cabinetOf o)).take (g o)).length = g o := by
              have : s.place m < (s.freeModules (cabinetOf o)).length := hc ▸ List.idxOf_lt_length_iff.2 hmem
              rw [List.length_take]; omega
            rw [State.place, hsplit, List.idxOf_append_of_notMem hnot, hlen]; rfl
          rw [if_neg hlt, h2.module, if_pos hx, hplace, Nat.add_sub_cancel_left]
      · have hnot : m ∉ (s.freeModules (cabinetOf o)).take (g o) := fun h =>
          hc ((mem_freeModules s).1 (List.mem_of_mem_take h)).1.symm
        have hx : x.module m = .free := by rw [h1.module, if_neg hnot, hfree]
        have hplace : x.place m = s.place m := by rw [State.place, h1.free, if_neg hc]; rfl
        rw [if_neg hc, h2.module, if_pos hx, hplace]
    · have hnot : m ∉ (s.freeModules (cabinetOf o)).take (g o) := fun h =>
        hfree ((mem_freeModules s).1 (List.mem_of_mem_take h)).2
      have hx : x.module m = s.module m := by rw [h1.module, if_neg hnot]
      rw [if_neg hfree, h2.module, hx, if_neg hfree]
  · rw [h2.grant, h1.grant]
    by_cases he : o = o'
    · subst he; simp [ho]
    · simp [he, Ne.symm he]
  · rw [h2.assigned, h1.assigned, total_cons, Nat.add_assoc]

/-- Raises of nothing change nothing. -/
theorem RaisedBy.zero (l : List Outlet) (s : State) : RaisedBy (fun _ => 0) l s s := by
  have hnone (c : Cabinet) (n : Nat) : recipient (fun _ => 0) c l n = none := by
    refine Option.eq_none_iff_forall_ne_some.2 fun o h => ?_
    exact absurd (mem_of_recipient h).2.2 (Nat.lt_irrefl 0)
  exact { module := fun m => by rw [hnone]; split <;> simp_all, grant := by simp, assigned := by simp [total] }

variable (s)

/-- The raises toward targets, in rank order: each outlet gets what it lacks, as far as the spare modules reach. -/
theorem raisedBy_forEach (target : Outlet → Nat) (rs : List Ranked) (h : (rs.map Ranked.outlet).Nodup) :
    RaisedBy (allot (fun o => target o - s.grant o) s.spare (rs.map Ranked.outlet)) (rs.map Ranked.outlet) s
      (forEach (rs.map fun r => (r, target r.outlet)) raiseOutlet s) := by
  induction rs generalizing s with
  | nil => exact .nil _ s
  | cons r rs ih =>
    obtain ⟨hr, hrs⟩ := List.nodup_cons.1 h
    set x := raiseOutlet (r, target r.outlet) s with hx
    have h1 : Raised r.outlet (min (target r.outlet - s.grant r.outlet) (s.spare.left r.outlet)) s x :=
      raised_iterate s r.outlet _
    refine RaisedBy.cons (x := x) (by rw [List.map_cons, allot_cons_self]; exact h1) ((ih x hrs).congr fun b hb => ?_) hr
    have hne : r.outlet ≠ b := fun e => hr (e ▸ hb)
    rw [List.map_cons, allot_cons_of_ne _ _ _ hne.symm, h1.spare]
    refine congrFun (allot_congr (fun c hc => ?_) _) b
    have hne : r.outlet ≠ c := fun e => hr (e ▸ hc)
    rw [h1.grant, if_neg hne, Nat.add_zero]

/-- What the raises of a pass give each outlet: nothing while the start guard runs. -/
def State.gets : Outlet → Nat :=
  if s.power.startGuard = none then allot (fun o => s.target o - s.grant o) s.spare s.rank else fun _ => 0

/-- The reductions leave the same modules to be GRANTED. -/
theorem spare_reduce (ts : List Target) : (reduce ts s).spare = s.spare := by
  have hfree (c : Cabinet) : (reduce ts s).freeModules c = s.freeModules c :=
    List.filter_congr fun m _ => by
      rw [module_reduce, Bool.eq_iff_iff]; simp [reduced_eq_free]
  have hbudget : (reduce ts s).siteBudget = s.siteBudget := by
    rw [reduce]
    refine forEach_keeps s State.siteBudget _ _ fun m u => ?_
    unfold reduceModule
    repeat' split
    all_goals rfl
  simp only [State.spare, hfree, hbudget, assignedCount_reduce]

theorem startGuard_reduce (ts : List Target) : (reduce ts s).power.startGuard = s.power.startGuard := by
  rw [reduce]
  refine forEach_keeps s (·.power.startGuard) _ _ fun m u => ?_
  unfold reduceModule
  repeat' split
  all_goals rfl

/-- The raises of a pass, after its reductions. -/
theorem raisedBy_raises : RaisedBy s.gets s.rank (reduce s.targets s) (raises s.targets (reduce s.targets s)) := by
  unfold raises State.gets
  rw [startGuard_reduce]
  cases hg : s.power.startGuard with
  | some t => exact RaisedBy.zero _ _
  | none =>
    have h := raisedBy_forEach (reduce s.targets s) s.target s.ranking (nodup_rank s)
    rw [← targets_eq] at h
    refine h.congr fun o _ => ?_
    rw [if_pos rfl, spare_reduce]
    refine congrFun (allot_congr (fun b _ => ?_) _) o
    rw [grant_reduce, targetOf_targets]; omega

/-! ### What a pass leaves -/

/-- A state without what a pass moves beside the request mark. -/
def besidePass (s : State) : State :=
  { s with
    power := { s.power with modules := Apportioner.reset.modules },
    meters := { s.meters with records := Metering.reset.records } }

theorem besidePass_reduce (ts : List Target) : besidePass (reduce ts s) = besidePass s := by
  refine forEach_keeps s besidePass _ _ fun m u => ?_
  unfold reduceModule
  repeat' split
  all_goals rfl

theorem besidePass_raises (ts : List Target) : besidePass (raises ts s) = besidePass s := by
  have hone (o : Outlet) (u : State) : besidePass (raiseOne o u) = besidePass u := by
    unfold raiseOne
    repeat' split
    all_goals rfl
  unfold raises
  split
  · rfl
  · exact forEach_keeps s besidePass _ _ fun t u => iterate_keeps u besidePass _ (hone _) _

theorem besidePass_pass : besidePass (pass s) = besidePass (clearPassRequest s) := by
  simp only [pass]
  rw [forEach_keeps _ besidePass Config.outlets raisePeak fun _ _ => rfl, besidePass_raises, besidePass_reduce]

theorem eq_of_besidePass {s p : State} (h : besidePass p = besidePass s) :
    p =
      { s with
        power := { s.power with modules := p.power.modules },
        meters := { s.meters with records := p.meters.records } } := by
  calc p =
      { besidePass p with
        power := { (besidePass p).power with modules := p.power.modules },
        meters := { (besidePass p).meters with records := p.meters.records } } := rfl
    _ = _ := by rw [h]; rfl

/-- The pass clears the request mark and changes the Module Table and the peaks. -/
theorem pass_eq :
    pass s =
      { s with
        power := { s.power with passRequest := false, modules := (pass s).power.modules },
        meters := { s.meters with records := (pass s).meters.records } } :=
  eq_of_besidePass (besidePass_pass s)

/-- The state of a pass before its peaks. -/
def moved (s : State) : State := raises s.targets (reduce s.targets (clearPassRequest s))

theorem power_pass : (pass s).power = (moved s).power :=
  forEach_keeps (moved s) State.power _ raisePeak fun _ _ => rfl

theorem raisedBy_moved : RaisedBy s.gets s.rank (reduce s.targets (clearPassRequest s)) (moved s) :=
  raisedBy_raises (clearPassRequest s)

/-- What a pass leaves of a module. -/
theorem module_pass (m : ModuleNo) :
    (pass s).module m =
      if s.module m = .free then
        ((recipient s.gets (cabinetOfModule m) s.rank (s.place m)).map Module.granted).getD .free
      else s.reduced s.targets m := by
  have hreduce (m : ModuleNo) : (reduce s.targets (clearPassRequest s)).module m = s.reduced s.targets m :=
    module_reduce (clearPassRequest s) _ m
  have hplace : (reduce s.targets (clearPassRequest s)).place m = s.place m := by
    have hfree : (reduce s.targets (clearPassRequest s)).freeModules (cabinetOfModule m) =
        s.freeModules (cabinetOfModule m) :=
      List.filter_congr fun x _ => by rw [hreduce, Bool.eq_iff_iff]; simp [reduced_eq_free]
    rw [State.place, hfree]; rfl
  have hmodule : (pass s).module m = (moved s).module m := by rw [State.module, power_pass]; rfl
  rw [hmodule, (raisedBy_moved s).module, hreduce, hplace]
  simp only [reduced_eq_free]

theorem grant_pass (o : Outlet) : (pass s).grant o = min (s.grant o) (s.target o) + s.gets o := by
  have hgrant : (pass s).grant o = (moved s).grant o := by rw [State.grant, power_pass]; rfl
  have hreduce := grant_reduce (clearPassRequest s) s.targets o
  rw [targetOf_targets] at hreduce
  rw [hgrant, (raisedBy_moved s).grant, hreduce]
  by_cases h : o ∈ s.rank
  · rw [if_pos h]; rfl
  · have : s.gets o = 0 := by
      unfold State.gets; split
      · exact allot_of_not_mem _ _ h
      · rfl
    rw [if_neg h, this]; rfl

theorem assignedCount_pass : (pass s).assignedCount = s.assignedCount + total s.gets s.rank := by
  have hcount : (pass s).assignedCount = (moved s).assignedCount := by rw [State.assignedCount, power_pass]; rfl
  rw [hcount, (raisedBy_moved s).assigned, assignedCount_reduce]; rfl

theorem gets_le (o : Outlet) : s.gets o ≤ s.target o - s.grant o := by
  unfold State.gets; split
  · exact allot_le_ask ..
  · exact Nat.zero_le _

theorem grant_pass_le_target (o : Outlet) : (pass s).grant o ≤ s.target o := by
  have := gets_le s o
  rw [grant_pass]; omega

/-- No grant is above its want after a pass (R56, R59). -/
theorem grant_pass_le_want (o : Outlet) : (pass s).grant o ≤ s.want o :=
  (grant_pass_le_target s o).trans (target_le_want s o)

/-- The interval peaks follow the counts of their outlets (R110). -/
theorem record_forEach_raisePeak {l : List Outlet} (h : l.Nodup) (o : Outlet) :
    (forEach l raisePeak s).record o =
      if o ∈ l then { s.record o with peak := max (s.record o).peak (s.heldCount o) } else s.record o := by
  induction l generalizing s with
  | nil => rfl
  | cons b l ih =>
    obtain ⟨hb, hl⟩ := List.nodup_cons.1 h
    have hstep : (raisePeak b s).record o =
        if b = o then { s.record o with peak := max (s.record o).peak (s.heldCount o) } else s.record o := by
      rw [raisePeak, record_mapRecord]; split
      · next e => subst e; rfl
      · rfl
    have hcount : (raisePeak b s).heldCount o = s.heldCount o := rfl
    rw [show forEach (b :: l) raisePeak s = forEach l raisePeak (raisePeak b s) from rfl, ih _ hl, hstep, hcount]
    by_cases e : b = o
    · subst e; simp [hb]
    · simp [e, Ne.symm e]

theorem record_pass (o : Outlet) :
    (pass s).record o = { s.record o with peak := max (s.record o).peak ((pass s).heldCount o) } := by
  have hcount : (pass s).heldCount o = (moved s).heldCount o := by rw [State.heldCount, power_pass]; rfl
  have hreduce : (reduce s.targets (clearPassRequest s)).meters = s.meters := by
    refine forEach_keeps (clearPassRequest s) State.meters _ _ fun m u => ?_
    unfold reduceModule
    repeat' split
    all_goals rfl
  have hmeters : (moved s).meters = s.meters := by
    have hone (o : Outlet) (u : State) : (raiseOne o u).meters = u.meters := by
      unfold raiseOne
      repeat' split
      all_goals rfl
    unfold moved raises
    split
    · exact hreduce
    · exact (forEach_keeps _ State.meters _ _ fun t u => iterate_keeps u State.meters _ (hone _) _).trans hreduce
  have hrecord : (moved s).record o = s.record o := by rw [State.record, hmeters]; rfl
  rw [hcount, ← hrecord]
  exact (record_forEach_raisePeak (moved s) (List.nodup_finRange 32) o).trans (if_pos (List.mem_finRange o))

/-! ### The pass as the statement says it (R57 to R62) -/

theorem module_pass_of_granted {m : ModuleNo} {o : Outlet} (h : s.module m = .granted o) :
    (pass s).module m =
      if s.grantedBelow o m < s.target o then .granted o
      else .releasing o (s.now + 1000 * (5 * s.control.settings.pollPeriod)) false := by
  rw [module_pass, if_neg (by simp [h]), reduced_of_granted s h, targetOf_targets, State.releaseDeadline, ms,
    Nat.mul_comm 1000]

theorem module_pass_of_free {m : ModuleNo} (h : s.module m = .free) :
    (pass s).module m = ((recipient s.gets (cabinetOfModule m) s.rank (s.place m)).map Module.granted).getD .free := by
  rw [module_pass, if_pos h]

theorem module_pass_of_other {m : ModuleNo} (hg : ∀ o, s.module m ≠ .granted o) (hf : s.module m ≠ .free) :
    (pass s).module m = s.module m := by
  rw [module_pass, if_neg hf, reduced_of_not_granted s hg]

/-- A FREE module is GRANTED to an outlet exactly where the outlet is its recipient. -/
theorem module_pass_eq_granted {m : ModuleNo} {o : Outlet} (h : s.module m = .free) :
    (pass s).module m = .granted o ↔ recipient s.gets (cabinetOfModule m) s.rank (s.place m) = some o := by
  rw [module_pass_of_free s h]
  cases recipient s.gets (cabinetOfModule m) s.rank (s.place m) <;> simp

theorem siteBudget_mul_le : 40 * s.siteBudget ≤ s.power.siteLimit := Nat.mul_div_le ..

theorem total_gets_le : total s.gets s.rank ≤ s.siteBudget - s.assignedCount := by
  unfold State.gets; split
  · exact total_allot_le _ _ (nodup_rank s)
  · simp [total]

/-- A module is GRANTED only while the start guard does not run and the park stays within its limit (R61, R62). -/
theorem granting (o : Outlet) (ho : o ∈ s.rank) (h : 0 < s.gets o) :
    s.power.startGuard = none ∧ 40 * (pass s).assignedCount ≤ s.power.siteLimit := by
  have hsome : s.gets o ≤ total s.gets s.rank := List.le_sum_of_mem (List.mem_map_of_mem ho)
  have htotal := total_gets_le s
  have hlimit := siteBudget_mul_le s
  refine ⟨by_contra fun hg => ?_, by rw [assignedCount_pass]; omega⟩
  rw [State.gets, if_neg hg] at h
  exact Nat.lt_irrefl 0 h

/-- Grants stand at ranked outlets alone, and their sum is within the site budget. -/
theorem total_grant_pass_le : 40 * total (pass s).grant Config.outlets ≤ s.power.siteLimit := by
  have hle : total (pass s).grant Config.outlets ≤ total s.target Config.outlets :=
    List.sum_le_sum fun o _ => grant_pass_le_target s o
  have hrank : total s.target Config.outlets = total s.target s.rank := by
    have hall : Config.outlets.Nodup := List.nodup_finRange 32
    rw [total, total, ← List.sum_toFinset _ hall, ← List.sum_toFinset _ (nodup_rank s)]
    refine (Finset.sum_subset (fun o _ => List.mem_toFinset.2 (List.mem_finRange o)) fun o _ ho => ?_).symm
    exact target_of_not_ranked s fun h => ho (List.mem_toFinset.2 h)
  have htarget := total_target_le s
  have hlimit := siteBudget_mul_le s
  omega

/-- The outcome of a pass for one module. -/
theorem module_pass_cases (m : ModuleNo) :
    (∀ o, s.module m = .granted o →
      (pass s).module m = .granted o ∨
      (pass s).module m = .releasing o (s.now + 1000 * (5 * s.control.settings.pollPeriod)) false) ∧
    (s.module m = .free →
      (pass s).module m = .free ∨ ∃ o, (pass s).module m = .granted o ∧ cabinetOf o = cabinetOfModule m ∧
        s.power.startGuard = none ∧ 40 * (pass s).assignedCount ≤ s.power.siteLimit) ∧
    (∀ o d r, s.module m = .releasing o d r → (pass s).module m = s.module m) ∧
    (∀ r, s.module m = .out r → (pass s).module m = s.module m) := by
  refine ⟨fun o h => ?_, fun h => ?_, fun o d r h => ?_, fun r h => ?_⟩
  · rw [module_pass_of_granted s h]; split <;> simp
  · cases hr : recipient s.gets (cabinetOfModule m) s.rank (s.place m) with
    | none => left; rw [module_pass_of_free s h, hr]; rfl
    | some o =>
      obtain ⟨ho, hc, hpos⟩ := mem_of_recipient hr
      exact .inr ⟨o, (module_pass_eq_granted s h).2 hr, hc, granting s o ho hpos⟩
  · exact module_pass_of_other s (by simp [h]) (by simp [h])
  · exact module_pass_of_other s (by simp [h]) (by simp [h])

theorem capacity_eq (o : Outlet) : Table.get s.stock.cabinets (cabinetOf o) =
    Config.modules.countP fun m => cabinetOfModule m == cabinetOf o && !(s.module m).isOut := by
  have hget (c : Cabinet) : Table.get s.stock.cabinets c = s.capacity c :=
    match c with
    | 0 => rfl
    | 1 => rfl
    | 2 => rfl
    | 3 => rfl
  rw [hget, State.capacity]; rfl

/-- Round one, outlet by outlet (R58). -/
theorem first_eq {before after : List Outlet} {o : Outlet} (h : s.rank = before ++ o :: after) :
    s.first o =
      if totalAt (cabinetOf o) s.first before < Table.get s.stock.cabinets (cabinetOf o) ∧
          total s.first before < s.siteBudget then 1 else 0 := by
  have hshare := allot_eq (fun _ => 1) s.stock (h ▸ nodup_rank s)
  rw [← h, left_spend] at hshare
  change s.first o = min 1 (min (_ - totalAt _ s.first _) (s.siteBudget - total s.first _)) at hshare
  rw [hshare]; split <;> omega

/-- Round two, outlet by outlet (R59). -/
theorem second_eq {before after : List Outlet} {o : Outlet} (h : s.rank = before ++ o :: after) :
    s.second o =
      if s.first o = 0 then 0
      else min (s.want o - 1)
        (min (Table.get s.stock.cabinets (cabinetOf o) - totalAt (cabinetOf o) s.first s.rank
            - totalAt (cabinetOf o) s.second before)
          (s.siteBudget - total s.first s.rank - total s.second before)) := by
  have hshare := allot_eq (askMore s.first s.want) (s.stock.spend s.first s.rank) (h ▸ nodup_rank s)
  rw [← h, left_spend, cabinets_spend, budget_spend] at hshare
  change s.second o = min (askMore s.first s.want o)
    (min (_ - _ - totalAt _ s.second _) (s.siteBudget - _ - total s.second _)) at hshare
  have hfirst : s.first o ≤ 1 := allot_le_ask ..
  rw [hshare, askMore]
  split
  · exact Nat.zero_min _
  · rw [show s.first o = 1 by omega]

/-- The raises, outlet by outlet (R61, R62). -/
theorem gets_eq {before after : List Outlet} {o : Outlet} (h : s.rank = before ++ o :: after) :
    s.gets o =
      if s.power.startGuard = none then
        min (s.first o + s.second o - s.grant o)
          (min ((s.freeModules (cabinetOf o)).length - totalAt (cabinetOf o) s.gets before)
            (s.siteBudget - s.assignedCount - total s.gets before))
      else 0 := by
  have hshare := allot_eq (fun o => s.target o - s.grant o) s.spare (h ▸ nodup_rank s)
  rw [← h, left_spend] at hshare
  by_cases hg : s.power.startGuard = none
  · have hgets : s.gets = allot (fun o => s.target o - s.grant o) s.spare s.rank := if_pos hg
    rw [← hgets] at hshare
    rw [if_pos hg, hshare]
    simp [State.spare, Table.get, State.target]
  · rw [if_neg hg, State.gets, if_neg hg]

/-- The place of a FREE module is the number of those below it in its cabinet. -/
theorem place_eq {m : ModuleNo} (h : s.module m = .free) :
    s.place m = Config.modules.countP fun m' =>
      decide (m'.val < m.val ∧ cabinetOfModule m' = cabinetOfModule m ∧ s.module m' = .free) := by
  obtain ⟨pre, post, hsplit⟩ : ∃ pre post, Config.modules = pre ++ m :: post :=
    List.append_of_mem (List.mem_finRange m)
  have hnodup : (pre ++ m :: post).Nodup := hsplit ▸ List.nodup_finRange 40
  have hm : m ∉ pre := fun hin => (List.disjoint_of_nodup_append hnodup) hin List.mem_cons_self
  have hbelow := countP_below hsplit.symm fun m' =>
    cabinetOfModule m' = cabinetOfModule m && s.module m' == .free
  have hplace : s.place m = pre.countP fun m' => cabinetOfModule m' = cabinetOfModule m && s.module m' == .free := by
    rw [State.place, State.freeModules, hsplit, List.filter_append,
      List.idxOf_append_of_notMem fun hin => hm (List.mem_of_mem_filter hin), List.filter_cons_of_pos (by simp [h]),
      List.idxOf_cons_self, List.countP_eq_length_filter, Nat.add_zero]
  rw [hplace, ← hbelow]
  exact List.countP_congr fun x _ => by simp

/-- Settles O48: the shares are those of both rounds and of the raises, the modules those that the reductions keep and the raises
take. -/
theorem passMovesModules : Obligations.PassMovesModules := by
  intro s
  refine ⟨pass_eq s, module_pass_cases s, grant_pass_le_want s, total_grant_pass_le s,
    ⟨s.rank, s.first, s.second, s.gets, nodup_rank s, fun o => mem_rank s, ?_, fun o ho => ?_,
      fun before o after h => ?_, fun m o hm => ?_, fun m o hm hp => ?_, fun m before o after hm h => ?_⟩,
    fun o => ?_⟩
  · have hserial (o : Outlet) : s.rankSerial o =
        (((s.context o).bind Context.started).map fun x => x.serial.toNat).getD 0 := by
      unfold State.rankSerial; cases s.context o <;> rfl
    simpa only [hserial, State.rankPriority] using pairwise_rank s
  · have hgets : s.gets o ≤ 0 := (gets_le s o).trans (by rw [target_of_not_ranked s ho]; omega)
    exact ⟨allot_of_not_mem _ _ ho, allot_of_not_mem _ _ ho, Nat.le_zero.1 hgets⟩
  · have hfree : (s.freeModules (cabinetOf o)).length =
        Config.modules.countP fun m => cabinetOfModule m == cabinetOf o && decide (s.module m = .free) := by
      rw [State.freeModules, ← List.countP_eq_length_filter]
      exact List.countP_congr fun m _ => by simp
    have hfirst := first_eq s h
    have hsecond := second_eq s h
    have hgets := gets_eq s h
    rw [capacity_eq] at hfirst hsecond
    rw [hfree] at hgets
    exact ⟨hfirst, hsecond, hgets⟩
  · have hbelow : s.grantedBelow o m =
        Config.modules.countP fun m' => decide (m'.val < m.val ∧ s.module m' = .granted o) :=
      List.countP_congr fun x _ => by simp
    rw [module_pass_of_granted s hm, ← hbelow]
    by_cases ht : s.grantedBelow o m < s.target o
    · rw [if_pos ht]; exact iff_of_true rfl ht
    · rw [if_neg ht]; exact iff_of_false nofun ht
  · exact (mem_of_recipient ((module_pass_eq_granted s hm).1 hp)).1
  · have hget := (module_pass_eq_granted s hm (o := o)).trans (h ▸ recipient_eq_some (s.place m) (h ▸ nodup_rank s))
    rw [place_eq s hm] at hget
    refine hget.trans (and_congr_right fun hc => ?_)
    rw [← hc]; rfl
  · have hrecord := record_pass s o
    exact ⟨congrArg MeterRecord.peak hrecord, by rw [hrecord]⟩

end Sys2Proof.Machine
end

