-- ==== Sys2Proof/Proofs/Ledger.lean ====
section
/-! SUPPORT. The law of the Apportioner, the Module Table and the want inputs (O57, O59, O60) through the doings of the
Apportioner: the ledger that these properties look at, and what the deliveries, the passes and the modules do to it. -/

namespace Sys2Proof

/-- A function of each entry of a table, after one is replaced. -/
theorem Table.map_get_set {α β : Type} {n : Nat} (g : α → β) (v : Vector α n) (i : Fin n) (x : α) :
    (fun j => g (Table.get (Table.set v i x) j)) = Function.update (fun j => g (Table.get v j)) i (g x) := by
  funext j
  rw [Table.get_set, Function.update_apply]
  by_cases h : i = j
  · subst h; simp
  · simp [h, Ne.symm h]

namespace Machine

/-- What the properties of want, grant and inputs look at: the Module Table, the maximums and the inputs, and what the owners of
the inputs and of the outlet reports hold (R23, R52). -/
structure Ledger where
  modules : Vector Module 40
  maximums : Vector Nat 32
  inputs : Outlet → WantInputs
  partRunning : Bool
  running : Bool
  active : Outlet → Bool
  ceiling : Outlet → Nat
  valid : Outlet → Bool
  stale : LineNo → Bool
  reportStale : Outlet → Bool
  demand : Outlet → Nat
  blocked : LineNo → Bool

/-- Whether a context is of an ACTIVE session. -/
def activeContext (c : Option Context) : Bool := c.any fun c => decide (c.phase = .active)

/-- The ledger of a state. -/
def State.ledger (s : State) : Ledger :=
  { modules := s.power.modules, maximums := s.power.maximums, inputs := s.inputs, partRunning := s.power.partRunning,
    running := decide (s.control.partState = .running), active := fun o => activeContext (s.context o),
    ceiling := s.ceiling, valid := fun o => (s.record o).lastTime.isSome, stale := fun k => (s.line k).stale,
    reportStale := fun o => (s.report o).lineStale, demand := fun o => (s.report o).demand, blocked := s.blockMark }

/-- The session, ceiling and baseline inputs of an outlet are their owners' (R52). -/
def Ledger.Owned (l : Ledger) (o : Outlet) : Prop :=
  (l.inputs o).active = l.active o ∧ (l.inputs o).ceiling = l.ceiling o ∧ (l.inputs o).baselineValid = l.valid o

/-- The line-stale and blocked inputs of an outlet and its report are its line's (R23, R52). -/
def Ledger.Lined (l : Ledger) (k : LineNo) (o : Outlet) : Prop :=
  (l.inputs o).lineStale = l.stale k ∧ l.reportStale o = l.stale k ∧ (l.inputs o).blocked = l.blocked k

/-- The demand input of an outlet is its report's (R23, R52). -/
def Ledger.Demanded (l : Ledger) (o : Outlet) : Prop := (l.inputs o).demand = l.demand o

theorem inputsAgree_iff (s : State) :
    InputsAgree s ↔ s.ledger.partRunning = s.ledger.running ∧ ∀ o, s.ledger.Owned o := by
  have hactive (o : Outlet) :
      (∃ c, s.context o = some c ∧ c.phase = .active) ↔ activeContext (s.context o) = true := by
    cases h : s.context o <;> simp [activeContext]
  refine and_congr ?_ (forall_congr' fun o => and_congr ?_ (and_congr_right fun _ => ?_))
  · exact (Bool.eq_iff_iff.trans (iff_congr Iff.rfl decide_eq_true_iff)).symm
  · rw [hactive, ← Bool.eq_iff_iff]; rfl
  · exact Bool.eq_iff_iff.symm

theorem linesAgree_iff (s : State) : LinesAgree s ↔ ∀ k, ∀ o ∈ outletsOf k, s.ledger.Lined k o := Iff.rfl

theorem demandsAgree_iff (s : State) : DemandsAgree s ↔ ∀ o, s.ledger.Demanded o := Iff.rfl

theorem modulesSound_congr {s r : State} (h : r.ledger.modules = s.ledger.modules) (hs : ModulesSound s) :
    ModulesSound r := fun m o => by
  rw [show r.module m = s.module m from congrArg (Table.get · m) h]; exact hs m o

/-- What decides the grants and the wants of the outlets (R53, R54). -/
def Ledger.wants (l : Ledger) : Vector Module 40 × Vector Nat 32 × (Outlet → WantInputs) × Bool :=
  (l.modules, l.maximums, l.inputs, l.partRunning)

theorem grantsWithinWants_congr {s r : State} (h : r.ledger.wants = s.ledger.wants) (hs : GrantsWithinWants s) :
    GrantsWithinWants r := fun o => by
  obtain ⟨hmodules, hmaximums, hinputs, hrunning⟩ : r.power.modules = s.power.modules ∧
      r.power.maximums = s.power.maximums ∧ r.inputs = s.inputs ∧ r.power.partRunning = s.power.partRunning := by
    simpa [Ledger.wants, State.ledger] using h
  rw [State.grant, State.want, hmodules, hmaximums, hinputs, hrunning]
  exact hs o

/-- What a doing keeps of the Module Table and of the agreement of the inputs, outlet by outlet. -/
structure KeepsInputs (s r : State) : Prop where
  modules : ModulesSound s → ModulesSound r
  running : s.ledger.partRunning = s.ledger.running → r.ledger.partRunning = r.ledger.running
  owned : ∀ o, s.ledger.Owned o → r.ledger.Owned o
  lined : ∀ k, ∀ o ∈ outletsOf k, s.ledger.Lined k o → r.ledger.Lined k o
  demanded : ∀ o, s.ledger.Demanded o → r.ledger.Demanded o

/-- What every whole doing keeps: the law of the Apportioner too (R56). -/
structure Keeps (s r : State) : Prop extends KeepsInputs s r where
  grants : GrantsWithinWants s → GrantsWithinWants r

theorem KeepsInputs.trans {s r u : State} (h : KeepsInputs s r) (h' : KeepsInputs r u) : KeepsInputs s u :=
  { modules := h'.modules ∘ h.modules, running := h'.running ∘ h.running, owned := fun o => h'.owned o ∘ h.owned o,
    lined := fun k o ho => h'.lined k o ho ∘ h.lined k o ho, demanded := fun o => h'.demanded o ∘ h.demanded o }

theorem Keeps.trans {s r u : State} (h : Keeps s r) (h' : Keeps r u) : Keeps s u :=
  { h.toKeepsInputs.trans h'.toKeepsInputs with grants := h'.grants ∘ h.grants }

/-- A doing that leaves the ledger as it is. -/
theorem Keeps.of_ledger {s r : State} (h : r.ledger = s.ledger) : Keeps s r :=
  { modules := modulesSound_congr (congrArg Ledger.modules h), running := by rw [h]; exact id,
    owned := fun o => by rw [h]; exact id, lined := fun k o _ => by rw [h]; exact id,
    demanded := fun o => by rw [h]; exact id, grants := grantsWithinWants_congr (congrArg Ledger.wants h) }

theorem Keeps.refl (s : State) : Keeps s s := .of_ledger rfl

theorem keeps_forEach {α : Type} (l : List α) (f : α → State → State) (h : ∀ a s, Keeps s (f a s)) (s : State) :
    Keeps s (forEach l f s) :=
  forEach_preserves s (Keeps s) l f (fun a _ hs => hs.trans (h a _)) (.refl s)

variable (s : State)

/-! ### The ledger under the small updates -/

@[simp] theorem ledger_raise (n : Notice) : (raise n s).ledger = s.ledger := rfl
@[simp] theorem ledger_requestPass : (requestPass s).ledger = s.ledger := rfl
@[simp] theorem ledger_give (k : EntryKind) : (give k s).ledger = s.ledger := rfl
@[simp] theorem ledger_queueEndWord (c : CellIndex) (w : OrderOutcome) : (queueEndWord c w s).ledger = s.ledger := rfl
@[simp] theorem ledger_removeEntry (c : CellIndex) : (removeEntry c s).ledger = s.ledger := rfl
@[simp] theorem ledger_setUnit (u : UnitState) : (setUnit u s).ledger = s.ledger := rfl
@[simp] theorem ledger_setPointer (k : LineNo) : (setPointer k s).ledger = s.ledger := rfl
@[simp] theorem ledger_setTariff (i : TariffSlot) (t : Option Tariff) : (setTariff i t s).ledger = s.ledger := rfl

theorem ledger_setContext (o : Outlet) (c : Option Context) :
    (setContext o c s).ledger = { s.ledger with active := Function.update s.ledger.active o (activeContext c) } :=
  congrArg (fun a => { s.ledger with active := a }) (Table.map_get_set activeContext s.sessions.contexts o c)

/-- A context replaced by one that is ACTIVE as it was. -/
theorem ledger_setContext_of_eq {o : Outlet} {c : Option Context} (h : activeContext c = activeContext (s.context o)) :
    (setContext o c s).ledger = s.ledger := by
  rw [ledger_setContext, h, show activeContext (s.context o) = s.ledger.active o from rfl, Function.update_eq_self]

theorem ledger_mapContext {o : Outlet} {f : Context → Context}
    (h : ∀ c, s.context o = some c → ((f c).phase = .active ↔ c.phase = .active)) :
    (mapContext o f s).ledger = s.ledger := by
  refine ledger_setContext_of_eq s ?_
  cases hc : s.context o with
  | none => rfl
  | some c => simp [activeContext, h c hc]

/-- A change of a context that touches no phase. -/
theorem ledger_mapContext_of_phase (o : Outlet) {f : Context → Context} (h : ∀ c, (f c).phase = c.phase) :
    (mapContext o f s).ledger = s.ledger := ledger_mapContext s fun c _ => by rw [h]

theorem ledger_mapReport (o : Outlet) (f : OutletReport → OutletReport) :
    (mapReport o f s).ledger =
      { s.ledger with
        reportStale := Function.update s.ledger.reportStale o (f (s.report o)).lineStale,
        demand := Function.update s.ledger.demand o (f (s.report o)).demand } :=
  congrArg₂ (fun a b => { s.ledger with reportStale := a, demand := b })
    (Table.map_get_set OutletReport.lineStale s.sessions.reports o _)
    (Table.map_get_set OutletReport.demand s.sessions.reports o _)

theorem ledger_mapReport_of_eq (o : Outlet) {f : OutletReport → OutletReport}
    (hl : ∀ r, (f r).lineStale = r.lineStale) (hd : ∀ r, (f r).demand = r.demand) :
    (mapReport o f s).ledger = s.ledger := by
  rw [ledger_mapReport, hl, hd, show (s.report o).lineStale = s.ledger.reportStale o from rfl,
    show (s.report o).demand = s.ledger.demand o from rfl, Function.update_eq_self, Function.update_eq_self]

theorem ledger_mapRecord (o : Outlet) (f : MeterRecord → MeterRecord) :
    (mapRecord o f s).ledger =
      { s.ledger with valid := Function.update s.ledger.valid o (f (s.record o)).lastTime.isSome } :=
  congrArg (fun a => { s.ledger with valid := a })
    (Table.map_get_set (fun r : MeterRecord => r.lastTime.isSome) s.meters.records o _)

/-- A meter record replaced by one that is valid as it was. -/
theorem ledger_mapRecord_of_eq {o : Outlet} {f : MeterRecord → MeterRecord}
    (h : (f (s.record o)).lastTime.isSome = (s.record o).lastTime.isSome) : (mapRecord o f s).ledger = s.ledger := by
  rw [ledger_mapRecord, h, show (s.record o).lastTime.isSome = s.ledger.valid o from rfl, Function.update_eq_self]

theorem ledger_mapLine (k : LineNo) (f : Line → Line) :
    (mapLine k f s).ledger = { s.ledger with stale := Function.update s.ledger.stale k (f (s.line k)).stale } :=
  congrArg (fun a => { s.ledger with stale := a }) (Table.map_get_set Line.stale s.lines k _)

/-- A line replaced by one that is STALE as it was. -/
theorem ledger_mapLine_of_eq {k : LineNo} {f : Line → Line} (h : (f (s.line k)).stale = (s.line k).stale) :
    (mapLine k f s).ledger = s.ledger := by
  rw [ledger_mapLine, h, show (s.line k).stale = s.ledger.stale k from rfl, Function.update_eq_self]

theorem ledger_setBlockMark (k : LineNo) (b : Bool) :
    (setBlockMark k b s).ledger = { s.ledger with blocked := Function.update s.ledger.blocked k b } :=
  congrArg (fun a => { s.ledger with blocked := a }) (Table.map_get_set id s.meters.blocked k b)

theorem ledger_setInputs (o : Outlet) (f : WantInputs → WantInputs) :
    (setInputs o f s).ledger =
      { s.ledger with inputs := Function.update s.ledger.inputs o (f (s.ledger.inputs o)) } := by
  have key : ({ s with power := { s.power with inputs := Table.set s.power.inputs o (f (s.inputs o)) } } : State).ledger =
      { s.ledger with inputs := Function.update s.ledger.inputs o (f (s.ledger.inputs o)) } :=
    congrArg (fun a => { s.ledger with inputs := a }) (Table.map_get_set id s.power.inputs o _)
  simp only [setInputs]
  split <;> exact key

/-! ### Passes -/

/-- A state that differs from another in what a pass moves, but for the valid marks, has its ledger but for the modules. -/
theorem ledger_of_besidePass {s p : State} (h : besidePass p = besidePass (clearPassRequest s))
    (hv : ∀ o, (p.record o).lastTime = (s.record o).lastTime) :
    p.ledger = { s.ledger with modules := p.power.modules } := by
  have hvalid : p.ledger.valid = s.ledger.valid := funext fun o => congrArg Option.isSome (hv o)
  calc p.ledger = { (besidePass p).ledger with modules := p.power.modules, valid := p.ledger.valid } := rfl
    _ = _ := by rw [h, hvalid]; rfl

theorem ledger_pass : (pass s).ledger = { s.ledger with modules := (pass s).power.modules } :=
  ledger_of_besidePass (besidePass_pass s) fun o => by rw [record_pass]

theorem want_congr {s p : State} (h : p.ledger = { s.ledger with modules := p.power.modules }) (o : Outlet) :
    p.want o = s.want o :=
  congrArg (fun l : Ledger => (l.inputs o).want (Table.get l.maximums o) l.partRunning) h

/-- A doing that moves modules alone and leaves the law in force. -/
theorem Keeps.of_modules {s p : State} (h : p.ledger = { s.ledger with modules := p.power.modules })
    (hm : ModulesSound s → ModulesSound p) (hg : ∀ o, p.grant o ≤ s.want o) : Keeps s p := by
  exact
    { modules := hm, running := by rw [h]; exact id, owned := fun o => by rw [h]; exact id,
      lined := fun k o _ => by rw [h]; exact id, demanded := fun o => by rw [h]; exact id,
      grants := fun _ o => by rw [want_congr h]; exact hg o }

theorem modulesSound_pass (h : ModulesSound s) : ModulesSound (pass s) := by
  intro m o ho
  obtain ⟨hgranted, hfree, hreleasing, hout⟩ := module_pass_cases s m
  cases hm : s.module m with
  | free =>
    rcases hfree hm with hp | ⟨o', hp, hc, -⟩ <;> rw [hp] at ho
    · cases ho
    · cases ho; exact hc
  | granted o' =>
    have hs : cabinetOf o' = cabinetOfModule m := h m o' (by rw [hm]; rfl)
    rcases hgranted o' hm with hp | hp <;> rw [hp] at ho <;> cases ho <;> exact hs
  | releasing o' d r => rw [hreleasing o' d r hm] at ho; exact h m o ho
  | out r => rw [hout r hm] at ho; exact h m o ho

theorem keeps_pass : Keeps s (pass s) := .of_modules (ledger_pass s) (modulesSound_pass s) (grant_pass_le_want s)

/-- A pass brings the law about, whatever it finds (R56). -/
theorem grantsWithinWants_pass : GrantsWithinWants (pass s) := fun o => by
  rw [want_congr (ledger_pass s)]; exact grant_pass_le_want s o

theorem keeps_immediatePass : Keeps s (immediatePass s) := by
  unfold immediatePass; split
  · exact keeps_pass s
  · exact .refl s

/-- So does an immediate pass, which is made wherever the law is broken (R56). -/
theorem grantsWithinWants_immediatePass : GrantsWithinWants (immediatePass s) := by
  unfold immediatePass; split
  · exact grantsWithinWants_pass s
  · next h =>
    intro o
    by_contra hlt
    exact h (List.any_eq_true.2 ⟨o, List.mem_finRange o, by simpa using hlt⟩)

/-- An event that ends in an immediate pass keeps the law. -/
theorem KeepsInputs.immediatePass {s r : State} (h : KeepsInputs s r) : Keeps s (immediatePass r) :=
  { h.trans (keeps_immediatePass r).toKeepsInputs with grants := fun _ => grantsWithinWants_immediatePass r }

/-! ### Deliveries (R52) -/

/-- A session that enters or leaves ACTIVE, with its delivery (R25). -/
theorem keeps_deliverActive {s v : State} {o : Outlet} {a : Bool}
    (h : v.ledger = { s.ledger with active := Function.update s.ledger.active o a }) :
    Keeps s (deliverActive o a v) := by
  have hl : (setInputs o (fun i => { i with active := a }) (requestPass v)).ledger =
      { s.ledger with
        active := Function.update s.ledger.active o a,
        inputs := Function.update s.ledger.inputs o { s.ledger.inputs o with active := a } } := by
    rw [ledger_setInputs, ledger_requestPass, h]
  refine KeepsInputs.immediatePass ⟨modulesSound_congr (by rw [hl]), by rw [hl]; exact id, fun o' => ?_,
    fun k o' _ => ?_, fun o' => ?_⟩
  all_goals
    simp only [hl, Ledger.Owned, Ledger.Lined, Ledger.Demanded, Function.update_apply]
    split
    · next e => subst e; simp +contextual
    · exact id

/-- A ceiling stored with its delivery (R136). -/
theorem keepsInputs_storeCeiling (o : Outlet) (n : Nat) : KeepsInputs s (storeCeiling o n s) := by
  unfold storeCeiling
  split
  · exact (Keeps.refl s).toKeepsInputs
  · have hstored : (requestPass { s with sessions := { s.sessions with
        ceilings := Table.set s.sessions.ceilings o n } }).ledger =
        { s.ledger with ceiling := Function.update s.ledger.ceiling o n } :=
      congrArg (fun a => { s.ledger with ceiling := a }) (Table.map_get_set id s.sessions.ceilings o n)
    have hl := ledger_setInputs (requestPass { s with sessions := { s.sessions with
      ceilings := Table.set s.sessions.ceilings o n } }) o fun i => { i with ceiling := n }
    rw [hstored] at hl
    refine ⟨modulesSound_congr (by rw [hl]), by rw [hl]; exact id, fun o' => ?_, fun k o' _ => ?_, fun o' => ?_⟩
    all_goals
      simp only [hl, Ledger.Owned, Ledger.Lined, Ledger.Demanded, Function.update_apply]
      split
      · next e => subst e; simp +contextual
      · exact id

theorem keeps_setCeiling (o : Outlet) (n : Nat) : Keeps s (setCeiling o n s) :=
  (keepsInputs_storeCeiling s o n).immediatePass

theorem keeps_recompute (o : Outlet) : Keeps s (recompute o s) := keeps_setCeiling s o _

theorem keeps_recomputeAll : Keeps s (recomputeAll s) :=
  KeepsInputs.immediatePass <|
    forEach_preserves s (KeepsInputs s) _ _ (fun o u h => h.trans (keepsInputs_storeCeiling u o _))
      (Keeps.refl s).toKeepsInputs

/-- A demand that is in the report of its outlet is delivered, after what the report brings about in between (R23, R52). -/
theorem keeps_deliverDemand {s v u : State} {o : Outlet} {n : Nat}
    (hv : v.ledger = { s.ledger with demand := Function.update s.ledger.demand o n }) (h : KeepsInputs v u)
    (hu : (u.report o).demand = n) : Keeps s (deliverDemand o n u) := by
  have hl (w : State) (hw : w.ledger = u.ledger) : (setInputs o (fun i => { i with demand := n }) w).ledger =
      { u.ledger with inputs := Function.update u.ledger.inputs o { u.ledger.inputs o with demand := n } } := by
    rw [ledger_setInputs, hw]
  have key (r : State) (hr : r.ledger =
      { u.ledger with inputs := Function.update u.ledger.inputs o { u.ledger.inputs o with demand := n } }) :
      KeepsInputs s r := by
    refine ⟨fun hs => modulesSound_congr (by rw [hr]) (h.modules (modulesSound_congr (by rw [hv]) hs)),
      fun hs => ?_, fun o' hs => ?_, fun k o' ho hs => ?_, fun o' hs => ?_⟩
    · rw [hr]; exact h.running (by rw [hv]; exact hs)
    · have hk := h.owned o' (by rw [hv]; exact hs)
      simp only [hr, Ledger.Owned, Function.update_apply]
      split
      · next e => subst e; exact hk
      · exact hk
    · have hk := h.lined k o' ho (by rw [hv]; exact hs)
      simp only [hr, Ledger.Lined, Function.update_apply]
      split
      · next e => subst e; exact hk
      · exact hk
    · simp only [hr, Ledger.Demanded, Function.update_apply]
      split
      · next e => subst e; exact hu.symm
      · next hne =>
        exact h.demanded o' (by simp only [hv, Ledger.Demanded, Function.update_of_ne hne]; exact hs)
  refine KeepsInputs.immediatePass (key _ (hl _ ?_))
  split <;> simp

end Machine

end Sys2Proof
end

