-- ==== Sys2Proof/Proofs/LedgerSessions.lean ====
section
/-! SUPPORT. The law of the Apportioner, the Module Table and the want inputs, continued: what the modules that leave their
outlets and the doings of a session keep (chapters 2, 3, 6, 8). -/

namespace Sys2Proof.Machine

/-- A doing that is kept after another: `Keeps.trans`, with the last doing first. -/
theorem Keeps.after {s r u : State} (h' : Keeps r u) (h : Keeps s r) : Keeps s u := h.trans h'

variable (s : State)

theorem keeps_give (k : EntryKind) : Keeps s (give k s) := .of_ledger (ledger_give s k)

theorem keeps_requestPass : Keeps s (requestPass s) := .of_ledger (ledger_requestPass s)

/-- A change of a context that touches no phase. -/
theorem keeps_mapContext (o : Outlet) {f : Context → Context} (h : ∀ c, (f c).phase = c.phase) :
    Keeps s (mapContext o f s) := .of_ledger (ledger_mapContext_of_phase s o h)

/-! ### Modules leave their outlets (R63 to R69) -/

/-- A module that changes to a state where it is with its outlet or with none, and GRANTED only where it was. -/
theorem keeps_setModule {m : ModuleNo} {e : Module} (hout : ∀ o, e.outlet? = some o → (s.module m).outlet? = some o)
    (hgrant : ∀ o, e = .granted o → s.module m = .granted o) : Keeps s (setModule m e s) := by
  refine
    { modules := fun hs m' o ho => ?_, running := id, owned := fun _ => id, lined := fun _ _ _ => id,
      demanded := fun _ => id, grants := fun hs o => ?_ }
  · rw [module_setModule] at ho
    split at ho
    · next e => subst e; exact hs _ o (hout o ho)
    · exact hs m' o ho
  · have hcount := grant_setModule s o m e
    have hle : (if e.grantedTo o then 1 else 0) ≤ if (s.module m).grantedTo o then 1 else 0 := by
      split
      · next h => rw [if_pos (grantedTo_iff.2 (hgrant o (grantedTo_iff.1 h)))]
      · exact Nat.zero_le _
    have hgrants : s.grant o ≤ s.want o := hs o
    have : (setModule m e s).grant o ≤ s.want o := by omega
    exact this

/-- A module that leaves its outlet. -/
theorem keeps_setModule_of_none {m : ModuleNo} {e : Module} (h : e.outlet? = none) : Keeps s (setModule m e s) :=
  keeps_setModule s (by rw [h]; rintro _ ⟨⟩) (by rintro o rfl; cases h)

theorem keeps_moduleOut (m : ModuleNo) (r : OutReason) : Keeps s (moduleOut m r s) :=
  ((keeps_give s _).trans (keeps_setModule_of_none _ rfl)).trans (keeps_requestPass _)

theorem keeps_faultModule (m : ModuleNo) : Keeps s (faultModule m s) := by
  unfold faultModule
  split
  · exact keeps_setModule_of_none s rfl
  · exact keeps_moduleOut s m _

theorem keeps_releaseModule (o : Outlet) (applied sent : ModuleMask) (p : Fin 10) :
    Keeps s (releaseModule o applied sent p s) := by
  unfold releaseModule
  split
  · split
    · split
      · exact keeps_moduleOut s _ _
      · exact (keeps_setModule_of_none s rfl).trans (keeps_requestPass _)
    · exact .refl s
  · exact .refl s

theorem keeps_takeMasks (o : Outlet) (n : OutletNews) (sent : ModuleMask) : Keeps s (takeMasks o n sent s) :=
  (keeps_forEach _ _ (fun p u => keeps_faultModule u (moduleAt o p)) s).trans
    (keeps_forEach _ _ (fun p u => keeps_releaseModule u o n.applied sent p) _)

theorem keeps_retireModule (m : ModuleNo) : Keeps s (retireModule m s) := by
  unfold retireModule
  split
  · exact keeps_moduleOut s m _
  · next o ho =>
    exact (keeps_setModule s (fun o' h => by rw [ho]; exact h) (fun _ h => by cases h)).trans
      (keeps_requestPass _)
  · next o d _ ho => exact keeps_setModule s (fun o' h => by rw [ho]; exact h) (fun _ h => by cases h)
  · exact keeps_setModule_of_none s rfl

/-! ### The end of a session -/

@[simp] theorem ledger_endWait : (endWait s).ledger = s.ledger := by unfold endWait; split <;> simp

@[simp] theorem ledger_endProgressWait (o : Outlet) : (endProgressWait o s).ledger = s.ledger := by
  unfold endProgressWait
  split
  · split <;> simp
  · rfl

@[simp] theorem ledger_endLinkWait (c : CellIndex) : (endLinkWait c s).ledger = s.ledger := by
  unfold endLinkWait; split <;> simp

@[simp] theorem ledger_releaseUnused (l : Option CellIndex) : (releaseUnused l s).ledger = s.ledger := by
  unfold releaseUnused; split <;> simp

/-- Only a session that is not ACTIVE is vacated. -/
theorem keeps_vacate {o : Outlet} (h : activeContext (s.context o) = false) : Keeps s (vacate o s) :=
  Keeps.trans (.of_ledger (by rw [ledger_endProgressWait, ledger_setContext_of_eq s (c := none) h.symm]))
    (keeps_setCeiling _ o 0)

/-- A phase that is not ACTIVE, for the session that has it no longer told to the Apportioner (R25). -/
theorem keeps_leaveFor {o : Outlet} {c : Context} {p : Phase} (hc : s.context o = some c) (hp : p ≠ .active) :
    Keeps s (leaveFor o c p s) := by
  unfold leaveFor setPhase
  dsimp only
  split
  · next h =>
    refine keeps_deliverActive ?_
    rw [mapContext, ledger_setContext, hc]
    simp [activeContext, hp]
  · next h =>
    refine .of_ledger (ledger_mapContext s fun c' hc' => ?_)
    rw [hc] at hc'; cases hc'
    exact iff_of_false hp h

theorem keeps_enterClosing (o : Outlet) (r : EndReason) : Keeps s (enterClosing o r s) := by
  unfold enterClosing
  split
  · exact .refl s
  · next c hc =>
    split
    · exact (keeps_leaveFor s hc (by simp)).trans (keeps_mapContext _ o fun _ => rfl)
    · exact .refl s

theorem phase_judged_active (c : Context) (n : Nat) (b : Bool) :
    (c.judged n b).phase = .active ↔ c.phase = .active := by
  unfold Context.judged
  split
  · next h => split <;> simp [h]
  · rfl

theorem keeps_checkSettle (o : Outlet) : Keeps s (checkSettle o s) := by
  rw [checkSettle_eq]
  exact .of_ledger (ledger_mapContext s fun c _ => phase_judged_active c _ _)

theorem keeps_closeSession (o : Outlet) (r : EndReason) : Keeps s (closeSession o r s) :=
  (keeps_enterClosing s o r).trans (keeps_checkSettle _ o)

/-! ### DRAINED, handover, starting, idling -/

theorem keeps_enterDrained (o : Outlet) : Keeps s (enterDrained o s) := by
  unfold enterDrained
  split
  · exact .refl s
  · next c hc =>
    exact .after (keeps_give _ _) (.after (keeps_mapContext _ o fun _ => rfl) (keeps_leaveFor s hc (by simp)))

/-- A session that enters ACTIVE as another, with its delivery. -/
theorem keeps_enterActive {u v : State} {o : Outlet} {c : Option Context} (hv : v.ledger = (setContext o c u).ledger)
    (hc : activeContext c = true) : Keeps u (deliverActive o true v) :=
  keeps_deliverActive (by rw [hv, ledger_setContext, hc])

theorem keeps_handover (o : Outlet) (e : StandbyEntry) : Keeps s (handover o e s) := by
  unfold handover
  split
  · exact .refl s
  · next c hc =>
    have h (v : State) (hv : v.ledger = (setContext o (some (c.takeOver o e s.control.seconds)) s).ledger) :
        Keeps s (recompute o (deliverActive o true v)) :=
      (keeps_enterActive hv rfl).trans (keeps_recompute _ o)
    dsimp only
    split
    · exact (h _ (by simp)).trans (keeps_enterDrained _ o)
    · exact h _ (by simp)

theorem keeps_takeOn (o : Outlet) : Keeps s (takeOn o s) := by
  unfold takeOn
  repeat' split
  · exact .refl s
  · exact keeps_handover s o _
  · exact keeps_enterDrained s o
  · exact .refl s

theorem keeps_examineDrained (o : Outlet) : Keeps s (examineDrained o s) := by
  unfold examineDrained
  repeat' split
  · exact .refl s
  · exact keeps_handover s o _
  · exact .refl s
  · exact .refl s

theorem keeps_enterIdle (o : Outlet) : Keeps s (enterIdle o s) := by
  unfold enterIdle
  split
  · exact .refl s
  · next c hc =>
    split
    · exact (keeps_give s _).trans (keeps_leaveFor _ (c := c) (by simpa using hc) (by simp))
    · exact .refl s

/-- A session that enters ACTIVE by a change of its context, with its delivery. -/
theorem keeps_activate {u v : State} {o : Outlet} {f : Context → Context} {c : Context} (hc : u.context o = some c)
    (hf : (f c).phase = .active) (hv : v.ledger = (mapContext o f u).ledger) : Keeps u (deliverActive o true v) := by
  refine keeps_enterActive hv ?_
  simp [hc, activeContext, hf]

theorem keeps_beginSession {o : Outlet} {c : Context} (hc : s.context o = some c) : Keeps s (beginSession o s) := by
  have h (v : State)
      (hv : v.ledger = (mapContext o (fun c => c.start s.sessions.startSerial s.control.seconds) s).ledger) :
      Keeps s (recompute o (deliverActive o true v)) := (keeps_activate hc rfl hv).trans (keeps_recompute _ o)
  unfold beginSession
  exact h _ rfl

theorem keeps_evaluateStart (o : Outlet) : Keeps s (evaluateStart o s) := by
  unfold evaluateStart
  split
  · exact .refl s
  · next c hc =>
    split
    · split
      · exact (keeps_beginSession s hc).trans (keeps_takeOn _ o)
      · exact .refl s
    · exact .refl s

theorem keeps_endStart (before : State) (o : Outlet) : Keeps s (endStart before o s) := by
  unfold endStart
  split
  · exact keeps_enterIdle s o
  · exact .refl s

theorem keeps_startInEvent (o : Outlet) : Keeps s (startInEvent o s) :=
  (keeps_evaluateStart s o).trans (keeps_endStart _ s o)

theorem keeps_returnToActive {o : Outlet} {c : Context} (hc : s.context o = some c) : Keeps s (returnToActive o s) :=
  (keeps_activate (f := fun c => { c with phase := .active, idleMinutes := 0 }) hc rfl rfl).trans (keeps_takeOn _ o)

/-! ### HELD (R34, R116 to R119) -/

theorem keeps_enterHeld (o : Outlet) (r : HeldReason) : Keeps s (enterHeld o r s) := by
  unfold enterHeld
  split
  · exact .refl s
  · next c hc =>
    split
    · exact .refl s
    · exact .after (keeps_give _ _) (.after (keeps_mapContext _ o fun _ => rfl) (keeps_leaveFor s hc (by simp)))

/-- A phase of a session that is not ACTIVE, for another that is not. -/
theorem ledger_setPhase {o : Outlet} {c : Context} {p : Phase} (hc : s.context o = some c) (hcp : c.phase ≠ .active)
    (hp : p ≠ .active) : (setPhase o p s).ledger = s.ledger :=
  ledger_mapContext s fun c' hc' => by
    rw [hc] at hc'; cases hc'
    exact iff_of_false hp hcp

theorem keeps_recover {o : Outlet} {c : Context} (r : ResumeState) (h : HeldReason) (d : Bool)
    (hc : s.context o = some c) (hp : c.phase ≠ .active) : Keeps s (recover o c r h d s) := by
  cases r with
  | active =>
    exact (keeps_activate (f := fun c => { c with phase := .active }) hc rfl (ledger_give _ _)).trans
      (keeps_takeOn _ o)
  | idle =>
    have hidle : (setPhase o .idle s).ledger = s.ledger := ledger_setPhase s hc hp (by simp)
    simp only [recover, ResumeState.phase]
    split <;> exact .of_ledger (by simp [hidle])
  | drained =>
    have hdrained : (setPhase o .drained s).ledger = s.ledger := ledger_setPhase s hc hp (by simp)
    exact Keeps.trans (.of_ledger (by rw [ledger_give]; exact hdrained)) (keeps_examineDrained _ o)

theorem keeps_endHold (o : Outlet) (r : HeldReason) : Keeps s (endHold o r s) := by
  unfold endHold
  split
  · exact .refl s
  · next c hc =>
    split
    · next hp =>
      have hother : c.phase ≠ .active := by rw [hp]; simp
      split
      · split
        · exact .of_ledger (by rw [ledger_give, ledger_setPhase s hc hother (by simp)])
        · split
          · exact .of_ledger (by rw [ledger_give, ledger_setPhase s hc hother (by simp)])
          · exact keeps_recover s _ _ _ hc hother
      · exact .refl s
    · exact .refl s

/-! ### The audit hold and billing (R129, R159, R160) -/

theorem keeps_takeAuditHold (o : Outlet) : Keeps s (takeAuditHold o s) := by
  unfold takeAuditHold
  split
  · exact .refl s
  · exact .after (.of_ledger (ledger_raise _ _)) (.after (keeps_give _ _) (keeps_mapContext s o fun _ => rfl))

theorem keeps_auditIfFlagged (o : Outlet) : Keeps s (auditIfFlagged o s) := by
  unfold auditIfFlagged
  split
  · exact keeps_takeAuditHold s o
  · exact .refl s

/-- A context for another of the same phase. -/
theorem keeps_setContext {o : Outlet} {c c' : Context} (hc : s.context o = some c) (hp : c'.phase = c.phase) :
    Keeps s (setContext o (some c') s) :=
  .of_ledger (ledger_setContext_of_eq s (by rw [hc]; simp [activeContext, hp]))

theorem keeps_bill (o : Outlet) (d : Nat) (b : Band) : Keeps s (bill o d b s) := by
  unfold bill
  split
  · exact .refl s
  · next c hc =>
    split
    · exact .after (keeps_recompute _ o) (keeps_setContext s hc rfl)
    · exact .after (keeps_auditIfFlagged _ o)
        (.after (keeps_takeOn _ o) (.after (keeps_recompute _ o) (keeps_setContext s hc rfl)))

/-! ### Outlet news (R107) -/

theorem keeps_reportPlug (o : Outlet) (p : Plug) : Keeps s (reportPlug o p s) := by
  have h : (mapReport o (fun r => { r with plug := p }) s).ledger = s.ledger :=
    ledger_mapReport_of_eq s o (fun _ => rfl) (fun _ => rfl)
  unfold reportPlug
  dsimp only
  split <;> exact .of_ledger h

theorem keeps_deliverPlug (o : Outlet) (p : Plug) : Keeps s (deliverPlug o p s) := by
  refine (keeps_reportPlug s o p).trans ?_
  cases p with
  | plugged => exact (keeps_evaluateStart _ o).trans (keeps_endHold _ o _)
  | unplugged => exact keeps_enterClosing _ o _
  | fault => exact keeps_enterHeld _ o _
  | unknown => exact .refl _

/-- A HELD session stays HELD by the news of its charge (R33). -/
theorem phase_heldNews_ne_active {complete : Bool} {demand : Nat} {p : Phase} {c : Context} (hp : c.phase = p)
    {r : ResumeState} {h : HeldReason} {d : Bool} (hheld : p = .held r h d) :
    (heldNews complete demand p c).phase ≠ .active := by
  subst hheld
  cases r <;> simp only [heldNews]
  · split <;> simp [hp]
  · split <;> simp
  · simp [hp]

theorem keeps_actOnCharge (o : Outlet) (complete : Bool) (demand : Nat) :
    Keeps s (actOnCharge o complete demand s) := by
  unfold actOnCharge
  split
  · exact .refl s
  · next c hc =>
    split
    · split
      · exact keeps_enterIdle s o
      · exact .refl s
    · split
      · exact keeps_returnToActive s hc
      · exact .refl s
    · next hp =>
      refine .of_ledger (ledger_setContext_of_eq s ?_)
      rw [hc]
      simp [activeContext, hp, phase_heldNews_ne_active hp rfl]
    · exact .refl s

/-- The report of an outlet is not the session's. -/
theorem report_actOnCharge (o : Outlet) (complete : Bool) (demand : Nat) :
    (actOnCharge o complete demand s).report o = s.report o := by
  refine report_of_elsewhere (o := o) ?_ o
  unfold actOnCharge returnToActive
  repeat' split
  all_goals simp

theorem keeps_deliverCharge (o : Outlet) (complete : Bool) (demand : Nat) :
    Keeps s (deliverCharge o complete demand s) := by
  refine keeps_deliverDemand ?_ (keeps_actOnCharge _ o complete demand).toKeepsInputs ?_
  · rw [ledger_mapReport]
    exact congrArg (fun a => { s.ledger with
      reportStale := a, demand := Function.update s.ledger.demand o demand }) (Function.update_eq_self o _)
  · rw [report_actOnCharge]; simp

end Sys2Proof.Machine
end

