-- ==== Sys2Proof/Proofs/LedgerLines.lean ====
section
/-! SUPPORT. The law of the Apportioner, the Module Table and the want inputs, continued: what the lines and the Metering Unit
keep (chapters 4, 5). -/

namespace Sys2Proof.Machine

variable (s : State)

/-! ### The outlets of a line (R76) -/

theorem mem_outletsOf {k : LineNo} {o : Outlet} : o ∈ outletsOf k ↔ o.val / 2 = k.val := by
  simp only [outletsOf, outletA, outletB, List.mem_cons, List.not_mem_nil, or_false, Fin.ext_iff]
  omega

/-- An outlet has one line. -/
theorem line_unique {k k' : LineNo} {o : Outlet} (h : o ∈ outletsOf k) : o ∈ outletsOf k' ↔ k' = k := by
  rw [mem_outletsOf] at h ⊢
  rw [h, Fin.ext_iff, eq_comm]

theorem outletB_ne_outletA (k : LineNo) : outletB k ≠ outletA k := by
  simp [outletA, outletB, Fin.ext_iff]

/-- A table with the entries of both outlets of a line replaced. -/
theorem update_both {β : Type} (g : Outlet → β) (k : LineNo) (f : β → β) :
    Function.update (Function.update g (outletA k) (f (g (outletA k)))) (outletB k)
        (f (Function.update g (outletA k) (f (g (outletA k))) (outletB k))) =
      fun o => if o ∈ outletsOf k then f (g o) else g o := by
  funext o
  have hne := outletB_ne_outletA k
  simp only [Function.update_apply, outletsOf, List.mem_cons, List.not_mem_nil, or_false, if_neg hne]
  by_cases hb : o = outletB k
  · subst hb; simp
  · by_cases ha : o = outletA k
    · subst ha; simp [hb]
    · simp [ha, hb]

/-! ### Deliveries to a pedestal (R93, R94, R105, R106) -/

/-- The inputs of both outlets of a line, changed. -/
def Ledger.tellBoth (l : Ledger) (k : LineNo) (f : WantInputs → WantInputs) : Ledger :=
  { l with inputs := fun o => if o ∈ outletsOf k then f (l.inputs o) else l.inputs o }

theorem ledger_setInputs_both (k : LineNo) (f : WantInputs → WantInputs) :
    (setInputs (outletB k) f (setInputs (outletA k) f s)).ledger = s.ledger.tellBoth k f := by
  rw [ledger_setInputs, ledger_setInputs]
  exact congrArg (fun a => { s.ledger with inputs := a }) (update_both s.ledger.inputs k f)

theorem ledger_markReports (k : LineNo) (b : Bool) :
    (markReports k b s).ledger =
      { s.ledger with reportStale := fun o => if o ∈ outletsOf k then b else s.ledger.reportStale o } := by
  have hdemand (u : State) (o : Outlet) : (mapReport o (fun r => { r with lineStale := b }) u).ledger =
      { u.ledger with reportStale := Function.update u.ledger.reportStale o b } := by
    rw [ledger_mapReport]
    exact congrArg (fun a => { u.ledger with reportStale := Function.update u.ledger.reportStale o b, demand := a })
      (Function.update_eq_self o _)
  have hboth : markReports k b s = mapReport (outletB k) (fun r => { r with lineStale := b })
      (mapReport (outletA k) (fun r => { r with lineStale := b }) s) := rfl
  rw [hboth, hdemand, hdemand]
  exact congrArg (fun a => { s.ledger with reportStale := a }) (update_both s.ledger.reportStale k fun _ => b)

theorem ledger_immediatePass :
    (immediatePass s).ledger = { s.ledger with modules := (immediatePass s).power.modules } := by
  unfold immediatePass
  split
  · exact ledger_pass s
  · rfl

/-- A line that becomes STALE or fresh: the inputs, the immediate pass and the marks (R93, R94). -/
theorem keeps_tellStale {s v : State} {k : LineNo} {b : Bool}
    (hv : v.ledger = { s.ledger with stale := Function.update s.ledger.stale k b }) :
    Keeps s (markReports k b (deliverBoth k (fun i => { i with lineStale := b }) v)) := by
  set w := setInputs (outletB k) (fun i => { i with lineStale := b })
    (setInputs (outletA k) (fun i => { i with lineStale := b }) (requestPass v)) with hw
  have hwl : w.ledger = v.ledger.tellBoth k fun i => { i with lineStale := b } := by
    rw [hw, ledger_setInputs_both, ledger_requestPass]
  have hp := ledger_immediatePass w
  have hpass := keeps_immediatePass w
  have hgrants := grantsWithinWants_immediatePass w
  rw [show deliverBoth k (fun i => { i with lineStale := b }) v = immediatePass w from rfl]
  generalize immediatePass w = p at hp hpass hgrants ⊢
  have hr := ledger_markReports p k b
  have hl : (markReports k b p).ledger =
      { s.ledger with
        modules := p.power.modules,
        stale := Function.update s.ledger.stale k b,
        inputs := fun o => if o ∈ outletsOf k then { s.ledger.inputs o with lineStale := b } else s.ledger.inputs o,
        reportStale := fun o => if o ∈ outletsOf k then b else s.ledger.reportStale o } := by
    rw [hr, hp, hwl, hv]; rfl
  refine { modules := fun hs => ?_, running := by rw [hl]; exact id, owned := fun o => ?_, lined := fun k' o ho => ?_,
           demanded := fun o => ?_, grants := fun _ => ?_ }
  · have hws : ModulesSound w := modulesSound_congr (by rw [hwl, hv]; rfl) hs
    exact modulesSound_congr (by rw [hr]) (hpass.modules hws)
  · simp only [hl, Ledger.Owned]; split <;> exact id
  · simp only [hl, Ledger.Lined, line_unique ho, Function.update_apply, eq_comm (a := k)]
    split
    · rintro ⟨-, -, hb⟩; exact ⟨rfl, rfl, hb⟩
    · exact id
  · simp only [hl, Ledger.Demanded]; split <;> exact id
  · exact grantsWithinWants_congr (by rw [hr]; rfl) hgrants

/-- A block mark set or cleared, with its delivery (R105, R106). -/
theorem keeps_tellBlocked (k : LineNo) (b : Bool) :
    Keeps s (deliverBoth k (fun i => { i with blocked := b }) (setBlockMark k b s)) := by
  set w := setInputs (outletB k) (fun i => { i with blocked := b })
    (setInputs (outletA k) (fun i => { i with blocked := b }) (requestPass (setBlockMark k b s))) with hw
  have hl : w.ledger =
      { s.ledger with
        blocked := Function.update s.ledger.blocked k b,
        inputs := fun o => if o ∈ outletsOf k then { s.ledger.inputs o with blocked := b } else s.ledger.inputs o } := by
    rw [hw, ledger_setInputs_both, ledger_requestPass, ledger_setBlockMark]; rfl
  refine KeepsInputs.immediatePass (r := w) ⟨modulesSound_congr (by rw [hl]), by rw [hl]; exact id, fun o => ?_,
    fun k' o ho => ?_, fun o => ?_⟩
  · simp only [hl, Ledger.Owned]; split <;> exact id
  · simp only [hl, Ledger.Lined, line_unique ho, Function.update_apply, eq_comm (a := k)]
    split
    · rintro ⟨hstale, hreport, -⟩; exact ⟨hstale, hreport, rfl⟩
    · exact id
  · simp only [hl, Ledger.Demanded]; split <;> exact id

/-! ### Polling (R80 to R83) -/

/-- A change of a line that leaves its STALE mark. -/
theorem keeps_mapLine {k : LineNo} {f : Line → Line} (h : (f (s.line k)).stale = (s.line k).stale) :
    Keeps s (mapLine k f s) := .of_ledger (ledger_mapLine_of_eq s h)

theorem keeps_pollNow (k : LineNo) : Keeps s (pollNow k s) := by
  unfold pollNow
  split <;> exact keeps_mapLine s rfl

theorem keeps_pollIfDue (k : LineNo) : Keeps s (pollIfDue k s) := by
  unfold pollIfDue
  split
  · exact keeps_pollNow s k
  · exact .refl s

theorem keeps_enterWaiting (k : LineNo) : Keeps s (enterWaiting k s) :=
  .after (keeps_pollIfDue _ k) (keeps_mapLine s rfl)

theorem keeps_emptyReplySlot (k : LineNo) : Keeps s (emptyReplySlot k s) := by
  unfold emptyReplySlot
  dsimp only
  repeat' split
  · exact .after (keeps_mapLine _ rfl) (keeps_mapLine s rfl)
  · exact .after (keeps_mapLine _ rfl) (keeps_mapLine s rfl)
  · exact keeps_mapLine s rfl

theorem keeps_bandEdge (k : LineNo) : Keeps s (bandEdge k s) := by
  unfold bandEdge
  dsimp only
  repeat' split
  · exact .refl s
  · exact keeps_pollNow s k
  · exact keeps_mapLine s rfl

/-! ### STALE and fresh (R93, R94, R116, R119) -/

theorem keeps_checkSettles (l : List Outlet) : Keeps s (forEach l checkSettle s) :=
  keeps_forEach l _ (fun o u => keeps_checkSettle u o) s

theorem keeps_goStale (k : LineNo) : Keeps s (goStale k s) := by
  refine .after (keeps_checkSettles _ _) (.after (keeps_forEach _ _ (fun o u => keeps_enterHeld u o _) _) ?_)
  exact keeps_tellStale (by rw [ledger_give, ledger_mapLine])

theorem keeps_goFresh (k : LineNo) (n : Nat) : Keeps s (goFresh k n s) := by
  refine .after (keeps_forEach _ _ (fun o u => keeps_endHold u o _) _) ?_
  exact keeps_tellStale (by rw [ledger_give, ledger_mapLine])

theorem keeps_missPoll (k : LineNo) : Keeps s (missPoll k s) := by
  unfold missPoll
  dsimp only
  split
  · exact .after (keeps_goStale _ k) (keeps_mapLine s rfl)
  · exact keeps_mapLine s rfl

/-! ### Faults and frames (R85 to R95) -/

theorem keeps_countFault (k : LineNo) (f : LineCounters → LineCounters) : Keeps s (countFault k f s) :=
  keeps_mapLine s rfl

theorem keeps_failExchange (k : LineNo) : Keeps s (failExchange k s) :=
  (keeps_missPoll s k).trans (keeps_enterWaiting _ k)

theorem keeps_frameFault (k : LineNo) (f : LineCounters → LineCounters) : Keeps s (frameFault k f s) := by
  unfold frameFault
  dsimp only
  split
  · exact (keeps_countFault s k f).trans (keeps_failExchange _ k)
  · exact (keeps_countFault s k f).trans (keeps_pollIfDue _ k)

theorem keeps_acceptReply (k : LineNo) (f : Vector Byte 29) (p : PollRecord) : Keeps s (acceptReply k f p s) := by
  unfold acceptReply
  refine .after (keeps_enterWaiting _ k) ?_
  split
  · exact .after (keeps_goFresh _ k _) (keeps_mapLine s rfl)
  · exact keeps_mapLine s rfl

theorem keeps_goodReply (k : LineNo) (f : Vector Byte 29) : Keeps s (goodReply k f s) := by
  unfold goodReply
  dsimp only
  repeat' split
  · exact keeps_acceptReply s k f _
  · exact keeps_frameFault s k _
  · exact .refl s
  · exact keeps_pollIfDue s k

theorem keeps_goodAlert (k : LineNo) (f : Vector Byte 6) : Keeps s (goodAlert k f s) := by
  unfold goodAlert
  refine .after (keeps_pollIfDue _ k) ?_
  repeat' split
  · exact keeps_mapLine s rfl
  · exact keeps_countFault s k _
  · exact .after (keeps_give _ _) (.after (keeps_mapLine _ rfl) (keeps_countFault s k _))

theorem keeps_reline (k : LineNo) : Keeps s (reline k s) :=
  keeps_mapLine s (by split <;> rfl)

/-! ### Emergency stop (R105, R106) -/

theorem keeps_takeEstop (k : LineNo) (a : Bool) : Keeps s (takeEstop k a s) := by
  unfold takeEstop
  split
  · exact .after (keeps_give _ _) (.after (keeps_forEach _ _ (fun o u => keeps_enterClosing u o _) _)
      (keeps_tellBlocked s k true))
  · exact .refl s

theorem keeps_clearEstop (k : LineNo) (a : Bool) : Keeps s (clearEstop k a s) := by
  unfold clearEstop
  split
  · exact .after (keeps_give _ _) (keeps_tellBlocked s k false)
  · exact .refl s

/-! ### Readings (R109 to R115) -/

/-- The first reading: the baseline is valid from here on (R109). -/
theorem keeps_validate (o : Outlet) (w : Word) (t : Time) : Keeps s (validate o w t s) := by
  have hl : (setInputs o (fun i => { i with baselineValid := true })
      (requestPass (mapRecord o (fun r => r.accept w t (s.heldCount o)) s))).ledger =
      { s.ledger with
        valid := Function.update s.ledger.valid o true,
        inputs := Function.update s.ledger.inputs o { s.ledger.inputs o with baselineValid := true } } := by
    rw [ledger_setInputs, ledger_requestPass, ledger_mapRecord]; rfl
  refine KeepsInputs.immediatePass ⟨modulesSound_congr (by rw [hl]), by rw [hl]; exact id, fun o' => ?_,
    fun k o' _ => ?_, fun o' => ?_⟩
  all_goals
    simp only [hl, Ledger.Owned, Ledger.Lined, Ledger.Demanded, Function.update_apply]
    split
    · next e => subst e; simp +contextual
    · exact id

/-- A change of a meter record that leaves its baseline valid or not. -/
theorem keeps_mapRecord {o : Outlet} {f : MeterRecord → MeterRecord}
    (h : (f (s.record o)).lastTime.isSome = (s.record o).lastTime.isSome) : Keeps s (mapRecord o f s) :=
  .of_ledger (ledger_mapRecord_of_eq s h)

theorem keeps_claimNone (o : Outlet) (d : Nat) (b : Band) : Keeps s (claimNone o d b s) := by
  unfold claimNone
  dsimp only
  split
  · exact keeps_mapRecord s rfl
  · exact .after (keeps_give _ _) (keeps_mapRecord s rfl)

/-- A reading accepted for an outlet whose baseline is valid. -/
theorem keeps_accept {o : Outlet} {w : Word} {t : Time} {n : Nat} (h : (s.record o).lastTime.isSome = true) :
    Keeps s (mapRecord o (fun r => r.accept w t n) s) := keeps_mapRecord s h.symm

theorem keeps_acceptDelta {o : Outlet} (d : Nat) (b : Band) (w : Word) (t : Time)
    (h : (s.record o).lastTime.isSome = true) : Keeps s (acceptDelta o d b w t s) := by
  unfold acceptDelta
  dsimp only
  split
  · exact .after (keeps_endHold _ o _) (.after (keeps_bill _ o d b) (keeps_accept s h))
  · exact .after (keeps_claimNone _ o d b) (keeps_accept s h)

theorem keeps_rebase {o : Outlet} (w : Word) (t : Time) (h : (s.record o).lastTime.isSome = true) :
    Keeps s (rebase o w t s) := by
  unfold rebase
  dsimp only
  split
  · exact .after (keeps_enterHeld _ o _) (.after (keeps_mapContext _ o fun _ => rfl) (keeps_accept s h))
  · exact keeps_accept s h

theorem keeps_rejectDelta {o : Outlet} (w : Word) (t : Time) (h : (s.record o).lastTime.isSome = true) :
    Keeps s (rejectDelta o w t s) := by
  have hrejects : Keeps s (mapRecord o (fun r => { r with rejects := r.rejects + 1 }) s) := keeps_mapRecord s rfl
  have hvalid : ((mapRecord o (fun r => { r with rejects := r.rejects + 1 }) s).record o).lastTime.isSome = true := by
    simpa using h
  unfold rejectDelta
  generalize mapRecord o (fun r => { r with rejects := r.rejects + 1 }) s = v at hrejects hvalid ⊢
  dsimp only
  repeat' split
  · exact .after (keeps_rebase _ w t hvalid) (.after (keeps_mapContext v o fun _ => rfl) hrejects)
  · exact .after (keeps_mapContext v o fun _ => rfl) hrejects
  · exact .after (keeps_rebase _ w t hvalid) hrejects
  · exact hrejects

theorem keeps_readMeter (o : Outlet) (w : Word) (b : Band) (t : Time) : Keeps s (readMeter o w b t s) := by
  unfold readMeter
  dsimp only
  split
  · exact keeps_validate s o w t
  · next last h =>
    have hvalid : (s.record o).lastTime.isSome = true := by rw [h]; rfl
    split
    · exact keeps_acceptDelta s _ b w t hvalid
    · exact keeps_rejectDelta s w t hvalid

/-! ### The service of a reply and of an alert (R102 to R104) -/

theorem keeps_closeStep (o : Outlet) (w : Bool) (m : ModuleMask) : Keeps s (closeStep o w m s) := by
  unfold closeStep
  dsimp only
  split
  · exact .after (keeps_checkSettle _ o) (keeps_mapContext s o fun _ => rfl)
  · exact keeps_checkSettle s o

theorem keeps_serveOutlet (o : Outlet) (l : List Outlet) (w : Bool) (n : OutletNews) (m : ModuleMask) (b : Band)
    (t : Time) : Keeps s (serveOutlet o l w n m b t s) :=
  .after (keeps_closeStep _ o w _) (.after (keeps_readMeter _ o _ b t) (.after (keeps_deliverCharge _ o _ _)
    (.after (keeps_deliverPlug _ o _) (.after (keeps_checkSettles _ _) (keeps_takeMasks s o n m)))))

theorem keeps_serveReply (k : LineNo) (r : HeldReply) : Keeps s (serveReply k r s) :=
  .after (keeps_emptyReplySlot _ k) (.after (keeps_serveOutlet _ _ _ _ _ _ _ _) (.after (keeps_serveOutlet _ _ _ _ _ _ _ _)
    (.after (keeps_clearEstop _ k _) (keeps_takeEstop s k _))))

theorem keeps_serveAlert (k : LineNo) (a : HeldAlert) : Keeps s (serveAlert k a s) :=
  .after (keeps_forEach _ _ (fun o u => keeps_endStart u s o) _) (.after (keeps_mapLine _ rfl)
    (.after (keeps_checkSettle _ _) (.after (keeps_deliverPlug _ _ _)
    (.after (keeps_checkSettle _ _) (.after (keeps_deliverPlug _ _ _)
    (.after (keeps_checkSettles _ _) (keeps_takeEstop s k _)))))))

theorem keeps_serveNextReply : Keeps s (serveNextReply s) := by
  unfold serveNextReply
  repeat' split
  · exact .refl s
  · exact .refl s
  · exact .refl s
  · exact .after (keeps_serveReply _ _ _) (.of_ledger (ledger_setPointer s _))

theorem keeps_serveNextAlert : Keeps s (serveNextAlert s) := by
  unfold serveNextAlert
  repeat' split
  · exact .refl s
  · exact .refl s
  · exact keeps_serveAlert s _ _

end Sys2Proof.Machine
end

