-- ==== Sys2Proof/Proofs/LedgerCommands.lean ====
section
/-! SUPPORT. The law of the Apportioner, the Module Table and the want inputs, continued: what every command keeps, and so what
every step keeps (O57, O59, O60). -/

namespace Sys2Proof.Machine

variable (s : State)

/-! ### Orders (R15, R16) -/

theorem keeps_takeOpen (cell : CellIndex) (o : OpenOrder) (out : Outlet) (i : TariffSlot) :
    Keeps s (takeOpen cell o out i s).state := by
  unfold takeOpen
  repeat' split
  · exact .refl s
  · exact .refl s
  · exact .refl s
  · exact .refl s
  · next hvacant _ _ _ _ =>
    refine .after (keeps_startInEvent _ out) (.of_ledger (ledger_setContext_of_eq s ?_))
    rw [Option.not_isSome_iff_eq_none.1 hvacant]; rfl
  · exact .refl s

theorem keeps_takeLink (cell : CellIndex) (o : LinkOrder) (out : Outlet) (i : TariffSlot) :
    Keeps s (takeLink cell o out i s).state := by
  unfold takeLink
  repeat' split
  · exact .refl s
  · exact .refl s
  · exact .refl s
  · exact .refl s
  · exact .refl s
  · exact .after (keeps_examineDrained _ out) (.of_ledger rfl)

theorem keeps_takeStop (o : Outlet) : Keeps s (takeStop o s).state := by
  unfold takeStop
  split
  · exact .refl s
  · next c hc =>
    split
    · next hp =>
      refine .after (.of_ledger (ledger_releaseUnused _ _)) (.after (.of_ledger (ledger_queueEndWord _ _ _)) ?_)
      exact keeps_vacate s (by simp [hc, activeContext, hp])
    · exact .refl s
    · exact .refl s
    · exact keeps_closeSession s o _

theorem keeps_amendPriority (o : Outlet) (p : Fin 4) : Keeps s (amendPriority o p s) := by
  have h : Keeps s (mapContext o (fun c => { c with priority := p }) s) := keeps_mapContext s o fun _ => rfl
  unfold amendPriority
  dsimp only
  split <;> exact h.trans (.of_ledger rfl)

theorem keeps_amendHold (o : Outlet) (n : Nat) : Keeps s (amendHold o n s) := by
  have h : Keeps s (recompute o (mapContext o (fun c => { c with hold := n, overdraw := c.chargedTotal - n }) s)) :=
    .after (keeps_recompute _ o) (keeps_mapContext s o fun _ => rfl)
  unfold amendHold
  generalize recompute o (mapContext o (fun c => { c with hold := n, overdraw := c.chargedTotal - n }) s) = v at h ⊢
  dsimp only
  split
  · next hdrained =>
    obtain ⟨c, hc⟩ : ∃ c, v.context o = some c := by
      cases hc : v.context o with
      | none => simp [State.phaseIs, hc] at hdrained
      | some c => exact ⟨c, rfl⟩
    exact .after (keeps_activate (f := fun c => { c with phase := .active, drainedMinutes := 0 }) hc rfl rfl) h
  · exact .after (keeps_takeOn _ o) h

theorem keeps_takeAmend (a : AmendOrder) (o : Outlet) : Keeps s (takeAmend a o s).state := by
  unfold takeAmend
  repeat' split
  · exact .refl s
  · exact .refl s
  · exact .refl s
  · rw [state_accept]; exact .after (keeps_amendHold _ o _) (keeps_amendPriority s o _)
  · rw [state_accept]; exact keeps_amendPriority s o _
  · rw [state_accept]; exact keeps_amendHold s o _
  · exact .refl s

theorem keeps_takeSync (o : Outlet) : Keeps s (takeSync o s).state := by
  unfold takeSync
  split
  · exact .refl s
  · exact keeps_mapContext s o fun _ => rfl

theorem keeps_takeAudit (o : Outlet) (a : Byte) : Keeps s (takeAudit o a s).state := by
  unfold takeAudit
  dsimp only
  split <;> exact .of_ledger rfl

theorem phase_applyPending (c : Context) : c.applyPending.phase = c.phase :=
  applyPending_keeps Context.phase c (fun c b => by unfold Context.pricePending; dsimp only; split <;> rfl)
    (fun _ => rfl) fun _ => rfl

theorem keeps_resumeSession (o : Outlet) : Keeps s (resumeSession o s) := by
  have h : Keeps s (mapContext o Context.applyPending s) := keeps_mapContext s o phase_applyPending
  unfold resumeSession
  exact .after (keeps_auditIfFlagged _ o) (.after (keeps_examineDrained _ o) (.after (keeps_takeOn _ o)
    (.after (keeps_recompute _ o) h)))

theorem keeps_takeResume (o : Outlet) : Keeps s (takeResume o s).state := by
  unfold takeResume
  repeat' split
  · exact .refl s
  · rw [state_accept]; exact keeps_resumeSession s o
  · exact .refl s

theorem keeps_takeTariff (i : TariffSlot) (a : Byte) : Keeps s (takeTariff i a s).state := by
  unfold takeTariff
  split <;> exact .of_ledger rfl

theorem keeps_takeBand (w : Sweep) (b : Byte) : Keeps s (takeBand w b s).state := by
  unfold takeBand
  split
  · exact .refl s
  · have hsweep (o : Outlet) (u : State) : Keeps u (evaluateStart o (takeOn o u)) :=
      .after (keeps_evaluateStart _ o) (keeps_takeOn u o)
    have h (v : State) (hv : Keeps s v) : Keeps s (forEach (sweepOrder w) (endStart s) (forEach Config.lines bandEdge
        (forEach (sweepOrder w) (fun o u => evaluateStart o (takeOn o u)) (recomputeAll v)))) :=
      .after (keeps_forEach _ _ (fun o u => keeps_endStart u s o) _)
        (.after (keeps_forEach _ _ (fun k u => keeps_bandEdge u k) _)
          (.after (keeps_forEach _ _ hsweep _) (.after (keeps_recomputeAll v) hv)))
    dsimp only
    rw [state_accept]
    refine h _ ?_
    exact .of_ledger rfl

theorem keeps_takeSite (n : Nat) : Keeps s (takeSite n s).state := by
  unfold takeSite
  split
  · exact .refl s
  · refine .after (keeps_pass _) ?_
    split
    · exact .after (keeps_give _ _) (.of_ledger rfl)
    · exact .of_ledger rfl

/-- An outlet's maximum moves its want, and the pass that this calls for is made (R72). -/
theorem keeps_takeOutlet (o : Outlet) (n : Nat) : Keeps s (takeOutlet o n s).state := by
  unfold takeOutlet
  split
  · exact .refl s
  · exact KeepsInputs.immediatePass
      { modules := id, running := id, owned := fun _ => id, lined := fun _ _ _ => id, demanded := fun _ => id }

theorem keeps_takeModule (m : ModuleNo) (a : Byte) : Keeps s (takeModule m a s).state := by
  unfold takeModule
  split
  · unfold returnModule
    split
    · exact .after (keeps_requestPass _) (keeps_setModule_of_none s rfl)
    · exact .refl s
  · exact keeps_retireModule s m
  · exact .refl s

theorem keeps_takePark (w : Sweep) (p : ParkOrder) : Keeps s (takePark w p s).state := by
  unfold takePark
  split
  · exact .refl s
  · dsimp only
    rw [state_accept]
    split
    · exact .of_ledger rfl
    · exact .after (keeps_forEach _ _ (fun o u => keeps_takeOn u o) _) (.after (keeps_recomputeAll _) (.of_ledger rfl))

theorem keeps_withOutlet (b : Byte) (f : Outlet → Taken) (h : ∀ o, Keeps s (f o).state) :
    Keeps s (withOutlet b s f).state := by
  unfold withOutlet
  split
  · exact h _
  · exact .refl s

theorem keeps_withSlot (b : Byte) (f : TariffSlot → Taken) (h : ∀ i, Keeps s (f i).state) :
    Keeps s (withSlot b s f).state := by
  unfold withSlot
  split
  · exact h _
  · exact .refl s

theorem keeps_handOn (cell : CellIndex) (w : Sweep) (o : Order) : Keeps s (handOn cell w o s).state := by
  cases o with
  | openSession o => exact keeps_withOutlet _ _ _ fun _ => keeps_withSlot _ _ _ fun _ => keeps_takeOpen ..
  | link o => exact keeps_withOutlet _ _ _ fun _ => keeps_withSlot _ _ _ fun _ => keeps_takeLink ..
  | stop b => exact keeps_withOutlet _ _ _ fun _ => keeps_takeStop ..
  | amend a => exact keeps_withOutlet _ _ _ fun _ => keeps_takeAmend ..
  | sync b => exact keeps_withOutlet _ _ _ fun _ => keeps_takeSync ..
  | audit b a => exact keeps_withOutlet _ _ _ fun _ => keeps_takeAudit ..
  | resume b => exact keeps_withOutlet _ _ _ fun _ => keeps_takeResume ..
  | tariff b a => exact keeps_withSlot _ _ _ fun _ => keeps_takeTariff ..
  | band b => exact keeps_takeBand ..
  | site l => exact keeps_takeSite ..
  | outlet b m => exact keeps_withOutlet _ _ _ fun _ => keeps_takeOutlet ..
  | module b a =>
    simp only [handOn]
    split
    · exact keeps_takeModule ..
    · exact .refl s
  | park p => exact keeps_takePark ..
  | clock v => exact .of_ledger rfl
  | survey => exact .refl s
  | line b =>
    simp only [handOn]
    split
    · exact keeps_reline s _
    · exact .refl s

theorem keeps_readCell (cell : CellIndex) (w : Sweep) (p : OrderPart) : Keeps s (readCell cell w p s) := by
  unfold readCell
  split
  · exact .of_ledger rfl
  · refine Keeps.after (r := (takeOrder cell w p s).state) (.of_ledger rfl) ?_
    unfold takeOrder
    split
    · exact keeps_handOn s cell w _
    · exact .refl s

/-! ### Transfers (R167 to R179) -/

theorem keeps_endWaitWith (r : OrderOutcome) : Keeps s (endWaitWith r s) := by
  unfold endWaitWith
  split <;> exact .of_ledger rfl

theorem keeps_takenWritten : Keeps s (takenWritten s) := by
  unfold takenWritten
  split
  · dsimp only
    split <;> exact .of_ledger rfl
  · exact .refl s

theorem keeps_takeRecord (i : TariffSlot) (record : Vector Byte 32) : Keeps s (takeRecord i record s) := by
  unfold takeRecord
  split
  · exact .after (keeps_endWaitWith _ _) (.of_ledger (ledger_setTariff s i _))
  · exact keeps_endWaitWith s _

theorem keeps_standingEnded (l : Bool) : Keeps s (standingEnded l s) := by
  unfold standingEnded endCopyWait
  repeat' split
  all_goals exact .of_ledger (by simp)

theorem keeps_progressEnded (o : Outlet) (c l : Bool) : Keeps s (progressEnded o c l s) := by
  refine Keeps.after (keeps_standingEnded _ l) ?_
  split
  · exact .after (.of_ledger (ledger_endProgressWait _ o)) (keeps_mapContext s o fun _ => rfl)
  · exact .refl s

theorem keeps_settleSession (o : Outlet) : Keeps s (settleSession o s) := by
  unfold settleSession
  split
  · exact .refl s
  · next c hc =>
    split
    · next hp =>
      refine .after (.of_ledger (ledger_releaseUnused _ _)) (.after (.of_ledger (ledger_queueEndWord _ _ _)) ?_)
      refine keeps_vacate s ?_
      have hother : c.phase ≠ .active := fun h => by rw [h] at hp; cases hp
      simp [hc, activeContext, hother]
    · exact .refl s

theorem keeps_givenUpWritten (o : Outlet) : Keeps s (givenUpWritten o s) := by
  unfold givenUpWritten
  split
  · exact .refl s
  · exact .after (keeps_examineDrained _ o) (.after (.of_ledger (ledger_queueEndWord _ _ _))
      (keeps_mapContext s o fun _ => rfl))

theorem keeps_takeSlotWord (w : Word) : Keeps s (takeSlotWord w s) := by
  unfold takeSlotWord
  split <;> exact .of_ledger rfl

theorem keeps_entryWritten : Keeps s (entryWritten s) := by
  unfold entryWritten
  dsimp only
  split <;> exact .of_ledger rfl

theorem keeps_surveyWritten (p : SurveyPart) : Keeps s (surveyWritten p s) := by
  unfold surveyWritten
  split
  · exact keeps_endWaitWith s _
  · exact .of_ledger rfl

theorem keeps_fallback (j : Job) : Keeps s (fallback j s) := by
  cases j with
  | settle j =>
    cases j with
    | endWord w => exact .of_ledger rfl
    | progress o c l => exact keeps_progressEnded s o c l
    | standing o l => exact keeps_standingEnded s l
    | receipt o => exact keeps_mapContext s o fun _ => rfl
    | givenUp o => exact keeps_mapContext s o fun _ => rfl
  | order j =>
    cases j with
    | readOrder c => exact .of_ledger rfl
    | writeTaken c => exact keeps_takenWritten s
    | writeAnswer c r f => exact .of_ledger rfl
    | writeWithdrawn c => exact .of_ledger rfl
    | readTariff i => exact keeps_endWaitWith s _
  | journal j => cases j <;> exact .of_ledger rfl
  | survey p => exact keeps_endWaitWith s _

theorem keeps_busError (t : Transfer) (words : Nat) : Keeps s (busError t words s) := by
  have hlatch (u : State) : Keeps u (raise .busFault (latchFault t.address u)) := by
    unfold latchFault
    split <;> exact .of_ledger rfl
  have hgive (u : State) : Keeps u (if u.forBusFault t.job then u else give t.faultEntry u) := by
    split
    · exact .refl u
    · exact keeps_give u _
  exact .after (keeps_fallback _ _) (.after (hgive _) (.after (hlatch _) (.of_ledger rfl)))

/-! ### The part state, the clocks, the Apportioner's own events -/

/-- An outlet wants no less with the part running (R53). -/
theorem want_partRunning_mono (i : WantInputs) (m : Nat) (b : Bool) : i.want m b ≤ i.want m true := by
  cases b
  · unfold WantInputs.want; simp
  · exact le_rfl

theorem keeps_enterRunning : Keeps s (enterRunning s) :=
  { modules := id, running := fun _ => by simp [enterRunning, State.ledger, setPartRunning, setPartState, requestPass],
    owned := fun _ => id, lined := fun _ _ _ => id, demanded := fun _ => id,
    grants := fun hs o => (hs o).trans (want_partRunning_mono (s.inputs o) (Table.get s.power.maximums o) s.power.partRunning) }

theorem keeps_runWrite : Keeps s (runWrite s) := by
  unfold runWrite
  split
  · exact Keeps.after (r := startLines (enterRunning s)) (.of_ledger rfl)
      (.after (keeps_forEach _ _ (fun k u => keeps_mapLine u rfl) _) (keeps_enterRunning s))
  · exact .refl s
  · exact keeps_enterRunning s
  · exact keeps_enterRunning s

theorem keeps_markProgress : Keeps s (markProgress s) := by
  have hmark (o : Outlet) (u : State) : Keeps u (mapContext o (fun c => { c with progressDue := true }) u) :=
    keeps_mapContext u o fun _ => rfl
  exact keeps_forEach _ _ hmark s

/-- A halt takes the part-running input away, and then makes its pass (R182). -/
theorem keeps_haltWrite : Keeps s (haltWrite s) := by
  unfold haltWrite
  split
  · have hinputs : KeepsInputs s (setPartRunning false (setPartState .halting s)) :=
      { modules := id, running := fun _ => by simp [State.ledger, setPartRunning, setPartState], owned := fun _ => id,
        lined := fun _ _ _ => id, demanded := fun _ => id }
    have hpass : Keeps s (pass (setPartRunning false (setPartState .halting s))) :=
      { hinputs.trans (keeps_pass _).toKeepsInputs with grants := fun _ => grantsWithinWants_pass _ }
    exact .after (keeps_markProgress _) hpass
  · exact .refl s

theorem keeps_expireModules (l : List ModuleNo) : Keeps s (expireModules l s) :=
  .after (keeps_checkSettles _ _) (keeps_forEach _ _ (fun m u => keeps_moduleOut u m _) s)

theorem keeps_idleMinuteEvent {o : Outlet} {c : Context} (hc : s.context o = some c) :
    Keeps s (idleMinuteEvent o c s) := by
  unfold idleMinuteEvent
  dsimp only
  repeat' split
  · exact keeps_setContext s hc rfl
  · exact .after (keeps_recompute _ o) (keeps_setContext s hc rfl)
  · exact keeps_setContext s hc rfl

theorem keeps_drainedMinuteEvent {o : Outlet} {c : Context} (hc : s.context o = some c) :
    Keeps s (drainedMinuteEvent o c s) := by
  unfold drainedMinuteEvent
  dsimp only
  split
  · exact .after (keeps_closeSession _ o _) (keeps_setContext s hc rfl)
  · exact keeps_setContext s hc rfl

theorem keeps_heldMinuteEvent {o : Outlet} {c : Context} (hc : s.context o = some c) :
    Keeps s (heldMinuteEvent o c s) := by
  unfold heldMinuteEvent
  dsimp only
  split
  · exact .after (keeps_closeSession _ o _) (keeps_setContext s hc rfl)
  · exact keeps_setContext s hc rfl

theorem keeps_closingMinuteEvent {o : Outlet} {c : Context} (hc : s.context o = some c) :
    Keeps s (closingMinuteEvent o c s) := by
  unfold closingMinuteEvent
  dsimp only
  split
  · exact .after (keeps_checkSettle _ o) (keeps_setContext s hc rfl)
  · exact keeps_checkSettle s o

theorem keeps_minuteOf (o : Outlet) : Keeps s (minuteOf o s) := by
  have h : Keeps s (retryMarks o s) := keeps_mapContext s o fun _ => rfl
  unfold minuteOf
  generalize retryMarks o s = v at h ⊢
  refine h.trans ?_
  dsimp only
  split
  · exact .refl v
  · next c hc =>
    repeat' split
    · exact keeps_closingMinuteEvent v hc
    · exact keeps_idleMinuteEvent v hc
    · exact .refl v
    · exact keeps_drainedMinuteEvent v hc
    · exact .refl v
    · exact keeps_heldMinuteEvent v hc
    · exact .refl v
    · exact .refl v

theorem keeps_checkpoint : Keeps s (checkpoint s) := by
  have hmark (o : Outlet) (u : State) :
      Keeps u (mapContext o (fun c => if c.phase.running then { c with progressDue := true } else c) u) :=
    keeps_mapContext u o fun c => by split <;> rfl
  unfold checkpoint
  dsimp only
  repeat' split
  · exact .refl s
  · exact .after (keeps_forEach _ _ hmark _) (.of_ledger rfl)
  · exact .of_ledger rfl

theorem keeps_minuteEffects (last : Bool) : Keeps s (minuteEffects last s) := by
  have hall (u : State) : Keeps u (forEach Config.outlets minuteOf u) :=
    keeps_forEach _ _ (fun o u => keeps_minuteOf u o) u
  unfold minuteEffects
  split
  · exact (hall s).trans (keeps_checkpoint _)
  · exact (keeps_checkpoint s).trans (hall _)

/-! ### The end of an event (R168, R183) -/

theorem activeContext_body (o : Outlet) : activeContext (s.body.context o) = activeContext (s.context o) := by
  have hmap : s.body.context o = (s.context o).map Context.body := by simp [State.context, State.body, Table.get]
  rw [hmap]
  cases s.context o <;> rfl

/-- The ledger is in the body of a state. -/
theorem ledger_of_body {s r : State} (h : r.body = s.body) : r.ledger = s.ledger := by
  have hbody (u : State) : u.ledger = u.body.ledger := by
    calc u.ledger = { u.body.ledger with active := fun o => activeContext (u.context o) } := rfl
      _ = { u.body.ledger with active := fun o => activeContext (u.body.context o) } := by simp only [activeContext_body]
      _ = u.body.ledger := rfl
  rw [hbody r, h, ← hbody s]

/-- Neither in HALTING nor in HALTED does the part run. -/
theorem ledger_halted (h : s.control.partState = .halting) : (halted s).ledger = s.ledger := by
  calc (halted s).ledger = { s.ledger with running := false } := rfl
    _ = s.ledger := by simp [State.ledger, h]

theorem keeps_completeHalt : Keeps s (completeHalt s) := by
  unfold completeHalt
  split
  · next h =>
    have hhalting : s.control.partState = .halting := by simp_all
    exact .of_ledger ((ledger_of_body (body_serveRequests (halted s))).trans (ledger_halted s hhalting))
  · exact .refl s

theorem keeps_endEvent : Keeps s (endEvent s) :=
  .after (keeps_completeHalt _) (.of_ledger (ledger_of_body (body_serveRequests s)))

/-! ### Resets (R185) -/

/-- At reset the law holds and the inputs agree, and of the lines only the STALE mark is looked at. -/
theorem keeps_reset {r : State} (h : r.ledger = State.reset.ledger) : Keeps s r := by
  obtain ⟨hrunning, howned⟩ := (inputsAgree_iff _).1 inputsAgree_reset
  exact
    { modules := fun _ => modulesSound_congr (s := State.reset) (by rw [h]) fun m o ho => by simp [Module.outlet?] at ho,
      running := fun _ => by rw [h]; exact hrunning,
      owned := fun o _ => by rw [h]; exact howned o,
      lined := fun k o ho _ => by rw [h]; exact (linesAgree_iff _).1 linesAgree_reset k o ho,
      demanded := fun o _ => by rw [h]; show (State.reset.inputs o).demand = (State.reset.report o).demand; simp,
      grants := fun _ => grantsWithinWants_congr (by rw [h]) grantsWithinWants_reset }

/-- Of the Control Block the ledger looks at the part state alone. -/
theorem ledger_of_partState (p : List Instr) (t : Time) (m : Memory) {c : Control}
    (h : c.partState = s.control.partState) :
    ({ s with pending := p, now := t, mem := m, control := c } : State).ledger = s.ledger := by
  calc ({ s with pending := p, now := t, mem := m, control := c } : State).ledger =
        { s.ledger with running := decide (c.partState = .running) } := rfl
    _ = s.ledger := by rw [h]; rfl

theorem ledger_resetBlocks : (resetBlocks s).ledger = State.reset.ledger :=
  ledger_of_partState State.reset _ _ _ rfl

theorem ledger_keepFaults (old s : State) (h : s.ledger = State.reset.ledger) :
    (keepFaults old s).ledger = State.reset.ledger := by
  have hstale : (keepFaults old s).ledger.stale = State.reset.ledger.stale := funext fun k => by
    show ((keepFaults old s).line k).stale = (State.reset.line k).stale
    simp [keepFaults, State.line, Table.get, State.reset]
  calc (keepFaults old s).ledger = { s.ledger with stale := (keepFaults old s).ledger.stale } := rfl
    _ = State.reset.ledger := by rw [hstale, h]

/-! ### Every command -/

/-- Every state that an outcome goes on to is kept so. -/
def KeptBy (s : State) (o : Outcome) : Prop := ∀ u, o = .next u → Keeps s u

theorem keptBy_next {u : State} (h : Keeps s u) : KeptBy s (.next u) := by
  rintro _ ⟨⟩; exact h

theorem keptBy_idle : KeptBy s (.next s) := keptBy_next s (.refl s)

theorem keptBy_finish {r : State} (h : Keeps s r) : KeptBy s (finish r) :=
  keptBy_next s (.after (keeps_endEvent r) h)

theorem keptBy_powerOnReset (t : Time) (n : Nat) : KeptBy s (execPowerOnReset t n s) :=
  keptBy_next s (keeps_reset s (ledger_resetBlocks _))

theorem keptBy_softReset (t : Time) (n : Nat) : KeptBy s (execSoftReset t n s) :=
  keptBy_next s (keeps_reset s (ledger_keepFaults s _ (ledger_resetBlocks _)))

theorem ledger_postIndex (b : Byte) : (postIndex b s).ledger = s.ledger := by
  unfold postIndex
  repeat' split
  all_goals rfl

theorem ledger_withdrawIndex (b : Byte) : (withdrawIndex b s).ledger = s.ledger := by
  unfold withdrawIndex
  repeat' split
  all_goals rfl

theorem keptBy_registerWriteIgnored (w : IgnoredWrite) : KeptBy s (execRegisterWriteIgnored w s) := by
  unfold execRegisterWriteIgnored
  split
  · exact keptBy_idle s
  · rintro _ ⟨⟩

theorem keptBy_areaBaseWrite (v : Word) : KeptBy s (execAreaBaseWrite v s) := by
  unfold execAreaBaseWrite
  split <;> exact keptBy_next s (.of_ledger rfl)

theorem keptBy_orderTake : KeptBy s (execOrderTake s) := by
  unfold execOrderTake
  split
  · exact keptBy_finish s (.of_ledger rfl)
  · exact keptBy_idle s

theorem keptBy_receiveOrder (t : Time) (w : Sweep) (p : OrderPart) : KeptBy s (receiveOrder t w p s) := by
  unfold receiveOrder
  split
  · exact keptBy_finish s (.after (keeps_readCell _ _ w p) (.of_ledger rfl))
  · exact keptBy_idle s

/-! A completion is for the transfer under way, of its own kind; else nothing happens (log 1). -/

theorem keeps_completeTransfer (t : Transfer) : Keeps s (completeTransfer t s) := .of_ledger rfl

theorem keptBy_takenWriteDone : KeptBy s (execTakenWriteDone s) := by
  unfold execTakenWriteDone
  repeat' split
  · exact keptBy_idle s
  · exact keptBy_finish s ((keeps_completeTransfer s _).trans (keeps_takenWritten _))
  · exact keptBy_idle s

theorem keptBy_answerWriteDone : KeptBy s (execAnswerWriteDone s) := by
  unfold execAnswerWriteDone
  repeat' split
  · exact keptBy_idle s
  · exact keptBy_finish s (.of_ledger rfl)
  · exact keptBy_idle s

theorem keptBy_withdrawStart : KeptBy s (execWithdrawStart s) := by
  unfold execWithdrawStart
  repeat' split
  · exact keptBy_idle s
  · exact keptBy_finish s (.of_ledger rfl)
  · exact keptBy_idle s

theorem keptBy_withdrawnWriteDone : KeptBy s (execWithdrawnWriteDone s) := by
  unfold execWithdrawnWriteDone
  repeat' split
  · exact keptBy_idle s
  · exact keptBy_finish s (.of_ledger rfl)
  · exact keptBy_idle s

theorem keptBy_tariffReadDone (record : Vector Byte 32) : KeptBy s (execTariffReadDone record s) := by
  unfold execTariffReadDone
  repeat' split
  · exact keptBy_idle s
  · exact keptBy_finish s ((keeps_completeTransfer s _).trans (keeps_takeRecord _ _ record))
  · exact keptBy_idle s

theorem keptBy_progressWriteDone : KeptBy s (execProgressWriteDone s) := by
  unfold execProgressWriteDone
  repeat' split
  · exact keptBy_idle s
  · exact keptBy_finish s ((keeps_completeTransfer s _).trans (keeps_progressEnded _ _ _ _))
  · exact keptBy_idle s

theorem keptBy_standingCopyDone : KeptBy s (execStandingCopyDone s) := by
  unfold execStandingCopyDone
  repeat' split
  · exact keptBy_idle s
  · exact keptBy_finish s ((keeps_completeTransfer s _).trans (keeps_standingEnded _ _))
  · exact keptBy_idle s

theorem keptBy_receiptWriteDone : KeptBy s (execReceiptWriteDone s) := by
  unfold execReceiptWriteDone
  repeat' split
  · exact keptBy_idle s
  · exact keptBy_finish s ((keeps_completeTransfer s _).trans (keeps_settleSession _ _))
  · exact keptBy_idle s

theorem keptBy_givenUpReceiptDone : KeptBy s (execGivenUpReceiptDone s) := by
  unfold execGivenUpReceiptDone
  repeat' split
  · exact keptBy_idle s
  · exact keptBy_finish s ((keeps_completeTransfer s _).trans (keeps_givenUpWritten _ _))
  · exact keptBy_idle s

theorem keptBy_endWordDone : KeptBy s (execEndWordDone s) := by
  unfold execEndWordDone
  repeat' split
  · exact keptBy_idle s
  · exact keptBy_finish s (.of_ledger rfl)
  · exact keptBy_idle s

theorem keptBy_journalSlotReadDone (w : Word) : KeptBy s (execJournalSlotReadDone w s) := by
  unfold execJournalSlotReadDone
  repeat' split
  · exact keptBy_idle s
  · exact keptBy_finish s ((keeps_completeTransfer s _).trans (keeps_takeSlotWord _ w))
  · exact keptBy_idle s

theorem keptBy_journalEntryWriteDone : KeptBy s (execJournalEntryWriteDone s) := by
  unfold execJournalEntryWriteDone
  repeat' split
  · exact keptBy_idle s
  · exact keptBy_finish s ((keeps_completeTransfer s _).trans (keeps_entryWritten _))
  · exact keptBy_idle s

theorem keptBy_journalHeaderWriteDone : KeptBy s (execJournalHeaderWriteDone s) := by
  unfold execJournalHeaderWriteDone
  repeat' split
  · exact keptBy_idle s
  · exact keptBy_finish s (.of_ledger rfl)
  · exact keptBy_idle s

theorem keptBy_surveyPartDone : KeptBy s (execSurveyPartDone s) := by
  unfold execSurveyPartDone
  repeat' split
  · exact keptBy_idle s
  · exact keptBy_finish s ((keeps_completeTransfer s _).trans (keeps_surveyWritten _ _))
  · exact keptBy_idle s

theorem keptBy_busError (n : Nat) : KeptBy s (execBusError n s) := by
  unfold execBusError
  split
  · exact keptBy_idle s
  · exact keptBy_finish s (keeps_busError s _ n)

/-! The lines. -/

theorem keeps_atTime (t : Time) : Keeps s (atTime t s) := .of_ledger rfl

theorem keptBy_pollDue (k : LineNo) : KeptBy s (execPollDue k s) := by
  refine keptBy_finish s ?_
  split
  · exact (keeps_atTime s _).trans (keeps_pollIfDue _ k)
  · exact .refl s

theorem keptBy_pollSent (k : LineNo) : KeptBy s (execPollSent k s) := by
  refine keptBy_finish s ?_
  split
  · split
    · exact .after (keeps_enterWaiting _ k) (.after (keeps_mapLine _ rfl) (keeps_atTime s _))
    · exact .after (keeps_mapLine _ rfl) (keeps_atTime s _)
  · exact .refl s

theorem keptBy_replyWindowEnd (k : LineNo) : KeptBy s (execReplyWindowEnd k s) := by
  refine keptBy_finish s ?_
  split
  · exact .after (keeps_failExchange _ k) (.after (keeps_countFault _ k _) (keeps_atTime s _))
  · exact .refl s

theorem keptBy_frameStart (t : Time) (k : LineNo) (b : Byte) : KeptBy s (execFrameStart t k b s) := by
  refine keptBy_finish s ?_
  repeat' split
  · exact .after (keeps_mapLine _ rfl) (keeps_atTime s t)
  · exact keeps_atTime s t
  · exact keeps_atTime s t

theorem keeps_endFrame (k : LineNo) : Keeps s (endFrame k s) := keeps_mapLine s rfl

theorem keptBy_replyFrame (t : Time) (k : LineNo) (f : Vector Byte 29) : KeptBy s (execReplyFrame t k f s) := by
  have hframe := (keeps_atTime s t).trans (keeps_endFrame _ k)
  refine keptBy_finish s ?_
  dsimp only
  repeat' split
  · exact hframe.trans (keeps_goodReply _ k f)
  · exact hframe.trans (keeps_frameFault _ k _)
  · exact keeps_atTime s t

theorem keptBy_alertFrame (t : Time) (k : LineNo) (f : Vector Byte 6) : KeptBy s (execAlertFrame t k f s) := by
  have hframe := (keeps_atTime s t).trans (keeps_endFrame _ k)
  refine keptBy_finish s ?_
  dsimp only
  repeat' split
  · exact hframe.trans (keeps_goodAlert _ k f)
  · exact hframe.trans (keeps_frameFault _ k _)
  · exact keeps_atTime s t

theorem keptBy_frameBroken (t : Time) (k : LineNo) : KeptBy s (execFrameBroken t k s) := by
  refine keptBy_finish s ?_
  split
  · exact .after (keeps_frameFault _ k _) (.after (keeps_endFrame _ k) (keeps_atTime s t))
  · exact keeps_atTime s t

/-! The Apportioner and the timers. -/

theorem keptBy_pass (t : Time) : KeptBy s (execPass t s) := by
  refine keptBy_finish s ?_
  split
  · exact (keeps_atTime s t).trans (keeps_pass _)
  · exact keeps_atTime s t

theorem keptBy_releaseDeadline : KeptBy s (execReleaseDeadline s) := by
  unfold execReleaseDeadline
  split
  · exact keptBy_finish s ((keeps_atTime s _).trans (keeps_expireModules _ _))
  · exact keptBy_idle s

theorem keptBy_startGuardExpiry : KeptBy s (execStartGuardExpiry s) := by
  unfold execStartGuardExpiry
  split
  · exact keptBy_finish s (.of_ledger rfl)
  · exact keptBy_idle s

theorem keptBy_minuteEvent (last : Bool) : KeptBy s (execMinuteEvent last s) := by
  unfold execMinuteEvent
  split
  · exact keptBy_finish s (.after (keeps_minuteEffects _ last) (.of_ledger rfl))
  · exact keptBy_idle s

/-- What every command keeps. -/
theorem keptBy_exec (i : Instr) : KeptBy s (exec i s) := by
  cases i with
  | powerOnReset t n => exact keptBy_powerOnReset s t n
  | softReset t n => exact keptBy_softReset s t n
  | run t => exact keptBy_finish s ((keeps_atTime s t).trans (keeps_runWrite _))
  | halt t => exact keptBy_finish s ((keeps_atTime s t).trans (keeps_haltWrite _))
  | registerWriteIgnored w => exact keptBy_registerWriteIgnored s w
  | post b => exact keptBy_next s (.of_ledger (ledger_postIndex s b))
  | withdraw b => exact keptBy_next s (.of_ledger (ledger_withdrawIndex s b))
  | noticeWrite v => exact keptBy_next s (.of_ledger rfl)
  | noticeMaskWrite v => exact keptBy_next s (.of_ledger rfl)
  | areaBaseWrite v => exact keptBy_areaBaseWrite s v
  | faultAddressWrite v => exact keptBy_next s (.of_ledger rfl)
  | orderTake => exact keptBy_orderTake s
  | orderReadDone t w b => exact keptBy_receiveOrder s t _ _
  | openSession t o => exact keptBy_receiveOrder s t _ _
  | link t o => exact keptBy_receiveOrder s t _ _
  | stop t o => exact keptBy_receiveOrder s t _ _
  | amend t o => exact keptBy_receiveOrder s t _ _
  | sync t o => exact keptBy_receiveOrder s t _ _
  | auditSet t o => exact keptBy_receiveOrder s t _ _
  | auditClear t o => exact keptBy_receiveOrder s t _ _
  | resume t o => exact keptBy_receiveOrder s t _ _
  | tariffLoad t x => exact keptBy_receiveOrder s t _ _
  | tariffUnload t x => exact keptBy_receiveOrder s t _ _
  | band t w b => exact keptBy_receiveOrder s t _ _
  | site t l => exact keptBy_receiveOrder s t _ _
  | outlet t o m => exact keptBy_receiveOrder s t _ _
  | moduleReturn t m => exact keptBy_receiveOrder s t _ _
  | moduleRetire t m => exact keptBy_receiveOrder s t _ _
  | park t w o => exact keptBy_receiveOrder s t _ _
  | clock t v => exact keptBy_receiveOrder s t _ _
  | survey t => exact keptBy_receiveOrder s t _ _
  | line t k => exact keptBy_receiveOrder s t _ _
  | takenWriteDone => exact keptBy_takenWriteDone s
  | answerWriteDone => exact keptBy_answerWriteDone s
  | withdrawStart => exact keptBy_withdrawStart s
  | withdrawnWriteDone => exact keptBy_withdrawnWriteDone s
  | tariffReadDone r => exact keptBy_tariffReadDone s r
  | progressWriteDone => exact keptBy_progressWriteDone s
  | standingCopyDone => exact keptBy_standingCopyDone s
  | receiptWriteDone => exact keptBy_receiptWriteDone s
  | givenUpReceiptDone => exact keptBy_givenUpReceiptDone s
  | endWordDone => exact keptBy_endWordDone s
  | journalSlotReadDone w => exact keptBy_journalSlotReadDone s w
  | journalEntryWriteDone => exact keptBy_journalEntryWriteDone s
  | journalHeaderWriteDone => exact keptBy_journalHeaderWriteDone s
  | surveyPartDone => exact keptBy_surveyPartDone s
  | busError n => exact keptBy_busError s n
  | transferStart => exact keptBy_finish s (.refl s)
  | pollDue k => exact keptBy_pollDue s k
  | pollSent k => exact keptBy_pollSent s k
  | replyWindowEnd k => exact keptBy_replyWindowEnd s k
  | replyFrame t k f => exact keptBy_replyFrame s t k f
  | alertFrame t k f => exact keptBy_alertFrame s t k f
  | frameBroken t k => exact keptBy_frameBroken s t k
  | replyService t => exact keptBy_finish s ((keeps_atTime s t).trans (keeps_serveNextReply _))
  | alertService t => exact keptBy_finish s ((keeps_atTime s t).trans (keeps_serveNextAlert _))
  | pass t => exact keptBy_pass s t
  | releaseDeadline => exact keptBy_releaseDeadline s
  | startGuardExpiry => exact keptBy_startGuardExpiry s
  | minuteEvent c => exact keptBy_minuteEvent s c
  | parkSecondTick => exact keptBy_finish s (.of_ledger rfl)
  | haltComplete => exact keptBy_next s (keeps_completeHalt s)
  | frameStart t k b => exact keptBy_frameStart s t k b

/-! ### Every step -/

theorem keeps_step {s u : State} (h : step s = .next u) : Keeps s u := by
  unfold step at h
  split at h
  · cases h; exact .refl s
  · next c rest _ => exact .after (keptBy_exec _ c u h) (.of_ledger rfl)

/-- Settles O57: a want falls only where an immediate pass follows in the event, and modules are granted by passes alone. -/
theorem stepsKeepGrantsWithinWants : Obligations.StepsKeepGrantsWithinWants := fun _ _ hs h => (keeps_step h).grants hs

/-- Settles O59: a pass grants modules of the outlet's own cabinet, and nothing else assigns any. -/
theorem stepsKeepModulesSound : Obligations.StepsKeepModulesSound := fun _ _ hs h => (keeps_step h).modules hs

theorem keptByStep_inputsAgree : KeptByStep InputsAgree := fun s u hs h => by
  obtain ⟨hrunning, howned⟩ := (inputsAgree_iff s).1 hs
  exact (inputsAgree_iff u).2 ⟨(keeps_step h).running hrunning, fun o => (keeps_step h).owned o (howned o)⟩

theorem keptByStep_linesAgree : KeptByStep LinesAgree := fun s u hs h =>
  (linesAgree_iff u).2 fun k o ho => (keeps_step h).lined k o ho ((linesAgree_iff s).1 hs k o ho)

theorem keptByStep_demandsAgree : KeptByStep DemandsAgree := fun s u hs h =>
  (demandsAgree_iff u).2 fun o => (keeps_step h).demanded o ((demandsAgree_iff s).1 hs o)

/-- Settles O60: each doing that moves what an input agrees with delivers it in the same event. -/
theorem stepsKeepInputsAgreeing : Obligations.StepsKeepInputsAgreeing :=
  ⟨keptByStep_inputsAgree, keptByStep_linesAgree, keptByStep_demandsAgree⟩

end Sys2Proof.Machine
end

