-- ==== Sys2Proof/Proofs/PowerOrders.lean ====
section
/-! SUPPORT. The want of an outlet (O51), and the orders of the Apportioner: SITE and OUTLET (O28), MODULE (O29). -/

namespace Sys2Proof.Machine

variable (s : State)

/-! ### Want (R53) -/

/-- A number of modules is within a demand rounded up where one module fewer is below the demand (R52). -/
theorem le_demandModules {n kW : Nat} : n ≤ demandModules kW ↔ n = 0 ∨ 40 * (n - 1) < kW := by
  unfold demandModules ceilDiv
  omega

/-- Settles O51, by whether some input stops the outlet. -/
theorem wantOfAnOutlet : Obligations.WantOfAnOutlet := by
  intro s o i stopped
  have hgoing : (i.active && s.power.partRunning && !i.lineStale && i.baselineValid && !i.blocked) = true ↔ ¬stopped := by
    simp [stopped, and_assoc]
  have hwant : s.want o = if i.active && s.power.partRunning && !i.lineStale && i.baselineValid && !i.blocked then
      min (min (demandModules i.demand) (Table.get s.power.maximums o)) i.ceiling else 0 := rfl
  refine ⟨fun h => ?_, fun h n => ?_⟩
  · rw [hwant, if_neg fun hg => hgoing.1 hg h]
  · rw [hwant, if_pos (hgoing.2 h), Nat.le_min, Nat.le_min, le_demandModules, and_assoc]

/-! ### A pass does not look at the Memory Port -/

theorem forEach_commute {α : Type} (h : State → State) (f : α → State → State) (hf : ∀ a u, f a (h u) = h (f a u))
    (l : List α) : forEach l f (h s) = h (forEach l f s) := by
  induction l generalizing s with
  | nil => rfl
  | cons a l ih => exact (congrArg (forEach l f) (hf a s)).trans (ih (f a s))

theorem give_freePort (k : EntryKind) : give k (freePort s) = freePort (give k s) := by
  by_cases h : s.journal.queue.length < 8 <;> simp [give, freePort, h]

theorem reduceModule_freePort (ts : List Target) (m : ModuleNo) :
    reduceModule ts m (freePort s) = freePort (reduceModule ts m s) := by
  have hgrant (o : Outlet) : (freePort s).grant o = s.grant o := rfl
  unfold reduceModule
  rw [show (freePort s).module m = s.module m from rfl]
  split
  · rw [hgrant]; split <;> rfl
  · rfl

theorem raiseOne_freePort (o : Outlet) : raiseOne o (freePort s) = freePort (raiseOne o s) := by
  have hbudget : ((freePort s).assignedCount + 1 ≤ (freePort s).siteBudget) = (s.assignedCount + 1 ≤ s.siteBudget) := rfl
  unfold raiseOne
  rw [show (freePort s).freeModule o = s.freeModule o from rfl]
  split
  · simp only [hbudget]; split <;> rfl
  · rfl

theorem raiseOutlet_freePort (t : Target) : raiseOutlet t (freePort s) = freePort (raiseOutlet t s) :=
  (Function.Commute.iterate_left (fun u => raiseOne_freePort u t.1.outlet) _ : Function.Commute _ freePort) s

theorem raises_freePort (ts : List Target) : raises ts (freePort s) = freePort (raises ts s) := by
  unfold raises
  rw [show (freePort s).power = s.power from rfl]
  split
  · rfl
  · exact forEach_commute s freePort raiseOutlet (fun t u => raiseOutlet_freePort u t) ts

theorem targets_freePort : (freePort s).targets = s.targets := rfl

theorem pass_freePort : pass (freePort s) = freePort (pass s) := by
  have hclear : clearPassRequest (freePort s) = freePort (clearPassRequest s) := rfl
  have hreduce (u : State) (ts : List Target) : reduce ts (freePort u) = freePort (reduce ts u) :=
    forEach_commute u freePort (reduceModule ts) (fun m v => reduceModule_freePort v ts m) _
  have hpeaks (u : State) : forEach Config.outlets raisePeak (freePort u) = freePort (forEach Config.outlets raisePeak u) :=
    forEach_commute u freePort raisePeak (fun _ _ => rfl) _
  simp only [pass, targets_freePort, hclear, hreduce, raises_freePort, hpeaks]

/-! ### SITE and OUTLET (R70, R72) -/

theorem immediatePass_of_le (h : ∀ o, s.grant o ≤ s.want o) : immediatePass s = s := by
  unfold immediatePass
  rw [if_neg]
  simpa [Config.outlets] using h

theorem immediatePass_of_lt (h : ∃ o, s.want o < s.grant o) : immediatePass s = pass s := by
  unfold immediatePass
  rw [if_pos]
  simpa [Config.outlets] using h

theorem takeSite_badField {n : Nat} (h : 1600 < n) : takeSite n s = refuse .badField s := if_pos h

/-- The site limit replaced, with the SITE_OVER entry where the power assigned is above it (R70). -/
def limitSite (n : Nat) (s : State) : State :=
  let limited : State := { s with power := { s.power with siteLimit := n } }
  if n < 40 * s.assignedCount then give (.siteOver n (40 * s.assignedCount)) limited else limited

theorem takeSite_ok {n : Nat} (h : n ≤ 1600) : takeSite n s = accept (pass (limitSite n s)) := if_neg (Nat.not_lt.2 h)

theorem limitSite_freePort (n : Nat) : limitSite n (freePort s) = freePort (limitSite n s) := by
  have hcount : (freePort s).assignedCount = s.assignedCount := rfl
  unfold limitSite
  dsimp only
  rw [hcount]
  split
  · exact give_freePort { s with power := { s.power with siteLimit := n } } _
  · rfl

theorem takeOutlet_badField {o : Outlet} {n : Nat} (h : 10 < n) : takeOutlet o n s = refuse .badField s := if_pos h

/-- An outlet's maximum replaced, with a pass requested. -/
def setMaximum (o : Outlet) (n : Nat) (s : State) : State :=
  { s with power := { s.power with maximums := Table.set s.power.maximums o n, passRequest := true } }

theorem takeOutlet_ok {o : Outlet} {n : Nat} (h : n ≤ 10) :
    takeOutlet o n s = accept (immediatePass (setMaximum o n s)) := if_neg (Nat.not_lt.2 h)

/-- Settles O28: a SITE by its limit, an OUTLET by its maximum and by whether it brings a want below its grant. -/
theorem siteAndOutletOrders : Obligations.SiteAndOutletOrders := by
  intro t s cell hr
  refine ⟨fun l => ?_, fun b m out hout => ?_⟩
  · have hexec : exec (.site t l) s =
        .next (endEvent (awaitTaken cell (.site l) (takeSite l.toNat (freePort (atTime t s))))) :=
      receiveOrder_eq t [] (.site l) hr
    refine ⟨_, hexec, fun h => takenAs_refuse s cell _ t (takeSite_badField _ h), fun h => ?_⟩
    rw [takeSite_ok _ h, limitSite_freePort, pass_freePort]
    exact takenAs_awaitTaken cell _ (body_freePort (pass (limitSite l.toNat (atTime t s))))
  · have hexec : exec (.outlet t b m) s =
        .next (endEvent (awaitTaken cell (.outlet b m) (takeOutlet out m.toNat (freePort (atTime t s))))) :=
      receiveOrder_withOutlet t [] (fun u o => takeOutlet o m.toNat u) hr hout fun _ => rfl
    refine ⟨_, hexec, fun h => takenAs_refuse s cell _ t (takeOutlet_badField _ h), fun h => ?_⟩
    intro changed
    have hchanged : setMaximum out m.toNat (freePort (atTime t s)) = freePort changed := rfl
    rw [takeOutlet_ok _ h, hchanged]
    refine ⟨fun hle => takenAs_awaitTaken cell _ ?_, fun hlt => takenAs_awaitTaken cell _ ?_⟩
    · rw [state_accept, immediatePass_of_le (freePort changed) hle, body_freePort]
    · rw [state_accept, immediatePass_of_lt (freePort changed) hlt, pass_freePort, body_freePort]

/-! ### MODULE (R67, R68) -/

/-- A module replaced, with a pass requested. -/
def moveModule (m : ModuleNo) (e : Module) (s : State) : State :=
  { s with power := { s.power with modules := Table.set s.power.modules m e, passRequest := true } }

section
variable {m : ModuleNo}

theorem returnModule_out (h : (s.module m).isOut = true) : returnModule m s = accept (moveModule m .free s) := by
  unfold returnModule
  split
  · rfl
  · next hm => cases hs : s.module m <;> simp_all [Module.isOut]

theorem returnModule_notOut (h : (s.module m).isOut = false) : returnModule m s = refuse .notOut s := by
  unfold returnModule
  split
  · next hm => rw [hm] at h; cases h
  · rfl

theorem retireModule_free (h : s.module m = .free) :
    retireModule m s = moveModule m (.out .retired) (give (.moduleOut m .retired none) s) := by
  simp only [retireModule, moduleOut, h]; rfl

theorem retireModule_granted {o : Outlet} (h : s.module m = .granted o) :
    retireModule m s = moveModule m (.releasing o s.releaseDeadline true) s := by
  simp only [retireModule, h]; rfl

theorem retireModule_releasing {o : Outlet} {d : Time} {r : Bool} (h : s.module m = .releasing o d r) :
    retireModule m s = setModule m (.releasing o d true) s := by
  simp only [retireModule, h]

theorem retireModule_out {r : OutReason} (h : s.module m = .out r) :
    retireModule m s = setModule m (.out .retired) s := by
  simp only [retireModule, h]

end

theorem takeModule_badField {m : ModuleNo} {action : Byte} (h1 : action ≠ 1#8) (h2 : action ≠ 2#8) :
    takeModule m action s = refuse .badField s := by
  unfold takeModule
  split
  · exact absurd (BitVec.eq_of_toNat_eq ‹_›) h1
  · exact absurd (BitVec.eq_of_toNat_eq ‹_›) h2
  · rfl

/-- The journal and the Module Table are apart, so an entry is given before a module is moved or after. -/
theorem moveModule_give (m : ModuleNo) (e : Module) (k : EntryKind) :
    moveModule m e (give k s) = give k (moveModule m e s) := by
  by_cases h : s.journal.queue.length < 8 <;> simp [give, moveModule, h]

/-- The event of an order that is given to a module. -/
theorem receiveOrder_module {s : State} {cell : CellIndex} {b : Byte} {m : ModuleNo} (t : Time) (w : Sweep) (a : Byte)
    (h : Receives s cell) (hm : b.toNat = m.val) :
    receiveOrder t w (postedPart (.module b a)) s =
      .next (endEvent (awaitTaken cell (.module b a) (takeModule m a (freePort (atTime t s))))) := by
  rw [receiveOrder_eq t w _ h]
  simp only [handOn, asFin_eq_some hm]

/-- Settles O29, by the action and the module it finds. -/
theorem moduleOrder : Obligations.ModuleOrder := by
  intro t s cell b m hr hm s' withModule
  set r := freePort s'
  have hretire {u : State} (h : (retireModule m r).body = u.body) :
      TakenAs cell (.module b 2) .ok .nothing u (endEvent (awaitTaken cell (.module b 2) (takeModule m 2 r))) :=
    takenAs_awaitTaken cell _ (k := accept (retireModule m r)) h
  have hdeadline : r.releaseDeadline = s'.now + 1000 * (5 * s.control.settings.pollPeriod) :=
    congrArg (s'.now + ·) (Nat.mul_comm _ 1000)
  refine ⟨⟨_, receiveOrder_module t [] 1 hr hm, fun h => ?_, fun h => ?_⟩,
    ⟨_, receiveOrder_module t [] 2 hr hm, fun h => hretire ?_, fun o h => hretire ?_, fun o d mark h => hretire ?_,
      fun reason h => hretire ?_⟩,
    fun action w h1 h2 => ⟨_, ?_, takenAs_refuse s cell _ t (takeModule_badField (m := m) _ h1 h2)⟩⟩
  · have hreturn : takeModule m 1 r = accept (moveModule m .free r) := returnModule_out r h
    rw [hreturn]
    exact takenAs_awaitTaken cell _ rfl
  · exact takenAs_refuse s cell _ t (returnModule_notOut r h)
  · have hmoved : moveModule m (.out .retired) r = freePort (withModule (.out .retired)) := rfl
    rw [retireModule_free r h, moveModule_give, hmoved, give_freePort, body_freePort]
  · rw [retireModule_granted r h, hdeadline]; rfl
  · rw [retireModule_releasing r h]; rfl
  · rw [retireModule_out r h]; rfl
  · rw [receiveOrder_encodeOrder]
    exact receiveOrder_module t w action hr hm

end Sys2Proof.Machine
end

