-- ==== Sys2Proof/Proofs/ModuleEvents.lean ====
section
/-! SUPPORT. The Apportioner's own events (O49): the modules that an event takes one after another, each by what it finds of it,
and the masks of a reply, the release deadline and the start guard. -/

namespace Sys2Proof.Machine

variable (s : State)

/-! ### Entries given one after another -/

/-- Entries given to the Journal Writer, in order. -/
def giveAll (l : List EntryKind) (s : State) : State := l.foldl (fun u k => give k u) s

theorem giveAll_append (l l' : List EntryKind) : giveAll (l ++ l') s = giveAll l' (giveAll l s) := List.foldl_append

/-- The Apportioner replaced. -/
def setPower (p : Apportioner) (s : State) : State := { s with power := p }

/-- Entries do not look at the Apportioner. -/
theorem giveAll_setPower (l : List EntryKind) (p : Apportioner) :
    giveAll l (setPower p s) = setPower p (giveAll l s) := by
  induction l generalizing s with
  | nil => rfl
  | cons k l ih => exact ih (give k s)

/-- Entries change the journal alone. -/
theorem giveAll_eq (l : List EntryKind) : giveAll l s = { s with journal := (giveAll l s).journal } := by
  induction l generalizing s with
  | nil => rfl
  | cons k l ih =>
    calc giveAll (k :: l) s = { give k s with journal := (giveAll l (give k s)).journal } := ih (give k s)
      _ = _ := rfl

theorem sessions_giveAll (l : List EntryKind) : (giveAll l s).sessions = s.sessions := by rw [giveAll_eq]

theorem sessions_setPower (p : Apportioner) : (setPower p s).sessions = s.sessions := rfl

/-! ### Modules taken one after another -/

/-- What a doing makes of a module: what it changes to, the entry it gives, and whether it requests a pass. -/
structure Fate where
  module : Module
  entry : Option EntryKind
  request : Bool

/-- A module left as it is. -/
def Fate.stay (e : Module) : Fate := { module := e, entry := none, request := false }

/-- A module meets its fate. -/
def undergo (m : ModuleNo) (f : Fate) (s : State) : State :=
  setPower { s.power with
      modules := Table.set s.power.modules m f.module, passRequest := s.power.passRequest || f.request }
    (giveAll f.entry.toList s)

theorem undergo_stay (m : ModuleNo) : undergo m (.stay (s.module m)) s = s := by
  simp [undergo, Fate.stay, giveAll, setPower, State.module, Table.get, Table.set]

/-- The modules at the places of a list have met their fates, and no other has. -/
structure Undergone {α : Type} (l : List α) (place : α → ModuleNo) (fate : α → Fate) (s u : State) : Prop where
  rest : u =
    setPower { s.power with
        modules := u.power.modules, passRequest := s.power.passRequest || l.any fun a => (fate a).request }
      (giveAll (l.filterMap fun a => (fate a).entry) s)
  own : ∀ a ∈ l, u.module (place a) = (fate a).module
  other : ∀ m, (∀ a ∈ l, place a ≠ m) → u.module m = s.module m

/-- Where each takes one module, by what it finds of it, each finds of its own what stood there at first. -/
theorem undergone_forEach {α : Type} {l : List α} {place : α → ModuleNo} (hl : l.Nodup) (hplace : Function.Injective place)
    {fate : α → Module → Fate} {f : α → State → State}
    (hf : ∀ a ∈ l, ∀ u, f a u = undergo (place a) (fate a (u.module (place a))) u) :
    Undergone l place (fun a => fate a (s.module (place a))) s (forEach l f s) := by
  induction l generalizing s with
  | nil => exact { rest := by simp [giveAll, forEach, setPower], own := by simp, other := fun _ _ => rfl }
  | cons a l ih =>
    obtain ⟨ha, hl⟩ := List.nodup_cons.1 hl
    set u := undergo (place a) (fate a (s.module (place a))) s with hu
    have hcons : forEach (a :: l) f s = forEach l f u := congrArg (forEach l f) (hf a List.mem_cons_self s)
    have hmodule (m : ModuleNo) : u.module m = if place a = m then (fate a (s.module (place a))).module else s.module m :=
      Table.get_set _ _ _ _
    have hapart : ∀ b ∈ l, place b ≠ place a := fun b hb e => ha (hplace e ▸ hb)
    have hkeep : ∀ b ∈ l, u.module (place b) = s.module (place b) := fun b hb => by
      rw [hmodule, if_neg (hapart b hb).symm]
    obtain ⟨hrest, hown, hother⟩ := ih u hl fun b hb => hf b (List.mem_cons_of_mem a hb)
    rw [hcons]
    refine { rest := ?_, own := fun b hb => ?_, other := fun m hm => ?_ }
    · have hentries : l.filterMap (fun b => (fate b (u.module (place b))).entry) =
          l.filterMap fun b => (fate b (s.module (place b))).entry :=
        List.filterMap_congr fun b hb => by rw [hkeep b hb]
      have hrequests : (l.any fun b => (fate b (u.module (place b))).request) =
          l.any fun b => (fate b (s.module (place b))).request := by
        rw [Bool.eq_iff_iff, List.any_eq_true, List.any_eq_true]
        exact exists_congr fun b => and_congr_right fun hb => by rw [hkeep b hb]
      have hfirst : (fate a (s.module (place a))).entry.toList ++
          l.filterMap (fun b => (fate b (s.module (place b))).entry) =
          (a :: l).filterMap fun b => (fate b (s.module (place b))).entry := by
        rw [List.filterMap_cons]
        cases (fate a (s.module (place a))).entry <;> rfl
      generalize forEach l f u = w at hrest ⊢
      rw [hentries, hrequests, hu, undergo, giveAll_setPower, ← giveAll_append, hfirst] at hrest
      rw [List.any_cons, ← Bool.or_assoc]
      exact hrest
    · rcases List.mem_cons.1 hb with rfl | hb
      · rw [hother _ hapart, hmodule, if_pos rfl]
      · rw [hown b hb, hkeep b hb]
    · rw [hother m fun b hb => hm b (List.mem_cons_of_mem a hb), hmodule, if_neg (hm a List.mem_cons_self)]

/-! ### The masks of a reply (R63, R64, R66, R69) -/

theorem moduleAt_injective (o : Outlet) : Function.Injective (moduleAt o) := fun p q h => by
  simpa [moduleAt, Fin.ext_iff] using h

/-- The modules of a cabinet are those at the positions of its outlets. -/
theorem cabinetOfModule_eq_iff {m : ModuleNo} {o : Outlet} : cabinetOfModule m = cabinetOf o ↔ ∃ p, moduleAt o p = m := by
  simp only [cabinetOfModule, cabinetOf, moduleAt, Fin.ext_iff]
  refine ⟨fun h => ⟨⟨m.val % 10, by omega⟩, ?_⟩, fun ⟨p, hp⟩ => ?_⟩
  · show o.val / 8 * 10 + m.val % 10 = m.val
    omega
  · omega

theorem maskHas_eq (m : ModuleMask) (p : Fin 10) : maskHas m p = m.getLsbD p.val := by
  have hp : bitAt p = BitVec.twoPow 10 p.val := BitVec.eq_of_toNat_eq (by simp [bitAt, BitVec.toNat_twoPow])
  rw [maskHas, hp, BitVec.and_twoPow]
  cases m.getLsbD p.val
  · rfl
  · have : BitVec.twoPow 10 p.val ≠ 0 := fun h => by
      have := congrArg (·.getLsbD p.val) h
      simp at this
    simpa using this

/-- A fault bit (R66). -/
def faultFate (m : ModuleNo) (e : Module) : Fate :=
  { module := .out .fault, entry := if e.isOut then none else some (.moduleOut m .fault e.outlet?), request := !e.isOut }

/-- A clear bit of the applied mask, where the bit sent is clear too (R63, R69). -/
def releaseFate (o : Outlet) (m : ModuleNo) (freed : Bool) (e : Module) : Fate :=
  match e with
  | .releasing o' _ retire =>
    if o' = o && freed then
      if retire then { module := .out .retired, entry := some (.moduleOut m .retired (some o)), request := true }
      else { module := .free, entry := none, request := true }
    else .stay e
  | _ => .stay e

theorem faultModule_eq (m : ModuleNo) : faultModule m s = undergo m (faultFate m (s.module m)) s := by
  unfold faultModule
  split
  · next r h => simp [undergo, faultFate, Module.isOut, h, giveAll, setPower, setModule]
  · next h =>
    have hout : (s.module m).isOut = false := by
      cases hm : s.module m with
      | out r => exact absurd hm (h r)
      | _ => rfl
    simp [undergo, faultFate, hout, giveAll, setPower, moduleOut, requestPass, setModule]

theorem releaseModule_eq (o : Outlet) (applied sent : ModuleMask) (p : Fin 10) :
    releaseModule o applied sent p s =
      undergo (moduleAt o p)
        (releaseFate o (moduleAt o p) (!maskHas applied p && !maskHas sent p) (s.module (moduleAt o p))) s := by
  unfold releaseModule
  split
  · next o' d retire h =>
    rw [h, releaseFate, Bool.and_assoc]
    split
    · next hfreed =>
      obtain ⟨rfl, -⟩ : o' = o ∧ _ := by simpa using hfreed
      split
      · simp [undergo, giveAll, setPower, moduleOut, requestPass, setModule, h, Module.outlet?]
      · simp [undergo, giveAll, setPower, requestPass, setModule]
    · rw [← h, undergo_stay]
  · next h =>
    have hstay : releaseFate o (moduleAt o p) (!maskHas applied p && !maskHas sent p) (s.module (moduleAt o p)) =
        .stay (s.module (moduleAt o p)) := by
      unfold releaseFate
      split
      · next o' d r hr => exact absurd hr (h o' d r)
      · rfl
    rw [hstay, undergo_stay]

theorem request_releaseFate {o : Outlet} {m : ModuleNo} {b : Bool} {e : Module} :
    (releaseFate o m b e).request = true ↔ e.isOut = false ∧ (releaseFate o m b e).module ≠ e := by
  cases e with
  | releasing o' d retire =>
    unfold releaseFate
    dsimp only
    split
    · split <;> simp [Module.isOut]
    · simp [Fate.stay]
  | _ => simp [releaseFate, Fate.stay]

theorem request_faultFate {m : ModuleNo} {e : Module} :
    (faultFate m e).request = true ↔ e.isOut = false ∧ (faultFate m e).module ≠ e := by
  cases e <;> simp [faultFate, Module.isOut]

section
variable (o : Outlet) (n : OutletNews) (sent : ModuleMask)

/-- The positions a clear applied bit and a clear bit sent give up (R63). -/
def freed (p : Fin 10) : Bool := !n.applied.getLsbD p.val && !sent.getLsbD p.val

/-- What the masks of a reply make of the module at a position. -/
def maskFate (p : Fin 10) (e : Module) : Fate :=
  if n.faults.getLsbD p.val then faultFate (moduleAt o p) e else releaseFate o (moduleAt o p) (freed n sent p) e

/-- The entries of the fault mask (R66). -/
def faultEntries : List EntryKind :=
  Config.positions.filterMap fun p =>
    if n.faults.getLsbD p.val then (faultFate (moduleAt o p) (s.module (moduleAt o p))).entry else none

/-- The entries of the applied mask (R69). -/
def releaseEntries : List EntryKind :=
  Config.positions.filterMap fun p =>
    if n.faults.getLsbD p.val then none
    else (releaseFate o (moduleAt o p) (freed n sent p) (s.module (moduleAt o p))).entry

theorem request_maskFate (p : Fin 10) (e : Module) :
    (maskFate o n sent p e).request = true ↔ e.isOut = false ∧ (maskFate o n sent p e).module ≠ e := by
  unfold maskFate
  split
  · exact request_faultFate
  · exact request_releaseFate

theorem any_or_any {α : Type} (l : List α) (p q : α → Bool) : (l.any p || l.any q) = l.any fun a => p a || q a := by
  rw [Bool.eq_iff_iff]
  simp only [Bool.or_eq_true, List.any_eq_true, and_or_left, exists_or]

/-- What the masks of a reply leave (R63, R64, R66, R69). -/
structure MasksTaken (s u : State) : Prop where
  rest : u =
    setPower { s.power with
        modules := u.power.modules,
        passRequest := s.power.passRequest ||
          Config.positions.any fun p => (maskFate o n sent p (s.module (moduleAt o p))).request }
      (giveAll (faultEntries s o n ++ releaseEntries s o n sent) s)
  own : ∀ p, u.module (moduleAt o p) = (maskFate o n sent p (s.module (moduleAt o p))).module
  other : ∀ m, cabinetOfModule m ≠ cabinetOf o → u.module m = s.module m

theorem maskPositions_eq (m : ModuleMask) : maskPositions m = Config.positions.filter fun p => m.getLsbD p.val :=
  List.filter_congr fun p _ => maskHas_eq m p

theorem mem_maskPositions {m : ModuleMask} {p : Fin 10} : p ∈ maskPositions m ↔ m.getLsbD p.val = true := by
  rw [maskPositions_eq]; simp [Config.positions]

/-- The fault mask has acted (R66). -/
def faulted : State := forEach (maskPositions n.faults) (fun p => faultModule (moduleAt o p)) s

theorem undergone_faulted :
    Undergone (maskPositions n.faults) (moduleAt o) (fun p => faultFate (moduleAt o p) (s.module (moduleAt o p))) s
      (faulted s o n) :=
  undergone_forEach s (fate := fun p => faultFate (moduleAt o p)) ((List.nodup_finRange 10).filter _)
    (moduleAt_injective o) fun _ _ u => faultModule_eq u _

theorem undergone_takeMasks :
    Undergone Config.positions (moduleAt o)
      (fun p => releaseFate o (moduleAt o p) (freed n sent p) ((faulted s o n).module (moduleAt o p))) (faulted s o n)
      (takeMasks o n sent s) :=
  undergone_forEach (faulted s o n) (fate := fun p => releaseFate o (moduleAt o p) (freed n sent p))
    (List.nodup_finRange 10) (moduleAt_injective o) fun p _ u => by rw [releaseModule_eq, maskHas_eq, maskHas_eq]; rfl

/-- A module that a fault bit has named stays OUT; the applied mask finds each other one as it was. -/
theorem releaseFate_faulted (p : Fin 10) :
    releaseFate o (moduleAt o p) (freed n sent p) ((faulted s o n).module (moduleAt o p)) =
      if n.faults.getLsbD p.val then .stay (.out .fault)
      else releaseFate o (moduleAt o p) (freed n sent p) (s.module (moduleAt o p)) := by
  have h := undergone_faulted s o n
  split
  · next hp => rw [h.own p (mem_maskPositions.2 hp)]; rfl
  · next hp => rw [h.other _ fun q hq e => hp (mem_maskPositions.1 ((moduleAt_injective o e : q = p) ▸ hq))]

/-- The fault mask requests a pass, or the applied mask does. -/
theorem request_masks :
    (((maskPositions n.faults).any fun p => (faultFate (moduleAt o p) (s.module (moduleAt o p))).request) ||
      Config.positions.any fun p =>
        (releaseFate o (moduleAt o p) (freed n sent p) ((faulted s o n).module (moduleAt o p))).request) =
      Config.positions.any fun p => (maskFate o n sent p (s.module (moduleAt o p))).request := by
  rw [maskPositions_eq, List.any_filter, any_or_any]
  refine congrArg (List.any Config.positions) (funext fun p => ?_)
  rw [releaseFate_faulted, maskFate]
  cases n.faults.getLsbD p.val <;> simp [Fate.stay]

theorem masksTaken_takeMasks : MasksTaken o n sent s (takeMasks o n sent s) := by
  have hfaults := undergone_faulted s o n
  have hreleases := undergone_takeMasks s o n sent
  generalize takeMasks o n sent s = u at hreleases ⊢
  have hfaultEntries : (maskPositions n.faults).filterMap
      (fun p => (faultFate (moduleAt o p) (s.module (moduleAt o p))).entry) = faultEntries s o n := by
    rw [maskPositions_eq, List.filterMap_filter]; rfl
  have hreleaseEntries : Config.positions.filterMap (fun p =>
      (releaseFate o (moduleAt o p) (freed n sent p) ((faulted s o n).module (moduleAt o p))).entry) =
      releaseEntries s o n sent :=
    List.filterMap_congr fun p _ => by rw [releaseFate_faulted, apply_ite Fate.entry]; rfl
  have hrequest : (faulted s o n).power.passRequest = (s.power.passRequest ||
      (maskPositions n.faults).any fun p => (faultFate (moduleAt o p) (s.module (moduleAt o p))).request) :=
    congrArg (·.power.passRequest) hfaults.rest
  refine { rest := ?_, own := fun p => ?_, other := fun m hm => ?_ }
  · have hrest := hreleases.rest
    rw [hreleaseEntries, hrequest, Bool.or_assoc, request_masks, hfaults.rest, hfaultEntries, giveAll_setPower,
      ← giveAll_append] at hrest
    exact hrest
  · rw [hreleases.own p (List.mem_finRange p), releaseFate_faulted, maskFate]
    split <;> rfl
  · have hplace (p : Fin 10) : moduleAt o p ≠ m := fun h => hm (cabinetOfModule_eq_iff.2 ⟨p, h⟩)
    rw [hreleases.other m fun p _ => hplace p, hfaults.other m fun p _ => hplace p]

variable {s o n sent}

theorem module_maskFate_faulty {p : Fin 10} (e : Module) (h : n.faults.getLsbD p.val = true) :
    (maskFate o n sent p e).module = .out .fault := by
  rw [maskFate, if_pos h]; rfl

theorem module_maskFate_releasing {p : Fin 10} (d : Time) (retire : Bool) (h : n.faults.getLsbD p.val = false) :
    (maskFate o n sent p (.releasing o d retire)).module =
      if freed n sent p then (if retire then .out .retired else .free) else .releasing o d retire := by
  rw [maskFate, h]
  cases hfreed : freed n sent p <;> cases retire <;> simp [releaseFate, Fate.stay]

theorem module_maskFate_other {p : Fin 10} {e : Module} (h : n.faults.getLsbD p.val = false)
    (he : ∀ d retire, e ≠ .releasing o d retire) : (maskFate o n sent p e).module = e := by
  rw [maskFate, h]
  cases e with
  | releasing o' d retire =>
    have hne : o' ≠ o := fun ho => he d retire (ho ▸ rfl)
    simp [releaseFate, Fate.stay, hne]
  | _ => rfl

/-- A pass is requested for the modules that change from another state than OUT (R55). -/
theorem MasksTaken.passRequest_iff {u : State} (h : MasksTaken o n sent s u) :
    u.power.passRequest = true ↔
      s.power.passRequest = true ∨ ∃ m, (s.module m).isOut = false ∧ u.module m ≠ s.module m := by
  have hrequest : u.power.passRequest = (s.power.passRequest ||
      Config.positions.any fun p => (maskFate o n sent p (s.module (moduleAt o p))).request) :=
    congrArg (·.power.passRequest) h.rest
  rw [hrequest, Bool.or_eq_true, List.any_eq_true]
  refine or_congr_right ⟨fun ⟨p, _, hp⟩ => ⟨moduleAt o p, ?_⟩, fun ⟨m, hout, hm⟩ => ?_⟩
  · rw [h.own]; exact (request_maskFate ..).1 hp
  · obtain ⟨p, rfl⟩ := cabinetOfModule_eq_iff.1 (by_contra fun hc => hm (h.other m hc))
    exact ⟨p, List.mem_finRange p, (request_maskFate ..).2 ⟨hout, h.own p ▸ hm⟩⟩

/-- Entries and a new Apportioner: nothing else of the state is changed. -/
theorem eq_of_setPower {u : State} {l : List EntryKind} {b : Bool}
    (h : u = setPower { s.power with modules := u.power.modules, passRequest := b } (giveAll l s)) :
    u = { s with
      power := { s.power with modules := u.power.modules, passRequest := u.power.passRequest },
      journal := u.journal } := by
  have hrequest : u.power.passRequest = b := congrArg (·.power.passRequest) h
  have hjournal : u.journal = (giveAll l s).journal := congrArg (·.journal) h
  rw [hrequest, hjournal]
  refine h.trans ?_
  rw [giveAll_eq]
  rfl

theorem faultEntries_eq :
    faultEntries s o n = Config.positions.filterMap fun p =>
      if n.faults.getLsbD p.val && !(s.module (moduleAt o p)).isOut then
        some (EntryKind.moduleOut (moduleAt o p) .fault (s.module (moduleAt o p)).outlet?) else none :=
  List.filterMap_congr fun p _ => by
    cases n.faults.getLsbD p.val <;> cases h : (s.module (moduleAt o p)).isOut <;> simp [faultFate, h]

theorem releaseEntries_eq {f : Fin 10 → Option EntryKind}
    (hreleasing : ∀ p o' d, s.module (moduleAt o p) = .releasing o' d true →
      f p = if o' = o && !n.faults.getLsbD p.val && freed n sent p then
        some (.moduleOut (moduleAt o p) .retired (some o)) else none)
    (hother : ∀ p, (∀ o' d, s.module (moduleAt o p) ≠ .releasing o' d true) → f p = none) :
    releaseEntries s o n sent = Config.positions.filterMap f := by
  refine List.filterMap_congr fun p _ => ?_
  by_cases h : ∃ o' d, s.module (moduleAt o p) = .releasing o' d true
  · obtain ⟨o', d, hm⟩ := h
    rw [hreleasing p o' d hm, hm]
    cases n.faults.getLsbD p.val <;> by_cases ho : o' = o <;> cases hf : freed n sent p <;>
      simp [releaseFate, Fate.stay, ho]
  · rw [hother p fun o' d hm => h ⟨o', d, hm⟩]
    split
    · rfl
    · cases hm : s.module (moduleAt o p) with
      | releasing o' d retire =>
        have hretire : retire = false := by
          cases retire
          · rfl
          · exact absurd ⟨o', d, hm⟩ h
        subst hretire
        unfold releaseFate
        dsimp only
        split <;> rfl
      | _ => rfl

end

/-! ### The release deadline (R65, R41) -/

/-- The check for SETTLING of a list of outlets is made of each as it is alone, and nothing else changes. -/
theorem forEach_checkSettle {l : List Outlet} (hl : l.Nodup) :
    forEach l checkSettle s =
      { s with sessions := { s.sessions with
          contexts := Vector.ofFn fun o : Outlet =>
            if o ∈ l then (s.context o).map fun c => c.judged (s.heldCount o) (s.report o).lineStale
            else s.context o } } := by
  induction l generalizing s with
  | nil =>
    have : (Vector.ofFn fun o : Outlet => s.context o) = s.sessions.contexts := by
      ext1 i hi; simp [State.context, Table.get]
    simp [forEach, this]
  | cons o l ih =>
    obtain ⟨ho, hl⟩ := List.nodup_cons.1 hl
    have hcons : forEach (o :: l) checkSettle s = forEach l checkSettle (checkSettle o s) := rfl
    rw [hcons, ih _ hl, checkSettle_eq]
    refine congrArg (fun x => { s with sessions := { s.sessions with contexts := x } }) ?_
    ext1 i hi
    simp only [Vector.getElem_ofFn, List.mem_cons]
    by_cases h : (⟨i, hi⟩ : Outlet) = o
    · subst h
      rw [if_neg ho, if_pos (.inl rfl), context_mapContext_self]
    · have hother : (mapContext o (fun c => c.judged (s.heldCount o) (s.report o).lineStale) s).context ⟨i, hi⟩ =
          s.context ⟨i, hi⟩ := Table.get_set_ne _ _ _ _ (Ne.symm h)
      simp only [hother, h, false_or]
      rfl

/-- The earliest deadline of the table (R65; log 22). -/
theorem nextDeadline_eq {d : Time} (h : ∃ m, (s.module m).deadline? = some d)
    (hmin : ∀ m d', (s.module m).deadline? = some d' → d ≤ d') : s.nextDeadline = some d := by
  obtain ⟨m, hm⟩ := h
  rw [State.nextDeadline, List.min?_eq_some_iff]
  refine ⟨List.mem_filterMap.2 ⟨m, List.mem_finRange m, hm⟩, fun d' hd' => ?_⟩
  obtain ⟨m', -, hm'⟩ := List.mem_filterMap.1 hd'
  exact hmin m' d' hm'

theorem mem_dueModules {d : Time} {m : ModuleNo} : m ∈ s.dueModules d ↔ (s.module m).deadline? = some d := by
  simp [State.dueModules, Config.modules]

theorem moduleOut_eq (m : ModuleNo) (r : OutReason) :
    moduleOut m r s =
      undergo m { module := .out r, entry := some (.moduleOut m r (s.module m).outlet?), request := true } s := by
  simp [undergo, giveAll, setPower, moduleOut, requestPass, setModule]

/-- The entries of the modules whose deadline is this (R65). -/
def expiryEntries (d : Time) : List EntryKind :=
  (s.dueModules d).filterMap fun m => some (.moduleOut m .noAck (s.module m).outlet?)

theorem expiryEntries_eq {d : Time} {f : ModuleNo → Option EntryKind}
    (hreleasing : ∀ m o d' r, s.module m = .releasing o d' r →
      f m = if d' = d then some (.moduleOut m .noAck (some o)) else none)
    (hother : ∀ m, (∀ o d' r, s.module m ≠ .releasing o d' r) → f m = none) :
    expiryEntries s d = Config.modules.filterMap f := by
  rw [expiryEntries, State.dueModules, List.filterMap_filter]
  refine List.filterMap_congr fun m _ => ?_
  cases h : s.module m with
  | releasing o d' r => rw [hreleasing m o d' r h]; simp [Module.deadline?, Module.outlet?]
  | _ => rw [hother m (by simp [h])]; simp [Module.deadline?]

/-- The modules whose deadline is the earliest are OUT, with their entries, and a pass is requested (R65). -/
def expired (d : Time) : State :=
  setPower { s.power with
      passRequest := true,
      modules := Vector.ofFn fun m : ModuleNo => if (s.module m).deadline? = some d then .out .noAck else s.module m }
    (giveAll (expiryEntries s d) (atTime d s))

theorem forEach_moduleOut {d : Time} (h : ∃ m, (s.module m).deadline? = some d) :
    forEach (s.dueModules d) (moduleOut · .noAck) (atTime d s) = expired s d := by
  obtain ⟨m, hm⟩ := h
  obtain ⟨hrest, hown, hother⟩ := undergone_forEach (atTime d s) (l := s.dueModules d) (place := id)
    ((List.nodup_finRange 40).filter _) Function.injective_id
    (fate := fun m e => { module := .out .noAck, entry := some (.moduleOut m .noAck e.outlet?), request := true })
    (f := (moduleOut · .noAck)) fun m _ u => moduleOut_eq u m .noAck
  generalize forEach (s.dueModules d) (moduleOut · .noAck) (atTime d s) = v at hrest hown hother ⊢
  have hmodules : v.power.modules = Vector.ofFn fun m : ModuleNo =>
      if (s.module m).deadline? = some d then .out .noAck else s.module m := by
    ext1 i hi
    rw [Vector.getElem_ofFn]
    split
    · next hdue => exact hown ⟨i, hi⟩ ((mem_dueModules s).2 hdue)
    · next hdue => exact hother ⟨i, hi⟩ fun m hm e => hdue (e ▸ (mem_dueModules s).1 hm)
  have hrequest : (s.power.passRequest || (s.dueModules d).any fun _ => true) = true := by
    rw [Bool.or_eq_true, List.any_eq_true]
    exact .inr ⟨m, (mem_dueModules s).2 hm, rfl⟩
  rw [hmodules] at hrest
  exact hrest.trans (congrArg (fun b => setPower { s.power with
      passRequest := b,
      modules := Vector.ofFn fun m : ModuleNo => if (s.module m).deadline? = some d then .out .noAck else s.module m }
    (giveAll (expiryEntries s d) (atTime d s))) hrequest)

theorem expireModules_eq {d : Time} (h : ∃ m, (s.module m).deadline? = some d) :
    expireModules (s.dueModules d) (atTime d s) =
      { expired s d with
        sessions := { s.sessions with
          contexts := Vector.ofFn fun o : Outlet =>
            (s.context o).map fun c => c.judged ((expired s d).heldCount o) (s.report o).lineStale } } := by
  have hsessions : (expired s d).sessions = s.sessions := by
    rw [expired, sessions_setPower, sessions_giveAll]; rfl
  have hcontext (o : Outlet) : (expired s d).context o = s.context o := congrArg (fun x : SessionUnit => Table.get x.contexts o) hsessions
  have hreport (o : Outlet) : (expired s d).report o = s.report o := congrArg (fun x : SessionUnit => Table.get x.reports o) hsessions
  rw [expireModules, forEach_moduleOut s h, forEach_checkSettle _ (l := Config.outlets) (List.nodup_finRange 32)]
  simp only [hsessions, hcontext, hreport, Config.outlets, List.mem_finRange, if_true]

/-- A pass is made where one is requested (R55). -/
theorem execPass_ends (t : Time) :
    ∃ u, exec (.pass t) s = .next u ∧ Ends (if s.power.passRequest then pass (atTime t s) else atTime t s) u :=
  ⟨_, rfl, ends_endEvent _⟩

/-- The modules with the earliest deadline go OUT, and the sessions that waited on them are judged (R65, R41). -/
theorem execReleaseDeadline_ends {d : Time} (hd : ∃ m, (s.module m).deadline? = some d)
    (hmin : ∀ m d', (s.module m).deadline? = some d' → d ≤ d') :
    ∃ u, exec .releaseDeadline s = .next u ∧
      Ends { expired s d with
        sessions := { s.sessions with
          contexts := Vector.ofFn fun o : Outlet =>
            (s.context o).map fun c => c.judged ((expired s d).heldCount o) (s.report o).lineStale } } u := by
  refine ⟨endEvent (expireModules (s.dueModules d) (atTime d s)), ?_, ?_⟩
  · simp only [exec, execReleaseDeadline, nextDeadline_eq s hd hmin, finish]
  · rw [← expireModules_eq s hd]; exact ends_endEvent _

/-- The start guard ends (R62). -/
theorem execStartGuardExpiry_ends {g : Time} (h : s.power.startGuard = some g) :
    ∃ u, exec .startGuardExpiry s = .next u ∧
      Ends { atTime g s with power := { s.power with startGuard := none, passRequest := true } } u := by
  refine ⟨endEvent (requestPass { atTime g s with power := { s.power with startGuard := none } }), ?_, ends_endEvent _⟩
  simp only [exec, execStartGuardExpiry, h, finish]
  rfl

/-- Settles O49: the masks of a reply, a pass, the release deadline and the end of the start guard. -/
theorem apportionerEvents : Obligations.ApportionerEvents := by
  refine ⟨fun o n sent s => ?_, fun t s => ?_, fun s d hd hmin => ?_, fun s g hg => execStartGuardExpiry_ends s hg⟩
  · intro u faulty freed
    have h : MasksTaken o n sent s u := masksTaken_takeMasks s o n sent
    clear_value u
    refine ⟨eq_of_setPower h.rest, h.other, fun p hp => ?_, fun p d retire hp hm => ?_, fun p hp hm => ?_,
      h.passRequest_iff, (congrArg (·.journal) h.rest).trans ?_⟩
    · rw [h.own]; exact module_maskFate_faulty _ hp
    · rw [h.own, hm]; exact module_maskFate_releasing d retire hp
    · rw [h.own]; exact module_maskFate_other hp hm
    · refine congrArg (fun l => (giveAll l s).journal)
        (congrArg₂ (· ++ ·) faultEntries_eq (releaseEntries_eq (fun p o' d hm => ?_) fun p hm => ?_))
      · dsimp only; rw [hm]; rfl
      · dsimp only
        split
        · next o' d h => exact absurd h (hm o' d)
        · rfl
  · obtain ⟨u, hexec, hends⟩ := execPass_ends s t
    exact ⟨u, hexec, fun h => by rwa [h] at hends, fun h => by rwa [h] at hends⟩
  · obtain ⟨u, hexec, hends⟩ := execReleaseDeadline_ends s hd hmin
    refine ⟨u, hexec, ?_⟩
    intro entries told after
    have hentries : expiryEntries s d = entries :=
      expiryEntries_eq s (fun m o d' r hm => by rw [hm]) fun m hm => by
        split
        · next o d' r h => exact absurd h (hm o d' r)
        · rfl
    have hafter : expired s d = after := by rw [expired, hentries]; rfl
    rwa [hafter] at hends

end Sys2Proof.Machine
end

