-- ==== Sys2Proof/Proofs/LineRules.lean ====
section
/-! SUPPORT. The rules of one line's state: every doing of a Line Engine is one line replaced (`setLine`), and what is
done of its poll last in an event is `Line.seenTo` (R80 to R83). -/

namespace Sys2Proof.Machine

/-- An event that finishes in `r` ends as `r` ends. -/
theorem ends_of_exec {i : Instr} {s r u : State} (h : exec i s = finish r) (hu : exec i s = .next u) : Ends r u := by
  rw [h] at hu
  cases hu
  exact ends_endEvent r

variable (s : State) (k : LineNo) (l : Line)

/-! ### A line replaced -/

@[simp] theorem line_setLine : (setLine k l s).line k = l := Table.get_set_self ..

theorem setLine_line : setLine k (s.line k) s = s := by simp [setLine, State.line, Table.get, Table.set]

@[simp] theorem setLine_setLine (l' : Line) : setLine k l' (setLine k l s) = setLine k l' s := by
  simp [setLine, Table.set]

theorem mapLine_eq (f : Line → Line) : mapLine k f s = setLine k (f (s.line k)) s := rfl

@[simp] theorem mapLine_setLine (f : Line → Line) : mapLine k f (setLine k l s) = setLine k (f l) s := by
  rw [mapLine_eq, line_setLine, setLine_setLine]

/-! ### What is done of a poll that is due -/

@[simp] theorem seenTo_setLine (l' : Line) : l.seenTo k (setLine k l' s) = l.seenTo k s := rfl

theorem seenTo_of_not_waiting (h : l.state ≠ .waiting) : l.seenTo k s = l := if_neg fun hdue => h hdue.1

theorem seenTo_of_receiving (h : l.receiving ≠ none) : l.seenTo k s = l := if_neg fun hdue => h hdue.2.1

theorem seenTo_of_not_due (h : ¬(l.bandEdge = true ∨ ∃ d ∈ l.due, d ≤ s.now)) : l.seenTo k s = l :=
  if_neg fun hdue => h hdue.2.2

/-- A poll that is due is withheld by a full reply slot (R82). -/
theorem seenTo_of_full (hwaiting : l.state = .waiting) (hidle : l.receiving = none)
    (hdue : l.bandEdge = true ∨ ∃ d ∈ l.due, d ≤ s.now) (hslot : l.replySlot ≠ none) :
    l.seenTo k s = { l with state := .withheld } := by
  rw [Line.seenTo, if_pos ⟨hwaiting, hidle, hdue⟩, if_neg hslot]

/-- With an empty one it is sent (R81). -/
theorem seenTo_of_empty (hwaiting : l.state = .waiting) (hidle : l.receiving = none)
    (hdue : l.bandEdge = true ∨ ∃ d ∈ l.due, d ≤ s.now) (hslot : l.replySlot = none) :
    l.seenTo k s =
      { l with
        state := .sending false, bandEdge := false, seq := l.seq + 1,
        due := some (s.now + 1000 * s.control.settings.pollPeriod),
        outstanding := some
          { seq := l.seq, mask0 := s.mask (outletA k), mask1 := s.mask (outletB k), band := s.sessions.band,
            sendTime := s.now } } := by
  rw [Line.seenTo, if_pos ⟨hwaiting, hidle, hdue⟩, if_pos hslot]

/-- What neither the sending nor the withholding of a poll touches. -/
theorem seenTo_keeps {β : Type} (f : Line → β)
    (hsent : ∀ seq due poll,
      f { l with state := .sending false, bandEdge := false, seq := seq, due := due, outstanding := poll } = f l)
    (hwithheld : f { l with state := .withheld } = f l) : f (l.seenTo k s) = f l := by
  unfold Line.seenTo
  repeat' split
  · exact hsent ..
  · exact hwithheld
  · rfl

@[simp] theorem missed_seenTo : (l.seenTo k s).missed = l.missed := seenTo_keeps s k l _ (fun _ _ _ => rfl) rfl
@[simp] theorem stale_seenTo : (l.seenTo k s).stale = l.stale := seenTo_keeps s k l _ (fun _ _ _ => rfl) rfl
@[simp] theorem counters_seenTo : (l.seenTo k s).counters = l.counters := seenTo_keeps s k l _ (fun _ _ _ => rfl) rfl
@[simp] theorem replySlot_seenTo : (l.seenTo k s).replySlot = l.replySlot :=
  seenTo_keeps s k l _ (fun _ _ _ => rfl) rfl

/-! ### The doings of a Line Engine on a line replaced -/

@[simp] theorem pollIfDue_setLine : pollIfDue k (setLine k l s) = setLine k (l.seenTo k s) s := by
  rw [pollIfDue_eq, line_setLine, seenTo_setLine, setLine_setLine]

@[simp] theorem enterWaiting_setLine :
    enterWaiting k (setLine k l s) = setLine k ({ l with state := .waiting, outstanding := none }.seenTo k s) s := by
  rw [enterWaiting, mapLine_setLine, pollIfDue_setLine]

@[simp] theorem countFault_setLine (f : LineCounters → LineCounters) :
    countFault k f (setLine k l s) = setLine k { l with counters := f l.counters } s := mapLine_setLine ..

/-- A line that is receiving no frame. -/
def Line.unframed (l : Line) : Line := { l with receiving := none }

theorem endFrame_eq : endFrame k s = setLine k (s.line k).unframed s := rfl

/-- An entry given does not look at the lines. -/
theorem give_setLine (e : EntryKind) : give e (setLine k l s) = setLine k l (give e s) := rfl

/-- A frame fault outside an exchange raises its counter alone (R89). -/
theorem frameFault_setLine_of_not_awaiting (f : LineCounters → LineCounters) (h : l.isAwaiting = false) :
    frameFault k f (setLine k l s) = setLine k ({ l with counters := f l.counters }.seenTo k s) s := by
  simp [frameFault, h]

/-- In an exchange it fails it (R88). -/
theorem frameFault_setLine_of_awaiting (f : LineCounters → LineCounters) (h : l.isAwaiting = true) :
    frameFault k f (setLine k l s) = failExchange k (setLine k { l with counters := f l.counters } s) := by
  simp [frameFault, h]

/-! ### Which bytes and frames a line takes (R77) -/

theorem receives_iff : l.receives = true ↔ l.state = .waiting ∨ l.state = .withheld ∨ ∃ e, l.state = .awaiting e := by
  unfold Line.receives; split <;> simp_all

theorem not_receives (h : l.state = .silent ∨ ∃ r, l.state = .sending r) : l.receives = false := by
  rcases h with h | ⟨r, h⟩ <;> simp [Line.receives, h]

theorem isAwaiting_of_state {e : Time} (h : l.state = .awaiting e) : l.isAwaiting = true := by
  simp [Line.isAwaiting, h]

theorem isAwaiting_eq_false (h : ∀ e, l.state ≠ .awaiting e) : l.isAwaiting = false := by
  unfold Line.isAwaiting; split
  · exact absurd ‹_› (h _)
  · rfl

theorem takesFrame_iff (kind : FrameKind) :
    l.takesFrame kind = true ↔ l.receives = true ∧ (l.receiving = none ∨ l.receiving = some kind) := by
  unfold Line.takesFrame
  cases l.receiving <;> simp

variable {s k} (t : Time)

/-- The end of a reply that the line takes. -/
theorem exec_replyFrame {f : Vector Byte 29} (h0 : f[0] = 0xA3#8) (hrec : (s.line k).receives = true)
    (hkind : (s.line k).receiving = none ∨ (s.line k).receiving = some .reply) :
    exec (.replyFrame t k f) s =
      let v := setLine k (s.line k).unframed (atTime t s)
      finish (if frameGood f.toList then goodReply k f v else frameFault k LineCounters.addCrc v) := by
  have htakes : ((atTime t s).line k).takesFrame .reply = true := (takesFrame_iff _ _).2 ⟨hrec, hkind⟩
  show execReplyFrame t k f s = _
  simp only [execReplyFrame, htakes, h0, endFrame_eq]
  rfl

/-- The end of an alert that the line takes. -/
theorem exec_alertFrame {f : Vector Byte 6} (h0 : f[0] = 0xE6#8) (hrec : (s.line k).receives = true)
    (hkind : (s.line k).receiving = none ∨ (s.line k).receiving = some .alert) :
    exec (.alertFrame t k f) s =
      let v := setLine k (s.line k).unframed (atTime t s)
      finish (if frameGood f.toList then goodAlert k f v else frameFault k LineCounters.addCrc v) := by
  have htakes : ((atTime t s).line k).takesFrame .alert = true := (takesFrame_iff _ _).2 ⟨hrec, hkind⟩
  show execAlertFrame t k f s = _
  simp only [execAlertFrame, htakes, h0, endFrame_eq]
  rfl

/-- A frame that breaks off on a line that receives. -/
theorem exec_frameBroken (hrec : (s.line k).receives = true) (hframe : (s.line k).receiving ≠ none) :
    exec (.frameBroken t k) s =
      finish (frameFault k LineCounters.addBreak (setLine k (s.line k).unframed (atTime t s))) := by
  have htakes : (((atTime t s).line k).receives && ((atTime t s).line k).receiving.isSome) = true := by
    rw [Bool.and_eq_true]; exact ⟨hrec, Option.isSome_iff_ne_none.2 hframe⟩
  show execFrameBroken t k s = _
  simp only [execFrameBroken, htakes, if_true, endFrame_eq]
  rfl

end Sys2Proof.Machine
end

