-- ==== Sys2Proof/Proofs/LineOrders.lean ====
section
/-! SUPPORT. LINE (O33): its range, and what it makes of the line by its state (R96). -/

namespace Sys2Proof.Machine

variable {s : State} {cell : CellIndex} {b : Byte}

/-- A LINE order changes one line. -/
theorem handOn_line (w : Sweep) {k : LineNo} (h : b.toNat = k.val) :
    handOn cell w (.line b) s = accept (reline k s) := by
  simp only [handOn, asFin_eq_some h]

theorem handOn_line_badField (w : Sweep) (h : 16 ≤ b.toNat) : handOn cell w (.line b) s = refuse .badField s := by
  simp only [handOn, asFin_eq_none h]

theorem reline_silent {k : LineNo} (h : (s.line k).state = .silent) :
    reline k s = setLine k (s.line k).relined s := by
  simp only [reline, mapLine_eq, h]

theorem reline_sending {k : LineNo} {r : Bool} (h : (s.line k).state = .sending r) :
    reline k s = setLine k { (s.line k).relined with state := .sending true } s := by
  simp only [reline, mapLine_eq, h]

theorem reline_receives {k : LineNo} (h : (s.line k).receives = true) :
    reline k s =
      setLine k
        { (s.line k).relined with outstanding := none, state := .waiting, due := some (s.now + replyWindow) } s := by
  rcases (receives_iff _).1 h with h | h | ⟨e, h⟩ <;> simp only [reline, mapLine_eq, h]

/-- Settles O33: an index out of range is refused; else the line is replaced, by its state. -/
theorem lineOrder : Obligations.LineOrder := by
  intro t s cell b hr
  refine ⟨_, receiveOrder_eq t [] (.line b) hr, fun hbad => ?_, fun k hk => ?_⟩
  · exact takenAs_refuse s cell _ t (handOn_line_badField [] hbad)
  · intro l cleared becomes
    have taken {l' : Line} (h : reline k (freePort (atTime t s)) = setLine k l' (freePort (atTime t s))) :
        TakenAs cell (.line b) .ok .nothing (setLine k l' (atTime t s))
          (endEvent (awaitTaken cell (.line b) (handOn cell [] (.line b) (freePort (atTime t s))))) := by
      rw [handOn_line [] hk, h]
      exact takenAs_awaitTaken cell _ rfl
    refine ⟨fun h => taken (reline_silent h), fun ⟨r, h⟩ => taken (reline_sending h), fun h => ?_⟩
    exact taken (reline_receives ((receives_iff _).2 h))

end Sys2Proof.Machine
end

