-- ==== Sys2Proof/Proofs/Polls.lean ====
section
/-! SUPPORT. Polls (O42): their bytes and masks (R54, R77, R193), and the events of their due time and of their last
byte (R80 to R83, R96). -/

namespace Sys2Proof.Machine

variable (s : State)

/-! ### The bytes of a poll (12.8) -/

/-- A half word is its two bytes, most significant first. -/
theorem bytes_append (h : Half) : h.extractLsb' 8 8 ++ h.extractLsb' 0 8 = h := by
  have hjoin : h.extractLsb' (0 + 8) 8 ++ h.extractLsb' 0 8 = h.extractLsb' 0 (8 + 8) :=
    BitVec.extractLsb'_append_extractLsb'_eq_extractLsb' (Nat.add_comm 0 8)
  exact hjoin.trans BitVec.extractLsb'_eq_self

/-- The CRC check value (R77). -/
theorem crc_check : crc [0x31, 0x32, 0x33, 0x34, 0x35, 0x36, 0x37, 0x38, 0x39] = 0x29B1#16 := by decide +kernel

theorem sendingFrame_of_not_sending {l : Line} (h : ∀ b, l.state ≠ .sending b) : l.sendingFrame = none := by
  unfold Line.sendingFrame
  split
  · exact absurd ‹_› (h _)
  · rfl

/-! ### The masks of a poll (R54) -/

/-- A mask gathered over a list of positions has a bit where the list names its position with the property. -/
theorem getLsbD_gathered (q : Fin 10 → Bool) (l : List (Fin 10)) (m : ModuleMask) (p : Fin 10) :
    (l.foldl (fun m p => if q p then m ||| bitAt p else m) m).getLsbD p.val =
      (m.getLsbD p.val || (decide (p ∈ l) && q p)) := by
  induction l generalizing m with
  | nil => simp
  | cons a l ih =>
    have ha : bitAt a = BitVec.twoPow 10 a.val := BitVec.eq_of_toNat_eq (by simp [bitAt, BitVec.toNat_twoPow])
    have hbit : (bitAt a).getLsbD p.val = decide (p = a) := by
      rw [ha, BitVec.getLsbD_twoPow, Bool.eq_iff_iff]
      simp [Fin.ext_iff, eq_comm (a := a.val)]
    rw [List.foldl_cons, ih]
    by_cases hpa : p = a
    · subst hpa
      cases q p <;> simp [-BitVec.getLsbD_eq_getElem, BitVec.getLsbD_or, hbit]
    · cases q a <;> simp [-BitVec.getLsbD_eq_getElem, BitVec.getLsbD_or, hbit, hpa]

/-- The mask of an outlet names its GRANTED modules. -/
theorem getLsbD_mask (o : Outlet) (p : Fin 10) :
    (s.mask o).getLsbD p.val = decide (s.module (moduleAt o p) = .granted o) := by
  rw [State.mask, getLsbD_gathered (fun p => (s.module (moduleAt o p)).grantedTo o)]
  have hp : p ∈ Config.positions := List.mem_finRange p
  rw [Bool.eq_iff_iff]
  simp [hp, grantedTo_iff]

/-! ### The due time and the last byte -/

variable {s} {k : LineNo}

/-- POLL_DUE moves the clock to the due time, and what is then due of the poll is done (R80). -/
theorem exec_pollDue {d : Time} (h : (s.line k).due = some d) :
    exec (.pollDue k) s = finish (setLine k ((s.line k).seenTo k (atTime d s)) (atTime d s)) := by
  show execPollDue k s = _
  simp only [execPollDue, h, pollIfDue_eq]
  rfl

theorem exec_pollSent_of_not_sending (h : ∀ r, (s.line k).state ≠ .sending r) : exec (.pollSent k) s = finish s := by
  show execPollSent k s = _
  unfold execPollSent
  split
  · exact absurd ‹_› (h _)
  · rfl

/-- The last byte of a poll begins the reply window (R81). -/
theorem exec_pollSent {p : PollRecord} (h : (s.line k).state = .sending false)
    (hp : (s.line k).outstanding = some p) :
    let v := atTime (p.sendTime + pollTime) s
    exec (.pollSent k) s = finish (setLine k { s.line k with state := .awaiting (v.now + replyWindow) } v) := by
  have hsent : (s.line k).sendTime = p.sendTime := by simp [Line.sendTime, hp]
  show execPollSent k s = _
  simp only [execPollSent, h, hsent]
  rfl

/-- After a LINE order it begins the wait for the next poll (R96). -/
theorem exec_pollSent_retired {p : PollRecord} (h : (s.line k).state = .sending true)
    (hp : (s.line k).outstanding = some p) :
    let v := atTime (p.sendTime + pollTime) s
    let waits : Line :=
      { s.line k with state := .waiting, outstanding := none, due := some (v.now + replyWindow) }
    exec (.pollSent k) s = finish (setLine k (waits.seenTo k v) v) := by
  have hsent : (s.line k).sendTime = p.sendTime := by simp [Line.sendTime, hp]
  show execPollSent k s = _
  simp only [execPollSent, h, hsent, if_true, mapLine_eq, enterWaiting_setLine]
  rfl

/-- Settles O42: the bytes and the masks of a poll; its due time and its last byte by the state of the line. -/
theorem pollsSent : Obligations.PollsSent := by
  refine ⟨fun l r b hl hr => ?_, fun l hl => sendingFrame_of_not_sending hl, crc_check, fun s o p => getLsbD_mask s o p,
    fun k s d hd => ?_, fun k s p hp => ?_⟩
  · have hframe : l.sendingFrame = some (pollFrame r) := by simp only [Line.sendingFrame, hl, hr, Option.map_some]
    exact ⟨_, _, _, _, _, _, hframe, bytes_append _, bytes_append _, bytes_append _⟩
  · intro l now
    have hdue : l.bandEdge = true ∨ ∃ d' ∈ l.due, d' ≤ (atTime d s).now := .inr ⟨d, hd, Nat.le_max_right ..⟩
    have hexec {l' : Line} (h : l.seenTo k (atTime d s) = l') :
        exec (.pollDue k) s = finish (setLine k l' (atTime d s)) := h ▸ exec_pollDue hd
    refine ⟨_, exec_pollDue hd, fun hw hr hslot => ?_, fun hw hr hslot => ?_, fun hno => ?_⟩
    · exact ends_of_exec (hexec (seenTo_of_empty _ k l hw hr hdue hslot)) (exec_pollDue hd)
    · exact ends_of_exec (hexec (seenTo_of_full _ k l hw hr hdue hslot)) (exec_pollDue hd)
    · have hsame := hexec (hno.elim (seenTo_of_not_waiting _ k l) (seenTo_of_receiving _ k l))
      rw [show setLine k l (atTime d s) = atTime d s from setLine_line (atTime d s) k] at hsame
      exact ends_of_exec hsame (exec_pollDue hd)
  · exact ⟨_, rfl, fun h => ends_of_exec (exec_pollSent h hp) rfl,
      fun h => ends_of_exec (exec_pollSent_retired h hp) rfl,
      fun h => ends_of_exec (exec_pollSent_of_not_sending h) rfl⟩

end Sys2Proof.Machine
end

