-- ==== Sys2Proof/Proofs/Alerts.lean ====
section
/-! SUPPORT. Alerts, start bytes, and bad frames outside an exchange (O45; R77, R86, R88 to R91); the service of an
alert as R104's steps in their order. -/

namespace Sys2Proof.Machine

/-- A plug state code (R86). -/
theorem plugOf_eq (b : Byte) :
    plugOf b = if b = 0#8 then .unplugged else if b = 1#8 then .plugged else .fault := by
  have hcode (v : Byte) : b = v ↔ b.toNat = v.toNat := BitVec.toNat_inj.symm
  rw [plugOf, if_congr (hcode 0#8) rfl rfl, if_congr (hcode 1#8) rfl rfl]
  split
  · next h => rw [h]; rfl
  · next h => rw [h]; rfl
  · next h0 h1 => exact ((if_neg h0).trans (if_neg h1)).symm

/-- An alert is read as 12.8 places its bytes. -/
theorem alertOf_eq (f : Vector Byte 6) (received : Time) :
    alertOf f received =
      { estop := f[1].getLsbD 0,
        plug0 := if f[2] = 0#8 then .unplugged else if f[2] = 1#8 then .plugged else .fault,
        plug1 := if f[3] = 0#8 then .unplugged else if f[3] = 1#8 then .plugged else .fault,
        received := received } := by
  rw [alertOf, plugOf_eq, plugOf_eq]

/-! ### A good alert (R90, R91) -/

section
variable (s : State) (k : LineNo) (l : Line) (f : Vector Byte 6)

theorem goodAlert_of_empty (h : l.alertSlot = none) :
    goodAlert k f (setLine k l s) =
      setLine k ({ l with alertSlot := some (alertOf f s.now) }.seenTo k s) s := by
  simp only [goodAlert, line_setLine, h, Option.isNone_none, if_true, mapLine_setLine, pollIfDue_setLine]
  rfl

/-- An alert dropped for a full slot is counted; the first since the filling gives its entry. -/
theorem goodAlert_of_full (h : l.alertSlot ≠ none) :
    let n := satAdd 65535 l.counters.overrun 1
    let dropped : Line := { l with overrunMark := true, counters := { l.counters with overrun := n } }
    goodAlert k f (setLine k l s) =
      if l.overrunMark then setLine k (dropped.seenTo k s) s
      else give (.lineOverrun k n) (setLine k (dropped.seenTo k s) s) := by
  intro n dropped
  have hslot : l.alertSlot.isNone = false := Option.isNone_eq_false_iff.2 (Option.isSome_iff_ne_none.2 h)
  simp only [goodAlert, line_setLine, hslot, Bool.false_eq_true, if_false, countFault_setLine, mapLine_setLine]
  cases hmark : l.overrunMark with
  | true =>
    rw [if_pos rfl, if_pos rfl, pollIfDue_setLine]
    rfl
  | false =>
    rw [if_neg nofun, if_neg nofun, give_setLine, pollIfDue_setLine]
    rfl

end

/-! ### Start bytes, and what is lost (R77) -/

section
variable {s : State} {k : LineNo} (t : Time)

/-- Outside a frame a start byte opens one. -/
theorem exec_frameStart (b : Byte) (hrec : (s.line k).receives = true) (hidle : (s.line k).receiving = none) :
    exec (.frameStart t k b) s =
      finish (setLine k { s.line k with receiving := FrameKind.ofByte b } (atTime t s)) := by
  have hopen : (((atTime t s).line k).receives && ((atTime t s).line k).receiving.isNone) = true := by
    rw [Bool.and_eq_true]; exact ⟨hrec, Option.isNone_iff_eq_none.2 hidle⟩
  show execFrameStart t k b s = _
  simp only [execFrameStart, hopen, if_true]
  cases FrameKind.ofByte b with
  | some kind => rfl
  | none =>
    have hsame : { s.line k with receiving := none } = (atTime t s).line k := by rw [← hidle]; rfl
    show finish (atTime t s) = finish (setLine k { s.line k with receiving := none } (atTime t s))
    rw [hsame, setLine_line]

/-- Inside one, and on a line that does not receive, no byte opens one. -/
theorem exec_frameStart_lost (b : Byte) (h : (s.line k).receives = false ∨ (s.line k).receiving ≠ none) :
    exec (.frameStart t k b) s = finish (atTime t s) := by
  have hshut : (((atTime t s).line k).receives && ((atTime t s).line k).receiving.isNone) = false := by
    rw [Bool.and_eq_false_iff]
    exact h.imp_right fun h => Option.isNone_eq_false_iff.2 (Option.isSome_iff_ne_none.2 h)
  show execFrameStart t k b s = _
  simp only [execFrameStart, hshut]
  rfl

variable (h : (s.line k).receives = false)
include h

theorem exec_replyFrame_lost (f : Vector Byte 29) : exec (.replyFrame t k f) s = finish (atTime t s) := by
  have htakes : ((atTime t s).line k).takesFrame .reply = false := by
    simp only [Line.takesFrame, show ((atTime t s).line k).receives = false from h, Bool.false_and]
  show execReplyFrame t k f s = _
  simp only [execReplyFrame, htakes]
  rfl

theorem exec_alertFrame_lost (f : Vector Byte 6) : exec (.alertFrame t k f) s = finish (atTime t s) := by
  have htakes : ((atTime t s).line k).takesFrame .alert = false := by
    simp only [Line.takesFrame, show ((atTime t s).line k).receives = false from h, Bool.false_and]
  show execAlertFrame t k f s = _
  simp only [execAlertFrame, htakes]
  rfl

theorem exec_frameBroken_lost : exec (.frameBroken t k) s = finish (atTime t s) := by
  show execFrameBroken t k s = _
  simp only [execFrameBroken, show ((atTime t s).line k).receives = false from h, Bool.false_and]
  rfl

end

/-! ### The service of an alert (R104) -/

theorem exec_alertService {s : State} {k : LineNo} {a : HeldAlert} (t : Time) (hnext : s.nextAlert = some k)
    (hslot : (s.line k).alertSlot = some a) :
    exec (.alertService t) s = finish (serveAlert k a (atTime t s)) := by
  have hnext' : (atTime t s).nextAlert = some k := hnext
  have hslot' : ((atTime t s).line k).alertSlot = some a := hslot
  show finish (serveNextAlert (atTime t s)) = _
  simp only [serveNextAlert, hnext', hslot']

/-- The check for SETTLING, as a function of the state (R41). -/
theorem checkSettle_eq_judge :
    checkSettle = fun o x => mapContext o (fun c => c.judged (x.heldCount o) (x.report o).lineStale) x :=
  funext fun o => funext fun x => checkSettle_eq x o

/-- Settles O45: each frame and byte by the line's state, and the service of an alert step by step. -/
theorem alertsTaken : Obligations.AlertsTaken := by
  intro t k s l at' plug becomes crcFault
  have counted (hout : ∀ e, l.state ≠ .awaiting e) (f : LineCounters → LineCounters) :
      frameFault k f (setLine k l.unframed at') = becomes { l with receiving := none, counters := f l.counters } :=
    frameFault_setLine_of_not_awaiting at' k l.unframed f (isAwaiting_eq_false _ hout)
  refine ⟨fun hstate => ?_, fun hstate => ?_, fun a hnext hslot => ?_⟩
  · have hreceives : l.receives = true := (receives_iff l).2 hstate
    refine ⟨fun f h0 hgood hkind => ?_, fun hout => ⟨fun f h0 hbad hkind => ?_, fun f h0 hbad hkind => ?_,
      fun hframe => ?_⟩, fun b => ?_⟩
    · have hexec := exec_alertFrame t h0 hreceives hkind
      simp only [hgood, if_true] at hexec
      refine ⟨_, hexec, fun hslot => ?_, fun hslot => ⟨fun hmark => ?_, fun hmark => ?_⟩⟩
      · have htaken := goodAlert_of_empty at' k l.unframed f hslot
        rw [alertOf_eq] at htaken
        exact ends_of_exec (hexec.trans (congrArg finish htaken)) hexec
      · have hdropped := (goodAlert_of_full at' k l.unframed f hslot).trans (if_pos hmark)
        exact ends_of_exec (hexec.trans (congrArg finish hdropped)) hexec
      · have hdropped := (goodAlert_of_full at' k l.unframed f hslot).trans (if_neg (Bool.not_eq_true _ ▸ hmark))
        exact ends_of_exec (hexec.trans (congrArg finish hdropped)) hexec
    · have hexec := exec_alertFrame t h0 hreceives hkind
      simp only [hbad, Bool.false_eq_true, if_false] at hexec
      exact ⟨_, hexec, ends_of_exec (hexec.trans (congrArg finish (counted hout _))) hexec⟩
    · have hexec := exec_replyFrame t h0 hreceives hkind
      simp only [hbad, Bool.false_eq_true, if_false] at hexec
      exact ⟨_, hexec, ends_of_exec (hexec.trans (congrArg finish (counted hout _))) hexec⟩
    · have hexec := exec_frameBroken t hreceives hframe
      exact ⟨_, hexec, ends_of_exec (hexec.trans (congrArg finish (counted hout _))) hexec⟩
    · refine ⟨_, rfl, fun hidle => ?_, fun hframe => ends_of_exec (exec_frameStart_lost t b (.inr hframe)) rfl⟩
      exact ends_of_exec (exec_frameStart t b hreceives hidle) rfl
  · have hlost := not_receives l hstate
    exact ⟨fun b => ⟨_, exec_frameStart_lost t b (.inl hlost), ends_endEvent _⟩,
      fun f => ⟨_, exec_replyFrame_lost t hlost f, ends_endEvent _⟩,
      fun f => ⟨_, exec_alertFrame_lost t hlost f, ends_endEvent _⟩,
      ⟨_, exec_frameBroken_lost t hlost, ends_endEvent _⟩⟩
  · intro judge stopped first second emptied
    refine ⟨_, exec_alertService t hnext hslot, ?_⟩
    have hserve : serveAlert k a at' = endStart at' (outletB k) (endStart at' (outletA k) emptied) := by
      unfold serveAlert
      rw [checkSettle_eq_judge]
      rfl
    rw [← hserve]
    exact ends_endEvent _

end Sys2Proof.Machine
end

