-- ==== Sys2Proof/Proofs/Holds.lean ====
section
/-! SUPPORT. The entry to HELD and the end of a hold at one outlet (R34, R116, R119): what they leave of the clock, of
the line-stale inputs and of the journal queue, of the lines and the other outlets, and of the Standby Table. -/

namespace Sys2Proof.Machine

variable (s : State)

/-! ### The clock, the line-stale inputs and the journal queue -/

/-- The clock and the line-stale inputs stay, and no entry leaves the journal queue. -/
structure Steady (s u : State) : Prop where
  now : u.now = s.now
  lineStale : ∀ o, (u.inputs o).lineStale = (s.inputs o).lineStale
  queue : s.journal.queue <+: u.journal.queue

variable {s} in
theorem Steady.of_eq {u : State} (hnow : u.now = s.now) (hinputs : u.power.inputs = s.power.inputs)
    (hjournal : u.journal = s.journal) : Steady s u :=
  { now := hnow, lineStale := fun o => by rw [State.inputs, hinputs]; rfl, queue := hjournal ▸ List.prefix_rfl }

theorem Steady.refl : Steady s s := .of_eq rfl rfl rfl

variable {s} in
theorem Steady.trans {v u : State} (h : Steady s v) (h' : Steady v u) : Steady s u :=
  { now := h'.now.trans h.now, lineStale := fun o => (h'.lineStale o).trans (h.lineStale o),
    queue := h.queue.trans h'.queue }

variable {s} in
/-- An entry that has joined the queue is there after a doing that takes none away. -/
theorem Journaled.of_prefix {v u : State} {e : EntryKind} (h : Journaled e s v)
    (hq : v.journal.queue <+: u.journal.queue) : Journaled e s u :=
  h.imp (fun hmem => hq.subset hmem) fun hfull => hfull.trans hq.length_le

theorem queue_give (e : EntryKind) : s.journal.queue <+: (give e s).journal.queue := by
  by_cases h : s.journal.queue.length < 8 <;> simp [give, h]

/-- With room in the queue an entry given is in it. -/
theorem mem_queue_give (e : EntryKind) (h : s.journal.queue.length < 8) :
    { kind := e, seconds := s.control.seconds } ∈ (give e s).journal.queue := by simp [give, h]

theorem steady_give (e : EntryKind) : Steady s (give e s) :=
  { now := rfl, lineStale := fun _ => rfl, queue := queue_give s e }

theorem steady_mapContext (o : Outlet) (f : Context → Context) : Steady s (mapContext o f s) := .of_eq rfl rfl rfl

theorem steady_requestPass : Steady s (requestPass s) := .of_eq rfl rfl rfl

theorem steady_pass : Steady s (pass s) := by
  rw [pass_eq]
  exact .of_eq rfl rfl rfl

theorem steady_immediatePass : Steady s (immediatePass s) := by
  unfold immediatePass; split
  · exact steady_pass s
  · exact .refl s

theorem steady_setInputs (o : Outlet) {f : WantInputs → WantInputs} (hf : ∀ i, (f i).lineStale = i.lineStale) :
    Steady s (setInputs o f s) := by
  have hinputs (o' : Outlet) : ((setInputs o f s).inputs o').lineStale = (s.inputs o').lineStale := by
    have h : (setInputs o f s).inputs = Function.update s.inputs o (f (s.inputs o)) :=
      congrArg Ledger.inputs (ledger_setInputs s o f)
    rw [h, Function.update_apply]
    split
    · next e => rw [e, hf]
    · rfl
  refine { now := ?_, lineStale := hinputs, queue := ?_ }
  · unfold setInputs; dsimp only; split <;> rfl
  · unfold setInputs; dsimp only; split <;> exact List.prefix_rfl

theorem steady_deliver (o : Outlet) {f : WantInputs → WantInputs} (hf : ∀ i, (f i).lineStale = i.lineStale) :
    Steady s (deliver o f s) := (steady_setInputs s o hf).trans (steady_immediatePass _)

theorem steady_deliverActive (o : Outlet) (a : Bool) : Steady s (deliverActive o a s) :=
  (steady_requestPass s).trans (steady_deliver _ o fun _ => rfl)

theorem steady_storeCeiling (o : Outlet) (n : Nat) : Steady s (storeCeiling o n s) := by
  unfold storeCeiling; split
  · exact .refl s
  · have hstored : Steady s
        (requestPass { s with sessions := { s.sessions with ceilings := Table.set s.sessions.ceilings o n } }) :=
      .of_eq rfl rfl rfl
    exact hstored.trans (steady_setInputs _ o fun _ => rfl)

theorem steady_setCeiling (o : Outlet) (n : Nat) : Steady s (setCeiling o n s) :=
  (steady_storeCeiling s o n).trans (steady_immediatePass _)

theorem steady_recompute (o : Outlet) : Steady s (recompute o s) := steady_setCeiling s o _

theorem steady_leaveFor (o : Outlet) (c : Context) (p : Phase) : Steady s (leaveFor o c p s) := by
  refine (steady_mapContext s o fun c => { c with phase := p }).trans ?_
  unfold leaveFor setPhase; dsimp only; split
  · exact steady_deliverActive _ o false
  · exact .refl _

theorem steady_enterDrained (o : Outlet) : Steady s (enterDrained o s) := by
  unfold enterDrained; split
  · exact .refl s
  · next c _ =>
    exact (steady_leaveFor s o c .drained).trans ((steady_mapContext _ o _).trans (steady_give _ _))

theorem steady_handover (o : Outlet) (e : StandbyEntry) : Steady s (handover o e s) := by
  unfold handover; split
  · exact .refl s
  · next c _ =>
    have htaken (v : State) (hv : Steady s v) : Steady s (recompute o (deliverActive o true v)) :=
      hv.trans ((steady_deliverActive v o true).trans (steady_recompute _ o))
    have hremoved : Steady s (removeEntry e.cell (setContext o (some (c.takeOver o e s.control.seconds)) s)) :=
      .of_eq rfl rfl rfl
    have hgiven := htaken _ (hremoved.trans (steady_give _ (.handover o c.cell e.cell c.chargedTotal)))
    dsimp only; split
    · exact hgiven.trans (steady_enterDrained _ o)
    · exact hgiven

theorem steady_takeOn (o : Outlet) : Steady s (takeOn o s) := by
  unfold takeOn
  repeat' split
  · exact .refl s
  · exact steady_handover s o _
  · exact steady_enterDrained s o
  · exact .refl s

theorem steady_examineDrained (o : Outlet) : Steady s (examineDrained o s) := by
  unfold examineDrained
  repeat' split
  · exact .refl s
  · exact steady_handover s o _
  · exact .refl s
  · exact .refl s

theorem steady_recover (o : Outlet) (c : Context) (r : ResumeState) (h : HeldReason) (d : Bool) :
    Steady s (recover o c r h d s) := by
  have hentry : Steady s (give (.recovered o h r c.heldMinutes) (setPhase o r.phase s)) :=
    (steady_mapContext s o fun c => { c with phase := r.phase }).trans (steady_give _ _)
  cases r with
  | active => exact hentry.trans ((steady_deliverActive _ o true).trans (steady_takeOn _ o))
  | idle =>
    unfold recover; dsimp only; split
    · exact hentry.trans (steady_give _ _)
    · exact hentry
  | drained => exact hentry.trans (steady_examineDrained _ o)

theorem steady_endHold (o : Outlet) (r : HeldReason) : Steady s (endHold o r s) := by
  unfold endHold
  repeat' split
  · exact .refl s
  · exact (steady_mapContext s o _).trans (steady_give _ _)
  · exact (steady_mapContext s o _).trans (steady_give _ _)
  · exact steady_recover ..
  · exact .refl s
  · exact .refl s

theorem steady_enterHeld (o : Outlet) (r : HeldReason) : Steady s (enterHeld o r s) := by
  unfold enterHeld
  repeat' split
  · exact .refl s
  · exact .refl s
  · exact (steady_leaveFor s o _ _).trans ((steady_mapContext _ o _).trans (steady_give _ _))

/-! ### The lines and the other outlets -/

@[simp] theorem elsewhere_setPhase (o : Outlet) (p : Phase) : (setPhase o p s).elsewhere o = s.elsewhere o :=
  elsewhere_mapContext s o _

@[simp] theorem elsewhere_recover (o : Outlet) (c : Context) (r : ResumeState) (h : HeldReason) (d : Bool) :
    (recover o c r h d s).elsewhere o = s.elsewhere o := by
  cases r with
  | active => simp [recover]
  | idle => cases d <;> simp [recover]
  | drained => simp [recover]

@[simp] theorem elsewhere_endHold (o : Outlet) (r : HeldReason) : (endHold o r s).elsewhere o = s.elsewhere o := by
  unfold endHold; repeat' split
  all_goals simp

@[simp] theorem elsewhere_enterHeld (o : Outlet) (r : HeldReason) : (enterHeld o r s).elsewhere o = s.elsewhere o := by
  unfold enterHeld; repeat' split
  all_goals simp

theorem lines_of_elsewhere {s u : State} {o : Outlet} (h : u.elsewhere o = s.elsewhere o) : u.lines = s.lines :=
  congrArg Beyond.lines h

theorem port_of_elsewhere {s u : State} {o : Outlet} (h : u.elsewhere o = s.elsewhere o) : u.port = s.port :=
  congrArg Beyond.port h

theorem band_of_elsewhere {s u : State} {o : Outlet} (h : u.elsewhere o = s.elsewhere o) :
    u.sessions.band = s.sessions.band := congrArg (·.sessions.band) h

theorem ceiling_of_elsewhere {s u : State} {o o' : Outlet} (h : u.elsewhere o = s.elsewhere o) (hne : o' ≠ o) :
    u.ceiling o' = s.ceiling o' := by
  have := congrArg (fun b : Beyond => Table.get b.sessions.ceilings o') h
  simpa [State.elsewhere, Table.get_set_ne _ _ _ _ hne.symm, State.ceiling] using this

/-! ### The Standby Table -/

/-- The Standby Table is as it was, or without the entry that the link of the outlet's session names (R149). -/
def GivesUp (o : Outlet) (s u : State) : Prop :=
  u.standby = s.standby ∨
    ∃ c l, s.context o = some c ∧ c.link = some l ∧ u.standby = (removeEntry l s).standby

theorem entryOf_removeEntry_of_ne {l l' : CellIndex} (h : l' ≠ l) : (removeEntry l s).entryOf l' = s.entryOf l' := by
  simp only [State.entryOf, removeEntry, List.find?_filter]
  congr 1
  funext e
  by_cases he : e.cell = l' <;> simp [he, h]

/-- No entry comes. -/
theorem GivesUp.entryOf_eq_none {o : Outlet} {s u : State} (h : GivesUp o s u) {l : CellIndex}
    (hl : s.entryOf l = none) : u.entryOf l = none := by
  rcases h with h | ⟨c, l', -, -, h⟩
  · rw [entryOf_congr h, hl]
  · rw [entryOf_congr h]
    by_cases he : l = l'
    · rw [he]; exact entryOf_removeEntry s l'
    · rw [entryOf_removeEntry_of_ne s he, hl]

/-- An entry that the session's link does not name stays. -/
theorem GivesUp.entryOf_eq {o : Outlet} {s u : State} (h : GivesUp o s u) {l : CellIndex}
    (hl : ∀ c, s.context o = some c → c.link ≠ some l) : u.entryOf l = s.entryOf l := by
  rcases h with h | ⟨c, l', hc, hlink, h⟩
  · exact entryOf_congr h l
  · have hne : l ≠ l' := fun he => hl c hc (he ▸ hlink)
    rw [entryOf_congr h, entryOf_removeEntry_of_ne s hne]

@[simp] theorem standby_enterDrained (o : Outlet) : (enterDrained o s).standby = s.standby := by
  unfold enterDrained; split <;> simp

theorem standby_handover {o : Outlet} {c : Context} (e : StandbyEntry) (h : s.context o = some c) :
    (handover o e s).standby = (removeEntry e.cell s).standby := by
  simp only [handover, h]
  split <;> simp [recompute, removeEntry]

/-- The entry that a session would take over is the one that its link names. -/
theorem link_of_successor {c : Context} {e : StandbyEntry} (h : s.successor c = some e) : c.link = some e.cell := by
  unfold State.successor at h
  split at h
  · cases h
  · obtain ⟨l, hl, he⟩ := Option.bind_eq_some_iff.1 h
    rw [hl, cell_of_entryOf s l e he]

theorem givesUp_takeOn (o : Outlet) : GivesUp o s (takeOn o s) := by
  unfold takeOn
  split
  · exact .inl rfl
  · next c hc =>
    repeat' split
    · next e he => exact .inr ⟨c, e.cell, hc, link_of_successor s he, standby_handover s e hc⟩
    · exact .inl (standby_enterDrained s o)
    · exact .inl rfl

theorem givesUp_examineDrained (o : Outlet) : GivesUp o s (examineDrained o s) := by
  unfold examineDrained
  split
  · exact .inl rfl
  · next c hc =>
    repeat' split
    · next e he => exact .inr ⟨c, e.cell, hc, link_of_successor s he, standby_handover s e hc⟩
    · exact .inl rfl
    · exact .inl rfl

/-- A change before it that keeps the link and the table makes no difference. -/
theorem GivesUp.before {o : Outlet} {s v u : State} (h : GivesUp o v u) (hstandby : v.standby = s.standby)
    (hlink : (v.context o).map Context.link = (s.context o).map Context.link) : GivesUp o s u := by
  rcases h with h | ⟨c, l, hc, hl, h⟩
  · exact .inl (h.trans hstandby)
  · rw [hc, Option.map_some] at hlink
    obtain ⟨c', hc', hl'⟩ := Option.map_eq_some_iff.1 hlink.symm
    refine .inr ⟨c', l, hc', hl'.trans hl, ?_⟩
    rw [h]; simp only [removeEntry, hstandby]

theorem givesUp_recover (o : Outlet) (c : Context) (r : ResumeState) (h : HeldReason) (d : Bool) :
    GivesUp o s (recover o c r h d s) := by
  have hlink : ((setPhase o r.phase s).context o).map Context.link = (s.context o).map Context.link := by
    simp only [setPhase, context_mapContext_self, Option.map_map]; rfl
  cases r with
  | active =>
    refine (givesUp_takeOn _ o).before (standby_deliverActive _ o true) ?_
    rw [context_deliverActive]; exact hlink
  | idle => unfold recover; dsimp only; split <;> exact .inl rfl
  | drained => exact (givesUp_examineDrained _ o).before rfl hlink

theorem givesUp_endHold (o : Outlet) (r : HeldReason) : GivesUp o s (endHold o r s) := by
  unfold endHold
  repeat' split
  · exact .inl rfl
  · exact .inl rfl
  · exact .inl rfl
  · exact givesUp_recover ..
  · exact .inl rfl
  · exact .inl rfl

end Sys2Proof.Machine
end

