-- ==== Sys2Proof/Proofs/Recoveries.lean ====
section
/-! SUPPORT. What the statements say of one outlet's session (`GoesOn`, `HandedOver`, `Recovered`) through the doings at
another outlet or at a line, before it or after it. -/

namespace Sys2Proof.Machine

variable {s v u : State} {o : Outlet} {c : Context}

/-! ### After it -/

/-- What the statements look at of the outlet's session stays, and no entry leaves the journal queue or comes to the
Standby Table. -/
structure SessionStays (o : Outlet) (v u : State) : Prop where
  context : u.context o = v.context o
  ceiling : u.ceiling o = v.ceiling o
  settings : u.control.settings = v.control.settings
  band : u.sessions.band = v.sessions.band
  port : u.port = v.port
  queue : v.journal.queue <+: u.journal.queue
  entries : ∀ l, v.entryOf l = none → u.entryOf l = none

theorem sessionStays_setLine (o : Outlet) (v : State) (k : LineNo) (l : Line) : SessionStays o v (setLine k l v) :=
  ⟨rfl, rfl, rfl, rfl, rfl, List.prefix_rfl, fun _ => id⟩

/-- The end of a hold at one outlet leaves the session of another. -/
theorem sessionStays_endHold {o o' : Outlet} (h : o' ≠ o) (r : HeldReason) (v : State) :
    SessionStays o' v (endHold o r v) :=
  have he := elsewhere_endHold v o r
  { context := context_of_elsewhere he h, ceiling := ceiling_of_elsewhere he h,
    settings := congrArg Control.settings (control_of_elsewhere he), band := band_of_elsewhere he,
    port := port_of_elsewhere he, queue := (steady_endHold v o r).queue,
    entries := fun _ => (givesUp_endHold v o r).entryOf_eq_none }

section
variable (h : SessionStays o v u)
include h

theorem SessionStays.stands (hs : Stands v o c) : Stands u o c := by rwa [Stands, h.context]

theorem SessionStays.copyComes {w : Bool} (hc : CopyComes v o w) : CopyComes u o w := by
  unfold CopyComes Asks; rwa [h.context, h.port]

theorem SessionStays.journaled {e : EntryKind} (hj : Journaled e s v) : Journaled e s u := hj.of_prefix h.queue

theorem SessionStays.handedOverTo {p : Phase} {e : StandbyEntry} {held : Bool} (hh : HandedOverTo p s o c e held v) :
    HandedOverTo p s o c e held u := by
  obtain ⟨hstands, hceiling, hgone, hcopy, hentry⟩ := hh
  rw [HandedOverTo, h.ceiling, h.settings, h.band]
  exact ⟨h.stands hstands, hceiling, h.entries _ hgone, h.copyComes hcopy, h.journaled hentry⟩

theorem SessionStays.goesOn {n : Nat} {held : Bool} (hg : GoesOn s o c n held v) : GoesOn s o c n held u := by
  obtain ⟨hactive, hdrained, hhanded⟩ := hg
  refine ⟨fun hn => ?_, fun h0 ha hs => ?_, fun l e h0 ha hg hl he => h.handedOverTo (hhanded l e h0 ha hg hl he)⟩
  · obtain ⟨hstands, hceiling⟩ := hactive hn
    exact ⟨h.stands hstands, h.ceiling.trans hceiling⟩
  · obtain ⟨hstands, hceiling, hentry⟩ := hdrained h0 ha hs
    exact ⟨h.stands hstands, h.ceiling.trans hceiling, h.journaled hentry⟩

theorem SessionStays.recovered {r : ResumeState} {reason : HeldReason} {d : Bool} (hr : Recovered s o c r reason d v) :
    Recovered s o c r reason d u := by
  obtain ⟨hentry, hactive, hidle, hdrained⟩ := hr
  refine ⟨h.journaled hentry, fun h0 => h.goesOn (hactive h0), fun h0 => ?_, fun h0 => ?_⟩
  · obtain ⟨hstands, hdone⟩ := hidle h0
    exact ⟨h.stands hstands, fun hd => h.journaled (hdone hd)⟩
  · obtain ⟨hstays, hhanded⟩ := hdrained h0
    exact ⟨fun hs => h.stands (hstays hs), fun l e ha hg hl he => h.handedOverTo (hhanded l e ha hg hl he)⟩

end

/-- A recovery, through the end of the event. -/
theorem Recovered.endEvent {r : ResumeState} {reason : HeldReason} {d : Bool} (h : Recovered s o c r reason d u) :
    Recovered s o c r reason d (endEvent u) := by
  obtain ⟨hentry, hactive, hidle, hdrained⟩ := h
  refine ⟨journaled_endEvent s _ u hentry, fun h0 => (hactive h0).endEvent, fun h0 => ?_, fun h0 => ?_⟩
  · obtain ⟨hstands, hdone⟩ := hidle h0
    exact ⟨stands_endEvent u o _ hstands, fun hd => journaled_endEvent s _ u (hdone hd)⟩
  · obtain ⟨hstays, hhanded⟩ := hdrained h0
    exact ⟨fun hs => stands_endEvent u o _ (hstays hs), fun l e ha hg hl he => (hhanded l e ha hg hl he).endEvent⟩

/-! ### Before it -/

/-- No entry has come to the Standby Table, and the one that the session would take over still stands (log 39). -/
structure HeirStands (c : Context) (s v : State) : Prop where
  gone : ∀ l, s.entryOf l = none → v.entryOf l = none
  stands : c.auditHeld = false → c.givenUp = none → ∀ l e, c.link = some l → s.entryOf l = some e → v.entryOf l = some e

theorem HeirStands.noSuccessor (h : HeirStands c s v) (hs : NoSuccessor s c) : NoSuccessor v c :=
  hs.imp_right fun hs l hl => h.gone l (hs l hl)

theorem HeirStands.of_standby (h : v.standby = s.standby) : HeirStands c s v :=
  { gone := fun l hl => (entryOf_congr h l).trans hl, stands := fun _ _ l _ _ he => (entryOf_congr h l).trans he }

theorem HeirStands.trans {w : State} (h : HeirStands c s v) (h' : HeirStands c v w) : HeirStands c s w :=
  { gone := fun l hl => h'.gone l (h.gone l hl),
    stands := fun ha hg l e hl he => h'.stands ha hg l e hl (h.stands ha hg l e hl he) }

/-- Where no other session names its entry, another's end of a hold leaves it standing. -/
theorem heirStands_endHold {o o' : Outlet} (h : o ≠ o') (r : HeldReason) (hsole : SoleHeir s o' c) :
    HeirStands c s (endHold o r s) :=
  { gone := fun _ => (givesUp_endHold s o r).entryOf_eq_none,
    stands := fun ha hg l e hl he => by
      have hne : s.entryOf l ≠ none := by rw [he]; exact Option.some_ne_none e
      rw [(givesUp_endHold s o r).entryOf_eq fun c' hc' => hsole ha hg l hl hne o c' h hc', he] }

/-- A session goes on from `s` as it does from a later `v`, where its entry still stands. -/
theorem HeirStands.goesOn {n : Nat} {held : Bool} (h : HeirStands c s v) (hc : v.control = s.control)
    (hg : GoesOn v o c n held u) : GoesOn s o c n held u := by
  obtain ⟨hactive, hdrained, hhanded⟩ := hg
  refine ⟨hactive, fun h0 ha hs => ?_, fun l e h0 ha hg hl he => ?_⟩
  · obtain ⟨hstands, hceiling, hentry⟩ := hdrained h0 ha (h.noSuccessor hs)
    exact ⟨hstands, hceiling, journaled_congr _ _ hc hentry⟩
  · exact handedOver_congr _ _ _ _ _ hc (hhanded l e h0 ha hg hl (h.stands ha hg l e hl he))

theorem HeirStands.recovered {r : ResumeState} {reason : HeldReason} {d : Bool} (h : HeirStands c s v)
    (hc : v.control = s.control) (hceiling : v.ceiling o = s.ceiling o) (hr : Recovered v o c r reason d u) :
    Recovered s o c r reason d u := by
  obtain ⟨hentry, hactive, hidle, hdrained⟩ := hr
  refine ⟨journaled_congr _ _ hc hentry, fun h0 => ?_, fun h0 => ?_, fun h0 => ?_⟩
  · have hphase : HeirStands { c with phase := .active } s v := ⟨h.gone, h.stands⟩
    exact hphase.goesOn hc (hceiling ▸ hactive h0)
  · obtain ⟨hstands, hdone⟩ := hidle h0
    exact ⟨hstands, fun hd => journaled_congr _ _ hc (hdone hd)⟩
  · obtain ⟨hstays, hhanded⟩ := hdrained h0
    exact ⟨fun hs => hstays (hs.imp_right h.noSuccessor), fun l e ha hg hl he =>
      handedOver_congr _ _ _ _ _ hc (hhanded l e ha hg hl (h.stands ha hg l e hl he))⟩

end Sys2Proof.Machine
end

