-- ==== Sys2Proof/Proofs/StaleLines.lean ====
section
/-! SUPPORT. A line that becomes STALE or fresh (R93, R94, R116): its entry, its inputs with their pass, the marks of
its outlets' reports; and the sessions that a STALE line holds or settles. -/

namespace Sys2Proof.Machine

variable (s : State) (k : LineNo)

/-! ### Through the end of the event -/

@[simp] theorem now_endEvent : (endEvent s).now = s.now := endEvent_keeps s State.now (fun _ => rfl) fun _ => rfl

@[simp] theorem line_endEvent : (endEvent s).line k = s.line k :=
  endEvent_keeps s (·.line k) (fun _ => rfl) fun _ => rfl

@[simp] theorem report_endEvent (o : Outlet) : (endEvent s).report o = s.report o :=
  endEvent_keeps s (·.report o) (fun _ => rfl) fun _ => rfl

@[simp] theorem inputs_endEvent (o : Outlet) : (endEvent s).inputs o = s.inputs o :=
  endEvent_keeps s (·.inputs o) (fun _ => rfl) fun _ => rfl

@[simp] theorem seenTo_endEvent (l : Line) : l.seenTo k (endEvent s) = l.seenTo k s :=
  endEvent_keeps s (l.seenTo k ·) (fun _ => rfl) fun _ => rfl

theorem queue_endEvent : s.journal.queue <+: (endEvent s).journal.queue := by
  have hqueue {u v : State} (h : u.body = v.body) : u.journal.queue = v.journal.queue :=
    (congrArg (·.journal.queue) h :)
  rcases endEvent_leaves s with h | h
  · rw [hqueue h]
  · rw [hqueue h]; exact queue_give (raise .halted (setPartState .halted s)) .halted

/-! ### Both outlets are told -/

/-- The line's mark and its entry. -/
def markLine (b : Bool) (e : EntryKind) (s : State) : State := give e (mapLine k (fun l => { l with stale := b }) s)

/-- The news that a line is STALE or fresh: its mark and its entry, its inputs with their pass, and the marks of the
reports. -/
def tellStale (b : Bool) (e : EntryKind) (s : State) : State :=
  markReports k b (deliverBoth k (fun i => { i with lineStale := b }) (markLine k b e s))

theorem forEach_outletsOf (f : Outlet → State → State) :
    forEach (outletsOf k) f s = f (outletB k) (f (outletA k) s) := rfl

/-- Both outlets' sessions enter HELD. -/
def holdBoth (reason : HeldReason) (s : State) : State :=
  enterHeld (outletB k) reason (enterHeld (outletA k) reason s)

theorem goStale_eq :
    goStale k s = forEach (outletsOf k) checkSettle (holdBoth k .stale (tellStale k true (.lineStale k) s)) := by
  rw [holdBoth, ← forEach_outletsOf (tellStale k true (.lineStale k) s) k fun o => enterHeld o .stale, goStale,
    tellStale, markLine]

theorem want_of_lineStale {o : Outlet} (h : (s.inputs o).lineStale = true) : s.want o = 0 := by
  simp [State.want, WantInputs.want, h]

theorem inputs_immediatePass (o : Outlet) : (immediatePass s).inputs o = s.inputs o :=
  congrArg (fun l : Ledger => l.inputs o) (ledger_immediatePass s)

theorem inputs_setInputs_both (f : WantInputs → WantInputs) (o : Outlet) :
    (setInputs (outletB k) f (setInputs (outletA k) f s)).inputs o =
      if o ∈ outletsOf k then f (s.inputs o) else s.inputs o :=
  congrArg (fun l : Ledger => l.inputs o) (ledger_setInputs_both s k f)

/-- What a pedestal is told, both its outlets are told. -/
theorem inputs_deliverBoth (f : WantInputs → WantInputs) (o : Outlet) :
    (deliverBoth k f s).inputs o = if o ∈ outletsOf k then f (s.inputs o) else s.inputs o := by
  rw [deliverBoth, inputs_immediatePass, inputs_setInputs_both]
  rfl

theorem now_deliverBoth (f : WantInputs → WantInputs) : (deliverBoth k f s).now = s.now := by
  have hinputs (o : Outlet) (u : State) : (setInputs o f u).now = u.now := by
    unfold setInputs; dsimp only; split <;> rfl
  rw [deliverBoth, (steady_immediatePass _).now, hinputs, hinputs]
  rfl

/-- An outlet that is told that its line is STALE keeps its modules GRANTED or RELEASING in the event. -/
theorem heldCount_deliverBoth_stale {o : Outlet} (h : o ∈ outletsOf k) :
    (deliverBoth k (fun i => { i with lineStale := true }) s).heldCount o = s.heldCount o := by
  have hstale : ((setInputs (outletB k) (fun i => { i with lineStale := true })
      (setInputs (outletA k) (fun i => { i with lineStale := true }) (requestPass s))).inputs o).lineStale = true := by
    rw [inputs_setInputs_both, if_pos h]
  rw [deliverBoth, heldCount_immediatePass _ o (want_of_lineStale _ hstale), heldCount_setInputs, heldCount_setInputs]
  rfl

theorem report_markReports (b : Bool) (o : Outlet) :
    (markReports k b s).report o = if o ∈ outletsOf k then { s.report o with lineStale := b } else s.report o := by
  have hboth : markReports k b s = mapReport (outletB k) (fun r => { r with lineStale := b })
      (mapReport (outletA k) (fun r => { r with lineStale := b }) s) := rfl
  rw [hboth, report_mapReport, report_mapReport, report_mapReport, if_neg (outletB_ne_outletA k).symm]
  simp only [outletsOf, List.mem_cons, List.not_mem_nil, or_false, eq_comm (a := o)]
  by_cases hb : outletB k = o
  · subst hb; simp
  · by_cases ha : outletA k = o
    · subst ha; simp [hb]
    · simp [ha, hb]

theorem inputs_markReports (b : Bool) (o : Outlet) : (markReports k b s).inputs o = s.inputs o := rfl

theorem heldCount_markReports (b : Bool) (o : Outlet) : (markReports k b s).heldCount o = s.heldCount o := rfl

/-- What the news leaves. -/
structure Told (b : Bool) (e : EntryKind) (s u : State) : Prop where
  now : u.now = s.now
  control : u.control = s.control
  lines : u.lines = (setLine k { s.line k with stale := b } s).lines
  context : ∀ o, u.context o = s.context o
  ceiling : ∀ o, u.ceiling o = s.ceiling o
  standby : u.standby = s.standby
  journal : u.journal = (give e s).journal
  report : ∀ o ∈ outletsOf k, u.report o = { s.report o with lineStale := b }
  lineStale : ∀ o ∈ outletsOf k, (u.inputs o).lineStale = b

theorem told_tellStale (b : Bool) (e : EntryKind) : Told k b e s (tellStale k b e s) := by
  have hbeyond := beyond_deliverBoth (markLine k b e s) k fun i => { i with lineStale := b }
  have hnow := now_deliverBoth (markLine k b e s) k fun i => { i with lineStale := b }
  have hinputs := inputs_deliverBoth (markLine k b e s) k fun i => { i with lineStale := b }
  rw [tellStale]
  generalize deliverBoth k (fun i => { i with lineStale := b }) (markLine k b e s) = w at hbeyond hnow hinputs ⊢
  have hsession {α : Type} (f : SessionUnit → α) : f w.sessions = f s.sessions :=
    congrArg (fun x : Beyond => f x.sessions) hbeyond
  exact
    { now := hnow, control := congrArg Beyond.control hbeyond, lines := congrArg Beyond.lines hbeyond,
      context := fun o => hsession fun x => Table.get x.contexts o,
      ceiling := fun o => hsession fun x => Table.get x.ceilings o,
      standby := congrArg Beyond.standby hbeyond, journal := congrArg Beyond.journal hbeyond,
      report := fun o ho => by
        have hreport : w.report o = s.report o := hsession fun x => Table.get x.reports o
        rw [report_markReports, if_pos ho, hreport],
      lineStale := fun o ho => by rw [inputs_markReports, hinputs, if_pos ho] }

theorem heldCount_tellStale {e : EntryKind} {o : Outlet} (h : o ∈ outletsOf k) :
    (tellStale k true e s).heldCount o = s.heldCount o := by
  rw [tellStale, heldCount_markReports, heldCount_deliverBoth_stale _ k h]; rfl

/-! ### The sessions of a STALE line (R93, R116, R41) -/

/-- The context as the entry to HELD leaves it: from ACTIVE, IDLE or DRAINED, and another as it is (R34, R116). -/
def Context.heldFor (c : Context) (reason : HeldReason) : Context :=
  match c.phase.resume? with
  | some r => { c with phase := .held r reason false, heldMinutes := 0 }
  | none => c

section
variable {s : State} {o : Outlet} {c : Context} {reason : HeldReason}

theorem heldFor_of_resume {r : ResumeState} (h : c.phase.resume? = some r) :
    c.heldFor reason = { c with phase := .held r reason false, heldMinutes := 0 } := by
  simp only [Context.heldFor, h]

theorem heldFor_of_none (h : c.phase.resume? = none) : c.heldFor reason = c := by simp only [Context.heldFor, h]

theorem enterHeld_of_resume {r : ResumeState} (hc : s.context o = some c) (h : c.phase.resume? = some r) :
    enterHeld o reason s =
      give (.held o reason r)
        (mapContext o (fun c => { c with heldMinutes := 0 }) (leaveFor o c (.held r reason false) s)) := by
  simp only [enterHeld, hc, h]

theorem enterHeld_of_none (h : ∀ c, s.context o = some c → c.phase.resume? = none) : enterHeld o reason s = s := by
  unfold enterHeld
  split
  · rfl
  · next c hc => simp only [h c hc]

theorem context_enterHeld : (enterHeld o reason s).context o = (s.context o).map (·.heldFor reason) := by
  cases hc : s.context o with
  | none => rw [enterHeld_of_none (by simp [hc]), hc]; rfl
  | some c =>
    cases hr : c.phase.resume? with
    | none =>
      have hnone (x : Context) (hx : s.context o = some x) : x.phase.resume? = none := by
        rw [hc] at hx; cases hx; exact hr
      rw [enterHeld_of_none hnone, hc, Option.map_some, heldFor_of_none hr]
    | some r =>
      rw [enterHeld_of_resume hc hr, context_give, context_mapContext_self, context_leaveFor_self, hc, Option.map_some,
        Option.map_some, Option.map_some, heldFor_of_resume hr]

theorem journaled_enterHeld {r : ResumeState} (hc : s.context o = some c) (h : c.phase.resume? = some r) :
    Journaled (.held o reason r) s (enterHeld o reason s) := by
  rw [enterHeld_of_resume hc h]
  exact journaled_congr _ _ (by rw [mapContext_control, control_leaveFor]) (journaled_give _ _)

/-- An outlet whose line is STALE keeps its modules while a session of its pedestal leaves ACTIVE. -/
theorem heldCount_deliverActive_of_stale (v : State) {o' : Outlet} (h : (v.inputs o').lineStale = true) :
    (deliverActive o false v).heldCount o' = v.heldCount o' := by
  have hsteady := (steady_requestPass v).trans
    (steady_setInputs _ o (f := fun i => { i with active := false }) fun _ => rfl)
  rw [deliverActive, deliver, heldCount_immediatePass _ o' (want_of_lineStale _ ((hsteady.lineStale o').trans h)),
    heldCount_setInputs]
  rfl

theorem heldCount_leaveFor_of_stale {o' : Outlet} (h : (s.inputs o').lineStale = true) (p : Phase) :
    (leaveFor o c p s).heldCount o' = s.heldCount o' := by
  unfold leaveFor setPhase; dsimp only; split
  · exact heldCount_deliverActive_of_stale (mapContext o (fun c => { c with phase := p }) s) h
  · rfl

theorem heldCount_enterHeld {o' : Outlet} (h : (s.inputs o').lineStale = true) :
    (enterHeld o reason s).heldCount o' = s.heldCount o' := by
  have hafter (e : EntryKind) (f : Context → Context) (v : State) :
      (give e (mapContext o f v)).heldCount o' = v.heldCount o' := rfl
  unfold enterHeld
  repeat' split
  · rfl
  · rfl
  · rw [hafter, heldCount_leaveFor_of_stale h]

/-- A session in HELD is not judged. -/
theorem judged_of_resume {r : ResumeState} (h : c.phase.resume? = some r) (n : Nat) (b : Bool) :
    (c.heldFor reason).judged n b = { c with phase := .held r reason false, heldMinutes := 0 } := by
  rw [heldFor_of_resume h]; rfl

end

/-- What a line that becomes STALE leaves. -/
structure WentStale (s u : State) : Prop where
  now : u.now = s.now
  lines : u.lines = (setLine k { s.line k with stale := true } s).lines
  queue : (give (.lineStale k) s).journal.queue <+: u.journal.queue
  report : ∀ o ∈ outletsOf k, (u.report o).lineStale = true
  lineStale : ∀ o ∈ outletsOf k, (u.inputs o).lineStale = true
  context : ∀ o ∈ outletsOf k,
    u.context o = (s.context o).map fun c => (c.heldFor .stale).judged (s.heldCount o) true
  held : ∀ o ∈ outletsOf k, ∀ c r, s.context o = some c → c.phase.resume? = some r →
    Journaled (.held o .stale r) s u

theorem nodup_outletsOf : (outletsOf k).Nodup := by
  simpa [outletsOf] using (outletB_ne_outletA k).symm

theorem outletsOf_cases {o : Outlet} : o ∈ outletsOf k ↔ o = outletA k ∨ o = outletB k := by simp [outletsOf]

theorem steady_holdBoth (reason : HeldReason) : Steady s (holdBoth k reason s) :=
  (steady_enterHeld s _ reason).trans (steady_enterHeld _ _ reason)

theorem lines_holdBoth (reason : HeldReason) : (holdBoth k reason s).lines = s.lines :=
  (lines_of_elsewhere (elsewhere_enterHeld _ (outletB k) reason)).trans
    (lines_of_elsewhere (elsewhere_enterHeld s (outletA k) reason))

theorem report_holdBoth (reason : HeldReason) (o : Outlet) : (holdBoth k reason s).report o = s.report o :=
  (report_of_elsewhere (elsewhere_enterHeld _ (outletB k) reason) o).trans
    (report_of_elsewhere (elsewhere_enterHeld s (outletA k) reason) o)

theorem heldCount_holdBoth (reason : HeldReason) {o : Outlet} (h : (s.inputs o).lineStale = true) :
    (holdBoth k reason s).heldCount o = s.heldCount o := by
  rw [holdBoth, heldCount_enterHeld (((steady_enterHeld s _ reason).lineStale o).trans h), heldCount_enterHeld h]

variable {k} in
/-- Nothing at one outlet hangs on the other. -/
theorem context_holdBoth (reason : HeldReason) {o : Outlet} (h : o ∈ outletsOf k) :
    (holdBoth k reason s).context o = (s.context o).map (·.heldFor reason) := by
  have hne := outletB_ne_outletA k
  rcases (outletsOf_cases k).1 h with rfl | rfl
  · rw [holdBoth, context_of_elsewhere (elsewhere_enterHeld _ (outletB k) reason) hne.symm, context_enterHeld]
  · rw [holdBoth, context_enterHeld, context_of_elsewhere (elsewhere_enterHeld _ (outletA k) reason) hne]

variable {k} in
theorem journaled_holdBoth (reason : HeldReason) {o : Outlet} {c : Context} {r : ResumeState} (h : o ∈ outletsOf k)
    (hc : s.context o = some c) (hr : c.phase.resume? = some r) :
    Journaled (.held o reason r) s (holdBoth k reason s) := by
  have he := elsewhere_enterHeld s (outletA k) reason
  rcases (outletsOf_cases k).1 h with rfl | rfl
  · exact (journaled_enterHeld hc hr).of_prefix (steady_enterHeld _ (outletB k) reason).queue
  · have hsame := (context_of_elsewhere he (outletB_ne_outletA k)).trans hc
    exact journaled_congr _ _ (control_of_elsewhere he) (journaled_enterHeld hsame hr)

/-- Both sessions checked for SETTLING (R41): the contexts alone change. -/
theorem settleBoth_keeps {β : Type} (f : State → β)
    (h : ∀ x, f { s with sessions := { s.sessions with contexts := x } } = f s) :
    f (forEach (outletsOf k) checkSettle s) = f s := by
  rw [forEach_checkSettle _ (nodup_outletsOf k), h]

variable {k} in
theorem context_settleBoth {o : Outlet} (h : o ∈ outletsOf k) :
    (forEach (outletsOf k) checkSettle s).context o =
      (s.context o).map fun c => c.judged (s.heldCount o) (s.report o).lineStale := by
  simp only [forEach_checkSettle _ (nodup_outletsOf k), State.context, Table.get, Vector.getElem_ofFn, if_pos h]

/-- Both sessions are held before either is judged. -/
theorem wentStale_goStale : WentStale k s (goStale k s) := by
  have htold := told_tellStale s k true (.lineStale k)
  have hcount (o : Outlet) := heldCount_tellStale s k (e := .lineStale k) (o := o)
  rw [goStale_eq]
  generalize tellStale k true (.lineStale k) s = w at htold hcount ⊢
  have hsteady := steady_holdBoth w k .stale
  have hlines := (lines_holdBoth w k .stale).trans htold.lines
  have hqueue := htold.journal ▸ hsteady.queue
  have hreport (o : Outlet) (ho : o ∈ outletsOf k) : ((holdBoth k .stale w).report o).lineStale = true := by
    rw [report_holdBoth, htold.report o ho]
  have hcontext (o : Outlet) (ho : o ∈ outletsOf k) := (context_holdBoth w .stale ho).trans (by rw [htold.context])
  have hheld (o : Outlet) (ho : o ∈ outletsOf k) :=
    (heldCount_holdBoth w k .stale (htold.lineStale o ho)).trans (hcount o ho)
  have hentry (o : Outlet) (ho : o ∈ outletsOf k) (c : Context) (r : ResumeState) (hc : s.context o = some c)
      (hr : c.phase.resume? = some r) : Journaled (.held o .stale r) s (holdBoth k .stale w) :=
    journaled_congr _ _ htold.control (journaled_holdBoth w .stale ho ((htold.context o).trans hc) hr)
  have hnow := hsteady.now.trans htold.now
  have hinputs (o : Outlet) (ho : o ∈ outletsOf k) := (hsteady.lineStale o).trans (htold.lineStale o ho)
  generalize holdBoth k .stale w = y at *
  have keeps {β : Type} (f : State → β) := settleBoth_keeps y k f
  exact
    { now := (keeps State.now fun _ => rfl).trans hnow, lines := (keeps State.lines fun _ => rfl).trans hlines,
      queue := (keeps (·.journal.queue) fun _ => rfl) ▸ hqueue,
      report := fun o ho => (congrArg OutletReport.lineStale (keeps (·.report o) fun _ => rfl)).trans (hreport o ho),
      lineStale := fun o ho => (congrArg WantInputs.lineStale (keeps (·.inputs o) fun _ => rfl)).trans (hinputs o ho),
      context := fun o ho => by
        rw [context_settleBoth y ho, hcontext o ho, hreport o ho, hheld o ho, Option.map_map]; rfl,
      held := fun o ho c r hc hr =>
        (hentry o ho c r hc hr).of_prefix ((keeps (·.journal.queue) fun _ => rfl) ▸ List.prefix_rfl) }

end Sys2Proof.Machine
end

