-- ==== Sys2Proof/Proofs/Exchanges.lean ====
section
/-! SUPPORT. Failed exchanges (O43): the poll counts as missed, the fourth miss of a fresh line makes it STALE, and the
line enters WAITING (R87, R88, R93). -/

namespace Sys2Proof.Machine

variable (s : State) (k : LineNo) (l : Line)

/-- A line enters WAITING with the poll that is then due. -/
theorem enterWaiting_eq :
    enterWaiting k s = setLine k ({ s.line k with state := .waiting, outstanding := none }.seenTo k s) s := by
  conv_lhs => rw [← setLine_line s k]
  exact enterWaiting_setLine s k (s.line k)

/-- A miss that is not the fourth of a fresh line. -/
theorem failExchange_setLine (h : l.missed ≠ 3 ∨ l.stale = true) :
    failExchange k (setLine k l s) = setLine k (l.failed.seenTo k s) s := by
  have hnot : ¬(satAdd 255 l.missed 1 = 4 ∧ l.stale = false) := by
    rintro ⟨hmissed, hfresh⟩
    rcases h with h | h
    · unfold satAdd at hmissed; omega
    · rw [h] at hfresh; cases hfresh
  have hmiss : missPoll k (setLine k l s) = setLine k { l with missed := satAdd 255 l.missed 1 } s := by
    simp [missPoll, hnot]
  rw [failExchange, hmiss, enterWaiting_setLine]
  rfl

/-- The fourth miss of a fresh line makes it STALE. -/
theorem failExchange_setLine_fourth (hmissed : l.missed = 3) (hfresh : l.stale = false) :
    failExchange k (setLine k l s) = enterWaiting k (goStale k (setLine k { l with missed := 4 } s)) := by
  simp [failExchange, missPoll, hmissed, hfresh, satAdd]

/-- What the fourth miss of a line leaves, from the line `l` at the instant of the state `v`. -/
structure FourthMiss (s v u : State) : Prop where
  line : u.line k = { l.failed with stale := true }.seenTo k u
  now : u.now = v.now
  queue : (give (.lineStale k) v).journal.queue <+: u.journal.queue
  outlets : ∀ o ∈ outletsOf k, (u.report o).lineStale = true ∧ (u.inputs o).lineStale = true ∧
    (∀ c r, s.context o = some c → c.phase.resume? = some r →
      Stands u o { c with phase := .held r .stale false, heldMinutes := 0 } ∧ Journaled (.held o .stale r) s u) ∧
    ∀ c, s.context o = some c → c.phase.resume? = none → Stands u o (c.judged (s.heldCount o) true)

theorem fourthMiss_failExchange (t : Time) (hmissed : l.missed = 3) (hfresh : l.stale = false) :
    FourthMiss k l s (atTime t s) (endEvent (failExchange k (setLine k l (atTime t s)))) := by
  have hstale := wentStale_goStale (setLine k { l with missed := 4 } (atTime t s)) k
  rw [failExchange_setLine_fourth _ _ _ hmissed hfresh, enterWaiting_eq]
  generalize goStale k (setLine k { l with missed := 4 } (atTime t s)) = g at hstale ⊢
  obtain ⟨hnow, hlines, hqueue, hreport, hinputs, hcontext, hheld⟩ := hstale
  have hline : { g.line k with state := .waiting, outstanding := none } = { l.failed with stale := true } := by
    have h : g.line k = { l with missed := 4, stale := true } := by
      rw [State.line, hlines]; simp [setLine, Table.get, Table.set, State.line]
    simp [h, Line.failed, hmissed]
  rw [hline]
  refine
    { line := by rw [line_endEvent, line_setLine, seenTo_endEvent, seenTo_setLine],
      now := (now_endEvent _).trans hnow, queue := hqueue.trans (queue_endEvent (setLine k _ g)),
      outlets := fun o ho => ?_ }
  have hstands {c d : Context} (hc : s.context o = some c) (hd : (c.heldFor .stale).judged (s.heldCount o) true = d) :
      Stands g o d := by
    have h : g.context o = some d := by
      rw [hcontext o ho, ← hd]; exact congrArg (Option.map _) hc
    rw [Stands, h]; rfl
  refine ⟨by rw [report_endEvent]; exact hreport o ho, by rw [inputs_endEvent]; exact hinputs o ho, fun c r hc hr => ?_,
    fun c hc hr => ?_⟩
  · exact ⟨stands_endEvent _ o _ (hstands hc (judged_of_resume hr _ _)),
      journaled_endEvent s _ _ (hheld o ho c r hc hr)⟩
  · exact stands_endEvent _ o _ (hstands hc (by rw [heldFor_of_none hr]))

variable {s k l} in
/-- The entry of the line is in the queue, where there is room. -/
theorem FourthMiss.mem_queue {v u : State} (h : FourthMiss k l s v u) (hroom : v.journal.queue.length < 8) :
    { kind := .lineStale k, seconds := v.control.seconds } ∈ u.journal.queue :=
  h.queue.subset (mem_queue_give v _ hroom)

variable {s k} in
/-- The end of the reply window of a line AWAITING. -/
theorem exec_replyWindowEnd {e : Time} (h : (s.line k).state = .awaiting e) :
    exec (.replyWindowEnd k) s =
      finish (failExchange k
        (setLine k { s.line k with counters := (s.line k).counters.addSilent } (atTime e s))) := by
  show execReplyWindowEnd k s = _
  rw [execReplyWindowEnd, h]
  rfl

/-- A reply with a sequence number that is not its poll's is a fault (R88). -/
theorem goodReply_wrongSeq {f : Vector Byte 29} {p : PollRecord} (h : l.isAwaiting = true) (hp : l.outstanding = some p)
    (hseq : f[1] ≠ p.seq) :
    goodReply k f (setLine k l s) = failExchange k (setLine k { l with counters := l.counters.addSeq } s) := by
  rw [← frameFault_setLine_of_awaiting s k l _ h]
  simp [goodReply, h, hp, hseq]

/-- Settles O43: each fault raises its counter, and what then fails is the one exchange. -/
theorem exchangesFail : Obligations.ExchangesFail := by
  intro t e k s hawaiting l c now fails
  have hfails (t' : Time) (l' : Line) (hmissed : l'.missed = l.missed) (hstale : l'.stale = l.stale) :
      fails l' (atTime t' s) (endEvent (failExchange k (setLine k l' (atTime t' s)))) := by
    refine ⟨fun h => ?_, fun h3 hfresh => ?_⟩
    · rw [failExchange_setLine _ _ _ (by rwa [hmissed, hstale])]
      exact ends_endEvent _
    · have h := fourthMiss_failExchange s k l' t' (hmissed.trans h3) (hstale.trans hfresh)
      refine ⟨h.line, by rw [h.line, stale_seenTo], h.now, ?_, by rw [h.line, counters_seenTo]; rfl, ?_, h.outlets⟩
      · rw [h.line, missed_seenTo]; simp [Line.failed, hmissed, h3]
      · exact (journaled_give s _).of_prefix h.queue
  have hreceives : l.receives = true := (receives_iff l).2 (.inr (.inr ⟨e, hawaiting⟩))
  have hcrc : l.unframed.isAwaiting = true := isAwaiting_of_state _ hawaiting
  refine ⟨⟨_, exec_replyWindowEnd hawaiting, hfails e _ rfl rfl, fun h3 hfresh hroom => ?_⟩, fun hframe => ?_,
    fun f h0 hbad hkind => ?_, fun f h0 hkind => ?_⟩
  · exact (fourthMiss_failExchange s k { l with counters := c.addSilent } e h3 hfresh).mem_queue hroom
  · refine ⟨_, exec_frameBroken t hreceives hframe, ?_⟩
    rw [frameFault_setLine_of_awaiting _ _ _ _ hcrc]
    exact hfails t _ rfl rfl
  · refine ⟨_, exec_alertFrame t h0 hreceives hkind, ?_⟩
    simp only [hbad, Bool.false_eq_true, if_false]
    rw [frameFault_setLine_of_awaiting _ _ _ _ hcrc]
    exact hfails t _ rfl rfl
  · refine ⟨_, exec_replyFrame t h0 hreceives hkind, fun hbad => ?_, fun p hgood hp hseq => ?_⟩
    · simp only [hbad, Bool.false_eq_true, if_false]
      rw [frameFault_setLine_of_awaiting _ _ _ _ hcrc]
      exact hfails t _ rfl rfl
    · simp only [hgood, if_true]
      rw [goodReply_wrongSeq _ _ _ hcrc hp hseq]
      exact hfails t _ rfl rfl

end Sys2Proof.Machine
end

