-- ==== Sys2Proof/Proofs/Replies.lean ====
section
/-! SUPPORT. Good replies (O44): what one places in the reply slot, what it makes of its line, and the holds for STALE
that end (R85, R86, R94, R119). -/

namespace Sys2Proof.Machine

/-! ### The fields of a reply (12.8) -/

theorem toNat_append_byte (a b : Byte) : (a ++ b).toNat = 256 * a.toNat + b.toNat := by
  rw [BitVec.toNat_append, ← Nat.shiftLeft_add_eq_or_of_lt b.isLt, Nat.shiftLeft_eq, Nat.mul_comm]

theorem newsAt_eq (f : Vector Byte 29) (i : Nat) (h : i + 11 < 27) :
    newsAt f i h =
      { plug := if f[i] = 0#8 then .unplugged else if f[i] = 1#8 then .plugged else .fault, complete := f[i + 1] != 0,
        demand := min 1000 (256 * f[i + 2].toNat + f[i + 3].toNat), applied := (f[i + 4] ++ f[i + 5]).setWidth 10,
        faults := (f[i + 6] ++ f[i + 7]).setWidth 10, register := f[i + 8] ++ f[i + 9] ++ f[i + 10] ++ f[i + 11] } := by
  rw [newsAt, plugOf_eq, toNat_append_byte]

/-! ### The line of a good reply -/

/-- A line that has accepted a reply (R85, R94). -/
def Line.replied (l : Line) (r : HeldReply) : Line :=
  { l with replySlot := some r, missed := 0, outstanding := none, state := .waiting, stale := false }

section
variable (s : State) (k : LineNo) (l : Line) {f : Vector Byte 29} {p : PollRecord}

theorem goodReply_of_seq (h : l.isAwaiting = true) (hp : l.outstanding = some p) (hseq : f[1] = p.seq) :
    goodReply k f (setLine k l s) = acceptReply k f p (setLine k l s) := by
  simp [goodReply, h, hp, hseq]

/-- Outside an exchange a reply is late and is discarded (R89). -/
theorem goodReply_late (h : l.isAwaiting = false) : goodReply k f (setLine k l s) = setLine k (l.seenTo k s) s := by
  simp [goodReply, h]

theorem acceptReply_fresh (h : l.stale = false) :
    acceptReply k f p (setLine k l s) = setLine k ((l.replied (replyOf f p s.now)).seenTo k s) s := by
  simp only [acceptReply, line_setLine, h, mapLine_setLine, Bool.false_eq_true, if_false, enterWaiting_setLine]
  rfl

theorem acceptReply_stale (h : l.stale = true) :
    acceptReply k f p (setLine k l s) =
      enterWaiting k
        (goFresh k l.missed (setLine k { l with replySlot := some (replyOf f p s.now), missed := 0 } s)) := by
  simp only [acceptReply, line_setLine, h, mapLine_setLine, if_true]
  rfl

end

/-! ### The holds for STALE that end (R119) -/

section
variable {s w : State} {k : LineNo} {o : Outlet} {c : Context} {r : ResumeState} {reason : HeldReason} {d : Bool}

/-- Both outlets' holds of a reason end, in outlet order. -/
def endBoth (k : LineNo) (reason : HeldReason) (s : State) : State :=
  endHold (outletB k) reason (endHold (outletA k) reason s)

theorem steady_endBoth (s : State) (k : LineNo) (reason : HeldReason) : Steady s (endBoth k reason s) :=
  (steady_endHold s _ reason).trans (steady_endHold _ _ reason)

theorem lines_endBoth (s : State) (k : LineNo) (reason : HeldReason) : (endBoth k reason s).lines = s.lines :=
  (lines_of_elsewhere (elsewhere_endHold _ (outletB k) reason)).trans
    (lines_of_elsewhere (elsewhere_endHold s (outletA k) reason))

theorem report_endBoth (s : State) (k : LineNo) (reason : HeldReason) (o : Outlet) :
    (endBoth k reason s).report o = s.report o :=
  (report_of_elsewhere (elsewhere_endHold _ (outletB k) reason) o).trans
    (report_of_elsewhere (elsewhere_endHold s (outletA k) reason) o)

/-- A hold that ends while the outlet reports a FAULT goes on for that. -/
theorem endHold_of_fault (hc : s.context o = some c) (hp : c.phase = .held r reason d)
    (hfresh : (s.report o).lineStale = false) (hfault : (s.report o).plug = .fault) :
    Stands (endHold o reason s) o { c with phase := .held r .outletFault d } ∧
      Journaled (.held o .outletFault r) s (endHold o reason s) := by
  have h : endHold o reason s = give (.held o .outletFault r) (setPhase o (.held r .outletFault d) s) := by
    simp [endHold, hc, hp, hfresh, hfault]
  rw [h]
  exact ⟨by simp [Stands, setPhase, hc], journaled_congr _ _ rfl (journaled_give _ _)⟩

variable (h : o ∈ outletsOf k) (hc : s.context o = some c) (hp : c.phase = .held r reason d)
  (hfresh : (s.report o).lineStale = false)
include h hc hp hfresh

/-- At the second outlet what has been done at the first makes no difference. -/
theorem endBoth_of_fault (hfault : (s.report o).plug = .fault) :
    Stands (endBoth k reason s) o { c with phase := .held r .outletFault d } ∧
      Journaled (.held o .outletFault r) s (endBoth k reason s) := by
  have hne := outletB_ne_outletA k
  have he := elsewhere_endHold s (outletA k) reason
  rcases (outletsOf_cases k).1 h with rfl | rfl
  · have hstays := sessionStays_endHold hne.symm reason (endHold (outletA k) reason s)
    obtain ⟨hstands, hentry⟩ := endHold_of_fault hc hp hfresh hfault
    exact ⟨hstays.stands hstands, hstays.journaled hentry⟩
  · rw [← context_of_elsewhere he hne] at hc
    rw [← report_of_elsewhere he] at hfresh hfault
    obtain ⟨hstands, hentry⟩ := endHold_of_fault hc hp hfresh hfault
    exact ⟨hstands, journaled_congr _ _ (control_of_elsewhere he) hentry⟩

theorem endBoth_recovered (hplug : (s.report o).plug ≠ .fault) (hsole : SoleHeir s o c) :
    Recovered s o c r reason d (endBoth k reason s) := by
  have hne := outletB_ne_outletA k
  have he := elsewhere_endHold s (outletA k) reason
  rcases (outletsOf_cases k).1 h with rfl | rfl
  · have hstays := sessionStays_endHold hne.symm reason (endHold (outletA k) reason s)
    exact hstays.recovered (endHold_recovered s _ c r reason d hc hp hfresh hplug)
  · have hheir := heirStands_endHold hne.symm reason hsole
    rw [← context_of_elsewhere he hne] at hc
    rw [← report_of_elsewhere he] at hfresh hplug
    exact hheir.recovered (control_of_elsewhere he) (ceiling_of_elsewhere he hne)
      (endHold_recovered _ _ c r reason d hc hp hfresh hplug)

end

theorem soleHeir_congr {s w : State} {o : Outlet} {c : Context} (hstandby : w.standby = s.standby)
    (hcontext : ∀ o, w.context o = s.context o) (h : SoleHeir s o c) : SoleHeir w o c := by
  intro ha hg l hl he o' c' hne hc'
  rw [entryOf_congr hstandby] at he
  exact h ha hg l hl he o' c' hne (hcontext o' ▸ hc')

/-! ### A line that becomes fresh -/

theorem goFresh_eq (s : State) (k : LineNo) (n : Nat) :
    goFresh k n s = endBoth k .stale (tellStale k false (.lineFresh k n) s) := by
  rw [endBoth, ← forEach_outletsOf (tellStale k false (.lineFresh k n) s) k fun o => endHold o .stale, goFresh,
    tellStale, markLine]

/-- What a STALE line that becomes fresh leaves beyond the line: its entry, its marks, and the holds for STALE ended. -/
structure HoldsEnded (k : LineNo) (n : Nat) (s u : State) : Prop where
  queue : (give (.lineFresh k n) s).journal.queue <+: u.journal.queue
  report : ∀ o ∈ outletsOf k, (u.report o).lineStale = false
  lineStale : ∀ o ∈ outletsOf k, (u.inputs o).lineStale = false
  fault : ∀ o ∈ outletsOf k, ∀ c r d, s.context o = some c → c.phase = .held r .stale d → (s.report o).plug = .fault →
    Stands u o { c with phase := .held r .outletFault d } ∧ Journaled (.held o .outletFault r) s u
  recovered : ∀ o ∈ outletsOf k, ∀ c r d, s.context o = some c → c.phase = .held r .stale d →
    (s.report o).plug ≠ .fault → SoleHeir s o c → Recovered s o c r .stale d u

section
variable (s : State) (k : LineNo) (n : Nat)

theorem now_goFresh : (goFresh k n s).now = s.now := by
  rw [goFresh_eq, (steady_endBoth _ k .stale).now, (told_tellStale s k false _).now]

theorem line_goFresh : (goFresh k n s).line k = { s.line k with stale := false } := by
  have hlines : (goFresh k n s).lines = (setLine k { s.line k with stale := false } s).lines := by
    rw [goFresh_eq, lines_endBoth, (told_tellStale s k false _).lines]
  rw [State.line, hlines]
  exact line_setLine s k _

theorem holdsEnded_goFresh : HoldsEnded k n s (goFresh k n s) := by
  have htold := told_tellStale s k false (.lineFresh k n)
  rw [goFresh_eq]
  generalize tellStale k false (.lineFresh k n) s = w at htold ⊢
  have hsteady := steady_endBoth w k .stale
  have hreport (o : Outlet) (ho : o ∈ outletsOf k) : (w.report o).lineStale = false := by rw [htold.report o ho]
  have hplug (o : Outlet) (ho : o ∈ outletsOf k) : (w.report o).plug = (s.report o).plug := by rw [htold.report o ho]
  exact
    { queue := htold.journal ▸ hsteady.queue, report := fun o ho => by rw [report_endBoth, hreport o ho],
      lineStale := fun o ho => (hsteady.lineStale o).trans (htold.lineStale o ho),
      fault := fun o ho c r d hc hp hfault => by
        obtain ⟨hstands, hentry⟩ :=
          endBoth_of_fault ho ((htold.context o).trans hc) hp (hreport o ho) ((hplug o ho).trans hfault)
        exact ⟨hstands, journaled_congr _ _ htold.control hentry⟩,
      recovered := fun o ho c r d hc hp hplugged hsole =>
        (HeirStands.of_standby htold.standby).recovered htold.control (htold.ceiling o)
          (endBoth_recovered ho ((htold.context o).trans hc) hp (hreport o ho) (hplug o ho ▸ hplugged)
            (soleHeir_congr htold.standby htold.context hsole)) }

end

/-- A line replaced after it, and the end of the event, make no difference. -/
theorem HoldsEnded.endEvent_setLine {k : LineNo} {n : Nat} {s g : State} (h : HoldsEnded k n s g) (l : Line) :
    HoldsEnded k n s (endEvent (setLine k l g)) :=
  { queue := h.queue.trans (queue_endEvent (setLine k l g)),
    report := fun o ho => by rw [report_endEvent]; exact h.report o ho,
    lineStale := fun o ho => by rw [inputs_endEvent]; exact h.lineStale o ho,
    fault := fun o ho c r d hc hp hfault => by
      obtain ⟨hstands, hentry⟩ := h.fault o ho c r d hc hp hfault
      exact ⟨stands_endEvent _ o _ hstands, journaled_endEvent s _ _ hentry⟩,
    recovered := fun o ho c r d hc hp hplug hsole =>
      ((sessionStays_setLine o g k l).recovered (h.recovered o ho c r d hc hp hplug hsole)).endEvent }

/-- A line replaced before it makes no difference either. -/
theorem HoldsEnded.of_setLine {k : LineNo} {n : Nat} {s u : State} {l : Line} {t : Time}
    (h : HoldsEnded k n (setLine k l (atTime t s)) u) : HoldsEnded k n s u :=
  ⟨h.queue, h.report, h.lineStale, h.fault, h.recovered⟩

/-! ### An accepted reply -/

section
variable (s : State) (k : LineNo) (l : Line) (f : Vector Byte 29) (p : PollRecord)

theorem line_acceptReply :
    ∃ v : State, v.now = s.now ∧
      (endEvent (acceptReply k f p (setLine k l s))).line k = (l.replied (replyOf f p s.now)).seenTo k v := by
  cases h : l.stale with
  | false => exact ⟨s, rfl, by rw [line_endEvent, acceptReply_fresh s k l h, line_setLine]⟩
  | true =>
    refine ⟨_, now_goFresh (setLine k { l with replySlot := some (replyOf f p s.now), missed := 0 } s) k l.missed, ?_⟩
    rw [line_endEvent, acceptReply_stale s k l h, enterWaiting_eq, line_setLine, line_goFresh, line_setLine]
    rfl

theorem holdsEnded_acceptReply (t : Time) (h : l.stale = true) :
    HoldsEnded k l.missed s (endEvent (acceptReply k f p (setLine k l (atTime t s)))) := by
  have hended := holdsEnded_goFresh
    (setLine k { l with replySlot := some (replyOf f p (atTime t s).now), missed := 0 } (atTime t s)) k l.missed
  rw [acceptReply_stale _ k l h, enterWaiting_eq]
  exact (hended.endEvent_setLine _).of_setLine

end

/-- Settles O44: an accepted reply, and a late one in WAITING and in WITHHELD. -/
theorem repliesTaken : Obligations.RepliesTaken := by
  intro t k f s p h0 hgood hkind l now plug held
  have hheld : replyOf f p now = held := by rw [replyOf, newsAt_eq, newsAt_eq]
  obtain ⟨u, hu⟩ : ∃ u, exec (.replyFrame t k f) s = .next u := ⟨_, rfl⟩
  have hleaves (hrec : l.receives = true) : u = endEvent (goodReply k f (setLine k l.unframed (atTime t s))) := by
    have hexec := exec_replyFrame t h0 hrec hkind
    simp only [hgood, if_true] at hexec
    rw [hexec] at hu
    cases hu
    rfl
  refine ⟨u, hu, fun e he hp hseq => ?_, fun hwaiting => ?_, fun hwithheld => ?_⟩
  · have haccepted := hleaves ((receives_iff l).2 (.inr (.inr ⟨e, he⟩)))
    have hin : l.unframed.isAwaiting = true := isAwaiting_of_state _ he
    rw [goodReply_of_seq _ k _ hin hp hseq] at haccepted
    obtain ⟨v, hnow, hline⟩ := line_acceptReply (atTime t s) k l.unframed f p
    rw [← haccepted, show replyOf f p (atTime t s).now = held from hheld] at hline
    refine ⟨by rw [hline, replySlot_seenTo]; rfl, by rw [hline, missed_seenTo]; rfl, by rw [hline, stale_seenTo]; rfl,
      by rw [hline, counters_seenTo]; rfl, ⟨fun hdue => ?_, fun hdue => ?_, fun hfresh => ?_⟩, fun hstale => ?_⟩
    · rw [hline]
      exact seenTo_of_full v k _ rfl rfl (hnow ▸ hdue) (Option.some_ne_none held)
    · rw [hline]
      exact seenTo_of_not_due v k _ (hnow ▸ hdue)
    · have hset := acceptReply_fresh (atTime t s) k l.unframed (f := f) (p := p) hfresh
      rw [hset] at haccepted
      rw [haccepted, line_endEvent, line_setLine]
      exact ends_endEvent _
    · have hended := holdsEnded_acceptReply s k l.unframed f p t hstale
      rw [← haccepted] at hended
      refine ⟨fun o ho => ⟨hended.report o ho, hended.lineStale o ho⟩,
        fun hroom => hended.queue.subset (mem_queue_give s _ hroom), fun o ho c r d hc hphase => ?_⟩
      exact ⟨hended.fault o ho c r d hc hphase, hended.recovered o ho c r d hc hphase⟩
  · have hout : l.unframed.isAwaiting = false := isAwaiting_eq_false _ fun e he => by cases hwaiting.symm.trans he
    rw [hleaves ((receives_iff l).2 (.inl hwaiting)), goodReply_late _ _ _ hout]
    exact ends_endEvent _
  · have hout : l.unframed.isAwaiting = false := isAwaiting_eq_false _ fun e he => by cases hwithheld.symm.trans he
    have hstays := seenTo_of_not_waiting (atTime t s) k l.unframed fun he => by cases hwithheld.symm.trans he
    rw [hleaves ((receives_iff l).2 (.inr (.inl hwithheld))), goodReply_late _ _ _ hout, hstays]
    exact ends_endEvent _

end Sys2Proof.Machine
end

