-- ==== Sys2Proof/Proofs/SessionDoings.lean ====
section
/-! SUPPORT. The doings of one outlet's session (R25 to R39, R112 to R119, R129 to R151, R159), said once for the
statements that name what they leave: nothing changes but at the outlet (`OnlyAt`); and what they leave of the outlet's own
report, inputs and meter record, of the modules of an outlet that wants none, of the journal queue and of the Standby
Table. -/

namespace Sys2Proof.Machine

variable {o : Outlet} {s v u : State}

/-! ### Only at one outlet -/

theorem OnlyAt.trans (h : OnlyAt o s v) (h' : OnlyAt o v u) : OnlyAt o s u := by
  obtain ⟨hrest, hother⟩ := h
  obtain ⟨hrest', hother'⟩ := h'
  refine ⟨?_, fun o' ho => ?_⟩
  · rw [hrest] at hrest'
    exact hrest'
  · obtain ⟨hcontext, hreport, hceiling, hinputs, hrecord⟩ := hother o' ho
    obtain ⟨hcontext', hreport', hceiling', hinputs', hrecord'⟩ := hother' o' ho
    exact ⟨hcontext'.trans hcontext, hreport'.trans hreport, hceiling'.trans hceiling, hinputs'.trans hinputs,
      by rw [hrecord', hrecord]⟩

section
variable (h : OnlyAt o s u) {o' : Outlet} (ho : o' ≠ o)
include h

theorem OnlyAt.settings : u.control.settings = s.control.settings := by rw [h.1]
theorem OnlyAt.seconds : u.control.seconds = s.control.seconds := by rw [h.1]
theorem OnlyAt.band : u.sessions.band = s.sessions.band := by rw [h.1]
theorem OnlyAt.port : u.port = s.port := by rw [h.1]
theorem OnlyAt.lines : u.lines = s.lines := by rw [h.1]
theorem OnlyAt.pointer : u.meters.pointer = s.meters.pointer := by rw [h.1]
theorem OnlyAt.blocked : u.meters.blocked = s.meters.blocked := by rw [h.1]

include ho

theorem OnlyAt.context : u.context o' = s.context o' := (h.2 o' ho).1
theorem OnlyAt.report : u.report o' = s.report o' := (h.2 o' ho).2.1
theorem OnlyAt.ceiling : u.ceiling o' = s.ceiling o' := (h.2 o' ho).2.2.1
theorem OnlyAt.inputs : u.inputs o' = s.inputs o' := (h.2 o' ho).2.2.2.1
theorem OnlyAt.record : u.record o' = { s.record o' with peak := (u.record o').peak } := (h.2 o' ho).2.2.2.2

theorem OnlyAt.want : u.want o' = s.want o' := by
  have hmaximums : u.power.maximums = s.power.maximums := by rw [h.1]
  have hrunning : u.power.partRunning = s.power.partRunning := by rw [h.1]
  rw [State.want, h.inputs ho, hmaximums, hrunning]
  rfl

end

/-! ### Doings at one outlet -/

/-- An interval peak rises, if at all, to a count of modules (R110). -/
def PeakRises (s u : State) (o : Outlet) : Prop :=
  (s.record o).peak ≤ (u.record o).peak ∧ (u.record o).peak ≤ max (s.record o).peak 40

theorem PeakRises.of_record (h : u.record o = s.record o) : PeakRises s u o := by
  rw [PeakRises, h]
  exact ⟨le_rfl, le_max_left ..⟩

theorem PeakRises.trans (h : PeakRises s v o) (h' : PeakRises v u o) : PeakRises s u o := by
  unfold PeakRises at *
  omega

/-- What a doing at one outlet leaves of the others, of the journal queue and of the Standby Table: an outlet that wants no
module keeps those it has GRANTED or RELEASING; no entry leaves the queue, and none comes to the table. -/
structure Local (o : Outlet) (s u : State) : Prop where
  onlyAt : OnlyAt o s u
  peaks : ∀ o', o' ≠ o → PeakRises s u o'
  held : ∀ o', o' ≠ o → s.want o' = 0 → u.heldCount o' = s.heldCount o'
  queue : s.journal.queue <+: u.journal.queue
  gone : ∀ l, s.entryOf l = none → u.entryOf l = none

theorem Local.trans (h : Local o s v) (h' : Local o v u) : Local o s u :=
  { onlyAt := h.onlyAt.trans h'.onlyAt, peaks := fun o' ho => (h.peaks o' ho).trans (h'.peaks o' ho),
    held := fun o' ho hw => (h'.held o' ho ((h.onlyAt.want ho).trans hw)).trans (h.held o' ho hw),
    queue := h.queue.trans h'.queue, gone := fun l hl => h'.gone l (h.gone l hl) }

/-- A doing of the outlet's session: its report stays, its meter record but for the peak, and its inputs but for the
session's own two. -/
structure Within (o : Outlet) (s u : State) : Prop extends Local o s u where
  report : u.report o = s.report o
  inputs : u.inputs o = { s.inputs o with active := (u.inputs o).active, ceiling := (u.inputs o).ceiling }
  record : u.record o = { s.record o with peak := (u.record o).peak }
  peak : PeakRises s u o

theorem Within.trans (h : Within o s v) (h' : Within o v u) : Within o s u :=
  { h.toLocal.trans h'.toLocal with
    report := h'.report.trans h.report, inputs := by rw [h'.inputs, h.inputs], record := by rw [h'.record, h.record],
    peak := h.peak.trans h'.peak }

/-- `Within.trans`, with the last doing first. -/
theorem Within.after (h' : Within o v u) (h : Within o s v) : Within o s u := h.trans h'

/-! ### The small updates -/

variable (s)

/-- What leaves the Apportioner, the meter records and the Standby Table is within the outlet, if nothing changes but
there. -/
theorem Within.of_onlyAt {o : Outlet} {s u : State} (h : OnlyAt o s u) (hreport : u.report o = s.report o)
    (hpower : u.power = s.power) (hrecords : u.meters.records = s.meters.records) (hstandby : u.standby = s.standby)
    (hqueue : s.journal.queue <+: u.journal.queue) : Within o s u := by
  have hrecord (o' : Outlet) : u.record o' = s.record o' := by rw [State.record, hrecords]; rfl
  have hinputs : u.inputs o = s.inputs o := by rw [State.inputs, hpower]; rfl
  exact
    { onlyAt := h, peaks := fun o' _ => .of_record (hrecord o'),
      held := fun o' _ _ => by rw [State.heldCount, hpower]; rfl, queue := hqueue,
      gone := fun l hl => (entryOf_congr hstandby l).trans hl, report := hreport, inputs := by rw [hinputs],
      record := by rw [hrecord], peak := .of_record (hrecord o) }

theorem Within.refl (o : Outlet) (s : State) : Within o s s :=
  .of_onlyAt ⟨rfl, fun _ _ => ⟨rfl, rfl, rfl, rfl, rfl⟩⟩ rfl rfl rfl rfl List.prefix_rfl

theorem within_setContext (o : Outlet) (c : Option Context) : Within o s (setContext o c s) :=
  .of_onlyAt ⟨rfl, fun _ ho => ⟨Table.get_set_ne _ _ _ _ ho.symm, rfl, rfl, rfl, rfl⟩⟩ rfl rfl rfl rfl
    List.prefix_rfl

theorem within_mapContext (o : Outlet) (f : Context → Context) : Within o s (mapContext o f s) :=
  within_setContext s o _

theorem within_give (o : Outlet) (e : EntryKind) : Within o s (give e s) := by
  refine .of_onlyAt ⟨?_, fun _ _ => ⟨rfl, rfl, rfl, rfl, rfl⟩⟩ rfl rfl rfl rfl (queue_give s e)
  unfold give
  split <;> rfl

theorem within_raise (o : Outlet) (n : Notice) : Within o s (raise n s) :=
  .of_onlyAt ⟨rfl, fun _ _ => ⟨rfl, rfl, rfl, rfl, rfl⟩⟩ rfl rfl rfl rfl List.prefix_rfl

theorem within_countStart (o : Outlet) : Within o s (countStart s) :=
  .of_onlyAt ⟨rfl, fun _ _ => ⟨rfl, rfl, rfl, rfl, rfl⟩⟩ rfl rfl rfl rfl List.prefix_rfl

theorem within_removeEntry (o : Outlet) (l : CellIndex) : Within o s (removeEntry l s) :=
  { onlyAt := ⟨rfl, fun _ _ => ⟨rfl, rfl, rfl, rfl, rfl⟩⟩, peaks := fun _ _ => .of_record rfl,
    held := fun _ _ _ => rfl,
    queue := List.prefix_rfl,
    gone := fun l' hl => by
      by_cases h : l' = l
      · rw [h]; exact entryOf_removeEntry s l
      · rw [entryOf_removeEntry_of_ne s h, hl],
    report := rfl, inputs := rfl, record := rfl, peak := .of_record rfl }

/-! ### Deliveries and passes -/

theorem within_requestPass (o : Outlet) : Within o s (requestPass s) :=
  { onlyAt := ⟨rfl, fun _ _ => ⟨rfl, rfl, rfl, rfl, rfl⟩⟩, peaks := fun _ _ => .of_record rfl,
    held := fun _ _ _ => rfl,
    queue := List.prefix_rfl, gone := fun _ => id, report := rfl, inputs := rfl, record := rfl, peak := .of_record rfl }

theorem heldCount_le (o : Outlet) : s.heldCount o ≤ 40 := by
  have h := List.countP_le_length (p := Module.heldBy o) (l := s.power.modules.toList)
  rwa [Vector.length_toList] at h

theorem peakRises_pass (o : Outlet) : PeakRises s (pass s) o := by
  have h := heldCount_le (pass s) o
  have hpeak : ((pass s).record o).peak = max (s.record o).peak ((pass s).heldCount o) := by rw [record_pass]
  rw [PeakRises, hpeak]
  omega

/-- A pass changes the Module Table and the peaks alone, so it is within every outlet (R55). -/
theorem within_pass (o : Outlet) : Within o s (pass s) := by
  have hrecord (o' : Outlet) : (pass s).record o' = { s.record o' with peak := ((pass s).record o').peak } := by
    rw [record_pass]
  have hpeak := peakRises_pass s
  have hheld (o' : Outlet) := heldCount_pass s o'
  have heq := pass_eq s
  generalize pass s = p at hrecord hpeak hheld heq ⊢
  have hsessions : p.sessions = s.sessions := by rw [heq]
  have hinputs : p.inputs = s.inputs := by rw [heq]; rfl
  refine
    { onlyAt := ⟨by rw [heq], fun o' _ => ⟨?_, ?_, ?_, by rw [hinputs], hrecord o'⟩⟩, peaks := fun o' _ => hpeak o',
      held := fun o' _ => hheld o', queue := by rw [heq],
      gone := fun l hl => (entryOf_congr (by rw [heq]) l).trans hl, report := ?_, inputs := by rw [hinputs],
      record := hrecord o, peak := hpeak o }
  · rw [State.context, hsessions]; rfl
  · rw [State.report, hsessions]; rfl
  · rw [State.ceiling, hsessions]; rfl
  · rw [State.report, hsessions]; rfl

theorem within_immediatePass (o : Outlet) : Within o s (immediatePass s) := by
  unfold immediatePass
  split
  · exact within_pass s o
  · exact .refl o s

/-- What a delivery leaves before its pass. -/
theorem setInputs_eq (o : Outlet) (f : WantInputs → WantInputs) :
    setInputs o f s =
      { s with
        power := { s.power with
          inputs := Table.set s.power.inputs o (f (s.inputs o)),
          passRequest := (setInputs o f s).power.passRequest } } := by
  unfold setInputs
  dsimp only
  split <;> rfl

theorem inputs_setInputs (o o' : Outlet) (f : WantInputs → WantInputs) :
    (setInputs o f s).inputs o' = if o = o' then f (s.inputs o) else s.inputs o' := by
  rw [setInputs_eq]
  exact Table.get_set ..

/-- A delivery to an outlet is a doing there. -/
theorem local_setInputs (o : Outlet) (f : WantInputs → WantInputs) : Local o s (setInputs o f s) := by
  have hinputs (o' : Outlet) (ho : o' ≠ o) : (setInputs o f s).inputs o' = s.inputs o' := by
    rw [inputs_setInputs, if_neg ho.symm]
  have heq := setInputs_eq s o f
  generalize setInputs o f s = w at hinputs heq ⊢
  have hrecord (o' : Outlet) : w.record o' = s.record o' := by rw [heq]; rfl
  exact
    { onlyAt := ⟨by rw [heq], fun o' ho =>
        ⟨by rw [heq]; rfl, by rw [heq]; rfl, by rw [heq]; rfl, hinputs o' ho, by rw [hrecord]⟩⟩,
      peaks := fun o' _ => .of_record (hrecord o'), held := fun _ _ _ => by rw [heq]; rfl, queue := by rw [heq],
      gone := fun l hl => (entryOf_congr (by rw [heq]) l).trans hl }

/-- A delivery that touches the session's own inputs alone is within the outlet. -/
theorem within_setInputs (o : Outlet) {f : WantInputs → WantInputs}
    (hf : ∀ i, f i = { i with active := (f i).active, ceiling := (f i).ceiling }) : Within o s (setInputs o f s) := by
  have hrecord : (setInputs o f s).record o = s.record o := by rw [setInputs_eq]; rfl
  exact
    { local_setInputs s o f with
      report := by rw [setInputs_eq]; rfl, inputs := by rw [inputs_setInputs, if_pos rfl]; exact hf _,
      record := by rw [hrecord], peak := .of_record hrecord }

theorem within_deliverActive (o : Outlet) (a : Bool) : Within o s (deliverActive o a s) :=
  .after (within_immediatePass _ o) (.after (within_setInputs _ o fun _ => rfl) (within_requestPass s o))

theorem within_storeCeiling (o : Outlet) (n : Nat) : Within o s (storeCeiling o n s) := by
  unfold storeCeiling
  split
  · exact .refl o s
  · have hstored :
        Within o s { s with sessions := { s.sessions with ceilings := Table.set s.sessions.ceilings o n } } :=
      .of_onlyAt ⟨rfl, fun _ ho => ⟨rfl, rfl, Table.get_set_ne _ _ _ _ ho.symm, rfl, rfl⟩⟩ rfl rfl rfl rfl
        List.prefix_rfl
    exact .after (within_setInputs _ o fun _ => rfl) (.after (within_requestPass _ o) hstored)

theorem within_setCeiling (o : Outlet) (n : Nat) : Within o s (setCeiling o n s) :=
  .after (within_immediatePass _ o) (within_storeCeiling s o n)

theorem within_recompute (o : Outlet) : Within o s (recompute o s) := within_setCeiling s o _

/-! ### The transitions of a session -/

theorem within_leaveFor (o : Outlet) (c : Context) (p : Phase) : Within o s (leaveFor o c p s) := by
  refine .after ?_ (within_mapContext s o fun c => { c with phase := p })
  unfold leaveFor setPhase
  dsimp only
  split
  · exact within_deliverActive _ o false
  · exact .refl o _

theorem within_enterClosing (o : Outlet) (r : EndReason) : Within o s (enterClosing o r s) := by
  unfold enterClosing
  repeat' split
  · exact .refl o s
  · exact .after (within_mapContext _ o _) (within_leaveFor s o _ _)
  · exact .refl o s

theorem within_checkSettle (o : Outlet) : Within o s (checkSettle o s) := by
  rw [checkSettle_eq]
  exact within_mapContext s o _

theorem within_enterDrained (o : Outlet) : Within o s (enterDrained o s) := by
  unfold enterDrained
  split
  · exact .refl o s
  · exact .after (within_give _ o _) (.after (within_mapContext _ o _) (within_leaveFor s o _ _))

theorem within_handover (o : Outlet) (e : StandbyEntry) : Within o s (handover o e s) := by
  unfold handover
  split
  · exact .refl o s
  · next c _ =>
    have hgiven := (within_setContext s o (some (c.takeOver o e s.control.seconds))).trans
      ((within_removeEntry _ o e.cell).trans (within_give _ o (.handover o c.cell e.cell c.chargedTotal)))
    have hactive := (hgiven.trans (within_deliverActive _ o true)).trans (within_recompute _ o)
    dsimp only
    split
    · exact hactive.trans (within_enterDrained _ o)
    · exact hactive

theorem within_takeOn (o : Outlet) : Within o s (takeOn o s) := by
  unfold takeOn
  repeat' split
  · exact .refl o s
  · exact within_handover s o _
  · exact within_enterDrained s o
  · exact .refl o s

theorem within_examineDrained (o : Outlet) : Within o s (examineDrained o s) := by
  unfold examineDrained
  repeat' split
  · exact .refl o s
  · exact within_handover s o _
  · exact .refl o s
  · exact .refl o s

theorem within_enterIdle (o : Outlet) : Within o s (enterIdle o s) := by
  unfold enterIdle
  repeat' split
  · exact .refl o s
  · exact .after (within_leaveFor _ o _ _) (within_give s o _)
  · exact .refl o s

theorem within_beginSession (o : Outlet) : Within o s (beginSession o s) :=
  .after (within_recompute _ o) (.after (within_deliverActive _ o true)
    (.after (within_countStart _ o)
      (within_mapContext s o fun c => c.start s.sessions.startSerial s.control.seconds)))

theorem within_evaluateStart (o : Outlet) : Within o s (evaluateStart o s) := by
  unfold evaluateStart
  repeat' split
  · exact .refl o s
  · exact .after (within_takeOn _ o) (within_beginSession s o)
  · exact .refl o s
  · exact .refl o s

theorem within_endStart (before : State) (o : Outlet) : Within o s (endStart before o s) := by
  unfold endStart
  split
  · exact within_enterIdle s o
  · exact .refl o s

theorem within_returnToActive (o : Outlet) : Within o s (returnToActive o s) :=
  .after (within_takeOn _ o) (.after (within_deliverActive _ o true) (within_mapContext s o _))

theorem within_enterHeld (o : Outlet) (r : HeldReason) : Within o s (enterHeld o r s) := by
  unfold enterHeld
  repeat' split
  · exact .refl o s
  · exact .refl o s
  · exact .after (within_give _ o _) (.after (within_mapContext _ o _) (within_leaveFor s o _ _))

theorem within_recover (o : Outlet) (c : Context) (r : ResumeState) (h : HeldReason) (d : Bool) :
    Within o s (recover o c r h d s) := by
  have hentry : Within o s (give (.recovered o h r c.heldMinutes) (setPhase o r.phase s)) :=
    .after (within_give _ o _) (within_mapContext s o fun c => { c with phase := r.phase })
  cases r with
  | active => exact hentry.trans (.after (within_takeOn _ o) (within_deliverActive _ o true))
  | idle =>
    unfold recover
    dsimp only
    split
    · exact hentry.trans (within_give _ o _)
    · exact hentry
  | drained => exact hentry.trans (within_examineDrained _ o)

theorem within_endHold (o : Outlet) (r : HeldReason) : Within o s (endHold o r s) := by
  unfold endHold
  repeat' split
  · exact .refl o s
  · exact .after (within_give _ o _) (within_mapContext s o _)
  · exact .after (within_give _ o _) (within_mapContext s o _)
  · exact within_recover ..
  · exact .refl o s
  · exact .refl o s

theorem within_auditIfFlagged (o : Outlet) : Within o s (auditIfFlagged o s) := by
  unfold auditIfFlagged takeAuditHold
  repeat' split
  · exact .refl o s
  · exact .after (within_raise _ o _) (.after (within_give _ o _) (within_mapContext s o _))
  · exact .refl o s

theorem within_bill (o : Outlet) (d : Nat) (b : Band) : Within o s (bill o d b s) := by
  unfold bill
  repeat' split
  · exact .refl o s
  · exact .after (within_recompute _ o) (within_setContext s o _)
  · exact .after (within_auditIfFlagged _ o) (.after (within_takeOn _ o) (.after (within_recompute _ o)
      (within_setContext s o _)))

theorem within_actOnCharge (o : Outlet) (complete : Bool) (demand : Nat) :
    Within o s (actOnCharge o complete demand s) := by
  unfold actOnCharge
  repeat' split
  · exact .refl o s
  · exact within_enterIdle s o
  · exact .refl o s
  · exact within_returnToActive s o
  · exact .refl o s
  · exact within_setContext s o _
  · exact .refl o s

end Sys2Proof.Machine
end

