-- ==== Sys2Proof/Proofs/Billing.lean ====
section
/-! SUPPORT. A delta billed to a session (O53): the charge with its carry (R128 to R131), the ceiling and what it brings
(R138), and the audit hold (R159, R160). -/

namespace Sys2Proof.Machine

/-! ### The carry (R131) -/

/-- One delta whose charge stays within the 32-bit total is charged in whole thousands, and the rest is carried. -/
theorem priceDelta_charges (c : Context) (d : Nat) (b : Band)
    (h : c.chargedTotal + (d * c.price b + c.carry) / 1000 ≤ max32) :
    (c.priceDelta d b).energyCharge = c.energyCharge + (d * c.price b + c.carry) / 1000 ∧
    (c.priceDelta d b).chargedTotal = c.chargedTotal + (d * c.price b + c.carry) / 1000 ∧
    (c.priceDelta d b).carry = (d * c.price b + c.carry) % 1000 := by
  have hcharge : min ((d * c.price b + c.carry) / 1000) (max32 - c.chargedTotal) = (d * c.price b + c.carry) / 1000 := by
    omega
  simp only [Context.priceDelta, hcharge, and_self]

/-- A run of deltas. -/
def Context.priceDeltas (c : Context) (ds : List (Nat × Band)) : Context :=
  ds.foldl (fun c d => c.priceDelta d.1 d.2) c

/-- What a run of deltas costs. -/
def Context.costOf (c : Context) (ds : List (Nat × Band)) : Nat := (ds.map fun d => d.1 * c.price d.2).sum

@[simp] theorem tariff_priceDeltas (c : Context) (ds : List (Nat × Band)) : (c.priceDeltas ds).tariff = c.tariff := by
  induction ds generalizing c with
  | nil => rfl
  | cons d ds ih => exact ih _

/-- A run of deltas charges a sum of whole thousands to both totals, and carries what remains of its cost. -/
theorem priceDeltas_charges (c : Context) (ds : List (Nat × Band)) (hcarry : c.carry < 1000)
    (hfits : c.chargedTotal + (c.costOf ds + c.carry) / 1000 ≤ max32) :
    ∃ charge,
      (c.priceDeltas ds).energyCharge = c.energyCharge + charge ∧
      (c.priceDeltas ds).chargedTotal = c.chargedTotal + charge ∧
      1000 * charge + (c.priceDeltas ds).carry = c.costOf ds + c.carry ∧ (c.priceDeltas ds).carry < 1000 := by
  induction ds generalizing c with
  | nil => exact ⟨0, rfl, rfl, by simp [Context.priceDeltas, Context.costOf], hcarry⟩
  | cons d ds ih =>
    have hcost : c.costOf (d :: ds) = d.1 * c.price d.2 + c.costOf ds := List.sum_cons
    have hrest : (c.priceDelta d.1 d.2).costOf ds = c.costOf ds := rfl
    obtain ⟨henergy, htotal, hleft⟩ := priceDelta_charges c d.1 d.2 (by omega)
    obtain ⟨charge, henergy', htotal', hsum, hlt⟩ := ih (c.priceDelta d.1 d.2) (by omega) (by omega)
    have hrun : c.priceDeltas (d :: ds) = (c.priceDelta d.1 d.2).priceDeltas ds := rfl
    rw [hrun]
    exact ⟨(d.1 * c.price d.2 + c.carry) / 1000 + charge, by omega, by omega, by omega, hlt⟩

/-! ### The audit hold (R159, R164) -/

section
variable {s u : State} {o : Outlet} {c : Context}

theorem takeAuditHold_eq (h : u.context o = some c) :
    takeAuditHold o u =
      raise .audit (give (.auditHold o c.cell c.hold c.chargedTotal)
        (mapContext o (fun c => { c with auditHeld := true, progressDue := true }) u)) := by
  simp only [takeAuditHold, h]

theorem context_takeAuditHold :
    (takeAuditHold o u).context o = (u.context o).map fun c => { c with auditHeld := true, progressDue := true } := by
  cases h : u.context o with
  | none => simp [takeAuditHold, h]
  | some c =>
    rw [takeAuditHold_eq h]
    exact (context_mapContext_self u o _).trans (by rw [h])

theorem Stands.audited (h : Stands u o c) : Stands (takeAuditHold o u) o { c with auditHeld := true } := by
  obtain ⟨x, hx, hbody⟩ := exists_context_of_stands h
  have hset : ({ x with auditHeld := true, progressDue := true } : Context).body = { x.body with auditHeld := true } := rfl
  rw [Stands, context_takeAuditHold, hx, Option.map_some, Option.map_some, hset, hbody]
  rfl

theorem ceiling_takeAuditHold : (takeAuditHold o u).ceiling o = u.ceiling o := by
  unfold takeAuditHold; split <;> rfl
theorem standby_takeAuditHold : (takeAuditHold o u).standby = u.standby := by
  unfold takeAuditHold; split <;> rfl
theorem settings_takeAuditHold : (takeAuditHold o u).control.settings = u.control.settings := by
  unfold takeAuditHold; split <;> rfl
theorem band_takeAuditHold : (takeAuditHold o u).sessions.band = u.sessions.band := by
  unfold takeAuditHold; split <;> rfl

theorem Journaled.audited {e : EntryKind} (h : Journaled e s u) : Journaled e s (takeAuditHold o u) := by
  unfold takeAuditHold
  split
  · exact h
  · exact h.of_prefix (queue_give (mapContext o _ u) _)

/-- The audit hold brings the copy of the session, its entry and its notice. -/
theorem auditTaken_takeAuditHold (h : u.context o = some c) (hcontrol : u.control = s.control) :
    AuditTaken s o (takeAuditHold o u) := by
  have hcontext : (takeAuditHold o u).context o = some { c with auditHeld := true, progressDue := true } := by
    rw [context_takeAuditHold, h]; rfl
  refine ⟨?_, .inl ⟨_, hcontext, rfl, nofun⟩, _, hcontext, rfl, ?_⟩
  · have hbit (x : Byte) : (((x ||| Notice.audit.mask) &&& Notice.audit.mask) != 0) = true := by
      have h0 : (x ||| Notice.audit.mask) &&& Notice.audit.mask = Notice.audit.mask := by
        ext i hi; simp +contextual
      rw [h0]; rfl
    rw [takeAuditHold_eq h]
    exact hbit _
  · rw [takeAuditHold_eq h]
    exact journaled_congr _ _ hcontrol (journaled_give (mapContext o _ u) _)

/-- A handover, and the audit hold that is taken on the new hold after it. -/
theorem HandedOver.audited {e : StandbyEntry} {held : Bool} (h : HandedOver s o c e held u) :
    HandedOver s o c e true (takeAuditHold o u) := by
  obtain ⟨hstands, hceiling, hgone, -, hentry⟩ := h
  obtain ⟨x, hx, -⟩ := exists_context_of_stands hstands
  have hcontext : (takeAuditHold o u).context o = some { x with auditHeld := true, progressDue := true } := by
    rw [context_takeAuditHold, hx]; rfl
  refine ⟨?_, ?_, (entryOf_congr standby_takeAuditHold _).trans hgone, .inl ⟨_, hcontext, rfl, nofun⟩,
    hentry.audited⟩
  · rw [ceiling_takeAuditHold]
    exact hstands.audited
  · rw [ceiling_takeAuditHold, settings_takeAuditHold, band_takeAuditHold]
    exact hceiling

/-- A session that has gone on, and the audit hold that is taken after it. -/
theorem GoesOn.audited {n : Nat} (h : GoesOn s o c n false u) : GoesOn s o c n true (takeAuditHold o u) := by
  obtain ⟨hactive, hdrained, hhanded⟩ := h
  refine ⟨fun hn => ?_, fun h0 ha hs => ?_, fun l e h0 ha hg hl he => (hhanded l e h0 ha hg hl he).audited⟩
  · obtain ⟨hstands, hceiling⟩ := hactive hn
    have hheld := hstands.audited
    rw [Bool.or_true]
    exact ⟨hheld, ceiling_takeAuditHold.trans hceiling⟩
  · obtain ⟨hstands, hceiling, hentry⟩ := hdrained h0 ha hs
    exact ⟨hstands.audited, ceiling_takeAuditHold.trans hceiling, hentry.audited⟩

/-- A session that goes on is audit-held as it was. -/
theorem auditHeld_takeOn : ((takeOn o u).context o).map Context.auditHeld = (u.context o).map Context.auditHeld := by
  have drained (v : State) : ((enterDrained o v).context o).map Context.auditHeld = (v.context o).map Context.auditHeld := by
    cases hv : v.context o with
    | none => simp [enterDrained, hv]
    | some x => rw [(enterDrained_spec v o x hv).1]; rfl
  have handed (e : StandbyEntry) :
      ((handover o e u).context o).map Context.auditHeld = (u.context o).map Context.auditHeld := by
    cases hu : u.context o with
    | none => simp [handover, hu]
    | some x =>
      obtain ⟨y, hy, hbody⟩ := exists_context_of_stands (handover_handedOver u o e x hu).1
      rw [hy, Option.map_some, show y.auditHeld = y.body.auditHeld from rfl, hbody]
      rfl
  unfold takeOn
  repeat' split
  · rfl
  · exact handed _
  · exact drained u
  · rfl

theorem auditIfFlagged_eq (h : (u.context o).map Context.auditHeld = some false) :
    auditIfFlagged o u = if Table.get u.sessions.auditFlags o then takeAuditHold o u else u := by
  obtain ⟨c, hc, ha⟩ := Option.map_eq_some_iff.1 h
  simp [auditIfFlagged, hc, ha]

end

/-! ### Billing (R112, R129, R160) -/

/-- The outlet's context replaced and its ceiling computed anew. -/
def recontext (o : Outlet) (c : Context) (s : State) : State := recompute o (setContext o (some c) s)

section
variable (s : State) (o : Outlet) (c : Context)

theorem context_recontext : (recontext o c s).context o = some c := by
  rw [recontext, recompute, context_setCeiling, context_setContext_self]

theorem ceiling_recontext (ha : ∀ start, c.phase ≠ .armed start) (hs : c.phase.isSettling = false) :
    (recontext o c s).ceiling o = c.purseCeiling s.control.settings s.sessions.band := by
  rw [recontext, ceiling_recompute]
  exact ceilingNow_of_phase (setContext o (some c) s) (context_setContext_self s o _) ha hs

theorem elsewhere_recontext : (recontext o c s).elsewhere o = s.elsewhere o := by
  rw [recontext, elsewhere_recompute, elsewhere_setContext]

theorem standby_recontext : (recontext o c s).standby = s.standby := standby_setCeiling (setContext o (some c) s) o _

theorem journal_recontext : (recontext o c s).journal = s.journal := journal_setCeiling (setContext o (some c) s) o _

/-- A delta charged to a session: the charge with the carry, and the overdraw that follows (R129, R130). -/
def Context.charged (c : Context) (d : Nat) (b : Band) : Context := (c.priceDelta d b).updateOverdraw

variable {s o c} (d : Nat) (b : Band) (h : s.context o = some c)
include h

theorem bill_held (ha : c.auditHeld = true) : bill o d b s = recontext o (c.addPending d b) s := by
  simp only [bill, h, ha, if_true]
  rfl

theorem bill_charged (ha : c.auditHeld = false) :
    bill o d b s =
      if Table.get s.sessions.auditFlags o then takeAuditHold o (takeOn o (recontext o (c.charged d b) s))
      else takeOn o (recontext o (c.charged d b) s) := by
  have hflags : Table.get (takeOn o (recontext o (c.charged d b) s)).sessions.auditFlags o =
      Table.get s.sessions.auditFlags o :=
    (congrArg (fun e : Beyond => Table.get e.sessions.auditFlags o)
      ((elsewhere_takeOn _ o).trans (elsewhere_recontext s o (c.charged d b))) :)
  have hheld : ((takeOn o (recontext o (c.charged d b) s)).context o).map Context.auditHeld = some false := by
    rw [auditHeld_takeOn, context_recontext, ← ha]
    rfl
  have hbill : bill o d b s = auditIfFlagged o (takeOn o (recontext o (c.charged d b) s)) := by
    simp only [bill, h, ha, Bool.false_eq_true, if_false]
    rfl
  rw [hbill, auditIfFlagged_eq hheld, hflags]

end

/-- Settles O53: the pending energy of an audit-held session, the charge of another with what its ceiling and its flag bring;
and the carry, by induction on the run of deltas. -/
theorem carryLosesNothing : Obligations.CarryLosesNothing := by
  refine ⟨fun o delta b s c hc harmed hsettling => ?_, fun ds c => ?_⟩
  · intro u amount charge total d ceiling flag
    have hwithin : Within o s u := within_bill s o delta b
    refine ⟨hwithin.onlyAt, hwithin.report, fun ha => ?_, fun ha => ?_⟩
    · have hu : u = recontext o (c.addPending delta b) s := bill_held delta b hc ha
      rw [hu]
      exact ⟨context_recontext .., ceiling_recontext _ _ _ harmed hsettling, journal_recontext ..,
        control_of_elsewhere (elsewhere_recontext ..)⟩
    · set v := recontext o d s with hv
      have hu : u = if flag then takeAuditHold o (takeOn o v) else takeOn o v := bill_charged delta b hc ha
      have hcontext : v.context o = some d := context_recontext s o d
      have hceiling : v.ceiling o = ceiling d := ceiling_recontext s o d harmed hsettling
      have helse : (takeOn o v).elsewhere o = s.elsewhere o := by rw [elsewhere_takeOn, hv, elsewhere_recontext]
      have hlive : ∃ x, (takeOn o v).context o = some x := by
        have hheld := auditHeld_takeOn (o := o) (u := v)
        rw [hcontext] at hheld
        exact (Option.map_eq_some_iff.1 hheld).imp fun _ h => h.1
      rw [hu]
      refine ⟨fun hp => ?_, fun hp => ?_, fun hflag => ?_, fun hflag => ?_⟩
      · have hgoes : GoesOn s o d (ceiling d) false (takeOn o v) := by
          rw [← hceiling]
          exact goesOn_congr o d _ _ _ (control_of_elsewhere (elsewhere_recontext s o d)) (standby_recontext s o d)
            (takeOn_goesOn v o d hcontext hp)
        cases flag with
        | true => exact hgoes.audited
        | false => exact hgoes
      · have hstays : takeOn o v = v := takeOn_of_not_active v hcontext hp
        have hstands : Stands v o d := by rw [Stands, hcontext]; rfl
        rw [hstays]
        cases flag with
        | true => exact ⟨hstands.audited, ceiling_takeAuditHold.trans hceiling⟩
        | false =>
          have hsame : ({ d with auditHeld := false } : Context) = d := by rw [← ha]
          exact ⟨by rw [hsame]; exact hstands, hceiling⟩
      · obtain ⟨x, hx⟩ := hlive
        rw [if_pos hflag]
        exact auditTaken_takeAuditHold hx (control_of_elsewhere helse)
      · rw [if_neg (by simp [hflag])]
        exact control_of_elsewhere helse
  · intro price cost c' hcarry hfits
    obtain ⟨charge, henergy, htotal, hsum, hlt⟩ := priceDeltas_charges c ds hcarry hfits
    have hc' : c' = c.priceDeltas ds := rfl
    have hcost : cost = c.costOf ds := rfl
    rw [hc', hcost]
    exact ⟨by omega, by omega, hlt, by omega, tariff_priceDeltas c ds⟩

end Sys2Proof.Machine
end

