-- ==== Sys2Proof/Proofs/ChargeNews.lean ====
section
/-! SUPPORT. The complete flag and the demand of a reply at one outlet (R31 to R33, R107): its report, its demand input, and
its session by the phase that the news finds. -/

namespace Sys2Proof.Machine

variable (s : State) (o : Outlet)

/-! ### The report and the demand -/

theorem local_mapReport (f : OutletReport → OutletReport) : Local o s (mapReport o f s) :=
  { onlyAt := ⟨rfl, fun _ ho => ⟨rfl, Table.get_set_ne _ _ _ _ ho.symm, rfl, rfl, rfl⟩⟩,
    peaks := fun _ _ => .of_record rfl, held := fun _ _ _ => rfl, queue := List.prefix_rfl, gone := fun _ => id }

/-- A demand delivered, with the request that a new count of modules makes. -/
theorem local_deliverDemand (kW : Nat) : Local o s (deliverDemand o kW s) := by
  have hdelivered (v : State) : Local o v (deliver o (fun i => { i with demand := kW }) v) :=
    (local_setInputs v o _).trans (within_immediatePass _ o).toLocal
  unfold deliverDemand
  dsimp only
  split
  · exact hdelivered s
  · exact (within_requestPass s o).toLocal.trans (hdelivered _)

theorem inputs_deliverDemand (kW : Nat) : (deliverDemand o kW s).inputs o = { s.inputs o with demand := kW } := by
  have hdelivered (v : State) (hv : v.inputs o = s.inputs o) :
      (deliver o (fun i => { i with demand := kW }) v).inputs o = { s.inputs o with demand := kW } := by
    rw [deliver, inputs_immediatePass, inputs_setInputs, if_pos rfl, hv]
  unfold deliverDemand
  dsimp only
  split
  · exact hdelivered s rfl
  · exact hdelivered _ rfl

/-- What touches nothing beyond the Apportioner leaves the session. -/
theorem sessionStays_of_beyond {v u : State} (h : u.beyond = v.beyond) : SessionStays o v u :=
  { context := congrArg (fun b : Beyond => Table.get b.sessions.contexts o) h,
    ceiling := congrArg (fun b : Beyond => Table.get b.sessions.ceilings o) h,
    settings := congrArg (fun b : Beyond => b.control.settings) h,
    band := congrArg (fun b : Beyond => b.sessions.band) h, port := congrArg Beyond.port h,
    queue := by rw [show u.journal = v.journal from congrArg Beyond.journal h],
    entries := fun l hl => (entryOf_congr (congrArg Beyond.standby h) l).trans hl }

/-- The news in the outlet's report (R23). -/
def reportCharge (complete : Bool) (kW : Nat) : State :=
  mapReport o (fun r => { r with complete := complete, demand := kW }) s

variable (complete : Bool) (kW : Nat)

/-- The news at the session, before the demand goes to the Apportioner. -/
def chargeActed : State := actOnCharge o complete kW (reportCharge s o complete kW)

theorem deliverCharge_eq : deliverCharge o complete kW s = deliverDemand o kW (chargeActed s o complete kW) := rfl

theorem local_deliverCharge : Local o s (deliverCharge o complete kW s) :=
  ((local_mapReport s o _).trans (within_actOnCharge _ o complete kW).toLocal).trans (local_deliverDemand _ o kW)

theorem report_deliverCharge :
    (deliverCharge o complete kW s).report o = { s.report o with complete := complete, demand := kW } := by
  have hreport : (deliverDemand o kW (chargeActed s o complete kW)).report o = (chargeActed s o complete kW).report o :=
    (congrArg (fun b : Beyond => Table.get b.sessions.reports o) (beyond_deliverDemand _ o kW) :)
  rw [deliverCharge_eq, hreport, chargeActed, report_actOnCharge, reportCharge, report_mapReport_self]

theorem inputs_deliverCharge :
    (deliverCharge o complete kW s).inputs o =
      { s.inputs o with
        active := ((deliverCharge o complete kW s).inputs o).active, demand := kW,
        ceiling := ((deliverCharge o complete kW s).inputs o).ceiling } := by
  have hacted : (chargeActed s o complete kW).inputs o =
      { s.inputs o with
        active := ((chargeActed s o complete kW).inputs o).active,
        ceiling := ((chargeActed s o complete kW).inputs o).ceiling } :=
    (within_actOnCharge (reportCharge s o complete kW) o complete kW).inputs
  rw [deliverCharge_eq, inputs_deliverDemand]
  exact congrArg (fun i : WantInputs => { i with demand := kW }) hacted

theorem grantsWithinWants_deliverCharge : GrantsWithinWants (deliverCharge o complete kW s) :=
  grantsWithinWants_immediatePass _

theorem sessionStays_deliverCharge :
    SessionStays o (chargeActed s o complete kW) (deliverCharge o complete kW s) :=
  sessionStays_of_beyond o (beyond_deliverDemand _ o kW)

theorem journal_deliverCharge : (deliverCharge o complete kW s).journal = (chargeActed s o complete kW).journal :=
  congrArg Beyond.journal (beyond_deliverDemand _ o kW)

/-! ### The session (R31 to R33) -/

variable {s o complete kW} {c : Context}

theorem actOnCharge_vacant (h : s.context o = none) : actOnCharge o complete kW s = s := by
  simp only [actOnCharge, h]

/-- The phases that the news leaves as they are. -/
def Context.unmovedByCharge (c : Context) (complete : Bool) (kW : Nat) : Prop :=
  (c.phase = .active ∧ complete = false) ∨ (c.phase = .idle ∧ (complete = true ∨ kW = 0)) ∨
    (∃ start, c.phase = .armed start) ∨ c.phase = .drained ∨ c.phase.isClosing = true ∨ c.phase.isSettling = true

theorem actOnCharge_unmoved (h : s.context o = some c) (hp : c.unmovedByCharge complete kW) :
    actOnCharge o complete kW s = s := by
  unfold Context.unmovedByCharge at hp
  simp only [actOnCharge, h]
  cases hc : c.phase with
  | active =>
    have hnot : complete = false := by simpa [hc, Phase.isClosing, Phase.isSettling] using hp
    simp [hnot]
  | idle =>
    have hnot : complete = true ∨ kW = 0 := by simpa [hc, Phase.isClosing, Phase.isSettling] using hp
    rcases hnot with hnot | hnot <;> simp [hnot]
  | held => simp [hc, Phase.isClosing, Phase.isSettling] at hp
  | _ => rfl

theorem actOnCharge_completes (h : s.context o = some c) (hp : c.phase = .active) :
    actOnCharge o true kW s = enterIdle o s := by
  simp only [actOnCharge, h, hp, if_true]

theorem actOnCharge_returns (h : s.context o = some c) (hp : c.phase = .idle) (hkW : 0 < kW) :
    actOnCharge o false kW s = returnToActive o s := by
  simp [actOnCharge, h, hp, hkW]

/-- A session that returns to ACTIVE goes on with the ceiling it has (R32, R137). -/
theorem returnToActive_goesOn (h : s.context o = some c) :
    GoesOn s o { c with phase := .active, idleMinutes := 0 } (s.ceiling o) false (returnToActive o s) := by
  set v := mapContext o (fun c => { c with phase := .active, idleMinutes := 0 }) s with hv
  have hcontext : (deliverActive o true v).context o = some { c with phase := .active, idleMinutes := 0 } := by
    rw [context_deliverActive, hv, context_mapContext_self, h]; rfl
  have hgoes := takeOn_goesOn (deliverActive o true v) o _ hcontext rfl
  rw [ceiling_deliverActive] at hgoes
  exact goesOn_congr o _ _ _ _ ((control_deliverActive v o true).trans rfl) ((standby_deliverActive v o true).trans rfl)
    hgoes

/-- A held session takes the news into what it will resume (R33). -/
theorem actOnCharge_held {r : ResumeState} {reason : HeldReason} {d : Bool} (h : s.context o = some c)
    (hp : c.phase = .held r reason d) :
    actOnCharge o complete kW s =
      setContext o
        (some
          (if r = .active ∧ complete = true then { c with phase := .held .idle reason true }
           else if r = .idle ∧ complete = false ∧ 0 < kW then
             { c with phase := .held .active reason false, idleMinutes := 0 }
           else c)) s := by
  have hsame : ({ c with phase := .held r reason d } : Context) = c := by rw [← hp]
  have hact : actOnCharge o complete kW s = setContext o (some (heldNews complete kW c.phase c)) s := by
    simp only [actOnCharge, h, hp]
  rw [hact, hp]
  cases r with
  | active => simp [heldNews]
  | idle => simp [heldNews, hsame]
  | drained => simp [heldNews]

end Sys2Proof.Machine
end

