-- ==== Sys2Proof/Proofs/Readings.lean ====
section
/-! SUPPORT. The meter step of a reply (R109 to R115): the first reading, an accepted delta, a rejected one and a rebase,
each said once as what it makes of the state. -/

namespace Sys2Proof.Machine

/-! ### The meter record -/

/-- The outlet's meter record replaced. -/
def setRecord (o : Outlet) (r : MeterRecord) (s : State) : State :=
  { s with meters := { s.meters with records := Table.set s.meters.records o r } }

section
variable (s : State) (o : Outlet) (r r' : MeterRecord)

@[simp] theorem mapRecord_eq (f : MeterRecord → MeterRecord) : mapRecord o f s = setRecord o (f (s.record o)) s := rfl

@[simp] theorem record_setRecord : (setRecord o r s).record o = r := Table.get_set_self ..

@[simp] theorem setRecord_setRecord : setRecord o r (setRecord o r' s) = setRecord o r s := by
  simp [setRecord, Table.set]

@[simp] theorem setContext_setContext (c c' : Option Context) :
    setContext o c (setContext o c' s) = setContext o c s := by
  simp [setContext, Table.set]

theorem setRecord_setContext (c : Option Context) :
    setRecord o r (setContext o c s) = setContext o c (setRecord o r s) := rfl

@[simp] theorem phaseIs_setRecord (p : Phase → Bool) : (setRecord o r s).phaseIs o p = s.phaseIs o p := rfl

theorem local_setRecord : Local o s (setRecord o r s) :=
  have hrecord (o' : Outlet) (ho : o' ≠ o) : (setRecord o r s).record o' = s.record o' := Table.get_set_ne _ _ _ _ ho.symm
  { onlyAt := ⟨rfl, fun o' ho => ⟨rfl, rfl, rfl, rfl, by rw [hrecord o' ho]⟩⟩,
    peaks := fun o' ho => .of_record (hrecord o' ho), held := fun _ _ _ => rfl, queue := List.prefix_rfl,
    gone := fun _ => id }

end

/-! ### Deliveries that lower no want (R52, R56) -/

section
variable {s : State} {o : Outlet} {f : WantInputs → WantInputs}

theorem grantsWithinWants_setInputs (hf : ∀ i n b, i.want n b ≤ (f i).want n b) (h : GrantsWithinWants s) :
    GrantsWithinWants (setInputs o f s) := by
  intro o'
  have hgrant : (setInputs o f s).grant o' = s.grant o' := by rw [setInputs_eq]; rfl
  rw [hgrant, want_setInputs]
  split
  · exact (h o').trans (hf ..)
  · exact h o'

theorem passRequest_setInputs (h : s.power.passRequest = true) : (setInputs o f s).power.passRequest = true := by
  unfold setInputs
  dsimp only
  split
  · exact h
  · rfl

theorem want_baselineValid (i : WantInputs) (n : Nat) (b : Bool) :
    i.want n b ≤ { i with baselineValid := true }.want n b := by
  unfold WantInputs.want
  cases i.baselineValid <;> simp

end

/-! ### The steps -/

section
variable {s : State} {o : Outlet} {c : Context}

/-- A session that bills: neither ARMED nor SETTLING. -/
def Context.bills (c : Context) : Prop := (∀ start, c.phase ≠ .armed start) ∧ c.phase.isSettling = false

theorem bills_iff : c.phase.bills = true ↔ c.bills := by
  unfold Context.bills
  cases c.phase <;> simp [Phase.bills, Phase.isSettling]

theorem phaseIs_bills_iff : s.phaseIs o Phase.bills = true ↔ ∃ c, s.context o = some c ∧ c.bills := by
  simp only [State.phaseIs, Option.any_eq_true, bills_iff]

theorem mapContext_eq (f : Context → Context) (h : s.context o = some c) :
    mapContext o f s = setContext o (some (f c)) s := by
  rw [mapContext, h]; rfl

variable (o : Outlet) (register : Word) (b : Band) (received : Time) (s : State) {last : Time}

/-- The record of an accepted reading (R112). -/
def State.accepted (s : State) (o : Outlet) (register : Word) (received : Time) : MeterRecord :=
  (s.record o).accept register received (s.heldCount o)

theorem readMeter_first (h : (s.record o).lastTime = none) :
    readMeter o register b received s =
      deliver o (fun i => { i with baselineValid := true })
        (requestPass (setRecord o (s.accepted o register received) s)) := by
  simp only [readMeter, h]
  rfl

/-- The delta of a reading. -/
def State.delta (s : State) (o : Outlet) (register : Word) : Nat := (register - (s.record o).baseline).toNat

/-- The bound of R111 for a peak. -/
def boundOf (peak : Nat) (last received : Time) : Nat := (peak * ((received - last + 999) / 1000) + 71) / 72 + 5

section
variable (hlast : (s.record o).lastTime = some last)
include hlast

theorem readMeter_plausible (hd : s.delta o register ≤ boundOf (s.record o).peak last received) :
    readMeter o register b received s = acceptDelta o (s.delta o register) b register received s := by
  simp only [readMeter, hlast]
  exact if_pos hd

theorem readMeter_implausible (hd : boundOf (s.record o).peak last received < s.delta o register) :
    readMeter o register b received s = rejectDelta o register received s := by
  simp only [readMeter, hlast]
  exact if_neg (Nat.not_le.2 hd)

end

variable (d : Nat)

theorem acceptDelta_billed (h : s.phaseIs o Phase.bills = true) :
    acceptDelta o d b register received s =
      endHold o .meter (bill o d b (setRecord o (s.accepted o register received) s)) := if_pos h

theorem acceptDelta_unclaimed (h : s.phaseIs o Phase.bills = false) :
    acceptDelta o d b register received s =
      let unclaimed := min max32 ((s.record o).unclaimed + d)
      let u := setRecord o { s.accepted o register received with unclaimed := unclaimed } s
      if d = 0 then u else give (.meterDrift o d b unclaimed) u := by
  have hclaim : acceptDelta o d b register received s =
      claimNone o d b (setRecord o (s.accepted o register received) s) := if_neg (by simpa using h)
  rw [hclaim, claimNone]
  simp only [mapRecord_eq, record_setRecord, setRecord_setRecord]
  rfl

/-- The record of a rejected reading that is not the third in a row (R114). -/
def State.rejected (s : State) (o : Outlet) : MeterRecord :=
  { s.record o with rejects := (s.record o).rejects + 1 }

/-- The session after a rejected reading (R114). -/
def Context.rejection (c : Context) : Context := { c with rejected := min 255 (c.rejected + 1) }

theorem rejectDelta_unbilled (h : s.phaseIs o Phase.bills = false) :
    rejectDelta o register received s =
      setRecord o (if (s.record o).rejects < 2 then s.rejected o else s.accepted o register received) s := by
  have hrebase (r : MeterRecord) :
      rebase o register received (setRecord o r s) = setRecord o (r.accept register received (s.heldCount o)) s := by
    simp only [rebase, mapRecord_eq, record_setRecord, setRecord_setRecord, phaseIs_setRecord, h,
      Bool.false_eq_true, if_false]
    rfl
  simp only [rejectDelta, mapRecord_eq, phaseIs_setRecord, h, Bool.false_eq_true, if_false, record_setRecord, hrebase]
  by_cases h2 : (s.record o).rejects < 2
  · rw [if_neg (by omega), if_pos h2]; rfl
  · rw [if_pos (by omega), if_neg h2]; rfl

variable {o s}
variable (hc : s.context o = some c) (hb : c.bills)
include hc hb

theorem rejectDelta_counted (h2 : (s.record o).rejects < 2) :
    rejectDelta o register received s = setContext o (some c.rejection) (setRecord o (s.rejected o) s) := by
  have hbills : s.phaseIs o Phase.bills = true := phaseIs_bills_iff.2 ⟨c, hc, hb⟩
  have hcounted : mapContext o Context.rejection (setRecord o (s.rejected o) s) =
      setContext o (some c.rejection) (setRecord o (s.rejected o) s) := mapContext_eq _ hc
  have hrejects : ((setContext o (some c.rejection) (setRecord o (s.rejected o) s)).record o).rejects =
      (s.record o).rejects + 1 := congrArg MeterRecord.rejects (record_setRecord s o _)
  rw [← hcounted] at hrejects ⊢
  simp only [rejectDelta, mapRecord_eq, phaseIs_setRecord, hbills, if_true]
  exact if_neg (fun h => absurd (hrejects ▸ h) (by omega))

/-- The third rejection in a row: the meter is rebased, and the session held (R115, R118). -/
theorem rejectDelta_rebased (h2 : 2 ≤ (s.record o).rejects) :
    rejectDelta o register received s =
      enterHeld o .meter
        (setContext o (some { c.rejection with meterRebased := true })
          (setRecord o (s.accepted o register received) s)) := by
  have hbills : s.phaseIs o Phase.bills = true := phaseIs_bills_iff.2 ⟨c, hc, hb⟩
  set v := setContext o (some c.rejection) (setRecord o (s.rejected o) s) with hv
  have hcounted : mapContext o Context.rejection (setRecord o (s.rejected o) s) = v := mapContext_eq _ hc
  have hrecord : v.record o = s.rejected o := record_setRecord s o _
  have hcontext : v.context o = some c.rejection := context_setContext_self _ o _
  have hstep : rejectDelta o register received s = rebase o register received v := by
    rw [← hcounted] at hrecord ⊢
    have h3 : 3 ≤ (s.rejected o).rejects := Nat.add_le_add_right h2 1
    rw [← hrecord] at h3
    simp only [rejectDelta, mapRecord_eq, phaseIs_setRecord, hbills, if_true]
    exact if_pos h3
  have hvbills : v.phaseIs o Phase.bills = true := phaseIs_bills_iff.2 ⟨c.rejection, hcontext, hb⟩
  have hrebased : mapContext o (fun c => { c with meterRebased := true })
      (setRecord o ((v.record o).accept register received (v.heldCount o)) v) =
      setContext o (some { c.rejection with meterRebased := true })
        (setRecord o ((v.record o).accept register received (v.heldCount o)) v) := mapContext_eq _ hcontext
  rw [hstep, rebase]
  simp only [mapRecord_eq, phaseIs_setRecord, hvbills, if_true]
  rw [hrebased, hrecord, hv, setRecord_setContext, setRecord_setRecord, setContext_setContext]
  rfl

end

/-! ### What the meter step leaves elsewhere -/

theorem local_readMeter (o : Outlet) (register : Word) (b : Band) (received : Time) (s : State) :
    Local o s (readMeter o register b received s) := by
  have haccepted := local_setRecord s o (s.accepted o register received)
  cases hlast : (s.record o).lastTime with
  | none =>
    rw [readMeter_first o register b received s hlast]
    exact ((haccepted.trans (within_requestPass _ o).toLocal).trans (local_setInputs _ o _)).trans
      (within_immediatePass _ o).toLocal
  | some last =>
    rcases Nat.lt_or_ge (boundOf (s.record o).peak last received) (s.delta o register) with hd | hd
    · rw [readMeter_implausible o register b received s hlast hd]
      cases hbills : s.phaseIs o Phase.bills with
      | false =>
        rw [rejectDelta_unbilled o register received s hbills]
        exact local_setRecord ..
      | true =>
        obtain ⟨c, hc, hb⟩ := phaseIs_bills_iff.1 hbills
        rcases Nat.lt_or_ge (s.record o).rejects 2 with h2 | h2
        · rw [rejectDelta_counted register received hc hb h2]
          exact (local_setRecord ..).trans (within_setContext ..).toLocal
        · rw [rejectDelta_rebased register received hc hb h2]
          exact (haccepted.trans (within_setContext ..).toLocal).trans (within_enterHeld ..).toLocal
    · rw [readMeter_plausible o register b received s hlast hd]
      cases hbills : s.phaseIs o Phase.bills with
      | false =>
        rw [acceptDelta_unclaimed o register b received s _ hbills]
        dsimp only
        split
        · exact local_setRecord ..
        · exact (local_setRecord ..).trans (within_give ..).toLocal
      | true =>
        rw [acceptDelta_billed o register b received s _ hbills]
        exact (haccepted.trans (within_bill ..).toLocal).trans (within_endHold ..).toLocal

end Sys2Proof.Machine
end

