-- ==== Sys2Proof/Proofs/ReplySteps.lean ====
section
/-! SUPPORT. The steps of a reply's service from any state, in the terms of the statement (R103): the news that a session
meets, the first reading, the close, the checks of the other outlets and the slot. -/

namespace Sys2Proof.Machine

/-! ### The news at a session (R31 to R33) -/

section
variable {s : State} {o : Outlet} {complete : Bool} {kW : Nat} {c : Context}

/-- News that leaves the session. -/
theorem deliverCharge_unmoved
    (h : actOnCharge o complete kW (reportCharge s o complete kW) = reportCharge s o complete kW) :
    (deliverCharge o complete kW s).context o = s.context o ∧ (deliverCharge o complete kW s).journal = s.journal := by
  have hacted : chargeActed s o complete kW = reportCharge s o complete kW := h
  exact ⟨(sessionStays_deliverCharge s o complete kW).context.trans (by rw [hacted]; rfl),
    (journal_deliverCharge s o complete kW).trans (by rw [hacted]; rfl)⟩

theorem deliverCharge_completes (h : s.context o = some c) (hp : c.phase = .active) :
    Stands (deliverCharge o true kW s) o { c with phase := .idle } ∧
      Journaled (.vehicleDone o) s (deliverCharge o true kW s) := by
  have hstands : Stands (reportCharge s o true kW) o c := congrArg (Option.map Context.body) h
  have hacted : chargeActed s o true kW = enterIdle o (reportCharge s o true kW) := actOnCharge_completes h hp
  obtain ⟨hidle, -, -, -, -, hentry, -⟩ := (enterIdle_stands o c _ hstands).2 hp
  have hstays := sessionStays_deliverCharge s o true kW
  rw [hacted] at hstays
  refine ⟨hstays.stands hidle, hstays.journaled ?_⟩
  exact journaled_of_journal s _ (give (.vehicleDone o) (reportCharge s o true kW)) _ (journaled_give s _) hentry

theorem deliverCharge_returns (h : s.context o = some c) (hp : c.phase = .idle) (hkW : 0 < kW) :
    GoesOn s o { c with phase := .active, idleMinutes := 0 } (s.ceiling o) false (deliverCharge o false kW s) := by
  have hacted : chargeActed s o false kW = returnToActive o (reportCharge s o false kW) := actOnCharge_returns h hp hkW
  have hstays := sessionStays_deliverCharge s o false kW
  rw [hacted] at hstays
  exact hstays.goesOn (goesOn_congr o _ _ _ _ rfl rfl (returnToActive_goesOn (s := reportCharge s o false kW) h))

theorem deliverCharge_held {r : ResumeState} {reason : HeldReason} {d : Bool} (h : s.context o = some c)
    (hp : c.phase = .held r reason d) :
    (deliverCharge o complete kW s).journal = s.journal ∧
      (deliverCharge o complete kW s).context o =
        some
          (if r = .active ∧ complete = true then { c with phase := .held .idle reason true }
           else if r = .idle ∧ complete = false ∧ 0 < kW then
             { c with phase := .held .active reason false, idleMinutes := 0 }
           else c) := by
  have hacted := actOnCharge_held (s := reportCharge s o complete kW) (complete := complete) (kW := kW) h hp
  rw [journal_deliverCharge, (sessionStays_deliverCharge s o complete kW).context, chargeActed, hacted]
  exact ⟨rfl, context_setContext_self ..⟩

end

/-! ### The first reading (R109) -/

section
variable (v : State) (o : Outlet)

/-- The delivery that makes a baseline valid. -/
def validated : State := deliver o (fun i => { i with baselineValid := true }) (requestPass v)

theorem beyond_validated : (validated v o).beyond = v.beyond := beyond_deliver _ o _

theorem inputs_validated : (validated v o).inputs o = { v.inputs o with baselineValid := true } := by
  rw [validated, deliver, inputs_immediatePass, inputs_setInputs, if_pos rfl]
  rfl

theorem record_validated : (validated v o).record o = { v.record o with peak := ((validated v o).record o).peak } := by
  have hdelivered :=
    (within_immediatePass (setInputs o (fun i => { i with baselineValid := true }) (requestPass v)) o).record
  have hset : (setInputs o (fun i => { i with baselineValid := true }) (requestPass v)).record o = v.record o := by
    rw [setInputs_eq]; rfl
  rwa [hset] at hdelivered

/-- Where the Apportioner's law holds, the delivery brings no pass of its own. -/
theorem validated_of_grants (h : GrantsWithinWants v) :
    (validated v o).record o = v.record o ∧ (validated v o).power.passRequest = true := by
  have hgrants := grantsWithinWants_setInputs (s := requestPass v) (o := o) want_baselineValid h
  rw [validated, deliver, immediatePass_of_le _ hgrants]
  exact ⟨by rw [setInputs_eq]; rfl, passRequest_setInputs rfl⟩

end

/-! ### A rebase (R115, R118) -/

section
variable {s : State} {o : Outlet} {c : Context} {reason : HeldReason}

theorem ceiling_enterHeld : (enterHeld o reason s).ceiling o = s.ceiling o := by
  unfold enterHeld
  repeat' split
  · rfl
  · rfl
  · rw [ceiling_give, ceiling_mapContext, ceiling_leaveFor]

theorem stands_enterHeld {r : ResumeState} (hc : s.context o = some c) (hr : c.phase.resume? = some r) :
    Stands (enterHeld o reason s) o { c with phase := .held r reason false, heldMinutes := 0 } := by
  rw [Stands, context_enterHeld, hc, Option.map_some, Option.map_some, heldFor_of_resume hr]

end

/-! ### The close (R41, R108) -/

section
variable (s : State) (o : Outlet) (w : Bool) (a : ModuleMask)

theorem judged_of_not_closing {c : Context} (h : c.phase.isClosing = false) (n : Nat) (b : Bool) : c.judged n b = c := by
  unfold Context.judged
  split
  · next hp => rw [hp] at h; cases h
  · rfl

theorem checkSettle_of_not_closing {s : State} {o : Outlet} (h : ∀ c, s.context o = some c → c.phase.isClosing = false) :
    checkSettle o s = s := by
  rw [checkSettle_eq]
  cases hc : s.context o with
  | none => rw [mapContext, hc, Option.map_none, ← hc, setContext_self]
  | some c => rw [mapContext_eq _ hc, judged_of_not_closing (h c hc), ← hc, setContext_self]

/-- The session that has entered SETTLING (R42, R165). -/
def Context.settled (c : Context) (reason : EndReason) (time : Word) (unconfirmed : Bool) : Context :=
  { if c.auditHeld then c.applyPending else c with
    phase := .settling reason time, finalUnconfirmed := c.finalUnconfirmed || unconfirmed }

/-- A final reading decides over R41's other cases (log 36). -/
theorem judged_of_closing {c : Context} {reason : EndReason} {time : Word} (h : c.phase = .closing reason time) (n : Nat)
    (b : Bool) :
    c.judged n b =
      if n ≠ 0 then c
      else if c.finalReading then c.settled reason time false
      else if b = true ∨ 2 ≤ c.closingMinutes then c.settled reason time true
      else c := by
  simp only [Context.judged, h]
  by_cases hn : n = 0
  · cases hf : c.finalReading with
    | true => simp [hn, Context.settled]
    | false => simp [hn, Context.settled]
  · simp [hn]

/-- A close step that marks no final reading is the check alone. -/
theorem closeStep_unmarked : closeStep o false 0 s = checkSettle o s := by simp [closeStep]

variable {s o w a} {c : Context}

/-- The session with its final reading marked (R108). -/
def Context.finallyRead (c : Context) (b : Bool) : Context := { c with finalReading := c.finalReading || b }

theorem closeStep_of_not_closing (h : ∀ c, s.context o = some c → c.phase.isClosing = false) :
    closeStep o w a s = s := by
  have hphase : s.phaseIs o Phase.isClosing = false := by
    cases hc : s.context o with
    | none => simp [State.phaseIs, hc]
    | some c => simpa [State.phaseIs, hc] using h c hc
  simp only [closeStep, hphase, Bool.and_false, Bool.false_and, Bool.false_eq_true, if_false]
  exact checkSettle_of_not_closing h

theorem closeStep_of_closing (hc : s.context o = some c) (hp : c.phase.isClosing = true) :
    closeStep o w a s =
      setContext o
        (some ((c.finallyRead (w && decide (a = 0 ∧ s.grant o = 0))).judged (s.heldCount o) (s.report o).lineStale))
        s := by
  have hphase : s.phaseIs o Phase.isClosing = true := by simpa [State.phaseIs, hc] using hp
  have hmark : (w && s.phaseIs o Phase.isClosing && a == 0 && s.grant o == 0) =
      (w && decide (a = 0 ∧ s.grant o = 0)) := by
    rw [hphase, Bool.and_true, Bool.and_assoc]
    congr 1
    simp
    rfl
  rw [closeStep, hmark]
  cases w && decide (a = 0 ∧ s.grant o = 0) with
  | false =>
    have hsame : c.finallyRead false = c := by rw [Context.finallyRead, Bool.or_false]
    rw [if_neg Bool.false_ne_true, checkSettle_eq, mapContext_eq _ hc, hsame]
  | true =>
    have hmarked : c.finallyRead true = { c with finalReading := true } := by rw [Context.finallyRead, Bool.or_true]
    have hset : (setContext o (some { c with finalReading := true }) s).context o =
        some { c with finalReading := true } := context_setContext_self ..
    rw [if_pos rfl, mapContext_eq _ hc, checkSettle_eq, mapContext_eq _ hset, hmarked, setContext_setContext]
    rfl

end

/-! ### The other outlets (R41, R108) -/

theorem settleOthers_eq (l : List Outlet) (s : State) :
    settleOthers l s =
      { s with sessions := { s.sessions with
          contexts := Vector.ofFn fun o : Outlet =>
            if o ∈ l then s.context o else (checkSettle o s).context o } } := by
  have hnodup : (Config.outlets.filter fun o => !l.contains o).Nodup := (List.nodup_finRange 32).filter _
  rw [settleOthers, forEach_checkSettle s hnodup]
  refine congrArg (fun x => { s with sessions := { s.sessions with contexts := x } }) ?_
  ext1 i hi
  have hall : (⟨i, hi⟩ : Outlet) ∈ Config.outlets := List.mem_finRange _
  simp only [Vector.getElem_ofFn, checkSettle_eq, context_mapContext_self, List.mem_filter, hall, true_and]
  by_cases h : (⟨i, hi⟩ : Outlet) ∈ l
  · simp [h]
  · simp [h]

/-! ### The slot (R82) -/

section
variable {s : State} {k : LineNo}

theorem emptyReplySlot_of_not_withheld (h : (s.line k).state ≠ .withheld) :
    emptyReplySlot k s = setLine k { s.line k with replySlot := none } s := by
  simp only [emptyReplySlot, mapLine_eq, line_setLine]
  exact if_neg h

theorem emptyReplySlot_of_idle (h : (s.line k).state = .withheld) (hr : (s.line k).receiving = none) :
    emptyReplySlot k s = sendPoll k (setLine k { s.line k with replySlot := none } s) := by
  simp only [emptyReplySlot, mapLine_eq, line_setLine, h, hr]
  rfl

theorem emptyReplySlot_of_receiving (h : (s.line k).state = .withheld) (hr : (s.line k).receiving ≠ none) :
    emptyReplySlot k s =
      setLine k { s.line k with replySlot := none, state := .waiting, due := some s.now } s := by
  have hbusy : ¬(s.line k).receiving.isNone = true := by rwa [Option.isNone_iff_eq_none]
  simp only [emptyReplySlot, mapLine_eq, line_setLine, setLine_setLine]
  rw [if_pos h, if_neg hbusy]
  rfl

end

end Sys2Proof.Machine
end

