-- ==== Sys2Proof/Proofs/MeterTrack.lean ====
section
/-! SUPPORT. What the steps of a service leave of an outlet whose reading they do not take (R103): its report, its meter
record but for the interval peak, and the validity of its baseline. -/

namespace Sys2Proof.Machine

/-- The outlet's meter record stays but for a peak that follows the modules, and its baseline as valid as it was. -/
structure MeterStays (o : Outlet) (s u : State) : Prop where
  baselineValid : (u.inputs o).baselineValid = (s.inputs o).baselineValid
  record : u.record o = { s.record o with peak := (u.record o).peak }
  peak : PeakRises s u o

/-- So do its report, and the service pointer. -/
structure Tracked (o : Outlet) (s u : State) : Prop extends MeterStays o s u where
  report : u.report o = s.report o
  pointer : u.meters.pointer = s.meters.pointer

section
variable {o o' : Outlet} {s v u : State}

theorem MeterStays.trans (h : MeterStays o s v) (h' : MeterStays o v u) : MeterStays o s u :=
  { baselineValid := h'.baselineValid.trans h.baselineValid, record := by rw [h'.record, h.record],
    peak := h.peak.trans h'.peak }

theorem Tracked.trans (h : Tracked o s v) (h' : Tracked o v u) : Tracked o s u :=
  { h.toMeterStays.trans h'.toMeterStays with
    report := h'.report.trans h.report, pointer := h'.pointer.trans h.pointer }

/-- `Tracked.trans`, with the last step first. -/
theorem Tracked.after (h' : Tracked o v u) (h : Tracked o s v) : Tracked o s u := h.trans h'

theorem Tracked.of_eq (hinputs : (u.inputs o).baselineValid = (s.inputs o).baselineValid)
    (hmeters : u.record o = s.record o) (hpointer : u.meters.pointer = s.meters.pointer)
    (hreport : u.report o = s.report o) : Tracked o s u :=
  { baselineValid := hinputs, record := by rw [hmeters], peak := .of_record hmeters, report := hreport,
    pointer := hpointer }

theorem Tracked.refl (o : Outlet) (s : State) : Tracked o s s := .of_eq rfl rfl rfl rfl

/-- A doing at one outlet leaves the others. -/
theorem Local.tracked (h : Local o' s u) (ho : o ≠ o') : Tracked o s u :=
  { baselineValid := by rw [h.onlyAt.inputs ho], record := h.onlyAt.record ho, peak := h.peaks o ho,
    report := h.onlyAt.report ho, pointer := h.onlyAt.pointer }

/-- A doing of a session leaves its own outlet too. -/
theorem Within.tracked (h : Within o' s u) (o : Outlet) : Tracked o s u := by
  by_cases ho : o = o'
  · subst ho
    exact { baselineValid := by rw [h.inputs], record := h.record, peak := h.peak, report := h.report,
            pointer := h.onlyAt.pointer }
  · exact h.toLocal.tracked ho

end

variable (s : State) (o : Outlet)

theorem within_closeStep (w : Bool) (a : ModuleMask) : Within o s (closeStep o w a s) := by
  refine .after (within_checkSettle _ o) ?_
  split
  · exact within_mapContext s o _
  · exact .refl o s

theorem tracked_forEach {f : Outlet → State → State} (hf : ∀ o' x, Within o' x (f o' x)) (l : List Outlet) :
    Tracked o s (forEach l f s) := by
  induction l generalizing s with
  | nil => exact .refl o s
  | cons o' l ih => exact ((hf o' s).tracked o).trans (ih (f o' s))

theorem tracked_setInputs (o' : Outlet) {f : WantInputs → WantInputs}
    (hf : ∀ i, (f i).baselineValid = i.baselineValid) :
    Tracked o s (setInputs o' f s) := by
  refine .of_eq ?_ (by rw [setInputs_eq]; rfl) (by rw [setInputs_eq]) (by rw [setInputs_eq]; rfl)
  rw [inputs_setInputs]
  split
  · next h => rw [hf, h]
  · rfl

theorem tracked_deliverBoth (k : LineNo) {f : WantInputs → WantInputs}
    (hf : ∀ i, (f i).baselineValid = i.baselineValid) :
    Tracked o s (deliverBoth k f s) :=
  ((((within_requestPass s o).tracked o).trans (tracked_setInputs _ o _ hf)).trans (tracked_setInputs _ o _ hf)).trans
    ((within_immediatePass _ o).tracked o)

theorem tracked_setBlockMark (k : LineNo) (b : Bool) : Tracked o s (setBlockMark k b s) := .of_eq rfl rfl rfl rfl

theorem tracked_takeEstop (k : LineNo) (active : Bool) : Tracked o s (takeEstop k active s) := by
  unfold takeEstop
  split
  · exact .after ((within_give _ o _).tracked o)
      (.after (tracked_forEach _ o (fun o' x => within_enterClosing x o' .estop) _)
        (.after (tracked_deliverBoth _ o k fun _ => rfl) (tracked_setBlockMark s o k true)))
  · exact .refl o s

theorem tracked_clearEstop (k : LineNo) (active : Bool) : Tracked o s (clearEstop k active s) := by
  unfold clearEstop
  split
  · exact .after ((within_give _ o _).tracked o)
      (.after (tracked_deliverBoth _ o k fun _ => rfl) (tracked_setBlockMark s o k false))
  · exact .refl o s

theorem tracked_takeMasks (o' : Outlet) (n : OutletNews) (sent : ModuleMask) : Tracked o s (takeMasks o' n sent s) := by
  have h := masksTaken_takeMasks s o' n sent
  generalize takeMasks o' n sent s = u at h ⊢
  have keeps {β : Type} (f : State → β) := congrArg f (eq_of_setPower h.rest)
  exact .of_eq (keeps fun x => (x.inputs o).baselineValid :) (keeps (·.record o) :) (keeps (·.meters.pointer) :)
    (keeps (·.report o) :)

theorem tracked_settleOthers (l : List Outlet) : Tracked o s (settleOthers l s) :=
  tracked_forEach s o (fun o' x => within_checkSettle x o') _

theorem tracked_mapLine (k : LineNo) (f : Line → Line) : Tracked o s (mapLine k f s) := .of_eq rfl rfl rfl rfl

theorem tracked_emptyReplySlot (k : LineNo) : Tracked o s (emptyReplySlot k s) := by
  refine (tracked_mapLine s o k fun l => { l with replySlot := none }).trans ?_
  unfold emptyReplySlot
  dsimp only
  repeat' split
  · exact tracked_mapLine ..
  · exact tracked_mapLine ..
  · exact .refl o _

theorem tracked_endEvent : Tracked o s (endEvent s) :=
  .of_eq (by rw [inputs_endEvent]) (endEvent_keeps s (·.record o) (fun _ => rfl) fun _ => rfl)
    (endEvent_keeps s (·.meters.pointer) (fun _ => rfl) fun _ => rfl) (report_endEvent s o)

/-! ### The news at another outlet -/

/-- What a plug state does after the report and its entry (R107). -/
def actOnPlug (o : Outlet) (p : Plug) (s : State) : State :=
  match p with
  | .plugged => endHold o .outletFault (evaluateStart o s)
  | .unplugged => enterClosing o .unplugged s
  | .fault => enterHeld o .outletFault s
  | .unknown => s

theorem deliverPlug_eq (p : Plug) : deliverPlug o p s = actOnPlug o p (reportPlug o p s) := rfl

theorem within_actOnPlug (p : Plug) : Within o s (actOnPlug o p s) := by
  cases p with
  | plugged => exact (within_evaluateStart s o).trans (within_endHold _ o _)
  | unplugged => exact within_enterClosing s o _
  | fault => exact within_enterHeld s o _
  | unknown => exact .refl o s

/-- The plug state in the report, and the entry that a plug coming or going gives (R23). -/
theorem reportPlug_eq (p : Plug) :
    ∃ v, Within o (mapReport o (fun r => { r with plug := p }) s) v ∧ reportPlug o p s = v := by
  refine ⟨_, ?_, rfl⟩
  unfold reportPlug
  dsimp only
  split
  · exact within_give ..
  · exact within_give ..
  · exact within_give ..
  · exact .refl o _

theorem local_deliverPlug (p : Plug) : Local o s (deliverPlug o p s) := by
  obtain ⟨v, hv, heq⟩ := reportPlug_eq s o p
  rw [deliverPlug_eq, heq]
  exact ((local_mapReport s o _).trans hv.toLocal).trans (within_actOnPlug v o p).toLocal

end Sys2Proof.Machine
end

