-- ==== Sys2Proof/Proofs/ReplyService.lean ====
section
/-! SUPPORT. The service of a reply as one event (O46): the meter record that a reading makes of the one that the service
found, and the steps before and after it. -/

namespace Sys2Proof.Machine

/-! ### The record after a reading (R109 to R115) -/

section
variable {o : Outlet} {register : Word} {b : Band} {received last : Time} {s : State}

theorem record_readMeter_first (h : (s.record o).lastTime = none) :
    (readMeter o register b received s).record o =
      { s.accepted o register received with peak := ((readMeter o register b received s).record o).peak } := by
  have hrecord := record_validated (setRecord o (s.accepted o register received) s) o
  rw [record_setRecord] at hrecord
  rw [readMeter_first o register b received s h]
  exact hrecord

theorem record_readMeter_plausible (hlast : (s.record o).lastTime = some last)
    (hd : s.delta o register ≤ boundOf (s.record o).peak last received) :
    ∃ peak unclaimed, (readMeter o register b received s).record o =
      { s.accepted o register received with peak := peak, unclaimed := unclaimed } := by
  rw [readMeter_plausible o register b received s hlast hd]
  cases hbills : s.phaseIs o Phase.bills with
  | true =>
    rw [acceptDelta_billed o register b received s _ hbills]
    have hrecord := ((within_bill (setRecord o (s.accepted o register received) s) o (s.delta o register) b).trans
      (within_endHold _ o .meter)).record
    rw [record_setRecord] at hrecord
    exact ⟨_, _, hrecord⟩
  | false =>
    rw [acceptDelta_unclaimed o register b received s _ hbills]
    dsimp only
    refine ⟨s.heldCount o, min max32 ((s.record o).unclaimed + s.delta o register), ?_⟩
    split
    · exact record_setRecord ..
    · exact record_setRecord ..

theorem record_readMeter_implausible (hlast : (s.record o).lastTime = some last)
    (hd : boundOf (s.record o).peak last received < s.delta o register) :
    ∃ peak, (readMeter o register b received s).record o =
      { (if (s.record o).rejects < 2 then s.rejected o else s.accepted o register received) with peak := peak } := by
  rw [readMeter_implausible o register b received s hlast hd]
  cases hbills : s.phaseIs o Phase.bills with
  | false =>
    rw [rejectDelta_unbilled o register received s hbills]
    exact ⟨_, record_setRecord ..⟩
  | true =>
    obtain ⟨c, hc, hb⟩ := phaseIs_bills_iff.1 hbills
    rcases Nat.lt_or_ge (s.record o).rejects 2 with h2 | h2
    · rw [rejectDelta_counted register received hc hb h2, if_pos h2]
      exact ⟨_, record_setRecord ..⟩
    · rw [rejectDelta_rebased register received hc hb h2, if_neg (Nat.not_lt.2 h2)]
      have hrecord := (within_enterHeld (setContext o (some { c.rejection with meterRebased := true })
        (setRecord o (s.accepted o register received) s)) o .meter).record
      have hset : (setContext o (some { c.rejection with meterRebased := true })
          (setRecord o (s.accepted o register received) s)).record o = s.accepted o register received :=
        record_setRecord ..
      rw [hset] at hrecord
      exact ⟨_, hrecord⟩

/-- What the service makes of a meter record `m`, for a peak that may have risen since (R110 to R115). -/
def Read (register : Word) (received : Time) (m m' : MeterRecord) (valid : Bool) : Prop :=
  (m.lastTime = none → m'.baseline = register ∧ m'.lastTime = some received ∧ m'.rejects = 0 ∧ valid = true) ∧
  ∀ last, m.lastTime = some last →
    ((register - m.baseline).toNat ≤ boundOf m.peak last received →
      m'.baseline = register ∧ m'.lastTime = some received ∧ m'.rejects = 0) ∧
    (boundOf (max m.peak 40) last received < (register - m.baseline).toNat → m.rejects < 2 →
      m'.baseline = m.baseline ∧ m'.lastTime = some last ∧ m'.rejects = m.rejects + 1 ∧ m'.unclaimed = m.unclaimed) ∧
    (boundOf (max m.peak 40) last received < (register - m.baseline).toNat → m.rejects = 2 →
      m'.baseline = register ∧ m'.lastTime = some received ∧ m'.rejects = 0 ∧ m'.unclaimed = m.unclaimed)

theorem boundOf_mono {p q : Nat} (h : p ≤ q) : boundOf p last received ≤ boundOf q last received := by
  unfold boundOf
  have hmul : p * ((received - last + 999) / 1000) ≤ q * ((received - last + 999) / 1000) := Nat.mul_le_mul_right _ h
  omega

variable (o register b received s) in
theorem read_readMeter :
    Read register received (s.record o) ((readMeter o register b received s).record o)
      ((readMeter o register b received s).inputs o).baselineValid := by
  refine ⟨fun hlast => ?_, fun last hlast => ⟨fun hd => ?_, fun hd h2 => ?_, fun hd h2 => ?_⟩⟩
  · have hvalid : ((readMeter o register b received s).inputs o).baselineValid = true := by
      rw [readMeter_first o register b received s hlast]
      exact congrArg WantInputs.baselineValid (inputs_validated (setRecord o (s.accepted o register received) s) o)
    rw [record_readMeter_first hlast]
    exact ⟨rfl, rfl, rfl, hvalid⟩
  · obtain ⟨peak, unclaimed, hrecord⟩ := record_readMeter_plausible hlast hd
    rw [hrecord]
    exact ⟨rfl, rfl, rfl⟩
  all_goals
    obtain ⟨peak, hrecord⟩ :=
      record_readMeter_implausible (b := b) hlast ((boundOf_mono (le_max_left (s.record o).peak 40)).trans_lt hd)
    rw [hrecord]
  · rw [if_pos h2]
    exact ⟨rfl, hlast, rfl, rfl⟩
  · rw [if_neg (by omega)]
    exact ⟨rfl, rfl, rfl, rfl⟩

/-- A reading of a record that has been tracked is one of the record before. -/
theorem Read.before {v : State} {m' : MeterRecord} {valid : Bool} (h : MeterStays o s v)
    (hread : Read register received (v.record o) m' valid) : Read register received (s.record o) m' valid := by
  obtain ⟨-, hrecord, hlow, hhigh⟩ := h
  generalize v.record o = m at *
  obtain ⟨hbaseline, hlast, hrejects, hunclaimed⟩ : m.baseline = (s.record o).baseline ∧
      m.lastTime = (s.record o).lastTime ∧ m.rejects = (s.record o).rejects ∧ m.unclaimed = (s.record o).unclaimed := by
    rw [hrecord]; exact ⟨rfl, rfl, rfl, rfl⟩
  have hmax : max m.peak 40 = max (s.record o).peak 40 := by omega
  rw [Read, hbaseline, hlast, hrejects, hunclaimed, hmax] at hread
  obtain ⟨hfirst, hlater⟩ := hread
  refine ⟨hfirst, fun last h => ?_⟩
  obtain ⟨hplausible, hrejected⟩ := hlater last h
  exact ⟨fun hd => hplausible (hd.trans (boundOf_mono hlow)), hrejected⟩

/-- What is tracked after a reading leaves it. -/
theorem Read.after {u v : State} {m : MeterRecord} (h : MeterStays o v u)
    (hread : Read register received m (v.record o) (v.inputs o).baselineValid) :
    Read register received m (u.record o) (u.inputs o).baselineValid := by
  rw [h.baselineValid, h.record]
  exact hread

end

/-! ### The steps of an outlet -/

section
variable (s : State) (o : Outlet)

theorem meterStays_mapReport (f : OutletReport → OutletReport) : MeterStays o s (mapReport o f s) :=
  { baselineValid := rfl, record := rfl, peak := .of_record rfl }

theorem meterStays_deliverPlug (p : Plug) : MeterStays o s (deliverPlug o p s) := by
  obtain ⟨v, hv, heq⟩ := reportPlug_eq s o p
  rw [deliverPlug_eq, heq]
  exact ((meterStays_mapReport s o _).trans (hv.tracked o).toMeterStays).trans
    ((within_actOnPlug v o p).tracked o).toMeterStays

theorem report_deliverPlug (p : Plug) : (deliverPlug o p s).report o = { s.report o with plug := p } := by
  obtain ⟨v, hv, heq⟩ := reportPlug_eq s o p
  rw [deliverPlug_eq, heq, (within_actOnPlug v o p).report, hv.report, report_mapReport_self]

theorem meterStays_deliverDemand (kW : Nat) : MeterStays o s (deliverDemand o kW s) := by
  have hdelivered (v : State) : MeterStays o v (deliver o (fun i => { i with demand := kW }) v) :=
    Tracked.toMeterStays (.after ((within_immediatePass _ o).tracked o) (tracked_setInputs v o o fun _ => rfl))
  unfold deliverDemand
  dsimp only
  split
  · exact hdelivered s
  · exact ((within_requestPass s o).tracked o).toMeterStays.trans (hdelivered _)

theorem meterStays_deliverCharge (complete : Bool) (kW : Nat) : MeterStays o s (deliverCharge o complete kW s) :=
  ((meterStays_mapReport s o _).trans ((within_actOnCharge _ o complete kW).tracked o).toMeterStays).trans
    (meterStays_deliverDemand _ o kW)

variable (l : List Outlet) (w : Bool) (n : OutletNews) (sent : ModuleMask) (b : Band) (received : Time)

/-- The state that an outlet's meter step finds (R103). -/
def meterFinds : State :=
  deliverCharge o n.complete n.demand (deliverPlug o n.plug (settleOthers l (takeMasks o n sent s)))

theorem serveOutlet_eq :
    serveOutlet o l w n sent b received s =
      closeStep o w n.applied (readMeter o n.register b received (meterFinds s o l n sent)) := rfl

theorem meterStays_meterFinds : MeterStays o s (meterFinds s o l n sent) :=
  (((tracked_takeMasks s o o n sent).trans (tracked_settleOthers _ o l)).toMeterStays.trans
    (meterStays_deliverPlug _ o n.plug)).trans (meterStays_deliverCharge _ o n.complete n.demand)

/-- What one outlet's steps leave of another. -/
theorem tracked_serveOutlet {o' : Outlet} (h : o ≠ o') : Tracked o s (serveOutlet o' l w n sent b received s) :=
  .after ((within_closeStep _ o' w n.applied).tracked o)
    (.after ((local_readMeter o' n.register b received _).tracked h)
      (.after ((local_deliverCharge _ o' n.complete n.demand).tracked h)
        (.after ((local_deliverPlug _ o' n.plug).tracked h)
          (.after (tracked_settleOthers _ o l) (tracked_takeMasks s o o' n sent)))))

theorem report_readMeter (register : Word) : (readMeter o register b received s).report o = s.report o := by
  cases hlast : (s.record o).lastTime with
  | none =>
    rw [readMeter_first o register b received s hlast]
    exact congrArg (fun b : Beyond => Table.get b.sessions.reports o)
      (beyond_validated (setRecord o (s.accepted o register received) s) o)
  | some last =>
    rcases Nat.lt_or_ge (boundOf (s.record o).peak last received) (s.delta o register) with hd | hd
    · rw [readMeter_implausible o register b received s hlast hd]
      cases hbills : s.phaseIs o Phase.bills with
      | false =>
        rw [rejectDelta_unbilled o register received s hbills]
        rfl
      | true =>
        obtain ⟨c, hc, hb⟩ := phaseIs_bills_iff.1 hbills
        rcases Nat.lt_or_ge (s.record o).rejects 2 with h2 | h2
        · rw [rejectDelta_counted register received hc hb h2]
          rfl
        · rw [rejectDelta_rebased register received hc hb h2]
          exact (within_enterHeld ..).report
    · rw [readMeter_plausible o register b received s hlast hd]
      cases hbills : s.phaseIs o Phase.bills with
      | false =>
        rw [acceptDelta_unclaimed o register b received s _ hbills]
        dsimp only
        split <;> rfl
      | true =>
        rw [acceptDelta_billed o register b received s _ hbills]
        exact ((within_bill ..).trans (within_endHold ..)).report

/-- What the service of a reply leaves of an outlet of its pedestal. -/
structure Served (n : OutletNews) (received : Time) (s u : State) : Prop where
  plug : (u.report o).plug = n.plug
  complete : (u.report o).complete = n.complete
  demand : (u.report o).demand = n.demand
  read : Read n.register received (s.record o) (u.record o) (u.inputs o).baselineValid

variable {s o n received} in
theorem Served.before {v u : State} (h : Tracked o s v) (hserved : Served o n received v u) : Served o n received s u :=
  { hserved with read := hserved.read.before h.toMeterStays }

variable {s o n received} in
theorem Served.after {v u : State} (h : Tracked o v u) (hserved : Served o n received s v) : Served o n received s u :=
  { plug := (congrArg OutletReport.plug h.report).trans hserved.plug,
    complete := (congrArg OutletReport.complete h.report).trans hserved.complete,
    demand := (congrArg OutletReport.demand h.report).trans hserved.demand, read := hserved.read.after h.toMeterStays }

theorem served_serveOutlet : Served o n received s (serveOutlet o l w n sent b received s) := by
  have hreport : ((readMeter o n.register b received (meterFinds s o l n sent)).report o) =
      { (settleOthers l (takeMasks o n sent s)).report o with
        plug := n.plug, complete := n.complete, demand := n.demand } := by
    rw [report_readMeter, meterFinds, report_deliverCharge, report_deliverPlug]
  have hserved : Served o n received s (readMeter o n.register b received (meterFinds s o l n sent)) :=
    { plug := by rw [hreport], complete := by rw [hreport], demand := by rw [hreport],
      read := (read_readMeter o n.register b received (meterFinds s o l n sent)).before
        (meterStays_meterFinds s o l n sent) }
  exact hserved.after ((within_closeStep _ o w n.applied).tracked o)

theorem pointer_serveOutlet : (serveOutlet o l w n sent b received s).meters.pointer = s.meters.pointer := by
  have hread := (local_readMeter o n.register b received (meterFinds s o l n sent)).onlyAt.pointer
  have hcharge := (local_deliverCharge (deliverPlug o n.plug (settleOthers l (takeMasks o n sent s))) o n.complete
    n.demand).onlyAt.pointer
  have hplug := (local_deliverPlug (settleOthers l (takeMasks o n sent s)) o n.plug).onlyAt.pointer
  have hmasks := ((tracked_takeMasks s o o n sent).trans (tracked_settleOthers _ o l)).pointer
  exact ((within_closeStep _ o w n.applied).onlyAt.pointer).trans
    (hread.trans (hcharge.trans (hplug.trans hmasks)))

end

/-! ### The event -/

section
variable (s : State) (k : LineNo) (r : HeldReply)

theorem line_emptyReplySlot : ((emptyReplySlot k s).line k).replySlot = none := by
  by_cases hstate : (s.line k).state = .withheld
  · by_cases hr : (s.line k).receiving = none
    · rw [emptyReplySlot_of_idle hstate hr, sendPoll, mapLine_eq, line_setLine, line_setLine]
    · rw [emptyReplySlot_of_receiving hstate hr, line_setLine]
  · rw [emptyReplySlot_of_not_withheld hstate, line_setLine]

/-- The service at its first outlet begins with the emergency stop. -/
def stopsTaken : State := clearEstop k r.estop (takeEstop k r.estop s)

theorem tracked_stopsTaken (o : Outlet) : Tracked o s (stopsTaken s k r) :=
  (tracked_takeEstop s o k r.estop).trans (tracked_clearEstop _ o k r.estop)

theorem served_serveReply {o : Outlet} {n : OutletNews}
    (h : (o = outletA k ∧ n = r.news0) ∨ (o = outletB k ∧ n = r.news1)) :
    Served o n r.received s (serveReply k r s) := by
  have hne := outletB_ne_outletA k
  rcases h with ⟨rfl, rfl⟩ | ⟨rfl, rfl⟩
  · exact (((served_serveOutlet (stopsTaken s k r) ..).after (tracked_serveOutlet (h := hne.symm) ..)).after
      (tracked_emptyReplySlot _ _ k)).before (tracked_stopsTaken s k r _)
  · refine Served.after (tracked_emptyReplySlot _ _ k) (.before ?_ (served_serveOutlet ..))
    exact .after (tracked_serveOutlet (h := hne) ..) (tracked_stopsTaken s k r _)

theorem pointer_serveReply : (serveReply k r s).meters.pointer = s.meters.pointer := by
  have hstops := (tracked_stopsTaken s k r (outletA k)).pointer
  exact (tracked_emptyReplySlot _ (outletA k) k).pointer.trans
    ((pointer_serveOutlet ..).trans ((pointer_serveOutlet ..).trans hstops))

variable {s k r}

theorem exec_replyService (t : Time) (halert : s.nextAlert = none) (hnext : s.nextReply = some k)
    (hslot : (s.line k).replySlot = some r) :
    exec (.replyService t) s = finish (serveReply k r (setPointer k (atTime t s))) := by
  have halert' : (atTime t s).nextAlert = none := halert
  have hnext' : (atTime t s).nextReply = some k := hnext
  have hslot' : ((atTime t s).line k).replySlot = some r := hslot
  show finish (serveNextReply (atTime t s)) = _
  simp [serveNextReply, halert', hnext', hslot']

theorem exec_replyService_idle (t : Time) (h : s.nextAlert ≠ none ∨ s.nextReply = none) :
    exec (.replyService t) s = finish (atTime t s) := by
  have hsame : serveNextReply (atTime t s) = atTime t s := by
    have halert : (atTime t s).nextAlert = s.nextAlert := rfl
    have hnext : (atTime t s).nextReply = s.nextReply := rfl
    rcases h with h | h
    · obtain ⟨k, hk⟩ := Option.ne_none_iff_exists'.1 h
      simp [serveNextReply, halert, hk]
    · simp only [serveNextReply, hnext, h]
      split <;> rfl
  show finish (serveNextReply (atTime t s)) = _
  rw [hsame]

end

end Sys2Proof.Machine
end

