-- ==== Sys2Proof/Proofs/RepliesServed.lean ====
section
/-! SUPPORT. Settles the service of a reply (O46). -/

namespace Sys2Proof.Machine

/-- Settles O46: each step from any state, and the event, whose steps track the readings of both outlets. -/
theorem repliesServed : Obligations.RepliesServed := by
  refine ⟨fun o complete kW s => ?_, fun o register b received s => ?_, fun o wasClosing applied s => ?_,
    fun l s => ?_, fun k s => ?_, fun t s => ?_⟩
  · intro u
    refine ⟨(local_deliverCharge s o complete kW).onlyAt, report_deliverCharge s o complete kW,
      inputs_deliverCharge s o complete kW, grantsWithinWants_deliverCharge s o complete kW, fun hc => ?_, fun c hc => ?_⟩
    · obtain ⟨hcontext, hjournal⟩ :=
        deliverCharge_unmoved (actOnCharge_vacant (s := reportCharge s o complete kW) (kW := kW) hc)
      exact ⟨hcontext.trans hc, hjournal⟩
    have hunmoved (hp : c.unmovedByCharge complete kW) : u.context o = some c ∧ u.journal = s.journal := by
      obtain ⟨hcontext, hjournal⟩ :=
        deliverCharge_unmoved (actOnCharge_unmoved (s := reportCharge s o complete kW) hc hp)
      exact ⟨hcontext.trans hc, hjournal⟩
    refine ⟨fun hp h => ?_, fun hp h => hunmoved (.inl ⟨hp, h⟩), fun hp h hkW => ?_,
      fun hp h => hunmoved (.inr (.inl ⟨hp, h⟩)), fun r reason d hp => deliverCharge_held hc hp,
      fun hp => hunmoved (.inr (.inr hp))⟩
    · subst h
      exact deliverCharge_completes hc hp
    · subst h
      exact deliverCharge_returns hc hp hkW
  · intro u m bills accepted recorded
    refine ⟨fun hlast => ?_, fun last hlast => ?_⟩
    · have hu : u = validated (setRecord o (s.accepted o register received) s) o :=
        readMeter_first o register b received s hlast
      have hbeyond := beyond_validated (setRecord o (s.accepted o register received) s) o
      rw [← hu] at hbeyond
      refine ⟨(local_readMeter o register b received s).onlyAt, congrArg Beyond.sessions hbeyond,
        congrArg Beyond.journal hbeyond, congrArg Beyond.standby hbeyond, record_readMeter_first hlast, ?_, fun hg => ?_⟩
      · rw [hu]
        exact inputs_validated (setRecord o (s.accepted o register received) s) o
      · obtain ⟨hrecord, hpass⟩ := validated_of_grants (setRecord o (s.accepted o register received) s) o hg
        rw [record_setRecord] at hrecord
        rw [hu]
        exact ⟨congrArg MeterRecord.peak hrecord, hpass⟩
    · intro delta bound
      have hbilled : bills → s.phaseIs o Phase.bills = true := phaseIs_bills_iff.2
      have hunbilled (h : ¬bills) : s.phaseIs o Phase.bills = false :=
        Bool.eq_false_iff.2 fun hp => h (phaseIs_bills_iff.1 hp)
      refine ⟨fun hd hb => ?_, fun hd hb => ?_, fun hd => ⟨fun hb => ?_, fun c hc harmed hsettling => ?_⟩⟩
      · exact (readMeter_plausible o register b received s hlast hd).trans
          (acceptDelta_billed o register b received s delta (hbilled hb))
      · exact (readMeter_plausible o register b received s hlast hd).trans
          (acceptDelta_unclaimed o register b received s delta (hunbilled hb))
      · exact (readMeter_implausible o register b received s hlast hd).trans
          (rejectDelta_unbilled o register received s (hunbilled hb))
      · intro counted
        have hreject := readMeter_implausible o register b received s hlast hd
        refine ⟨fun h2 => hreject.trans (rejectDelta_counted register received hc ⟨harmed, hsettling⟩ h2),
          fun h2 => ?_⟩
        set v := setContext o (some { counted with meterRebased := true }) (recorded accepted) with hv
        have hu : u = enterHeld o .meter v :=
          hreject.trans (rejectDelta_rebased register received hc ⟨harmed, hsettling⟩ h2)
        have hcontext : v.context o = some { counted with meterRebased := true } := context_setContext_self ..
        have hrecord : v.record o = accepted := record_setRecord ..
        have hheld := within_enterHeld v o .meter
        refine ⟨(local_readMeter o register b received s).onlyAt, ?_, ?_, ?_, fun r hr => ?_, fun hr => ?_⟩
        · rw [hu, hheld.report]; rfl
        · rw [hu, ceiling_enterHeld]; rfl
        · rw [hu, hheld.record, hrecord]
        · rw [hu]
          exact ⟨stands_enterHeld hcontext hr, journaled_congr _ _ rfl (journaled_enterHeld hcontext hr)⟩
        · rw [hu]
          refine enterHeld_of_none fun x hx => ?_
          rw [hcontext] at hx
          cases hx
          exact hr
  · intro u
    refine ⟨closeStep_of_not_closing, fun c reason time hc hp => ?_⟩
    intro final d settled
    have hclosing : c.phase.isClosing = true := by rw [hp]; rfl
    have hu : u = setContext o (some (d.judged (s.heldCount o) (s.report o).lineStale)) s :=
      closeStep_of_closing hc hclosing
    have hjudged := judged_of_closing (c := d) hp (s.heldCount o) (s.report o).lineStale
    rw [hu, hjudged]
    rfl
  · intro u
    have hu : u = _ := settleOthers_eq l s
    refine ⟨by rw [hu], fun o => ?_⟩
    rw [hu, closeStep_unmarked]
    simp [State.context, Table.get]
  · intro l
    refine ⟨emptyReplySlot_of_not_withheld, fun h hr => ?_, emptyReplySlot_of_receiving⟩
    rw [emptyReplySlot_of_idle h hr, sendPoll, mapLine_setLine, ms, Nat.mul_comm]
    rfl
  · obtain ⟨u, hu⟩ : ∃ u, exec (.replyService t) s = .next u := ⟨_, rfl⟩
    refine ⟨u, hu, fun hidle => ?_, fun k r halert hnext hslot => ?_⟩
    · rw [exec_replyService_idle t hidle] at hu
      cases hu
      exact ends_endEvent _
    rw [exec_replyService t halert hnext hslot] at hu
    cases hu
    have hend (o : Outlet) := tracked_endEvent (serveReply k r (setPointer k (atTime t s))) o
    refine ⟨(hend (outletA k)).pointer.trans (pointer_serveReply ..), ?_,
      ends_endEvent (serveReply k r (setPointer k (atTime t s))), fun o n ho => ?_⟩
    · rw [line_endEvent]
      exact line_emptyReplySlot ..
    · obtain ⟨hplug, hcomplete, hdemand, hread⟩ := (served_serveReply (setPointer k (atTime t s)) k r ho).after (hend o)
      exact ⟨hplug, hcomplete, hdemand, hread⟩

end Sys2Proof.Machine
end

