-- ==== Sys2Proof/Proofs/EmergencyStops.lean ====
section
/-! SUPPORT. The emergency stop (R105, R106): the block that an ESTOP brings to both outlets of a pedestal with the CLOSING
of their sessions, and the one that a reply clears. -/

namespace Sys2Proof.Machine

theorem Journaled.of_seconds {s v u : State} {e : EntryKind} (h : Journaled e v u)
    (hseconds : v.control.seconds = s.control.seconds) : Journaled e s u := by
  rwa [Journaled, ← hseconds]

/-! ### The entry to CLOSING (R37) -/

section
variable (s : State) (o : Outlet) (reason : EndReason)

/-- The context as the entry to CLOSING leaves it: from a running phase, and another as it is (R37). -/
def Context.closedFor (c : Context) (reason : EndReason) (time : Word) : Context :=
  if c.phase.running then c.closing reason time else c

variable {s o} in
theorem enterClosing_of_not_running (h : ∀ c, s.context o = some c → c.phase.running = false) :
    enterClosing o reason s = s := by
  cases hc : s.context o with
  | none => simp [enterClosing, hc]
  | some c => simp [enterClosing, hc, h c hc]

theorem context_enterClosing :
    (enterClosing o reason s).context o = (s.context o).map (·.closedFor reason s.control.seconds) := by
  cases hc : s.context o with
  | none => rw [enterClosing_of_not_running reason (by simp [hc]), hc, Option.map_none]
  | some c =>
    rw [Option.map_some, Context.closedFor]
    by_cases hp : c.phase.running = true
    · rw [if_pos hp, (enterClosing_spec s reason hc hp).1]
    · have hnot : ∀ x, s.context o = some x → x.phase.running = false := fun x hx => by
        rw [hc] at hx; cases hx; simpa using hp
      rw [if_neg hp, enterClosing_of_not_running reason hnot, hc]

/-- A session that is closed keeps its own modules GRANTED or RELEASING in the event. -/
theorem heldCount_enterClosing : (enterClosing o reason s).heldCount o = s.heldCount o := by
  by_cases h : ∃ c, s.context o = some c ∧ c.phase.running = true
  · obtain ⟨c, hc, hp⟩ := h
    exact (enterClosing_spec s reason hc hp).2.1
  · rw [enterClosing_of_not_running reason fun c hc => by simpa using fun hp => h ⟨c, hc, hp⟩]

@[simp] theorem elsewhere_enterClosing : (enterClosing o reason s).elsewhere o = s.elsewhere o := by
  unfold enterClosing
  repeat' split
  all_goals simp

theorem standby_enterClosing : (enterClosing o reason s).standby = s.standby := by
  unfold enterClosing
  repeat' split
  · rfl
  · exact standby_leaveFor ..
  · rfl

theorem journal_enterClosing : (enterClosing o reason s).journal = s.journal := by
  have hmapped (f : Context → Context) (v : State) : (mapContext o f v).journal = v.journal := rfl
  unfold enterClosing
  repeat' split
  · rfl
  · rw [hmapped, journal_leaveFor]
  · rfl

theorem ceiling_enterClosing : (enterClosing o reason s).ceiling o = s.ceiling o := by
  unfold enterClosing
  repeat' split
  · rfl
  · exact ceiling_leaveFor ..
  · rfl

end

/-! ### The pedestal told (R105, R106) -/

section
variable (s : State) (k : LineNo) (b : Bool)

/-- The pedestal's block mark with its inputs and their pass. -/
def tellBlocked : State := deliverBoth k (fun i => { i with blocked := b }) (setBlockMark k b s)

theorem blocked_deliverBoth (f : WantInputs → WantInputs) : (deliverBoth k f s).meters.blocked = s.meters.blocked := by
  rw [deliverBoth, (within_immediatePass _ (outletA k)).onlyAt.blocked, setInputs_eq, setInputs_eq]
  rfl

theorem blocked_tellBlocked : (tellBlocked s k b).meters.blocked = Table.set s.meters.blocked k b :=
  blocked_deliverBoth (setBlockMark k b s) k _

theorem beyond_tellBlocked : (tellBlocked s k b).beyond = s.beyond := beyond_deliverBoth (setBlockMark k b s) k _

theorem sessions_tellBlocked : (tellBlocked s k b).sessions = s.sessions :=
  (congrArg Beyond.sessions (beyond_tellBlocked s k b) :)

theorem control_tellBlocked : (tellBlocked s k b).control = s.control :=
  (congrArg Beyond.control (beyond_tellBlocked s k b) :)

theorem context_tellBlocked (o : Outlet) : (tellBlocked s k b).context o = s.context o := by
  rw [State.context, sessions_tellBlocked]; rfl

variable {k} {o : Outlet}

theorem inputs_tellBlocked (h : o ∈ outletsOf k) :
    (tellBlocked s k b).inputs o = { s.inputs o with blocked := b } := by
  rw [tellBlocked, inputs_deliverBoth, if_pos h]; rfl

theorem inputs_tellBlocked_ne (h : o ∉ outletsOf k) : (tellBlocked s k b).inputs o = s.inputs o := by
  rw [tellBlocked, inputs_deliverBoth, if_neg h]; rfl

variable {s} in
theorem want_of_blocked (h : (s.inputs o).blocked = true) : s.want o = 0 := by simp [State.want, WantInputs.want, h]

/-- A blocked outlet keeps its modules GRANTED or RELEASING in the event. -/
theorem heldCount_tellBlocked (h : o ∈ outletsOf k) : (tellBlocked s k true).heldCount o = s.heldCount o := by
  have hblocked : ((setInputs (outletB k) (fun i => { i with blocked := true })
      (setInputs (outletA k) (fun i => { i with blocked := true })
        (requestPass (setBlockMark k true s)))).inputs o).blocked = true := by rw [inputs_setInputs_both, if_pos h]
  rw [tellBlocked, deliverBoth, heldCount_immediatePass _ o (want_of_blocked hblocked), heldCount_setInputs,
    heldCount_setInputs]
  rfl

theorem want_unblocked (i : WantInputs) (n : Nat) (b : Bool) : i.want n b ≤ { i with blocked := false }.want n b := by
  unfold WantInputs.want
  cases i.blocked <;> simp

/-- Where the Apportioner's law holds, a cleared block brings no pass of its own. -/
theorem passRequest_tellBlocked (h : GrantsWithinWants s) : (tellBlocked s k false).power.passRequest = true := by
  have hfirst : GrantsWithinWants (setInputs (outletA k) (fun i => { i with blocked := false })
      (requestPass (setBlockMark k false s))) := grantsWithinWants_setInputs want_unblocked h
  have hgrants := grantsWithinWants_setInputs (o := outletB k) want_unblocked hfirst
  rw [tellBlocked, deliverBoth, immediatePass_of_le _ hgrants]
  exact passRequest_setInputs (passRequest_setInputs rfl)

end

/-! ### A pedestal blocked (R105) -/

section
variable (s : State) (k : LineNo)

/-- Both outlets' sessions enter CLOSING. -/
def closeBoth (reason : EndReason) (s : State) : State :=
  enterClosing (outletB k) reason (enterClosing (outletA k) reason s)

variable {s k} in
theorem takeEstop_blocks (h : s.blockMark k = false) :
    takeEstop k true s = give (.estop k true) (closeBoth k .estop (tellBlocked s k true)) := by
  simp only [takeEstop, h, Bool.not_false, Bool.and_self, if_true, forEach_outletsOf]
  rfl

variable {s k} in
theorem takeEstop_idle {active : Bool} (h : active = false ∨ s.blockMark k = true) : takeEstop k active s = s := by
  rcases h with h | h <;> simp [takeEstop, h]

variable {s k} in
theorem clearEstop_clears (h : s.blockMark k = true) :
    clearEstop k false s = give (.estop k false) (tellBlocked s k false) := by
  simp only [clearEstop, h, Bool.not_false, Bool.and_self, if_true]
  rfl

variable {s k} in
theorem clearEstop_idle {active : Bool} (h : active = true ∨ s.blockMark k = false) : clearEstop k active s = s := by
  rcases h with h | h <;> simp [clearEstop, h]

variable (reason : EndReason)

theorem context_closeBoth {o : Outlet} (h : o ∈ outletsOf k) :
    (closeBoth k reason s).context o = (s.context o).map (·.closedFor reason s.control.seconds) := by
  have hne := outletB_ne_outletA k
  have he := elsewhere_enterClosing s (outletA k) reason
  rcases (outletsOf_cases k).1 h with rfl | rfl
  · rw [closeBoth, context_of_elsewhere (elsewhere_enterClosing _ (outletB k) reason) hne.symm, context_enterClosing]
  · rw [closeBoth, context_enterClosing, context_of_elsewhere he hne, control_of_elsewhere he]

theorem context_closeBoth_ne {o : Outlet} (h : o ∉ outletsOf k) : (closeBoth k reason s).context o = s.context o := by
  have hne : o ≠ outletA k ∧ o ≠ outletB k := by simpa [outletsOf_cases] using h
  rw [closeBoth, context_of_elsewhere (elsewhere_enterClosing _ (outletB k) reason) hne.2,
    context_of_elsewhere (elsewhere_enterClosing s (outletA k) reason) hne.1]

theorem control_closeBoth : (closeBoth k reason s).control = s.control :=
  (control_of_elsewhere (elsewhere_enterClosing _ (outletB k) reason)).trans
    (control_of_elsewhere (elsewhere_enterClosing s (outletA k) reason))

theorem report_closeBoth (o : Outlet) : (closeBoth k reason s).report o = s.report o :=
  (report_of_elsewhere (elsewhere_enterClosing _ (outletB k) reason) o).trans
    (report_of_elsewhere (elsewhere_enterClosing s (outletA k) reason) o)

/-- A doing at one outlet leaves the block inputs of all. -/
theorem Within.blockInput {s u : State} {o' : Outlet} (h : Within o' s u) (o : Outlet) :
    (u.inputs o).blocked = (s.inputs o).blocked := by
  by_cases ho : o = o'
  · rw [ho, h.inputs]
  · rw [h.onlyAt.inputs ho]

/-- Sessions of a blocked pedestal keep the modules they have GRANTED or RELEASING while they are closed. -/
theorem heldCount_closeBoth {o : Outlet} (h : o ∈ outletsOf k) (hblocked : (s.inputs o).blocked = true) :
    (closeBoth k reason s).heldCount o = s.heldCount o := by
  have hne := outletB_ne_outletA k
  have hfirst := within_enterClosing s (outletA k) reason
  have hwant := want_of_blocked ((hfirst.blockInput o).trans hblocked)
  rcases (outletsOf_cases k).1 h with rfl | rfl
  · rw [closeBoth, (within_enterClosing _ (outletB k) reason).held _ hne.symm hwant, heldCount_enterClosing]
  · rw [closeBoth, heldCount_enterClosing, hfirst.held _ hne (want_of_blocked hblocked)]

/-- What the entry of an ESTOP and the CLOSING of both sessions leave of a pedestal that is blocked. -/
structure Blocked (s u : State) : Prop where
  mark : u.meters.blocked = Table.set s.meters.blocked k true
  entry : Journaled (.estop k true) s u
  beside : ∀ o, o ∉ outletsOf k → u.context o = s.context o
  input : ∀ o ∈ outletsOf k, (u.inputs o).blocked = true
  grant : ∀ o ∈ outletsOf k, u.grant o = 0
  held : ∀ o ∈ outletsOf k, u.heldCount o = s.heldCount o
  control : u.control = s.control
  band : u.sessions.band = s.sessions.band
  startSerial : u.sessions.startSerial = s.sessions.startSerial
  report : ∀ o, u.report o = s.report o
  context : ∀ o ∈ outletsOf k, u.context o = (s.context o).map (·.closedFor .estop s.control.seconds)

theorem blocked_takeEstop (h : s.blockMark k = false) : Blocked k s (takeEstop k true s) := by
  have hcontrol := control_tellBlocked s k true
  have hmark := blocked_tellBlocked s k true
  have hcontext := context_tellBlocked s k true
  have hheld (o : Outlet) (ho : o ∈ outletsOf k) := heldCount_tellBlocked s ho
  have hinput (o : Outlet) (ho : o ∈ outletsOf k) : ((tellBlocked s k true).inputs o).blocked = true := by
    rw [inputs_tellBlocked s true ho]
  have hsessions := sessions_tellBlocked s k true
  have hgrants : GrantsWithinWants (tellBlocked s k true) := grantsWithinWants_immediatePass _
  rw [takeEstop_blocks h]
  generalize tellBlocked s k true = v at *
  have hfirst := within_enterClosing v (outletA k) .estop
  have hsecond := within_enterClosing (enterClosing (outletA k) .estop v) (outletB k) .estop
  have hclosed (o : Outlet) (ho : o ∈ outletsOf k) : ((closeBoth k .estop v).inputs o).blocked = true :=
    ((hsecond.blockInput o).trans (hfirst.blockInput o)).trans (hinput o ho)
  have hlaw : GrantsWithinWants (closeBoth k .estop v) :=
    (keeps_enterClosing _ (outletB k) .estop).grants ((keeps_enterClosing v (outletA k) .estop).grants hgrants)
  refine
    { mark := (hsecond.onlyAt.blocked.trans hfirst.onlyAt.blocked).trans hmark,
      entry := journaled_congr _ _ ((control_closeBoth v k .estop).trans hcontrol) (journaled_give _ _),
      beside := fun o ho => (context_closeBoth_ne v k .estop ho).trans (hcontext o),
      input := hclosed,
      grant := fun o ho => Nat.le_zero.1 ((hlaw o).trans_eq (want_of_blocked (hclosed o ho))),
      held := fun o ho => (heldCount_closeBoth v k .estop ho (hinput o ho)).trans (hheld o ho),
      control := (control_closeBoth v k .estop).trans hcontrol,
      band := (hsecond.onlyAt.band.trans hfirst.onlyAt.band).trans (congrArg SessionUnit.band hsessions),
      startSerial := ((startSerial_of_elsewhere (elsewhere_enterClosing _ (outletB k) .estop)).trans
        (startSerial_of_elsewhere (elsewhere_enterClosing v (outletA k) .estop))).trans
          (congrArg SessionUnit.startSerial hsessions),
      report := fun o =>
        (report_closeBoth v k .estop o).trans (congrArg (fun x : SessionUnit => Table.get x.reports o) hsessions),
      context := fun o ho => ?_ }
  have hclose := context_closeBoth v k .estop ho
  rw [hcontext, hcontrol] at hclose
  exact hclose

/-- What a block that is cleared leaves (R106). -/
structure Cleared (s u : State) : Prop where
  mark : u.meters.blocked = Table.set s.meters.blocked k false
  entry : Journaled (.estop k false) s u
  sessions : u.sessions = s.sessions
  input : ∀ o ∈ outletsOf k, u.inputs o = { s.inputs o with blocked := false }
  request : GrantsWithinWants s → u.power.passRequest = true

theorem cleared_clearEstop (h : s.blockMark k = true) : Cleared k s (clearEstop k false s) := by
  have hmark := blocked_tellBlocked s k false
  have hcontrol := control_tellBlocked s k false
  have hsessions := sessions_tellBlocked s k false
  have hinput (o : Outlet) (ho : o ∈ outletsOf k) := inputs_tellBlocked s false ho
  have hrequest := passRequest_tellBlocked (k := k) s
  rw [clearEstop_clears h]
  generalize tellBlocked s k false = v at *
  exact
    { mark := hmark, entry := journaled_congr _ _ hcontrol (journaled_give v _), sessions := hsessions, input := hinput,
      request := hrequest }

end

end Sys2Proof.Machine
end

