-- ==== Sys2Proof/Proofs/PlugNews.lean ====
section
/-! SUPPORT. A plug state at one outlet (R23, R28, R29, R38, R107, R117, R119): its entry, the start that it brings, and the
phases that it moves or leaves. -/

namespace Sys2Proof.Machine

section
variable {s : State} {o : Outlet} {c : Context}

/-! ### A start (R28, R29) -/

theorem startHolds_iff {start : StartCondition} :
    s.startHolds o start = true ↔ (s.report o).plug = .plugged ∧ (s.report o).lineStale = false ∧
      (start = .onPlug ∨ start = .onBand s.sessions.band) := by
  cases start <;> simp [State.startHolds, and_assoc]

theorem evaluateStart_of_holds {start : StartCondition} (h : s.context o = some c) (hp : c.phase = .armed start)
    (hh : s.startHolds o start = true) : evaluateStart o s = takeOn o (beginSession o s) := by
  simp [evaluateStart, h, hp, hh]

theorem evaluateStart_of_not_holds
    (h : ∀ c start, s.context o = some c → c.phase = .armed start → s.startHolds o start = false) :
    evaluateStart o s = s := by
  unfold evaluateStart
  split
  · rfl
  · next c hc =>
    split
    · next start hp => rw [h c start hc hp, if_neg Bool.false_ne_true]
    · rfl

theorem elsewhere_evaluateStart_of_holds {start : StartCondition} (h : s.context o = some c) (hp : c.phase = .armed start)
    (hh : s.startHolds o start = true) : (evaluateStart o s).elsewhere o = (countStart s).elsewhere o := by
  rw [evaluateStart_of_holds h hp hh, elsewhere_takeOn, elsewhere_beginSession]

theorem control_evaluateStart : (evaluateStart o s).control = s.control := by
  by_cases h : ∀ c start, s.context o = some c → c.phase = .armed start → s.startHolds o start = false
  · rw [evaluateStart_of_not_holds h]
  · push Not at h
    obtain ⟨c, start, hc, hp, hh⟩ := h
    exact control_of_elsewhere (s := countStart s)
      (elsewhere_evaluateStart_of_holds hc hp (Bool.eq_true_of_not_eq_false hh))

/-! ### The end of a start (R29) -/

theorem phaseIs_isArmed_iff :
    s.phaseIs o Phase.isArmed = true ↔ ∃ c start, s.context o = some c ∧ c.phase = .armed start := by
  have harmed (p : Phase) : p.isArmed = true ↔ ∃ start, p = .armed start := by cases p <;> simp [Phase.isArmed]
  simp [State.phaseIs, Option.any_eq_true, harmed]

theorem enterIdle_of_not_active (h : ∀ c, s.context o = some c → c.phase ≠ .active) : enterIdle o s = s := by
  cases hc : s.context o with
  | none => simp [enterIdle, hc]
  | some c => simp [enterIdle, hc, h c hc]

/-- What R29 puts last touches an ACTIVE session alone. -/
theorem endStart_of_not_active {before : State} (h : ∀ c, s.context o = some c → c.phase ≠ .active) :
    endStart before o s = s := by
  unfold endStart
  split
  · exact enterIdle_of_not_active h
  · rfl

theorem endStart_of_armed {before : State} (hb : before.phaseIs o Phase.isArmed = true)
    (hcomplete : (s.report o).complete = true) : endStart before o s = enterIdle o s := by
  simp [endStart, hb, hcomplete]

theorem enterIdle_of_active (h : s.context o = some c) (hp : c.phase = .active) :
    enterIdle o s = leaveFor o c .idle (give (.vehicleDone o) s) := by simp [enterIdle, h, hp]

/-! ### The end of a hold (R119) -/

theorem endHold_of_not_held {reason : HeldReason} (h : ∀ c r d, s.context o = some c → c.phase ≠ .held r reason d) :
    endHold o reason s = s := by
  unfold endHold
  split
  · rfl
  · next c hc =>
    split
    · next r reason' d hp =>
      have hother : reason' ≠ reason := by rintro rfl; exact h c r d hc hp
      rw [if_neg hother]
    · rfl

section
variable {reason : HeldReason} {r : ResumeState} {d : Bool} (h : s.context o = some c)
include h

theorem setPhase_eq (p : Phase) : setPhase o p s = setContext o (some { c with phase := p }) s := mapContext_eq _ h

variable (hp : c.phase = .held r reason d)
include hp

theorem endHold_of_stale (hstale : (s.report o).lineStale = true) :
    endHold o reason s = give (.held o .stale r) (setContext o (some { c with phase := .held r .stale d }) s) := by
  rw [← setPhase_eq h]
  simp [endHold, h, hp, hstale]

theorem endHold_of_faulty (hfresh : (s.report o).lineStale = false) (hfault : (s.report o).plug = .fault) :
    endHold o reason s =
      give (.held o .outletFault r) (setContext o (some { c with phase := .held r .outletFault d }) s) := by
  rw [← setPhase_eq h]
  simp [endHold, h, hp, hfresh, hfault]

end

theorem control_endHold (reason : HeldReason) : (endHold o reason s).control = s.control :=
  control_of_elsewhere (elsewhere_endHold s o reason)

end

/-! ### The report of a plug (R23) -/

section
variable (s : State) (o : Outlet) (p : Plug)

/-- The report with its entry, in the terms of the statement. -/
theorem reportPlug_told :
    reportPlug o p s =
      (let reported := mapReport o (fun r => { r with plug := p }) s
       if (s.report o).plug = .unplugged ∧ p = .plugged then give (.plug o) reported
       else if ((s.report o).plug = .plugged ∨ (s.report o).plug = .fault) ∧ p = .unplugged then
         give (.unplug o) reported
       else reported) := by
  unfold reportPlug
  cases (s.report o).plug <;> cases p <;> rfl

/-- What a report changes: the plug state and the journal. -/
theorem reportPlug_keeps {β : Type} (f : State → β) (hreport : ∀ g x, f (mapReport o g x) = f x)
    (hgive : ∀ e x, f (give e x) = f x) : f (reportPlug o p s) = f s := by
  rw [reportPlug_told]
  dsimp only
  repeat' split
  · rw [hgive, hreport]
  · rw [hgive, hreport]
  · rw [hreport]

theorem report_reportPlug : (reportPlug o p s).report o = { s.report o with plug := p } := by
  obtain ⟨v, hv, heq⟩ := reportPlug_eq s o p
  rw [heq, hv.report, report_mapReport_self]

theorem context_reportPlug (o' : Outlet) : (reportPlug o p s).context o' = s.context o' :=
  reportPlug_keeps s o p (·.context o') (fun _ _ => rfl) fun _ _ => rfl

theorem ceiling_reportPlug (o' : Outlet) : (reportPlug o p s).ceiling o' = s.ceiling o' :=
  reportPlug_keeps s o p (·.ceiling o') (fun _ _ => rfl) fun _ _ => rfl

theorem control_reportPlug : (reportPlug o p s).control = s.control :=
  reportPlug_keeps s o p State.control (fun _ _ => rfl) fun _ _ => rfl

theorem standby_reportPlug : (reportPlug o p s).standby = s.standby :=
  reportPlug_keeps s o p State.standby (fun _ _ => rfl) fun _ _ => rfl

theorem startSerial_reportPlug : (reportPlug o p s).sessions.startSerial = s.sessions.startSerial :=
  reportPlug_keeps s o p (·.sessions.startSerial) (fun _ _ => rfl) fun _ _ => rfl

theorem band_reportPlug : (reportPlug o p s).sessions.band = s.sessions.band :=
  reportPlug_keeps s o p (·.sessions.band) (fun _ _ => rfl) fun _ _ => rfl

theorem heldCount_reportPlug (o' : Outlet) : (reportPlug o p s).heldCount o' = s.heldCount o' :=
  reportPlug_keeps s o p (·.heldCount o') (fun _ _ => rfl) fun _ _ => rfl

theorem inputs_reportPlug (o' : Outlet) : (reportPlug o p s).inputs o' = s.inputs o' :=
  reportPlug_keeps s o p (·.inputs o') (fun _ _ => rfl) fun _ _ => rfl

theorem startHolds_reportPlug (start : StartCondition) :
    (reportPlug o p s).startHolds o start = true ↔
      p = .plugged ∧ (s.report o).lineStale = false ∧ (start = .onPlug ∨ start = .onBand s.sessions.band) := by
  rw [startHolds_iff, report_reportPlug, band_reportPlug]

end

/-! ### The phases that a doing leaves -/

section
variable {s u : State} {o : Outlet} {c : Context}

theorem Stands.phase (h : Stands u o c) : ∃ x, u.context o = some x ∧ x.phase = c.phase := by
  obtain ⟨x, hx, hbody⟩ := exists_context_of_stands h
  exact ⟨x, hx, show x.body.phase = c.body.phase by rw [hbody]⟩

theorem exists_successor (h : ¬NoSuccessor s c) :
    c.givenUp = none ∧ ∃ l e, c.link = some l ∧ s.entryOf l = some e := by
  simp only [NoSuccessor, not_or, not_not, not_forall] at h
  obtain ⟨hg, l, hl, he⟩ := h
  obtain ⟨e, he⟩ := Option.ne_none_iff_exists'.1 he
  exact ⟨hg, l, e, hl, he⟩

theorem HandedOver.phase {e : StandbyEntry} {held : Bool} (h : HandedOver s o c e held u) :
    ∃ x, u.context o = some x ∧ (x.phase = .active ∨ x.phase = .drained) := by
  obtain ⟨x, hx, hphase⟩ := h.1.phase
  refine ⟨x, hx, ?_⟩
  rw [hphase]
  dsimp only
  split
  · exact .inr rfl
  · exact .inl rfl

/-- A session that has gone on is ACTIVE or DRAINED. -/
theorem GoesOn.phase {n : Nat} {held : Bool} (h : GoesOn s o c n held u) (hp : c.phase = .active) :
    ∃ x, u.context o = some x ∧ (x.phase = .active ∨ x.phase = .drained) := by
  obtain ⟨hactive, hdrained, hhanded⟩ := h
  by_cases hn : 0 < n ∨ c.auditHeld = true
  · obtain ⟨x, hx, hphase⟩ := (hactive hn).1.phase
    exact ⟨x, hx, .inl (hphase.trans hp)⟩
  · obtain ⟨h0, ha⟩ := not_or.1 hn
    have h0' : n = 0 := by omega
    have ha' : c.auditHeld = false := by simpa using ha
    by_cases hs : NoSuccessor s c
    · obtain ⟨x, hx, hphase⟩ := (hdrained h0' ha' hs).1.phase
      exact ⟨x, hx, .inr hphase⟩
    · obtain ⟨hg, l, e, hl, he⟩ := exists_successor hs
      exact (hhanded l e h0' ha' hg hl he).phase

/-- A session that has recovered is running. -/
theorem Recovered.running {r : ResumeState} {reason : HeldReason} {d : Bool} (h : Recovered s o c r reason d u) :
    ∃ x, u.context o = some x ∧ x.phase.running = true := by
  have runs (hphase : ∃ x, u.context o = some x ∧ (x.phase = .active ∨ x.phase = .drained)) :
      ∃ x, u.context o = some x ∧ x.phase.running = true := by
    obtain ⟨x, hx, hphase⟩ := hphase
    exact ⟨x, hx, by rcases hphase with h | h <;> rw [h] <;> rfl⟩
  obtain ⟨-, hactive, hidle, hdrained⟩ := h
  cases r with
  | active => exact runs ((hactive rfl).phase rfl)
  | idle =>
    obtain ⟨x, hx, hphase⟩ := (hidle rfl).1.phase
    exact ⟨x, hx, by rw [hphase]; rfl⟩
  | drained =>
    obtain ⟨hstays, hhanded⟩ := hdrained rfl
    by_cases hs : c.auditHeld = true ∨ NoSuccessor s c
    · obtain ⟨x, hx, hphase⟩ := (hstays hs).phase
      exact ⟨x, hx, by rw [hphase]; rfl⟩
    · obtain ⟨ha, hn⟩ := not_or.1 hs
      obtain ⟨hg, l, e, hl, he⟩ := exists_successor hn
      exact runs (hhanded l e (by simpa using ha) hg hl he).phase

end

/-! ### The plug state at a session (R107) -/

section
variable {s : State} {o : Outlet} {c : Context}

theorem deliverPlug_unplugged : deliverPlug o .unplugged s = enterClosing o .unplugged (reportPlug o .unplugged s) := rfl

theorem deliverPlug_fault : deliverPlug o .fault s = enterHeld o .outletFault (reportPlug o .fault s) := rfl

theorem deliverPlug_plugged :
    deliverPlug o .plugged s = endHold o .outletFault (evaluateStart o (reportPlug o .plugged s)) := rfl

/-- The phases that a plug state leaves as they are (R107). -/
def Context.unmovedBy (c : Context) (p : Plug) (stale : Bool) (band : Band) : Prop :=
  match p with
  | .unplugged => c.phase.running = false
  | .fault => c.phase.resume? = none
  | .plugged =>
    (∀ start, c.phase = .armed start → stale = true ∨ ∃ b, start = .onBand b ∧ b ≠ band) ∧
      ∀ r d, c.phase ≠ .held r .outletFault d
  | .unknown => True

/-- A plug state changes nothing but the report of an outlet that is VACANT, and of a session in a phase that it does not
move. -/
theorem deliverPlug_of_unmoved {p : Plug}
    (h : ∀ c, s.context o = some c → c.unmovedBy p (s.report o).lineStale s.sessions.band) :
    deliverPlug o p s = reportPlug o p s := by
  have hcontext := context_reportPlug s o p o
  rw [← hcontext] at h
  cases p with
  | unplugged => exact enterClosing_of_not_running _ h
  | fault => exact enterHeld_of_none h
  | unknown => rfl
  | plugged =>
    have hnot : ∀ c start, (reportPlug o .plugged s).context o = some c → c.phase = .armed start →
        (reportPlug o .plugged s).startHolds o start = false := fun c start hc hp => by
      obtain ⟨hwaits, -⟩ := h c hc
      rw [Bool.eq_false_iff, Ne, startHolds_reportPlug]
      rintro ⟨-, hfresh, hstart⟩
      rcases hwaits start hp with hstale | ⟨b, rfl, hb⟩
      · rw [hstale] at hfresh; cases hfresh
      · rcases hstart with hstart | hstart
        · cases hstart
        · cases hstart; exact hb rfl
    rw [deliverPlug_plugged, evaluateStart_of_not_holds hnot]
    refine endHold_of_not_held fun c r d hc => ?_
    obtain ⟨-, hheld⟩ := h c hc
    exact hheld r d

/-- A plug brings a start or the end of a hold for a fault, and not both. -/
theorem deliverPlug_plugged_cases :
    deliverPlug o .plugged s = evaluateStart o (reportPlug o .plugged s) ∨
      deliverPlug o .plugged s = endHold o .outletFault (reportPlug o .plugged s) := by
  rw [deliverPlug_plugged]
  set v := reportPlug o .plugged s
  by_cases hstart : ∃ c start, v.context o = some c ∧ c.phase = .armed start ∧ v.startHolds o start = true
  · obtain ⟨c, start, hc, hp, hh⟩ := hstart
    obtain ⟨x, hx, hphase⟩ := (evaluateStart_goesOn v o c start hc hp hh).phase rfl
    refine .inl (endHold_of_not_held fun y r d hy hheld => ?_)
    rw [hx] at hy
    cases hy
    rcases hphase with hphase | hphase <;> rw [hphase] at hheld <;> cases hheld
  · refine .inr (congrArg _ (evaluateStart_of_not_holds fun c start hc hp => ?_))
    exact Bool.eq_false_iff.2 fun hh => hstart ⟨c, start, hc, hp, hh⟩

/-- A plug that starts a session, which goes on from there. -/
theorem deliverPlug_starts {start : StartCondition} (h : s.context o = some c) (hp : c.phase = .armed start)
    (hfresh : (s.report o).lineStale = false) (hstart : start = .onPlug ∨ start = .onBand s.sessions.band) :
    let d := c.begun s.sessions.startSerial s.control.seconds
    deliverPlug o .plugged s = evaluateStart o (reportPlug o .plugged s) ∧
      GoesOn s o d (d.purseCeiling s.control.settings s.sessions.band) false (deliverPlug o .plugged s) := by
  intro d
  have hc : (reportPlug o .plugged s).context o = some c := (context_reportPlug s o .plugged o).trans h
  have hh := (startHolds_reportPlug s o .plugged start).2 ⟨rfl, hfresh, hstart⟩
  have hgoes := evaluateStart_goesOn _ o c start hc hp hh
  have heq : deliverPlug o .plugged s = evaluateStart o (reportPlug o .plugged s) := by
    obtain ⟨x, hx, hphase⟩ := hgoes.phase rfl
    refine endHold_of_not_held fun y r d hy hheld => ?_
    rw [hx] at hy
    cases hy
    rcases hphase with hphase | hphase <;> rw [hphase] at hheld <;> cases hheld
  rw [startSerial_reportPlug, control_reportPlug, band_reportPlug] at hgoes
  exact ⟨heq, heq ▸ goesOn_congr o _ _ _ _ (control_reportPlug ..) (standby_reportPlug ..) hgoes⟩

/-- A plug that comes to a session held for a fault ends its hold. -/
theorem deliverPlug_of_held {r : ResumeState} {d : Bool} (h : s.context o = some c)
    (hp : c.phase = .held r .outletFault d) :
    deliverPlug o .plugged s = endHold o .outletFault (reportPlug o .plugged s) := by
  refine congrArg (endHold o .outletFault) (evaluateStart_of_not_holds fun x start hx hphase => ?_)
  rw [context_reportPlug, h] at hx
  cases hx
  rw [hp] at hphase
  cases hphase

end

end Sys2Proof.Machine
end

