-- ==== Sys2Proof/Proofs/AlertSteps.lean ====
section
/-! SUPPORT. The steps of an alert's service (R104): the emergency stop with its checks, a plug state with its check at each
outlet, and what they leave of the outlet beside. -/

namespace Sys2Proof.Machine

/-! ### Beside an outlet -/

/-- What is done beside an outlet leaves its session, its report and its inputs, and the modules of an outlet that wants
none. -/
structure Beside (o : Outlet) (s u : State) : Prop extends SessionStays o s u where
  control : u.control = s.control
  report : u.report o = s.report o
  inputs : u.inputs o = s.inputs o
  want : u.want o = s.want o
  held : s.want o = 0 → u.heldCount o = s.heldCount o

section
variable {o o' : Outlet} {s v u : State}

theorem Beside.refl (o : Outlet) (s : State) : Beside o s s :=
  { context := rfl, ceiling := rfl, settings := rfl, band := rfl, port := rfl, queue := List.prefix_rfl,
    entries := fun _ => id, control := rfl, report := rfl, inputs := rfl, want := rfl, held := fun _ => rfl }

theorem Beside.trans (h : Beside o s v) (h' : Beside o v u) : Beside o s u :=
  { context := h'.context.trans h.context, ceiling := h'.ceiling.trans h.ceiling,
    settings := h'.settings.trans h.settings, band := h'.band.trans h.band, port := h'.port.trans h.port,
    queue := h.queue.trans h'.queue, entries := fun l hl => h'.entries l (h.entries l hl),
    control := h'.control.trans h.control, report := h'.report.trans h.report, inputs := h'.inputs.trans h.inputs,
    want := h'.want.trans h.want, held := fun hw => (h'.held (h.want.trans hw)).trans (h.held hw) }

theorem Local.beside (h : Local o' s u) (ho : o ≠ o') (hcontrol : u.control = s.control) : Beside o s u :=
  { context := h.onlyAt.context ho, ceiling := h.onlyAt.ceiling ho, settings := h.onlyAt.settings,
    band := h.onlyAt.band, port := h.onlyAt.port, queue := h.queue, entries := h.gone, control := hcontrol,
    report := h.onlyAt.report ho, inputs := h.onlyAt.inputs ho, want := h.onlyAt.want ho, held := h.held o ho }

theorem beside_mapLine (o : Outlet) (s : State) (k : LineNo) (f : Line → Line) : Beside o s (mapLine k f s) :=
  { context := rfl, ceiling := rfl, settings := rfl, band := rfl, port := rfl, queue := List.prefix_rfl,
    entries := fun _ => id, control := rfl, report := rfl, inputs := rfl, want := rfl, held := fun _ => rfl }

end

/-! ### A plug state with its check -/

/-- A plug state at an outlet, and the check of its session (R104, R108). -/
def plugStep (o : Outlet) (p : Plug) (s : State) : State := checkSettle o (deliverPlug o p s)

section
variable (s : State) (o : Outlet) (p : Plug)

theorem control_checkSettle : (checkSettle o s).control = s.control := by rw [checkSettle_eq]; rfl

theorem control_deliverPlug : (deliverPlug o p s).control = s.control := by
  have hreported := control_reportPlug s o p
  cases p with
  | plugged =>
    rw [deliverPlug_plugged, control_endHold, control_evaluateStart, hreported]
  | unplugged => exact (control_of_elsewhere (elsewhere_enterClosing _ o _)).trans hreported
  | fault => exact (control_of_elsewhere (elsewhere_enterHeld _ o _)).trans hreported
  | unknown => exact hreported

theorem local_plugStep : Local o s (plugStep o p s) :=
  (local_deliverPlug s o p).trans (within_checkSettle _ o).toLocal

theorem beside_plugStep {o' : Outlet} (h : o ≠ o') : Beside o s (plugStep o' p s) :=
  (local_plugStep s o' p).beside h ((control_checkSettle _ o').trans (control_deliverPlug s o' p))

theorem beside_endStart {o' : Outlet} (before : State) (h : o ≠ o') : Beside o s (endStart before o' s) :=
  (within_endStart s before o').toLocal.beside h (control_of_elsewhere (elsewhere_endStart s before o'))

theorem report_plugStep : (plugStep o p s).report o = { s.report o with plug := p } := by
  rw [plugStep, (within_checkSettle _ o).report, report_deliverPlug]

theorem blockInput_plugStep (o' : Outlet) : ((plugStep o p s).inputs o').blocked = (s.inputs o').blocked := by
  obtain ⟨v, hv, heq⟩ := reportPlug_eq s o p
  rw [plugStep, (within_checkSettle _ o).blockInput, deliverPlug_eq, heq, (within_actOnPlug v o p).blockInput,
    hv.blockInput]
  rfl

/-! ### The start serial (R24, R29) -/

/-- Whether a plug state starts the outlet's session. -/
def State.startsBy (s : State) (o : Outlet) (p : Plug) : Bool :=
  decide (p = .plugged ∧ (s.report o).lineStale = false) &&
    (s.context o).any fun c => decide (c.phase = .armed .onPlug ∨ c.phase = .armed (.onBand s.sessions.band))

/-- What it adds to the start serial counter. -/
def State.startCount (s : State) (o : Outlet) (p : Plug) : Word := if s.startsBy o p then 1 else 0

variable {s o p} in
theorem startsBy_iff :
    s.startsBy o p = true ↔ p = .plugged ∧ (s.report o).lineStale = false ∧
      ∃ c start, s.context o = some c ∧ c.phase = .armed start ∧
        (start = .onPlug ∨ start = .onBand s.sessions.band) := by
  simp only [State.startsBy, Bool.and_eq_true, decide_eq_true_eq, Option.any_eq_true, and_assoc]
  refine and_congr_right fun _ => and_congr_right fun _ => ⟨?_, ?_⟩
  · rintro ⟨c, hc, hp | hp⟩
    · exact ⟨c, _, hc, hp, .inl rfl⟩
    · exact ⟨c, _, hc, hp, .inr rfl⟩
  · rintro ⟨c, start, hc, hp, rfl | rfl⟩
    · exact ⟨c, hc, .inl hp⟩
    · exact ⟨c, hc, .inr hp⟩

theorem startSerial_endHold (reason : HeldReason) :
    (endHold o reason s).sessions.startSerial = s.sessions.startSerial :=
  startSerial_of_elsewhere (elsewhere_endHold s o reason)

theorem startSerial_deliverPlug :
    (deliverPlug o p s).sessions.startSerial = s.sessions.startSerial + s.startCount o p := by
  have hreported := startSerial_reportPlug s o p
  have hnone (hp : p ≠ .plugged) : s.startCount o p = 0 := by
    rw [State.startCount, if_neg fun h => hp (startsBy_iff.1 h).1]
  cases p with
  | unplugged =>
    rw [hnone nofun, add_zero, ← hreported]
    exact startSerial_of_elsewhere (elsewhere_enterClosing _ o _)
  | fault =>
    rw [hnone nofun, add_zero, ← hreported]
    exact startSerial_of_elsewhere (elsewhere_enterHeld _ o _)
  | unknown => rw [hnone nofun, add_zero]; exact hreported
  | plugged =>
    rw [deliverPlug_plugged, startSerial_endHold, ← hreported, State.startCount]
    by_cases hstarts : s.startsBy o .plugged = true
    · obtain ⟨-, hfresh, c, start, hc, hp, hstart⟩ := startsBy_iff.1 hstarts
      rw [if_pos hstarts]
      exact startSerial_of_elsewhere (s := countStart _)
        (elsewhere_evaluateStart_of_holds ((context_reportPlug s o .plugged o).trans hc) hp
          ((startHolds_reportPlug s o .plugged start).2 ⟨rfl, hfresh, hstart⟩))
    · rw [if_neg hstarts, add_zero, evaluateStart_of_not_holds fun c start hc hp => ?_]
      refine Bool.eq_false_iff.2 fun hh => hstarts ?_
      obtain ⟨-, hfresh, hstart⟩ := (startHolds_reportPlug s o .plugged start).1 hh
      exact startsBy_iff.2 ⟨rfl, hfresh, c, start, (context_reportPlug s o .plugged o) ▸ hc, hp, hstart⟩

theorem startSerial_plugStep :
    (plugStep o p s).sessions.startSerial = s.sessions.startSerial + s.startCount o p := by
  rw [plugStep, checkSettle_eq]
  exact startSerial_deliverPlug s o p

variable {s o p} in
theorem startCount_congr {u : State} (hreport : (u.report o).lineStale = (s.report o).lineStale)
    (hband : u.sessions.band = s.sessions.band)
    (harmed : ∀ start, (∃ c, u.context o = some c ∧ c.phase = .armed start) ↔
      ∃ c, s.context o = some c ∧ c.phase = .armed start) :
    u.startCount o p = s.startCount o p := by
  have hstarts : u.startsBy o p = s.startsBy o p := by
    rw [Bool.eq_iff_iff, startsBy_iff, startsBy_iff, hreport, hband]
    refine and_congr_right fun _ => and_congr_right fun _ => ?_
    constructor
    · rintro ⟨c, start, hc, hp, hstart⟩
      obtain ⟨c', hc', hp'⟩ := (harmed start).1 ⟨c, hc, hp⟩
      exact ⟨c', start, hc', hp', hstart⟩
    · rintro ⟨c, start, hc, hp, hstart⟩
      obtain ⟨c', hc', hp'⟩ := (harmed start).2 ⟨c, hc, hp⟩
      exact ⟨c', start, hc', hp', hstart⟩
  rw [State.startCount, State.startCount, hstarts]

/-! ### The Standby Table (R149, log 39) -/

theorem standby_beginSession : (beginSession o s).standby = s.standby := by
  unfold beginSession recompute
  dsimp only
  rw [standby_setCeiling, standby_deliverActive]
  rfl

theorem link_beginSession : ((beginSession o s).context o).map Context.link = (s.context o).map Context.link := by
  unfold beginSession recompute
  dsimp only
  rw [context_setCeiling, context_deliverActive]
  show ((mapContext o _ s).context o).map Context.link = _
  rw [context_mapContext_self, Option.map_map]
  rfl

theorem givesUp_evaluateStart : GivesUp o s (evaluateStart o s) := by
  unfold evaluateStart
  repeat' split
  · exact .inl rfl
  · exact (givesUp_takeOn _ o).before (standby_beginSession s o) (link_beginSession s o)
  · exact .inl rfl
  · exact .inl rfl

theorem standby_enterHeld (reason : HeldReason) : (enterHeld o reason s).standby = s.standby := by
  unfold enterHeld
  repeat' split
  · rfl
  · rfl
  · exact standby_leaveFor ..

theorem givesUp_plugStep : GivesUp o s (plugStep o p s) := by
  have hstandby := standby_reportPlug s o p
  have hlink : ((reportPlug o p s).context o).map Context.link = (s.context o).map Context.link := by
    rw [context_reportPlug]
  have hcheck (v : State) : (checkSettle o v).standby = v.standby := by rw [checkSettle_eq]; rfl
  have hdelivered : GivesUp o s (deliverPlug o p s) := by
    cases p with
    | plugged =>
      rcases deliverPlug_plugged_cases (s := s) (o := o) with h | h
      · rw [h]; exact (givesUp_evaluateStart _ o).before hstandby hlink
      · rw [h]; exact (givesUp_endHold _ o _).before hstandby hlink
    | unplugged => exact .inl ((standby_enterClosing _ o _).trans hstandby)
    | fault => exact .inl ((standby_enterHeld _ o _).trans hstandby)
    | unknown => exact .inl hstandby
  rcases hdelivered with h | ⟨c, l, hc, hl, h⟩
  · exact .inl ((hcheck _).trans h)
  · exact .inr ⟨c, l, hc, hl, (hcheck _).trans h⟩

/-- Where no other session names its entry, another's doing leaves it standing. -/
theorem HeirStands.of_givesUp {s v : State} {o o' : Outlet} {c : Context} (ho : o ≠ o') (h : GivesUp o s v)
    (hsole : SoleHeir s o' c) : HeirStands c s v :=
  { gone := fun _ => h.entryOf_eq_none,
    stands := fun ha hg l e hl he => by
      have hne : s.entryOf l ≠ none := by rw [he]; exact Option.some_ne_none e
      rw [h.entryOf_eq fun c' hc' => hsole ha hg l hl hne o c' ho hc', he] }

theorem soleHeir_of_links {s w : State} {o : Outlet} {c : Context} (hstandby : w.standby = s.standby)
    (hlinks : ∀ o, (w.context o).map Context.link = (s.context o).map Context.link) (h : SoleHeir s o c) :
    SoleHeir w o c := by
  intro ha hg l hl he o' c' hne hc'
  rw [entryOf_congr hstandby] at he
  have hlink := hlinks o'
  rw [hc', Option.map_some] at hlink
  obtain ⟨x, hx, hxl⟩ := Option.map_eq_some_iff.1 hlink.symm
  rw [← hxl]
  exact h ha hg l hl he o' x hne hx

end

/-! ### The emergency stop with its checks (R105, R41) -/

section
variable (s : State) (k : LineNo) (active : Bool)

/-- The ESTOP status of an alert, and the checks of both sessions. -/
def stopStep : State := forEach (outletsOf k) checkSettle (takeEstop k active s)

theorem link_judged (c : Context) (n : Nat) (b : Bool) : (c.judged n b).link = c.link := by
  have hpending : c.applyPending.link = c.link :=
    applyPending_keeps Context.link c (fun c b => by unfold Context.pricePending; dsimp only; split <;> rfl)
      (fun _ => rfl) fun _ => rfl
  unfold Context.judged
  repeat' split
  · exact hpending
  · rfl
  · rfl
  · rfl

theorem phase_judged_armed (c : Context) (n : Nat) (b : Bool) (start : StartCondition) :
    (c.judged n b).phase = .armed start ↔ c.phase = .armed start := by
  unfold Context.judged
  split
  · next hp =>
    split
    · simp [hp]
    · rfl
  · rfl

theorem phase_closedFor_armed (c : Context) (reason : EndReason) (time : Word) (start : StartCondition) :
    (c.closedFor reason time).phase = .armed start ↔ c.phase = .armed start := by
  unfold Context.closedFor
  split
  · next hp => cases hc : c.phase <;> simp [hc, Phase.running, Context.closing] at hp ⊢
  · rfl

/-- Whether the ESTOP status blocks the pedestal. -/
def State.stopsBy (s : State) (k : LineNo) (active : Bool) : Bool := active && !s.blockMark k

/-- The context as the ESTOP status leaves it, before its check. -/
def Context.stopped (c : Context) (acts : Bool) (time : Word) : Context :=
  if acts then c.closedFor .estop time else c

variable {s k active} in
theorem takeEstop_of_not_stops (h : s.stopsBy k active = false) : takeEstop k active s = s :=
  takeEstop_idle (by cases active <;> simp_all [State.stopsBy])

variable {s k active} in
theorem blocked_of_stops (h : s.stopsBy k active = true) : Blocked k s (takeEstop k active s) := by
  obtain ⟨ha, hb⟩ : active = true ∧ s.blockMark k = false := by simpa [State.stopsBy] using h
  rw [ha]
  exact blocked_takeEstop s k hb

/-- What the ESTOP status leaves of both outlets, whether it blocks the pedestal or not. -/
structure Stopped (u : State) : Prop where
  mark : u.blockMark k = (active || s.blockMark k)
  control : u.control = s.control
  band : u.sessions.band = s.sessions.band
  startSerial : u.sessions.startSerial = s.sessions.startSerial
  report : ∀ o, u.report o = s.report o
  held : ∀ o ∈ outletsOf k, u.heldCount o = s.heldCount o
  context : ∀ o ∈ outletsOf k, u.context o = (s.context o).map (·.stopped (s.stopsBy k active) s.control.seconds)
  input : s.stopsBy k active = true → ∀ o ∈ outletsOf k, (u.inputs o).blocked = true

theorem stopped_takeEstop : Stopped s k active (takeEstop k active s) := by
  cases h : s.stopsBy k active with
  | false =>
    rw [takeEstop_of_not_stops h]
    refine
      { mark := ?_, control := rfl, band := rfl, startSerial := rfl, report := fun _ => rfl, held := fun _ _ => rfl,
        context := fun o _ => ?_, input := fun hstops => absurd hstops (by simp [h]) }
    · cases active <;> simp_all [State.stopsBy]
    · rw [h]
      exact (congrFun Option.map_id (s.context o)).symm
  | true =>
    have hb := blocked_of_stops h
    refine
      { mark := ?_, control := hb.control, band := hb.band, startSerial := hb.startSerial, report := hb.report,
        held := hb.held, context := fun o ho => ?_, input := fun _ => hb.input }
    · obtain ⟨ha, -⟩ : active = true ∧ s.blockMark k = false := by simpa [State.stopsBy] using h
      rw [State.blockMark, hb.mark, Table.get_set_self, ha, Bool.true_or]
    · rw [hb.context o ho, h]
      rfl

theorem stopStep_keeps {β : Type} (f : State → β)
    (h : ∀ (x : State) y, f { x with sessions := { x.sessions with contexts := y } } = f x) :
    f (stopStep s k active) = f (takeEstop k active s) := settleBoth_keeps _ k f (h _)

variable {k} in
theorem context_stopStep {o : Outlet} (h : o ∈ outletsOf k) :
    (stopStep s k active).context o =
      (s.context o).map fun c =>
        (c.stopped (s.stopsBy k active) s.control.seconds).judged (s.heldCount o) (s.report o).lineStale := by
  have hstopped := stopped_takeEstop s k active
  rw [stopStep, context_settleBoth _ h, hstopped.context o h, hstopped.held o h, hstopped.report, Option.map_map]
  rfl

variable {k} in
theorem heldCount_stopStep {o : Outlet} (h : o ∈ outletsOf k) : (stopStep s k active).heldCount o = s.heldCount o :=
  (stopStep_keeps s k active (·.heldCount o) fun _ _ => rfl).trans ((stopped_takeEstop s k active).held o h)

theorem report_stopStep (o : Outlet) : (stopStep s k active).report o = s.report o :=
  (stopStep_keeps s k active (·.report o) fun _ _ => rfl).trans ((stopped_takeEstop s k active).report o)

variable {k} in
theorem startCount_stopStep {o : Outlet} (h : o ∈ outletsOf k) (p : Plug) :
    (stopStep s k active).startCount o p = s.startCount o p := by
  refine startCount_congr (congrArg OutletReport.lineStale (report_stopStep s k active o)) ?_ fun start => ?_
  · exact (stopStep_keeps s k active (·.sessions.band) fun _ _ => rfl).trans (stopped_takeEstop s k active).band
  · have harmed (c : Context) : ((c.stopped (s.stopsBy k active) s.control.seconds).judged (s.heldCount o)
        (s.report o).lineStale).phase = .armed start ↔ c.phase = .armed start := by
      rw [phase_judged_armed, Context.stopped]
      split
      · exact phase_closedFor_armed ..
      · rfl
    rw [context_stopStep s active h]
    simp [Option.map_eq_some_iff, harmed]

/-- Where the pedestal is not newly blocked, the checks alone are made. -/
theorem stopStep_of_not_stops (h : s.stopsBy k active = false) :
    stopStep s k active = forEach (outletsOf k) checkSettle s := by rw [stopStep, takeEstop_of_not_stops h]

end

end Sys2Proof.Machine
end

