-- ==== Sys2Proof/Proofs/AlertService.lean ====
section
/-! SUPPORT. The service of an alert as one event (O47): what it leaves of each outlet, seen from that outlet, whichever of
the two it is. -/

namespace Sys2Proof.Machine

/-! ### The event in its steps -/

section
variable (s : State) (k : LineNo) (a : HeldAlert)

/-- Both plug states taken. -/
def plugSteps (s : State) : State := plugStep (outletB k) a.plug1 (plugStep (outletA k) a.plug0 s)

/-- The alert slot emptied. -/
def emptyAlertSlot (s : State) : State := mapLine k (fun l => { l with alertSlot := none, overrunMark := false }) s

theorem serveAlert_eq :
    serveAlert k a s =
      endStart s (outletB k) (endStart s (outletA k) (emptyAlertSlot k (plugSteps k a (stopStep s k a.estop)))) := rfl

/-- The outlet `o` of the pedestal, and the plug state that the alert brings for it. -/
def Reports (o : Outlet) (p : Plug) : Prop := (o = outletA k ∧ p = a.plug0) ∨ (o = outletB k ∧ p = a.plug1)

variable {k a} in
theorem Reports.mem {o : Outlet} {p : Plug} (h : Reports k a o p) : o ∈ outletsOf k := by
  rcases h with ⟨rfl, -⟩ | ⟨rfl, -⟩ <;> simp [outletsOf]

/-- The event as an outlet sees it: what is done beside it, its plug state, what is done beside it again, and the end of its
start. -/
structure Seen (o : Outlet) (p : Plug) (x z : State) : Prop where
  before : Beside o (stopStep s k a.estop) x
  between : Beside o (plugStep o p x) z
  after : Beside o (endStart s o z) (serveAlert k a s)
  serial : x.sessions.startSerial =
    s.sessions.startSerial + (if o = outletB k then s.startCount (outletA k) a.plug0 else 0)
  heir : ∀ c, SoleHeir (stopStep s k a.estop) o c → HeirStands c (stopStep s k a.estop) x

variable {k a} in
theorem exists_seen {o : Outlet} {p : Plug} (h : Reports k a o p) : ∃ x z, Seen s k a o p x z := by
  have hne := outletB_ne_outletA k
  have hserial : (stopStep s k a.estop).sessions.startSerial = s.sessions.startSerial :=
    (stopStep_keeps s k a.estop (·.sessions.startSerial) fun _ _ => rfl).trans (stopped_takeEstop s k a.estop).startSerial
  rcases h with ⟨rfl, rfl⟩ | ⟨rfl, rfl⟩
  · refine ⟨stopStep s k a.estop, emptyAlertSlot k (plugSteps k a (stopStep s k a.estop)), ?_⟩
    exact
      { before := .refl _ _,
        between := (beside_plugStep _ _ a.plug1 hne.symm).trans (beside_mapLine _ _ k _),
        after := by rw [serveAlert_eq]; exact beside_endStart _ _ s hne.symm,
        serial := by rw [if_neg hne.symm, add_zero]; exact hserial,
        heir := fun _ _ => .of_standby rfl }
  · refine ⟨plugStep (outletA k) a.plug0 (stopStep s k a.estop),
      endStart s (outletA k) (emptyAlertSlot k (plugSteps k a (stopStep s k a.estop))), ?_⟩
    exact
      { before := beside_plugStep _ _ a.plug0 hne,
        between := (beside_mapLine _ _ k _).trans (beside_endStart _ _ s hne),
        after := by rw [serveAlert_eq]; exact .refl _ _,
        serial := by rw [if_pos rfl, startSerial_plugStep, startCount_stopStep s a.estop (by simp [outletsOf]), hserial],
        heir := fun c => .of_givesUp hne.symm (givesUp_plugStep _ _ _) }

end

/-! ### A session that the plug state does not move -/

section
variable {s x y z u : State} {k : LineNo} {a : HeldAlert} {o : Outlet} {p : Plug} {c : Context}

/-- The session is then checked, and nothing more. -/
theorem context_plugStep_of_unmoved
    (h : ∀ c, x.context o = some c → c.unmovedBy p (x.report o).lineStale x.sessions.band) :
    (plugStep o p x).context o = (x.context o).map fun c => c.judged (x.heldCount o) (x.report o).lineStale := by
  rw [plugStep, deliverPlug_of_unmoved h, checkSettle_eq, context_mapContext_self, context_reportPlug,
    heldCount_reportPlug, report_reportPlug]

/-- What R29 puts last leaves a session that is not ACTIVE, and one that was not ARMED when the event came. -/
theorem endStart_idle (h : ∀ c, z.context o = some c → c.phase = .active → s.phaseIs o Phase.isArmed = false) :
    endStart s o z = z := by
  by_cases harmed : s.phaseIs o Phase.isArmed = true
  · exact endStart_of_not_active fun c hc hp => by rw [h c hc hp] at harmed; cases harmed
  · exact endStart_of_not_armed _ _ _ (by simpa using harmed)

/-- A session through the rest of the event, where the start has nothing to end. -/
theorem Seen.context (h : Seen s k a o p x z)
    (hidle : ∀ c, (plugStep o p x).context o = some c → c.phase = .active → s.phaseIs o Phase.isArmed = false) :
    endStart s o z = z ∧ (serveAlert k a s).context o = (plugStep o p x).context o := by
  have hstay : endStart s o z = z := endStart_idle fun c hc => hidle c (h.between.context ▸ hc)
  exact ⟨hstay, h.after.context.trans ((congrArg (·.context o) hstay).trans h.between.context)⟩

/-- The steps beside the outlet and at it, where the start has nothing to end. -/
theorem Seen.stays (h : Seen s k a o p x z)
    (hidle : ∀ c, (plugStep o p x).context o = some c → c.phase = .active → s.phaseIs o Phase.isArmed = false) :
    Beside o (plugStep o p x) (serveAlert k a s) := by
  have hafter := h.after
  rw [(h.context hidle).1] at hafter
  exact h.between.trans hafter

/-- Whether a session is ending. -/
def Phase.ending (p : Phase) : Bool := p.isClosing || p.isSettling

theorem ending_judged (h : c.phase.isClosing = true) (n : Nat) (b : Bool) : (c.judged n b).phase.ending = true := by
  unfold Context.judged
  split
  · split
    · rfl
    · rw [Phase.ending, h, Bool.true_or]
  · rw [Phase.ending, h, Bool.true_or]

theorem unmovedBy_of_ending (h : c.phase.ending = true) (p : Plug) (stale : Bool) (band : Band) :
    c.unmovedBy p stale band := by
  have hphase : c.phase.running = false ∧ c.phase.resume? = none ∧ (∀ start, c.phase ≠ .armed start) ∧
      ∀ r reason d, c.phase ≠ .held r reason d := by
    cases hp : c.phase <;> simp [hp, Phase.ending, Phase.isClosing, Phase.isSettling, Phase.running, Phase.resume?] at h ⊢
  obtain ⟨hrunning, hresume, harmed, hheld⟩ := hphase
  cases p with
  | unplugged => exact hrunning
  | fault => exact hresume
  | plugged => exact ⟨fun start hstart => absurd hstart (harmed start), fun r d => hheld r _ d⟩
  | unknown => trivial

theorem not_active_of_ending (h : c.phase.ending = true) : c.phase ≠ .active := fun hp => by rw [hp] at h; cases h

/-- A session that the ESTOP status leaves in CLOSING is judged in the event, by the modules and the line that it had. -/
theorem Seen.judges (h : Seen s k a o p x z) (ho : o ∈ outletsOf k) (hc : s.context o = some c)
    (hclosing : (c.stopped (s.stopsBy k a.estop) s.control.seconds).phase.isClosing = true)
    (hwant : (stopStep s k a.estop).want o = 0) :
    (serveAlert k a s).context o =
      some ((c.stopped (s.stopsBy k a.estop) s.control.seconds).judged (s.heldCount o) (s.report o).lineStale) := by
  have hcontext := context_stopStep s a.estop ho
  rw [hc, Option.map_some] at hcontext
  set d := c.stopped (s.stopsBy k a.estop) s.control.seconds
  have hending := ending_judged hclosing (s.heldCount o) (s.report o).lineStale
  have hx := h.before.context.trans hcontext
  have hheld : x.heldCount o = s.heldCount o := (h.before.held hwant).trans (heldCount_stopStep s a.estop ho)
  have hreport : x.report o = s.report o := h.before.report.trans (report_stopStep s k a.estop o)
  have hstep : (plugStep o p x).context o = some (d.judged (s.heldCount o) (s.report o).lineStale) := by
    rw [context_plugStep_of_unmoved fun y hy => ?_, hx, Option.map_some, hheld, hreport, judged_judged]
    rw [hx] at hy
    cases hy
    exact unmovedBy_of_ending hending ..
  rw [(h.context fun y hy hp => ?_).2, hstep]
  rw [hstep] at hy
  cases hy
  exact absurd hp (not_active_of_ending hending)

/-! ### The table of R107, where the pedestal is not newly blocked -/

theorem Seen.control (h : Seen s k a o p x z) : x.control = s.control :=
  h.before.control.trans
    ((stopStep_keeps s k a.estop State.control fun _ _ => rfl).trans (stopped_takeEstop s k a.estop).control)

theorem Seen.report (h : Seen s k a o p x z) : x.report o = s.report o :=
  h.before.report.trans (report_stopStep s k a.estop o)

theorem Seen.band (h : Seen s k a o p x z) : x.sessions.band = s.sessions.band :=
  h.before.band.trans
    ((stopStep_keeps s k a.estop (·.sessions.band) fun _ _ => rfl).trans (stopped_takeEstop s k a.estop).band)

theorem Seen.vacant (h : Seen s k a o p x z) (ho : o ∈ outletsOf k) (hc : s.context o = none) :
    (serveAlert k a s).context o = none := by
  have hx : x.context o = none := by rw [h.before.context, context_stopStep s a.estop ho, hc]; rfl
  have hstep : (plugStep o p x).context o = none := by
    rw [context_plugStep_of_unmoved (by simp [hx]), hx]; rfl
  rw [(h.context (by simp [hstep])).2, hstep]

section
variable (h : Seen s k a o p x z) (ho : o ∈ outletsOf k) (hstops : s.stopsBy k a.estop = false)
  (hc : s.context o = some c) (hrest : c.phase.isClosing = false)
include h ho hstops hc hrest

/-- The session that the plug state finds. -/
theorem Seen.found : x.context o = some c := by
  rw [h.before.context, context_stopStep s a.estop ho, hc, Option.map_some, hstops]
  exact congrArg some (judged_of_not_closing hrest ..)

theorem Seen.unmoved (hunmoved : c.unmovedBy p (s.report o).lineStale s.sessions.band) :
    (serveAlert k a s).context o = some c := by
  have hx := h.found ho hstops hc hrest
  have hstep : (plugStep o p x).context o = some c := by
    rw [context_plugStep_of_unmoved fun y hy => ?_, hx, Option.map_some, judged_of_not_closing hrest]
    rw [hx] at hy
    cases hy
    rw [h.report, h.band]
    exact hunmoved
  rw [(h.context fun y hy hp => ?_).2, hstep]
  rw [hstep] at hy
  cases hy
  simp [State.phaseIs, hc, hp, Phase.isArmed]

end

end

end Sys2Proof.Machine
end

