-- ==== Sys2Proof/Proofs/AlertTable.lean ====
section
/-! SUPPORT. The sessions that an alert's plug states move (R107): one unplugged, one held for a fault, one started and one
whose hold for a fault ends. -/

namespace Sys2Proof.Machine

section
variable {s v u : State} {o : Outlet} {c : Context}

theorem SessionStays.begins {d : Context} {n : Nat} {complete : Bool} (h : SessionStays o v u)
    (hb : Begins s o d n complete v) : Begins s o d n complete u := by
  obtain ⟨hactive, hdrained, hhanded⟩ := hb
  refine ⟨fun hn => ?_, fun h0 ha hs => ?_, fun l e h0 ha hg hl he => ?_⟩
  · obtain ⟨hstands, hceiling, hdone⟩ := hactive hn
    exact ⟨h.stands hstands, h.ceiling.trans hceiling, fun hcomplete => h.journaled (hdone hcomplete)⟩
  · obtain ⟨hstands, hceiling, hentry⟩ := hdrained h0 ha hs
    exact ⟨h.stands hstands, h.ceiling.trans hceiling, h.journaled hentry⟩
  · obtain ⟨hover, hdone⟩ := hhanded l e h0 ha hg hl he
    exact ⟨h.handedOverTo hover, fun hcomplete hn => h.journaled (hdone hcomplete (h.ceiling ▸ hn))⟩

theorem not_closing_of_running {p : Phase} (h : p.running = true) : p.isClosing = false := by
  cases p <;> simp [Phase.running, Phase.isClosing] at h ⊢

/-- A running session is not checked for SETTLING. -/
theorem plugStep_of_running {p : Plug} (h : ∃ c, (deliverPlug o p s).context o = some c ∧ c.phase.running = true) :
    plugStep o p s = deliverPlug o p s := by
  obtain ⟨c, hc, hp⟩ := h
  refine checkSettle_of_not_closing fun x hx => ?_
  rw [hc] at hx
  cases hx
  exact not_closing_of_running hp

/-- A session that has just entered CLOSING waits while its line is fresh. -/
theorem judged_closing_fresh (reason : EndReason) (time : Word) (n : Nat) :
    (c.closing reason time).judged n false = c.closing reason time := by
  simp [Context.judged, Context.closing]

theorem stands_of_context (h : u.context o = some c) : Stands u o c := by rw [Stands, h]; rfl

end

/-! ### The links of the sessions (log 39) -/

section
variable {s : State} {k : LineNo} {active : Bool}

theorem link_stopStep (h : s.stopsBy k active = false) (o : Outlet) :
    ((stopStep s k active).context o).map Context.link = (s.context o).map Context.link := by
  rw [stopStep_of_not_stops s k active h, forEach_checkSettle _ (nodup_outletsOf k)]
  simp only [State.context, Table.get, Vector.getElem_ofFn]
  split
  · rw [Option.map_map]
    exact congrArg (fun f => Option.map f s.sessions.contexts[o.val]) (funext fun c => link_judged c _ _)
  · rfl

theorem standby_stopStep (h : s.stopsBy k active = false) : (stopStep s k active).standby = s.standby := by
  rw [stopStep_keeps s k active State.standby fun _ _ => rfl, takeEstop_of_not_stops h]

theorem want_stopStep (h : s.stopsBy k active = false) (o : Outlet) : (stopStep s k active).want o = s.want o := by
  rw [stopStep_keeps s k active (·.want o) fun _ _ => rfl, takeEstop_of_not_stops h]

end

/-! ### The table of R107 -/

section
variable {s x z : State} {k : LineNo} {a : HeldAlert} {o : Outlet} {p : Plug} {c : Context}

theorem Seen.heirStands (h : Seen s k a o p x z) (hstops : s.stopsBy k a.estop = false) (hsole : SoleHeir s o c) :
    HeirStands c s x :=
  (HeirStands.of_standby (standby_stopStep hstops)).trans
    (h.heir c (soleHeir_of_links (standby_stopStep hstops) (link_stopStep hstops) hsole))

theorem Seen.ceiling (h : Seen s k a o p x z) (hstops : s.stopsBy k a.estop = false) : x.ceiling o = s.ceiling o := by
  rw [h.before.ceiling, stopStep_keeps s k a.estop (·.ceiling o) fun _ _ => rfl, takeEstop_of_not_stops hstops]

/-- A session that was not ARMED through the rest of the event. -/
theorem Seen.rest (h : Seen s k a o p x z) (hc : s.context o = some c) (harmed : c.phase.isArmed = false) :
    Beside o (plugStep o p x) (serveAlert k a s) :=
  h.stays fun _ _ _ => by simpa [State.phaseIs, hc] using harmed

theorem isArmed_of_running {p : Phase} (h : p.running = true) : p.isArmed = false := by
  cases p <;> simp [Phase.running, Phase.isArmed] at h ⊢

section
variable (ho : o ∈ outletsOf k) (hstops : s.stopsBy k a.estop = false) (hc : s.context o = some c)
include ho hstops hc

/-- A running session that is unplugged is closed, and judged by the modules that its outlet then has (R38, R41). -/
theorem Seen.unplugs (h : Seen s k a o .unplugged x z) (hp : c.phase.running = true) :
    (serveAlert k a s).context o =
      some ((c.closing .unplugged s.control.seconds).judged (x.heldCount o) (s.report o).lineStale) := by
  have hx := h.found ho hstops hc (not_closing_of_running hp)
  have hclosed : c.closedFor .unplugged x.control.seconds = c.closing .unplugged s.control.seconds := by
    rw [h.control, Context.closedFor, if_pos hp]
  have hstep : (plugStep o .unplugged x).context o =
      some ((c.closing .unplugged s.control.seconds).judged (x.heldCount o) (s.report o).lineStale) := by
    rw [plugStep, deliverPlug_unplugged, checkSettle_eq, context_mapContext_self, context_enterClosing,
      context_reportPlug, hx, heldCount_enterClosing, heldCount_reportPlug, control_reportPlug,
      (within_enterClosing _ o _).report, report_reportPlug, h.report, Option.map_some, Option.map_some, hclosed]
  exact (h.rest hc (isArmed_of_running hp)).context.trans hstep

/-- While its line agrees with what the Apportioner holds of it, those are the modules that the service found. -/
theorem Seen.unplugs_stale (h : Seen s k a o .unplugged x z) (hp : c.phase.running = true)
    (hagree : LinesAgree s ∨ (s.report o).lineStale = false) :
    (serveAlert k a s).context o =
      some ((c.closing .unplugged s.control.seconds).judged (s.heldCount o) (s.report o).lineStale) := by
  rw [h.unplugs ho hstops hc hp]
  cases hstale : (s.report o).lineStale with
  | false => rw [judged_closing_fresh, judged_closing_fresh]
  | true =>
    rcases hagree with hlines | hfresh
    · obtain ⟨hinput, hreport, -⟩ := hlines k o ho
      have hwant : (stopStep s k a.estop).want o = 0 := by
        rw [want_stopStep hstops]
        exact want_of_lineStale s (by rw [hinput, ← hreport, hstale])
      rw [h.before.held hwant, heldCount_stopStep s a.estop ho]
    · rw [hfresh] at hstale
      cases hstale

/-- A session that a fault holds (R117). -/
theorem Seen.holds {r : ResumeState} (h : Seen s k a o .fault x z) (hr : c.phase.resume? = some r) :
    Stands (serveAlert k a s) o { c with phase := .held r .outletFault false, heldMinutes := 0 } ∧
      Journaled (.held o .outletFault r) s (serveAlert k a s) := by
  have hphase : c.phase.isClosing = false ∧ c.phase.isArmed = false := by
    cases hp : c.phase <;> simp [hp, Phase.resume?, Phase.isClosing, Phase.isArmed] at hr ⊢
  have hv : (reportPlug o .fault x).context o = some c :=
    (context_reportPlug ..).trans (h.found ho hstops hc hphase.1)
  have hcontrol : (reportPlug o .fault x).control = s.control := (control_reportPlug ..).trans h.control
  have hstands := stands_enterHeld (reason := .outletFault) hv hr
  have hstep : plugStep o .fault x = enterHeld o .outletFault (reportPlug o .fault x) :=
    plugStep_of_running (hstands.phase.imp fun y hy => ⟨hy.1, by rw [hy.2]; rfl⟩)
  have hrest := h.rest hc hphase.2
  rw [hstep] at hrest
  exact ⟨hrest.stands hstands, hrest.journaled (journaled_congr _ _ hcontrol (journaled_enterHeld hv hr))⟩

/-- A start, with the end of its event (R28, R29). -/
theorem Seen.starts {start : StartCondition} (h : Seen s k a o .plugged x z) (hp : c.phase = .armed start)
    (hfresh : (s.report o).lineStale = false) (hstart : start = .onPlug ∨ start = .onBand s.sessions.band)
    (hsole : SoleHeir s o c) :
    let d := c.begun (s.sessions.startSerial + if o = outletB k then s.startCount (outletA k) a.plug0 else 0)
      s.control.seconds
    Begins s o d (d.purseCeiling s.control.settings s.sessions.band) (s.report o).complete (serveAlert k a s) := by
  intro d
  have hx := h.found ho hstops hc (by rw [hp]; rfl)
  obtain ⟨-, hgoes⟩ := deliverPlug_starts hx hp (by rw [h.report, hfresh]) (by rw [h.band]; exact hstart)
  rw [h.serial, h.control, h.band] at hgoes
  have hstep : plugStep o .plugged x = deliverPlug o .plugged x :=
    plugStep_of_running ((hgoes.phase rfl).imp fun y hy => ⟨hy.1, by rcases hy.2 with e | e <;> rw [e] <;> rfl⟩)
  have hbetween := h.between
  rw [hstep] at hbetween
  have hheir : HeirStands d s x :=
    have hstands := h.heirStands hstops hsole
    ⟨hstands.gone, hstands.stands⟩
  have hz := hheir.goesOn h.control (hbetween.goesOn hgoes)
  have hzcontrol : z.control = s.control :=
    (hbetween.control.trans (control_deliverPlug x o .plugged)).trans h.control
  have hcomplete : (z.report o).complete = (s.report o).complete := by
    rw [hbetween.report, report_deliverPlug, h.report]
  have harmed : s.phaseIs o Phase.isArmed = true := by simp [State.phaseIs, hc, hp, Phase.isArmed]
  rw [← hcomplete]
  exact h.after.begins (endStart_begins s s z o d _ rfl harmed hzcontrol hz)

/-- A hold for a fault that ends while the line is STALE (R119). -/
theorem Seen.staysHeld {r : ResumeState} {d : Bool} (h : Seen s k a o .plugged x z)
    (hp : c.phase = .held r .outletFault d) (hstale : (s.report o).lineStale = true) :
    Stands (serveAlert k a s) o { c with phase := .held r .stale d } ∧
      Journaled (.held o .stale r) s (serveAlert k a s) := by
  have hx := h.found ho hstops hc (by rw [hp]; rfl)
  have hv : (reportPlug o .plugged x).context o = some c := (context_reportPlug ..).trans hx
  have hcontrol : (reportPlug o .plugged x).control = s.control := (control_reportPlug ..).trans h.control
  have heq := (deliverPlug_of_held hx hp).trans (endHold_of_stale hv hp (by rw [report_reportPlug, h.report]; exact hstale))
  have hcontext : (deliverPlug o .plugged x).context o = some { c with phase := .held r .stale d } := by
    rw [heq]; exact context_setContext_self ..
  have hstep := plugStep_of_running ⟨_, hcontext, rfl⟩
  have hrest := h.rest hc (by rw [hp]; rfl)
  rw [hstep] at hrest
  refine ⟨hrest.stands (stands_of_context hcontext), hrest.journaled ?_⟩
  rw [heq]
  exact journaled_congr _ _ hcontrol (journaled_give (setContext o _ (reportPlug o .plugged x)) _)

/-- A hold for a fault that ends on a fresh line (R119). -/
theorem Seen.recovers {r : ResumeState} {d : Bool} (h : Seen s k a o .plugged x z)
    (hp : c.phase = .held r .outletFault d) (hfresh : (s.report o).lineStale = false) (hsole : SoleHeir s o c) :
    Recovered s o c r .outletFault d (serveAlert k a s) := by
  have hx := h.found ho hstops hc (by rw [hp]; rfl)
  have hv : (reportPlug o .plugged x).context o = some c := (context_reportPlug ..).trans hx
  have hcontrol : (reportPlug o .plugged x).control = s.control := (control_reportPlug ..).trans h.control
  have hheir : HeirStands c s (reportPlug o .plugged x) :=
    (h.heirStands hstops hsole).trans (.of_standby (standby_reportPlug ..))
  have hrecovered := endHold_recovered (reportPlug o .plugged x) o c r .outletFault d hv hp
    (by rw [report_reportPlug, h.report, hfresh]) (by rw [report_reportPlug]; exact nofun)
  rw [← deliverPlug_of_held hx hp] at hrecovered
  have hstep := plugStep_of_running hrecovered.running
  have hrest := h.rest hc (by rw [hp]; rfl)
  rw [hstep] at hrest
  exact hrest.recovered (hheir.recovered hcontrol ((ceiling_reportPlug ..).trans (h.ceiling hstops)) hrecovered)

end

end

/-! ### What else the event leaves -/

section
variable (s : State) (k : LineNo) (a : HeldAlert)

theorem startSerial_serveAlert :
    (serveAlert k a s).sessions.startSerial =
      s.sessions.startSerial + s.startCount (outletA k) a.plug0 + s.startCount (outletB k) a.plug1 := by
  set v := stopStep s k a.estop with hv
  have hstop : v.sessions.startSerial = s.sessions.startSerial :=
    (stopStep_keeps s k a.estop (·.sessions.startSerial) fun _ _ => rfl).trans (stopped_takeEstop s k a.estop).startSerial
  have hcount (o : Outlet) (ho : o ∈ outletsOf k) (p : Plug) : v.startCount o p = s.startCount o p :=
    startCount_stopStep s a.estop ho p
  have hbeside := beside_plugStep v (outletB k) a.plug0 (outletB_ne_outletA k)
  have hsecond : (plugStep (outletA k) a.plug0 v).startCount (outletB k) a.plug1 = v.startCount (outletB k) a.plug1 :=
    startCount_congr (by rw [hbeside.report]) hbeside.band fun start => by rw [hbeside.context]
  have hplugs : (plugSteps k a v).sessions.startSerial =
      s.sessions.startSerial + s.startCount (outletA k) a.plug0 + s.startCount (outletB k) a.plug1 := by
    rw [plugSteps, startSerial_plugStep, startSerial_plugStep, hsecond, hstop, hcount _ (by simp [outletsOf]),
      hcount _ (by simp [outletsOf])]
  rw [serveAlert_eq, startSerial_of_elsewhere (elsewhere_endStart _ s _),
    startSerial_of_elsewhere (elsewhere_endStart _ s _)]
  exact hplugs

theorem line_serveAlert :
    ((serveAlert k a s).line k).alertSlot = none ∧ ((serveAlert k a s).line k).overrunMark = false := by
  rw [serveAlert_eq, State.line, lines_of_elsewhere (elsewhere_endStart _ s _),
    lines_of_elsewhere (elsewhere_endStart _ s _)]
  have hline := line_setLine (plugSteps k a (stopStep s k a.estop)) k
    { (plugSteps k a (stopStep s k a.estop)).line k with alertSlot := none, overrunMark := false }
  exact ⟨congrArg Line.alertSlot hline, congrArg Line.overrunMark hline⟩

theorem meters_serveAlert :
    (serveAlert k a s).meters.pointer = s.meters.pointer ∧
      (serveAlert k a s).meters.blocked = (stopStep s k a.estop).meters.blocked := by
  set v := stopStep s k a.estop with hv
  have hpointer : v.meters.pointer = s.meters.pointer :=
    (stopStep_keeps s k a.estop (·.meters.pointer) fun _ _ => rfl).trans (tracked_takeEstop s (outletA k) k a.estop).pointer
  have hfirst := (local_plugStep v (outletA k) a.plug0).onlyAt
  have hsecond := (local_plugStep (plugStep (outletA k) a.plug0 v) (outletB k) a.plug1).onlyAt
  have hends := ((within_endStart (emptyAlertSlot k (plugSteps k a v)) s (outletA k)).onlyAt)
  have hend := (within_endStart (endStart s (outletA k) (emptyAlertSlot k (plugSteps k a v))) s (outletB k)).onlyAt
  rw [serveAlert_eq]
  exact ⟨(hend.pointer.trans hends.pointer).trans ((hsecond.pointer.trans hfirst.pointer).trans hpointer),
    (hend.blocked.trans hends.blocked).trans (hsecond.blocked.trans hfirst.blocked)⟩

theorem blockMark_serveAlert : (serveAlert k a s).blockMark k = (a.estop || s.blockMark k) := by
  rw [State.blockMark, (meters_serveAlert s k a).2]
  exact (stopStep_keeps s k a.estop (·.blockMark k) fun _ _ => rfl).trans (stopped_takeEstop s k a.estop).mark

/-- The reports after the event: the plug states that have come, and nothing else. -/
theorem report_serveAlert (o : Outlet) :
    (serveAlert k a s).report o =
      (plugStep (outletB k) a.plug1 (plugStep (outletA k) a.plug0 (stopStep s k a.estop))).report o := by
  rw [serveAlert_eq, ((within_endStart _ s _).tracked o).report, ((within_endStart _ s _).tracked o).report]
  rfl

theorem report_plugStep_ne {o o' : Outlet} (p : Plug) (h : o ≠ o') : (plugStep o' p s).report o = s.report o :=
  (local_plugStep s o' p).onlyAt.report h

theorem charge_plugStep (o o' : Outlet) (p : Plug) :
    ((plugStep o' p s).report o).complete = (s.report o).complete ∧
      ((plugStep o' p s).report o).demand = (s.report o).demand := by
  by_cases h : o = o'
  · rw [h, report_plugStep]; exact ⟨rfl, rfl⟩
  · rw [report_plugStep_ne s p h]; exact ⟨rfl, rfl⟩

theorem blockInput_serveAlert (hstops : s.stopsBy k a.estop = true) {o : Outlet} (ho : o ∈ outletsOf k) :
    ((serveAlert k a s).inputs o).blocked = true := by
  rw [serveAlert_eq, (within_endStart _ s _).blockInput, (within_endStart _ s _).blockInput]
  refine (blockInput_plugStep _ (outletB k) a.plug1 o).trans ((blockInput_plugStep _ (outletA k) a.plug0 o).trans ?_)
  rw [stopStep_keeps s k a.estop (·.inputs o) fun _ _ => rfl]
  exact (stopped_takeEstop s k a.estop).input hstops o ho

end

end Sys2Proof.Machine
end

