-- ==== Sys2Proof/Proofs/AlertsServed.lean ====
section
/-! SUPPORT. Settles the service of an alert (O47). -/

namespace Sys2Proof.Machine

section
variable {s x z : State} {k : LineNo} {a : HeldAlert} {o : Outlet} {p : Plug} {c : Context}

theorem want_of_inactive (h : (s.inputs o).active = false) : s.want o = 0 := by simp [State.want, WantInputs.want, h]

/-- A session that an ESTOP closes (R105). -/
theorem Seen.stops (h : Seen s k a o p x z) (ho : o ∈ outletsOf k) (hstops : s.stopsBy k a.estop = true)
    (hc : s.context o = some c) (hp : c.phase.running = true) :
    (serveAlert k a s).context o =
      some ((c.closing .estop s.control.seconds).judged (s.heldCount o) (s.report o).lineStale) := by
  have hstopped : c.stopped (s.stopsBy k a.estop) s.control.seconds = c.closing .estop s.control.seconds := by
    rw [hstops, Context.stopped, if_pos rfl, Context.closedFor, if_pos hp]
  have hinput : ((stopStep s k a.estop).inputs o).blocked = true := by
    rw [stopStep_keeps s k a.estop (·.inputs o) fun _ _ => rfl]
    exact (stopped_takeEstop s k a.estop).input hstops o ho
  rw [← hstopped]
  exact h.judges ho hc (by rw [hstopped]; rfl) (want_of_blocked hinput)

/-- A session that the service finds in CLOSING (R41). -/
theorem Seen.checks (h : Seen s k a o p x z) (ho : o ∈ outletsOf k) (hagree : InputsAgree s) (hc : s.context o = some c)
    (hp : c.phase.isClosing = true) :
    (serveAlert k a s).context o = some (c.judged (s.heldCount o) (s.report o).lineStale) := by
  have hrunning : c.phase.running = false := by
    cases hc : c.phase <;> simp [hc, Phase.isClosing, Phase.running] at hp ⊢
  have hstopped (b : Bool) : c.stopped b s.control.seconds = c := by
    cases b with
    | false => rfl
    | true => rw [Context.stopped, if_pos rfl, Context.closedFor, if_neg (by simp [hrunning])]
  have hwant : (stopStep s k a.estop).want o = 0 := by
    cases hstops : s.stopsBy k a.estop with
    | true =>
      refine want_of_blocked ?_
      rw [stopStep_keeps s k a.estop (·.inputs o) fun _ _ => rfl]
      exact (stopped_takeEstop s k a.estop).input hstops o ho
    | false =>
      rw [want_stopStep hstops]
      refine want_of_inactive (Bool.eq_false_iff.2 fun hactive => ?_)
      obtain ⟨y, hy, hphase⟩ := (hagree.2 o).1.1 hactive
      rw [hc] at hy
      cases hy
      rw [hphase] at hp
      cases hp
  have hjudged := h.judges ho hc (by rw [hstopped]; exact hp) hwant
  rwa [hstopped] at hjudged

end

/-- An outlet of the pedestal has its plug state in the alert. -/
theorem exists_reports {k : LineNo} {o : Outlet} (a : HeldAlert) (h : o ∈ outletsOf k) : ∃ p, Reports k a o p := by
  rcases (outletsOf_cases k).1 h with rfl | rfl
  · exact ⟨_, .inl ⟨rfl, rfl⟩⟩
  · exact ⟨_, .inr ⟨rfl, rfl⟩⟩

/-- A session that has just entered CLOSING waits there or goes to SETTLING. -/
theorem phase_judged_closing (c : Context) (reason : EndReason) (time : Word) (n : Nat) (b : Bool) :
    ((c.closing reason time).judged n b).phase = .closing reason time ∨
      ((c.closing reason time).judged n b).phase = .settling reason time := by
  rw [judged_of_closing (c := c.closing reason time) rfl]
  repeat' split
  · exact .inl rfl
  · exact .inr rfl
  · exact .inr rfl
  · exact .inl rfl

theorem exec_alertService_idle {s : State} (t : Time) (h : s.nextAlert = none) :
    exec (.alertService t) s = finish (atTime t s) := by
  have hnext : (atTime t s).nextAlert = none := h
  show finish (serveNextAlert (atTime t s)) = _
  simp only [serveNextAlert, hnext]

/-- Settles O47: each step from any state, and the event as each of its outlets sees it. -/
theorem alertsServed : Obligations.AlertsServed := by
  refine ⟨fun k active s => ?_, fun o s => ?_, fun o before s => ?_, fun o reason s => ?_, fun o p s => ?_,
    fun t s => ?_⟩
  · intro u v
    refine ⟨takeEstop_idle, clearEstop_idle, fun ha hb => ?_, fun ha hb => ?_⟩
    · subst ha
      obtain ⟨hmark, hentry, hbeside, hinput, hgrant, -, -, -, -, hreport, hcontext⟩ := blocked_takeEstop s k hb
      refine ⟨hmark, hentry, hbeside, fun o ho =>
        ⟨hinput o ho, hgrant o ho, hreport o, fun hc => ?_, fun c hc => ?_⟩⟩
      · rw [hcontext o ho, hc]; rfl
      · rw [hcontext o ho, hc]; rfl
    · subst ha
      obtain ⟨hmark, hentry, hsessions, hinput, hrequest⟩ := cleared_clearEstop s k hb
      exact ⟨hmark, hentry, hsessions, hinput, hrequest⟩
  · intro u
    refine ⟨evaluateStart_of_not_holds, fun c start hc hp => ⟨startHolds_iff, fun hh => ?_⟩⟩
    have hwithin := within_evaluateStart s o
    exact ⟨hwithin.onlyAt, hwithin.report,
      startSerial_of_elsewhere (s := countStart s) (elsewhere_evaluateStart_of_holds hc hp hh),
      evaluateStart_goesOn s o c start hc hp hh⟩
  · intro u armed
    have harmed : armed ↔ before.phaseIs o Phase.isArmed = true := phaseIs_isArmed_iff.symm
    refine ⟨fun h => ?_, fun c ha hcomplete hc hp => ?_⟩
    · rcases h with h | h | h
      · exact endStart_of_not_armed _ _ _ (by simpa using fun hp => h (harmed.2 hp))
      · exact endStart_of_not_complete _ _ _ h
      · exact endStart_of_not_active h
    · have hu : u = leaveFor o c .idle (give (.vehicleDone o) s) :=
        (endStart_of_armed (harmed.1 ha) hcomplete).trans (enterIdle_of_active hc hp)
      have hwithin := within_endStart s before o
      have helse := elsewhere_endStart s before o
      obtain ⟨-, hceiling, hstandby, -, -, hjournal, -⟩ := (enterIdle_stands o c s (stands_of_context hc)).2 hp
      rw [← endStart_of_armed (harmed.1 ha) hcomplete] at hceiling hstandby hjournal
      refine ⟨hwithin.onlyAt, hwithin.report, hceiling, hstandby, startSerial_of_elsewhere helse, ?_, hjournal⟩
      rw [hu, context_leaveFor_self, context_give, hc]
      rfl
  · intro u
    refine ⟨endHold_of_not_held, fun c r d hc hp =>
      ⟨endHold_of_stale hc hp, endHold_of_faulty hc hp, fun hfresh hplug => ?_⟩⟩
    have hwithin := within_endHold s o reason
    exact ⟨hwithin.onlyAt, hwithin.report, endHold_recovered s o c r reason d hc hp hfresh hplug⟩
  · intro u old reported told
    have htold : reportPlug o p s = told := reportPlug_told s o p
    have hcontrol : told.control = s.control := htold ▸ control_reportPlug s o p
    have hcontext : told.context o = s.context o := htold ▸ context_reportPlug s o p o
    have hceiling : told.ceiling o = s.ceiling o := htold ▸ ceiling_reportPlug s o p o
    have hone (c : Context) (hc : s.context o = some c) (h : c.unmovedBy p (s.report o).lineStale s.sessions.band) :
        u = told := by
      refine (deliverPlug_of_unmoved fun x hx => ?_).trans htold
      rw [hc] at hx
      cases hx
      exact h
    refine ⟨fun hc => (deliverPlug_of_unmoved (by simp [hc])).trans htold, fun hp => ?_, fun hp => ?_, fun c hc =>
      ⟨fun hp hrest => hone c hc (by subst hp; exact hrest), fun hp hrunning => ?_,
        fun hp hrest => hone c hc (by subst hp; exact hrest), fun r hp hr => ?_⟩⟩
    · rw [← htold]; subst hp; rfl
    · rw [← htold]; subst hp; rfl
    · have hu : u = enterClosing o .unplugged told := by rw [← htold]; subst hp; rfl
      have hwithin := within_enterClosing told o .unplugged
      rw [hu]
      refine ⟨hwithin.onlyAt, journal_enterClosing .., (ceiling_enterClosing ..).trans hceiling, hwithin.report, ?_⟩
      rw [(enterClosing_spec told .unplugged (hcontext.trans hc) hrunning).1, hcontrol]
      rfl
    · have hu : u = enterHeld o .outletFault told := by rw [← htold]; subst hp; rfl
      have hwithin := within_enterHeld told o .outletFault
      have hc' := hcontext.trans hc
      rw [hu]
      refine ⟨hwithin.onlyAt, ceiling_enterHeld.trans hceiling, hwithin.report,
        journaled_congr _ _ hcontrol (journaled_enterHeld hc' hr), ?_⟩
      rw [context_enterHeld, hc', Option.map_some, heldFor_of_resume hr]
  · obtain ⟨u, hu⟩ : ∃ u, exec (.alertService t) s = .next u := ⟨_, rfl⟩
    refine ⟨u, hu, fun hidle => ?_, fun k a hnext hslot => ?_⟩
    · rw [exec_alertService_idle t hidle] at hu
      cases hu
      exact ends_endEvent _
    intro starts started serial
    rw [exec_alertService t hnext hslot] at hu
    cases hu
    have hne := outletB_ne_outletA k
    have hline := line_serveAlert (atTime t s) k a
    have hreport (o : Outlet) := (report_endEvent _ o).trans (report_serveAlert (atTime t s) k a o)
    have hkeeps {β : Type} (f : State → β) := endEvent_keeps (serveAlert k a (atTime t s)) f
    have hstands {o : Outlet} {d : Context} (h : (serveAlert k a (atTime t s)).context o = some d) :
        Stands (endEvent (serveAlert k a (atTime t s))) o d := stands_endEvent _ o d (stands_of_context h)
    refine ⟨?_, ?_, ?_, ?_, ?_, ?_, fun o => ?_, ?_, fun ha hb o ho => ⟨?_, fun c hc hp => ?_⟩,
      fun hagree o ho c hc hp => ?_, fun hno o p ho => ?_⟩
    · exact (startSerial_endEvent _).trans (startSerial_serveAlert (atTime t s) k a)
    · rw [line_endEvent, hline.1]
    · rw [line_endEvent, hline.2]
    · exact (hkeeps (·.meters.pointer) (fun _ => rfl) fun _ => rfl).trans (meters_serveAlert (atTime t s) k a).1
    · rw [hreport, report_plugStep_ne _ _ hne.symm, report_plugStep]
    · rw [hreport, report_plugStep]
    · have hfirst := charge_plugStep (stopStep (atTime t s) k a.estop) o (outletA k) a.plug0
      have hsecond := charge_plugStep (plugStep (outletA k) a.plug0 (stopStep (atTime t s) k a.estop)) o (outletB k) a.plug1
      rw [hreport, hsecond.1, hsecond.2, hfirst.1, hfirst.2, report_stopStep]
      exact ⟨rfl, rfl⟩
    · exact (hkeeps (·.blockMark k) (fun _ => rfl) fun _ => rfl).trans (blockMark_serveAlert (atTime t s) k a)
    · have hstops : (atTime t s).stopsBy k a.estop = true := by
        rw [State.stopsBy, ha, Bool.true_and]; exact congrArg not hb
      rw [inputs_endEvent]
      exact blockInput_serveAlert (atTime t s) k a hstops ho
    · have hstops : (atTime t s).stopsBy k a.estop = true := by
        rw [State.stopsBy, ha, Bool.true_and]; exact congrArg not hb
      obtain ⟨p, hp'⟩ := exists_reports a ho
      obtain ⟨x, z, hseen⟩ := exists_seen (atTime t s) hp'
      exact hstands (hseen.stops ho hstops hc hp)
    · obtain ⟨p, hp'⟩ := exists_reports a ho
      obtain ⟨x, z, hseen⟩ := exists_seen (atTime t s) hp'
      exact hstands (hseen.checks ho hagree hc hp)
    · have hmem : o ∈ outletsOf k := Reports.mem ho
      obtain ⟨x, z, hseen⟩ := exists_seen (atTime t s) ho
      have hstops : (atTime t s).stopsBy k a.estop = false := by
        rcases hno with h | h
        · rw [State.stopsBy, h, Bool.false_and]
        · have hmark : (atTime t s).blockMark k = true := h
          rw [State.stopsBy, hmark, Bool.not_true, Bool.and_false]
      refine ⟨fun hc => context_endEvent_eq_none _ (hseen.vacant hmem hc), fun c hc => ?_⟩
      have hunmoved (hrest : c.phase.isClosing = false)
          (h : c.unmovedBy p (s.report o).lineStale s.sessions.band) :
          Stands (endEvent (serveAlert k a (atTime t s))) o c :=
        hstands (hseen.unmoved hmem hstops hc hrest h)
      refine ⟨fun hp hrunning => ?_, fun hp hrunning hagree => ?_, fun r hp hr => ?_,
        fun start hp harmed => ⟨fun h => ?_, fun hfresh hstart hsole => ?_⟩,
        fun r d hp hheld => ⟨fun hstale => ?_, fun hfresh hsole => ?_⟩,
        fun hp harmed hheld hrest => ?_, fun hp hrunning hrest => ?_, fun hp hr hrest => ?_⟩
      · subst hp
        obtain ⟨y, hy, hphase⟩ := (hstands (hseen.unplugs hmem hstops hc hrunning)).phase
        refine ⟨y, hy, ?_⟩
        rw [hphase]
        exact phase_judged_closing ..
      · subst hp
        exact hstands (hseen.unplugs_stale hmem hstops hc hrunning hagree)
      · subst hp
        obtain ⟨hheld, hentry⟩ := hseen.holds hmem hstops hc hr
        exact ⟨stands_endEvent _ o _ hheld, journaled_endEvent s _ _ hentry⟩
      · subst hp
        refine hunmoved (by rw [harmed]; rfl) ⟨fun start' hstart => ?_, fun r d hheld => nomatch harmed.symm.trans hheld⟩
        cases harmed.symm.trans hstart
        exact h
      · subst hp
        exact (hseen.starts hmem hstops hc harmed hfresh hstart hsole).endEvent
      · subst hp
        obtain ⟨hstale, hentry⟩ := hseen.staysHeld hmem hstops hc hheld hstale
        exact ⟨stands_endEvent _ o _ hstale, journaled_endEvent s _ _ hentry⟩
      · subst hp
        exact Recovered.endEvent (hseen.recovers hmem hstops hc hheld hfresh hsole)
      · subst hp
        exact hunmoved hrest ⟨fun start hstart => absurd hstart (harmed start), hheld⟩
      · subst hp
        exact hunmoved hrest hrunning
      · subst hp
        exact hunmoved hrest hr

end Sys2Proof.Machine
end

