-- ==== Sys2Proof/Proofs/PurseCeiling.lean ====
section
/-! SUPPORT. Settles the purse ceiling (O52): the model's search up the counts finds the greatest that the money
covers. -/

namespace Sys2Proof.Machine

/-- A search up the counts that keeps the last one found ends with the greatest. -/
theorem foldl_range_eq_findGreatest (p : Nat → Bool) (n : Nat) :
    (List.range (n + 1)).foldl (fun best g => if p g then g else best) 0 =
      Nat.findGreatest (fun g => p g = true) n := by
  induction n with
  | zero => simp [List.range_succ]
  | succ n ih => rw [List.range_succ, List.foldl_append, ih, Nat.findGreatest_succ]; rfl

theorem purseCeiling_eq_findGreatest (c : Context) (p : ParkSettings) (b : Band) :
    c.purseCeiling p b = Nat.findGreatest (fun g => c.covers p b g = true) 10 := foldl_range_eq_findGreatest _ 10

/-- What the remaining money has to cover, with the costs rounded up (R134, R135). -/
theorem covers_iff (c : Context) (p : ParkSettings) (b : Band) (g : Nat) :
    c.covers p b g = true ↔
      (g * 40 * p.horizon * (Table.get c.tariff.prices b).toNat + 3599) / 3600 + p.reserve +
          (c.pendingEnergy[0] * (Table.get c.tariff.prices 0).toNat +
            c.pendingEnergy[1] * (Table.get c.tariff.prices 1).toNat
            + c.pendingEnergy[2] * (Table.get c.tariff.prices 2).toNat
            + c.pendingEnergy[3] * (Table.get c.tariff.prices 3).toNat + 999) / 1000 ≤ c.hold - c.chargedTotal :=
  decide_eq_true_iff

/-- Settles O52: the ceiling is the greatest count from 0 to 10 that is covered. -/
theorem purseCeilingIsTheLargest : Obligations.PurseCeilingIsTheLargest := by
  intro c p b price pending covered n
  have hn : n = Nat.findGreatest (fun g => c.covers p b g = true) 10 := purseCeiling_eq_findGreatest c p b
  have hcovered (g : Nat) : covered g ↔ c.covers p b g = true := (covers_iff c p b g).symm
  simp only [hcovered, hn]
  exact ⟨Nat.findGreatest_le 10, fun g hg hc =>
    ⟨Nat.le_findGreatest hg hc, Nat.findGreatest_spec (P := fun g => c.covers p b g = true) hg hc⟩,
    fun hnone => Nat.findGreatest_eq_zero_iff.2 fun g _ hg => hnone g hg⟩

end Sys2Proof.Machine
end

