-- ==== Sys2Proof/Proofs/TariffOrders.lean ====
section
/-! SUPPORT. TARIFF (O26): its actions, and the record that a LOAD waits for (R123, R124, 12.5). -/

namespace Sys2Proof.Machine

variable (s : State)

/-! ### The order (R123) -/

/-- The event of an order that is given to a block by its tariff slot. -/
theorem receiveOrder_tariff {s : State} {cell : CellIndex} {b : Byte} {i : TariffSlot} (t : Time) (w : Sweep) (a : Byte)
    (h : Receives s cell) (hi : b.toNat = i.val) :
    receiveOrder t w (postedPart (.tariff b a)) s =
      .next (endEvent (awaitTaken cell (.tariff b a) (takeTariff i a (freePort (atTime t s))))) := by
  rw [receiveOrder_eq t w _ h]
  simp only [handOn, withSlot, asFin_eq_some hi]

theorem takeTariff_badField {i : TariffSlot} {action : Byte} (h1 : action ≠ 1#8) (h2 : action ≠ 2#8) :
    takeTariff i action s = refuse .badField s := by
  unfold takeTariff
  split
  · exact absurd (BitVec.eq_of_toNat_eq ‹_›) h1
  · exact absurd (BitVec.eq_of_toNat_eq ‹_›) h2
  · rfl

/-! ### The record (R124, 12.5) -/

/-- Two bytes as a number, the first least significant (R191). -/
theorem toNat_half (b0 b1 : Byte) : (half b0 b1).toNat = b0.toNat + 256 * b1.toNat := by
  rw [half, BitVec.toNat_append, ← Nat.shiftLeft_add_eq_or_of_lt b0.isLt, Nat.shiftLeft_eq]
  omega

/-- The tariff that a record holds. -/
def recordTariff (b : Vector Byte 32) : Tariff :=
  { startFee := half b[2] b[3], prices := #v[half b[4] b[5], half b[6] b[7], half b[8] b[9], half b[10] b[11]],
    idleFee := half b[12] b[13], idleGrace := b[14] }

theorem decodeTariff_valid {b : Vector Byte 32} (h : b[0].getLsbD 0 = true) :
    decodeTariff b = some (recordTariff b) := if_pos h

theorem decodeTariff_invalid {b : Vector Byte 32} (h : b[0].getLsbD 0 = false) : decodeTariff b = none :=
  if_neg (by rw [h]; exact Bool.false_ne_true)

theorem price_recordTariff (b : Vector Byte 32) (p : Band) :
    (Table.get (recordTariff b).prices p).toNat = b[4 + 2 * p.val].toNat + 256 * b[5 + 2 * p.val].toNat := by
  fin_cases p <;> exact toNat_half _ _

/-! ### The completion of the read (R124) -/

/-- A read puts no byte into park memory. -/
theorem completeTransfer_read {tr : Transfer} (h : tr.data = []) : completeTransfer tr s = freePort s := by
  rw [completeTransfer, h]; rfl

theorem tariffReadDone_eq {tr : Transfer} {i : TariffSlot} (record : Vector Byte 32)
    (h : UnderWay s tr (.order (.readTariff i))) :
    exec (.tariffReadDone record) s = .next (endEvent (takeRecord i record (completeTransfer tr s))) := by
  show execTariffReadDone record s = _
  simp only [execTariffReadDone, h.1, h.2, finish]

section
variable {s} {cell : CellIndex} {part : OrderPart} {r : OrderOutcome} {wait : Wait}
  (hunit : s.orders.unit = .waiting cell part r true wait)
include hunit

/-- The order in hand is answered once its record has been taken, with nothing else changed in the event. -/
theorem endEvent_endWaitWith (outcome : OrderOutcome) :
    Answers (endEvent (endWaitWith outcome s)) cell part outcome ∧
      (endEvent (endWaitWith outcome s)).body = s.body := by
  have hwaits : endWaitWith outcome s = setUnit (.waiting cell part outcome true .nothing) s := by
    simp only [endWaitWith, hunit]
  obtain ⟨hbody, hanswers⟩ := endEvent_answers (endWaitWith outcome s) cell part outcome (by rw [hwaits]; rfl)
  exact ⟨hanswers, by rw [hbody, hwaits, body_setUnit]⟩

theorem endEvent_takeRecord_valid (i : TariffSlot) {record : Vector Byte 32} (h : record[0].getLsbD 0 = true) :
    Answers (endEvent (takeRecord i record s)) cell part .ok ∧
      (endEvent (takeRecord i record s)).body = (setTariff i (some (recordTariff record)) s).body := by
  simp only [takeRecord, decodeTariff_valid h]
  exact endEvent_endWaitWith (s := setTariff i (some (recordTariff record)) s) hunit .ok

theorem endEvent_takeRecord_invalid (i : TariffSlot) {record : Vector Byte 32} (h : record[0].getLsbD 0 = false) :
    Answers (endEvent (takeRecord i record s)) cell part .badField ∧
      (endEvent (takeRecord i record s)).body = s.body := by
  simp only [takeRecord, decodeTariff_invalid h]
  exact endEvent_endWaitWith hunit .badField

end

/-- Settles O26: the order by its action, the record by its valid mark. -/
theorem tariffOrder : Obligations.TariffOrder := by
  refine ⟨fun t s cell b i hr hi => ⟨⟨_, receiveOrder_tariff t [] 1 hr hi, takenAs_awaitTaken cell _ rfl⟩,
    ⟨_, receiveOrder_tariff t [] 2 hr hi, takenAs_awaitTaken cell _ rfl⟩, fun action w h1 h2 => ⟨_, ?_,
      takenAs_refuse s cell _ t (takeTariff_badField (i := i) _ h1 h2)⟩⟩,
    fun record s tr cell b a i hread hdata hunit => ⟨_, tariffReadDone_eq s record hread, ?_⟩⟩
  · rw [receiveOrder_encodeOrder]
    exact receiveOrder_tariff t w action hr hi
  · rw [completeTransfer_read s hdata]
    have hfree : (freePort s).orders.unit = .waiting cell (postedPart (.tariff b a)) .ok true (.tariffRecord i) := hunit
    refine ⟨fun hvalid => ?_, fun hinvalid => endEvent_takeRecord_invalid hfree i hinvalid⟩
    obtain ⟨hanswers, hbody⟩ := endEvent_takeRecord_valid hfree i hvalid
    exact ⟨hanswers, recordTariff record, toNat_half _ _, price_recordTariff record, toNat_half _ _, rfl, hbody⟩

end Sys2Proof.Machine
end

