-- ==== Sys2Proof/Proofs/Money.lean ====
section
/-! SUPPORT. The money of one session (O58, R128): what each change of a context makes of its sum and of its bound, from
the charges of chapter 6 to the handover and the audit stepping of chapter 8. -/

namespace Sys2Proof.Machine

/-- The charged total is the sum of its three parts, and passes the hold by the recorded overdraw at most (R128). -/
def Context.balanced (c : Context) : Prop :=
  c.chargedTotal = c.startFeeCharged + c.energyCharge + c.idleCharge ∧ c.chargedTotal ≤ c.hold + c.overdraw

variable {c : Context}

theorem Context.moneySound.balanced (h : c.moneySound) : c.balanced := by
  obtain ⟨hsum, hbound, -⟩ := h
  exact ⟨hsum, hbound⟩

/-- Outside ARMED nothing is asked but the balance. -/
theorem moneySound_of_balanced (h : c.balanced) (hp : c.phase.isArmed = false) : c.moneySound := by
  obtain ⟨hsum, hbound⟩ := h
  exact ⟨hsum, hbound, fun start harmed => by rw [harmed] at hp; cases hp⟩

/-- An audit-held session has started (R159). -/
theorem isArmed_of_auditHeld (h : c.moneySound) (ha : c.auditHeld = true) : c.phase.isArmed = false := by
  obtain ⟨-, -, harmed⟩ := h
  cases hp : c.phase with
  | armed start =>
    obtain ⟨-, hheld⟩ := harmed start hp
    rw [ha] at hheld
    cases hheld
  | _ => rfl

/-! ### Charges (R29, R129 to R132) -/

/-- The start of a session charges its fee to a total of 0, and no more than the hold (R29). -/
theorem moneySound_start {start : StartCondition} (h : c.moneySound) (hp : c.phase = .armed start)
    (serial time : Word) : (c.start serial time).moneySound := by
  obtain ⟨hsum, -, harmed⟩ := h
  obtain ⟨hzero, -⟩ := harmed start hp
  refine moneySound_of_balanced ⟨?_, ?_⟩ rfl <;> simp only [Context.start] <;> omega

/-- An energy charge rises with the total, and the overdraw is what then passes the hold (R129, R130). -/
theorem balanced_priced (h : c.balanced) (d : Nat) (b : Band) : ((c.priceDelta d b).updateOverdraw).balanced := by
  obtain ⟨hsum, -⟩ := h
  refine ⟨?_, ?_⟩ <;> simp only [Context.updateOverdraw, Context.priceDelta] <;> omega

/-- An idle minute charges no more than the remaining money (R132). -/
theorem idleCharged_le (c : Context) : c.idleCharged ≤ c.hold - c.chargedTotal := by
  unfold Context.idleCharged
  split
  · exact Nat.min_le_right _ _
  · exact Nat.zero_le _

theorem balanced_idleMinute (h : c.balanced) : c.idleMinute.balanced := by
  obtain ⟨hsum, hbound⟩ := h
  have hcharged := idleCharged_le c
  refine ⟨?_, ?_⟩ <;> simp only [Context.idleMinute] <;> omega

/-! ### The pending amounts (R163, R165) -/

theorem balanced_pricePending (h : c.balanced) (b : Band) : (c.pricePending b).balanced := by
  unfold Context.pricePending
  dsimp only
  split
  · exact h
  · exact balanced_priced h _ b

theorem balanced_applyPending (h : c.balanced) : c.applyPending.balanced := by
  have hminutes (n : Nat) (d : Context) (hd : d.balanced) : (Context.idleMinute^[n] d).balanced :=
    Function.Iterate.rec Context.balanced hd (fun _ => balanced_idleMinute) n
  exact hminutes c.pendingIdle _
    (balanced_pricePending (balanced_pricePending (balanced_pricePending (balanced_pricePending h 0) 1) 2) 3)

theorem moneySound_applyPending (h : c.moneySound) (hp : c.phase.isArmed = false) : c.applyPending.moneySound :=
  moneySound_of_balanced (balanced_applyPending h.balanced) (by rw [phase_applyPending, hp])

/-- The check for SETTLING applies the pending amounts at most (R42, R165). -/
theorem moneySound_judged (h : c.moneySound) (n : Nat) (b : Bool) : (c.judged n b).moneySound := by
  unfold Context.judged
  split
  · split
    · refine moneySound_of_balanced ?_ rfl
      split
      · exact balanced_applyPending h.balanced
      · exact h.balanced
    · exact h
  · exact h

/-! ### Handover, a new hold, the news of a charge -/

/-- A session taken over owes nothing yet (R150). -/
theorem moneySound_takeOver (c : Context) (o : Outlet) (e : StandbyEntry) (now : Word) :
    (c.takeOver o e now).moneySound :=
  moneySound_of_balanced ⟨rfl, Nat.zero_le _⟩ rfl

/-- A new hold computes the overdraw anew (R36). -/
theorem moneySound_rehold (h : c.moneySound) (hold : Nat) :
    ({ c with hold := hold, overdraw := c.chargedTotal - hold } : Context).moneySound := by
  obtain ⟨hsum, -, harmed⟩ := h
  exact ⟨hsum, by dsimp only; omega, harmed⟩

/-- The news of a charge leave a HELD session HELD (R33). -/
theorem moneySound_heldNews (h : c.moneySound) (complete : Bool) (demand : Nat) :
    (heldNews complete demand c.phase c).moneySound := by
  have hheld (r : ResumeState) (reason : HeldReason) (d : Bool) (n : Nat) :
      ({ c with phase := .held r reason d, idleMinutes := n } : Context).moneySound :=
    moneySound_of_balanced h.balanced rfl
  cases c.phase with
  | held r reason d =>
    cases r with
    | active =>
      simp only [heldNews]
      split
      · exact hheld ..
      · exact h
    | idle => simp only [heldNews]; split <;> exact hheld ..
    | drained => exact h
  | _ => exact h

end Sys2Proof.Machine
end

