-- ==== Sys2Proof/Proofs/MoneySessions.lean ====
section
/-! SUPPORT. The money of every session (O58), continued: what the doings of one session keep (chapters 2, 6 to 8). -/

namespace Sys2Proof.Machine

variable {s u : State}

/-! ### Contexts -/

/-- What leaves the contexts leaves their money. -/
theorem moneySound_of_context (h : ∀ o, u.context o = s.context o) (hs : MoneySound s) : MoneySound u :=
  fun o c hc => hs o c (by rw [← h, hc])

theorem moneySound_of_beyond (h : u.beyond = s.beyond) (hs : MoneySound s) : MoneySound u :=
  moneySound_of_context (fun o => congrArg (fun b : Beyond => Table.get b.sessions.contexts o) h) hs

theorem moneySound_forEach {α : Type} (l : List α) {f : α → State → State}
    (hf : ∀ a u, MoneySound u → MoneySound (f a u)) (hs : MoneySound s) : MoneySound (forEach l f s) :=
  forEach_preserves s MoneySound l f hf hs

/-- The outlet has no session in ARMED. -/
def Unarmed (s : State) (o : Outlet) : Prop := ∀ c, s.context o = some c → c.phase.isArmed = false

theorem unarmed_of_context {o : Outlet} (h : u.context o = s.context o) (hu : Unarmed s o) : Unarmed u o := by
  rw [Unarmed, h]; exact hu

theorem unarmed_setContext {o : Outlet} {c : Context} (h : c.phase.isArmed = false) :
    Unarmed (setContext o (some c) s) o := fun x hx => by
  rw [context_setContext_self] at hx; cases hx; exact h

variable (h : MoneySound s)
include h

theorem moneySound_setContext (o : Outlet) {x : Option Context} (hx : ∀ c, x = some c → c.moneySound) :
    MoneySound (setContext o x s) := fun o' c hc => by
  rw [context_setContext] at hc
  split at hc
  · exact hx c hc
  · exact h o' c hc

theorem moneySound_setLive (o : Outlet) {c : Context} (hc : c.moneySound) : MoneySound (setContext o (some c) s) :=
  moneySound_setContext h o fun _ e => by cases e; exact hc

theorem moneySound_mapLive (o : Outlet) {f : Context → Context}
    (hf : ∀ c, s.context o = some c → c.moneySound → (f c).moneySound) : MoneySound (mapContext o f s) :=
  moneySound_setContext h o fun c hc => by
    obtain ⟨d, hd, rfl⟩ := Option.map_eq_some_iff.1 hc
    exact hf d hd (h o d hd)

theorem moneySound_mapContext (o : Outlet) {f : Context → Context} (hf : ∀ c, c.moneySound → (f c).moneySound) :
    MoneySound (mapContext o f s) := moneySound_mapLive h o fun c _ => hf c

/-- A phase replaced by one after the start. -/
theorem moneySound_setPhase (o : Outlet) {p : Phase} (hp : p.isArmed = false) : MoneySound (setPhase o p s) :=
  moneySound_mapContext h o fun _ hc => moneySound_of_balanced hc.balanced hp

theorem moneySound_give (k : EntryKind) : MoneySound (give k s) := h

/-! ### Deliveries and ceilings -/

theorem moneySound_deliverActive (o : Outlet) (a : Bool) : MoneySound (deliverActive o a s) :=
  moneySound_of_beyond (beyond_deliverActive s o a) h

theorem moneySound_setCeiling (o : Outlet) (n : Nat) : MoneySound (setCeiling o n s) :=
  moneySound_of_context (context_setCeiling s o · n) h

theorem moneySound_recompute (o : Outlet) : MoneySound (recompute o s) := moneySound_setCeiling h o _

theorem moneySound_recomputeAll : MoneySound (recomputeAll s) := by
  have hstore (o : Outlet) (n : Nat) (u : State) (hu : MoneySound u) : MoneySound (storeCeiling o n u) := by
    unfold storeCeiling
    split
    · exact hu
    · exact moneySound_of_beyond (beyond_setInputs _ o _) hu
  exact moneySound_of_beyond (beyond_immediatePass _) (moneySound_forEach _ (fun o u => hstore o _ u) h)

/-! ### Leaving and ending -/

theorem moneySound_vacate (o : Outlet) : MoneySound (vacate o s) := fun o' c hc => by
  rw [context_vacate] at hc
  split at hc
  · cases hc
  · exact h o' c hc

theorem moneySound_releaseUnused (l : Option CellIndex) : MoneySound (releaseUnused l s) :=
  moneySound_of_context (fun o => by rw [State.context, (contexts_releaseUnused s l).1]; rfl) h

theorem moneySound_endSession (o : Outlet) (c : Context) (r : OrderOutcome) : MoneySound (endSession o c r s) :=
  moneySound_releaseUnused (s := queueEndWord c.cell r (vacate o s)) (moneySound_vacate h o) c.link

theorem moneySound_leaveFor (o : Outlet) (c : Context) {p : Phase} (hp : p.isArmed = false) :
    MoneySound (leaveFor o c p s) := by
  unfold leaveFor
  dsimp only
  split
  · exact moneySound_deliverActive (moneySound_setPhase h o hp) o false
  · exact moneySound_setPhase h o hp

theorem moneySound_enterClosing (o : Outlet) (r : EndReason) : MoneySound (enterClosing o r s) := by
  unfold enterClosing
  split
  · exact h
  · split
    · exact moneySound_mapContext (moneySound_leaveFor h o _ rfl) o fun _ => id
    · exact h

theorem moneySound_checkSettle (o : Outlet) : MoneySound (checkSettle o s) := by
  rw [checkSettle_eq]
  exact moneySound_mapContext h o fun _ hc => moneySound_judged hc _ _

theorem moneySound_closeSession (o : Outlet) (r : EndReason) : MoneySound (closeSession o r s) :=
  moneySound_checkSettle (moneySound_enterClosing h o r) o

theorem moneySound_checkSettles (l : List Outlet) : MoneySound (forEach l checkSettle s) :=
  moneySound_forEach l (fun o _ hu => moneySound_checkSettle hu o) h

/-! ### DRAINED, handover, starting, idling -/

theorem moneySound_enterDrained (o : Outlet) : MoneySound (enterDrained o s) := by
  unfold enterDrained
  split
  · exact h
  · exact moneySound_mapContext (moneySound_leaveFor h o _ rfl) o fun _ => id

theorem moneySound_handover (o : Outlet) (e : StandbyEntry) : MoneySound (handover o e s) := by
  unfold handover
  split
  · exact h
  · next c _ =>
    have htaken := moneySound_setLive h o (moneySound_takeOver c o e s.control.seconds)
    have hgiven : MoneySound (give (.handover o c.cell e.cell c.chargedTotal)
        (removeEntry e.cell (setContext o (some (c.takeOver o e s.control.seconds)) s))) := htaken
    have hactive := moneySound_recompute (moneySound_deliverActive hgiven o true) o
    dsimp only
    split
    · exact moneySound_enterDrained hactive o
    · exact hactive

theorem moneySound_takeOn (o : Outlet) : MoneySound (takeOn o s) := by
  unfold takeOn
  repeat' split
  · exact h
  · exact moneySound_handover h o _
  · exact moneySound_enterDrained h o
  · exact h

theorem moneySound_examineDrained (o : Outlet) : MoneySound (examineDrained o s) := by
  unfold examineDrained
  repeat' split
  · exact h
  · exact moneySound_handover h o _
  · exact h
  · exact h

theorem moneySound_enterIdle (o : Outlet) : MoneySound (enterIdle o s) := by
  unfold enterIdle
  split
  · exact h
  · split
    · exact moneySound_leaveFor (s := give (.vehicleDone o) s) h o _ rfl
    · exact h

/-- A start charges a session that was ARMED, and so owed nothing (R29). -/
theorem moneySound_beginSession {o : Outlet} {c : Context} {start : StartCondition} (hc : s.context o = some c)
    (hp : c.phase = .armed start) : MoneySound (beginSession o s) := by
  have hstarted : MoneySound (mapContext o (fun c => c.start s.sessions.startSerial s.control.seconds) s) :=
    moneySound_mapLive h o fun d hd hsound => by
      rw [hc] at hd; cases hd
      exact moneySound_start hsound hp _ _
  have hcounted :
      MoneySound (countStart (mapContext o (fun c => c.start s.sessions.startSerial s.control.seconds) s)) := hstarted
  exact moneySound_recompute (moneySound_deliverActive hcounted o true) o

theorem moneySound_evaluateStart (o : Outlet) : MoneySound (evaluateStart o s) := by
  unfold evaluateStart
  split
  · exact h
  · next c hc =>
    split
    · next start hp =>
      split
      · exact moneySound_takeOn (moneySound_beginSession h hc hp) o
      · exact h
    · exact h

theorem moneySound_endStart (before : State) (o : Outlet) : MoneySound (endStart before o s) := by
  unfold endStart
  split
  · exact moneySound_enterIdle h o
  · exact h

theorem moneySound_startInEvent (o : Outlet) : MoneySound (startInEvent o s) :=
  moneySound_endStart (moneySound_evaluateStart h o) s o

theorem moneySound_returnToActive (o : Outlet) : MoneySound (returnToActive o s) := by
  have hactive : MoneySound (mapContext o (fun c => { c with phase := .active, idleMinutes := 0 }) s) :=
    moneySound_mapContext h o fun _ hc => moneySound_of_balanced hc.balanced rfl
  exact moneySound_takeOn (moneySound_deliverActive hactive o true) o

/-! ### HELD (R34, R116 to R119) -/

theorem moneySound_enterHeld (o : Outlet) (r : HeldReason) : MoneySound (enterHeld o r s) := by
  unfold enterHeld
  split
  · exact h
  · split
    · exact h
    · exact moneySound_mapContext (moneySound_leaveFor h o _ rfl) o fun _ => id

theorem moneySound_recover (o : Outlet) (c : Context) (r : ResumeState) (reason : HeldReason) (d : Bool) :
    MoneySound (recover o c r reason d s) := by
  have hresumed : MoneySound (give (.recovered o reason r c.heldMinutes) (setPhase o r.phase s)) :=
    moneySound_setPhase h o (by cases r <;> rfl)
  cases r with
  | active => exact moneySound_takeOn (moneySound_deliverActive hresumed o true) o
  | idle => cases d <;> exact hresumed
  | drained => exact moneySound_examineDrained hresumed o

theorem moneySound_endHold (o : Outlet) (r : HeldReason) : MoneySound (endHold o r s) := by
  unfold endHold
  split
  · exact h
  · split
    · split
      · split
        · exact moneySound_setPhase h o rfl
        · split
          · exact moneySound_setPhase h o rfl
          · exact moneySound_recover h o _ _ _ _
      · exact h
    · exact h

/-! ### The audit hold and billing (R112, R129, R159, R160) -/

omit h in
/-- A session taken on is in no phase but one after the start. -/
theorem unarmed_takeOn {o : Outlet} (hu : Unarmed s o) : Unarmed (takeOn o s) o := by
  cases hc : s.context o with
  | none => rw [takeOn, hc]; exact hu
  | some c =>
    by_cases hp : c.phase = .active
    · obtain ⟨x, hx, hphase⟩ := (takeOn_goesOn s o c hc hp).phase hp
      intro d hd
      rw [hx] at hd; cases hd
      rcases hphase with e | e <;> rw [e] <;> rfl
    · rw [takeOn_of_not_active s hc hp]; exact hu

omit h in
theorem unarmed_examineDrained {o : Outlet} (hu : Unarmed s o) : Unarmed (examineDrained o s) o := by
  unfold examineDrained
  split
  · exact hu
  · next c hc =>
    repeat' split
    · next e _ =>
      obtain ⟨x, hx, hphase⟩ := (handover_handedOver s o e c hc).phase
      intro d hd
      rw [hx] at hd; cases hd
      rcases hphase with e | e <;> rw [e] <;> rfl
    · exact hu
    · exact hu

/-- No audit hold is taken of a session in ARMED. -/
theorem moneySound_auditIfFlagged {o : Outlet} (hu : Unarmed s o) : MoneySound (auditIfFlagged o s) := by
  unfold auditIfFlagged takeAuditHold
  split
  · split
    · exact h
    · exact moneySound_mapLive h o fun c hc hsound => moneySound_of_balanced hsound.balanced (hu c hc)
  · exact h

theorem moneySound_bill {o : Outlet} (hu : Unarmed s o) (d : Nat) (b : Band) : MoneySound (bill o d b s) := by
  unfold bill
  split
  · exact h
  · next c hc =>
    have hsound : c.moneySound := h o c hc
    split
    · exact moneySound_recompute (moneySound_setLive h o (c := c.addPending d b) hsound) o
    · have hp : (c.priceDelta d b).updateOverdraw.phase.isArmed = false := hu c hc
      have hpriced := moneySound_setLive h o (moneySound_of_balanced (balanced_priced hsound.balanced d b) hp)
      refine moneySound_auditIfFlagged (moneySound_takeOn (moneySound_recompute hpriced o) o) (unarmed_takeOn ?_)
      exact unarmed_of_context (context_setCeiling _ o o _) (unarmed_setContext hp)

/-! ### Outlet news (R107) -/

theorem moneySound_deliverPlug (o : Outlet) (p : Plug) : MoneySound (deliverPlug o p s) := by
  have hreported : MoneySound (reportPlug o p s) := moneySound_of_context (context_reportPlug s o p) h
  cases p with
  | plugged => exact moneySound_endHold (moneySound_evaluateStart hreported o) o _
  | unplugged => exact moneySound_enterClosing hreported o _
  | fault => exact moneySound_enterHeld hreported o _
  | unknown => exact hreported

theorem moneySound_actOnCharge (o : Outlet) (complete : Bool) (demand : Nat) :
    MoneySound (actOnCharge o complete demand s) := by
  unfold actOnCharge
  split
  · exact h
  · next c hc =>
    split
    · split
      · exact moneySound_enterIdle h o
      · exact h
    · split
      · exact moneySound_returnToActive h o
      · exact h
    · exact moneySound_setLive h o (moneySound_heldNews (h o c hc) complete demand)
    · exact h

theorem moneySound_deliverCharge (o : Outlet) (complete : Bool) (demand : Nat) :
    MoneySound (deliverCharge o complete demand s) :=
  moneySound_of_beyond (beyond_deliverDemand _ o demand) (moneySound_actOnCharge
    (s := mapReport o (fun r => { r with complete := complete, demand := demand }) s) h o complete demand)

end Sys2Proof.Machine
end

