-- ==== Sys2Proof/Proofs/MoneyServices.lean ====
section
/-! SUPPORT. The money of every session (O58), continued: what the lines, the Metering Unit and the orders keep (chapters
2, 4, 5). -/

namespace Sys2Proof.Machine

variable {s : State} (h : MoneySound s)
include h

/-! ### The lines (R80 to R96) -/

theorem moneySound_pollIfDue (k : LineNo) : MoneySound (pollIfDue k s) := by
  rw [pollIfDue_eq]; exact h

theorem moneySound_enterWaiting (k : LineNo) : MoneySound (enterWaiting k s) :=
  moneySound_pollIfDue (s := mapLine k (fun l => { l with state := .waiting, outstanding := none }) s) h k

theorem moneySound_bandEdges : MoneySound (forEach Config.lines bandEdge s) := by
  rw [forEach_bandEdge]; exact h

theorem moneySound_emptyReplySlot (k : LineNo) : MoneySound (emptyReplySlot k s) := by
  unfold emptyReplySlot
  dsimp only
  repeat' split
  all_goals exact h

/-- What a line tells the inputs and the reports of its outlets touches no session. -/
theorem moneySound_tellLine (k : LineNo) (f : WantInputs → WantInputs) (b : Bool) :
    MoneySound (markReports k b (deliverBoth k f s)) :=
  moneySound_forEach _ (fun _ _ hu => hu) (moneySound_of_beyond (beyond_deliverBoth s k f) h)

theorem moneySound_goStale (k : LineNo) : MoneySound (goStale k s) := by
  have hentry : MoneySound (give (.lineStale k) (mapLine k (fun l => { l with stale := true }) s)) := h
  exact moneySound_checkSettles
    (moneySound_forEach _ (fun o _ hu => moneySound_enterHeld hu o _) (moneySound_tellLine hentry k _ true)) _

theorem moneySound_goFresh (k : LineNo) (n : Nat) : MoneySound (goFresh k n s) := by
  have hentry : MoneySound (give (.lineFresh k n) (mapLine k (fun l => { l with stale := false }) s)) := h
  exact moneySound_forEach _ (fun o _ hu => moneySound_endHold hu o _) (moneySound_tellLine hentry k _ false)

theorem moneySound_missPoll (k : LineNo) : MoneySound (missPoll k s) := by
  unfold missPoll
  dsimp only
  split
  · exact moneySound_goStale (s := mapLine k (fun l => { l with missed := satAdd 255 l.missed 1 }) s) h k
  · exact h

theorem moneySound_failExchange (k : LineNo) : MoneySound (failExchange k s) :=
  moneySound_enterWaiting (moneySound_missPoll h k) k

theorem moneySound_frameFault (k : LineNo) (f : LineCounters → LineCounters) : MoneySound (frameFault k f s) := by
  have hcounted : MoneySound (countFault k f s) := h
  unfold frameFault
  dsimp only
  split
  · exact moneySound_failExchange hcounted k
  · exact moneySound_pollIfDue hcounted k

theorem moneySound_goodReply (k : LineNo) (f : Vector Byte 29) : MoneySound (goodReply k f s) := by
  have hplaced (poll : PollRecord) :
      MoneySound (mapLine k (fun l => { l with replySlot := some (replyOf f poll s.now), missed := 0 }) s) := h
  have haccepted (poll : PollRecord) : MoneySound (acceptReply k f poll s) := by
    refine moneySound_enterWaiting ?_ k
    split
    · exact moneySound_goFresh (hplaced poll) k _
    · exact h
  unfold goodReply
  dsimp only
  repeat' split
  · exact haccepted _
  · exact moneySound_frameFault h k _
  · exact h
  · exact moneySound_pollIfDue h k

theorem moneySound_goodAlert (k : LineNo) (f : Vector Byte 6) : MoneySound (goodAlert k f s) := by
  refine moneySound_pollIfDue ?_ k
  repeat' split
  all_goals exact h

/-! ### The Metering Unit (chapter 5) -/

theorem moneySound_tellBlocked (k : LineNo) (b : Bool) : MoneySound (tellBlocked s k b) :=
  moneySound_of_context (context_tellBlocked s k b) h

theorem moneySound_takeEstop (k : LineNo) (a : Bool) : MoneySound (takeEstop k a s) := by
  unfold takeEstop
  split
  · exact moneySound_give (moneySound_forEach (outletsOf k) (fun o _ hu => moneySound_enterClosing hu o _)
      (moneySound_tellBlocked h k true)) _
  · exact h

theorem moneySound_clearEstop (k : LineNo) (a : Bool) : MoneySound (clearEstop k a s) := by
  unfold clearEstop
  split
  · exact moneySound_give (moneySound_tellBlocked h k false) _
  · exact h

omit h in
theorem unarmed_of_bills {o : Outlet} (hb : s.phaseIs o Phase.bills = true) : Unarmed s o := fun c hc => by
  obtain ⟨d, hd, hbills, -⟩ := phaseIs_bills_iff.1 hb
  rw [hc] at hd; cases hd
  cases hp : c.phase with
  | armed start => exact absurd hp (hbills start)
  | _ => rfl

/-- An accepted delta is billed to a session that has started (R112). -/
theorem moneySound_acceptDelta (o : Outlet) (d : Nat) (b : Band) (w : Word) (t : Time) :
    MoneySound (acceptDelta o d b w t s) := by
  have hread : MoneySound (setRecord o (s.accepted o w t) s) := h
  cases hb : s.phaseIs o Phase.bills with
  | true =>
    have hunarmed : Unarmed (setRecord o (s.accepted o w t) s) o := unarmed_of_bills hb
    rw [acceptDelta_billed o w b t s d hb]
    exact moneySound_endHold (moneySound_bill hread hunarmed d b) o _
  | false =>
    rw [acceptDelta_unclaimed o w b t s d hb]
    dsimp only
    split <;> exact h

theorem moneySound_rebase (o : Outlet) (w : Word) (t : Time) : MoneySound (rebase o w t s) := by
  have hread : MoneySound (setRecord o (s.accepted o w t) s) := h
  unfold rebase
  dsimp only
  split
  · exact moneySound_enterHeld
      (moneySound_mapContext hread o (f := fun c => { c with meterRebased := true }) fun _ => id) o _
  · exact hread

theorem moneySound_rejectDelta (o : Outlet) (w : Word) (t : Time) : MoneySound (rejectDelta o w t s) := by
  have hrejected : MoneySound (mapRecord o (fun r => { r with rejects := r.rejects + 1 }) s) := h
  have hthird (v : State) (hv : MoneySound v) :
      MoneySound (if 3 ≤ (v.record o).rejects then rebase o w t v else v) := by
    split
    · exact moneySound_rebase hv o w t
    · exact hv
  unfold rejectDelta
  dsimp only
  split
  · exact hthird _ (moneySound_mapContext hrejected o fun _ => id)
  · exact hthird _ hrejected

theorem moneySound_readMeter (o : Outlet) (w : Word) (b : Band) (t : Time) : MoneySound (readMeter o w b t s) := by
  unfold readMeter
  dsimp only
  split
  · exact moneySound_of_beyond
      (beyond_deliver (requestPass (mapRecord o (fun r => r.accept w t (s.heldCount o)) s)) o _) h
  · split
    · exact moneySound_acceptDelta h o _ b w t
    · exact moneySound_rejectDelta h o w t

/-! ### Services (R102 to R104) -/

theorem moneySound_takeMasks (o : Outlet) (n : OutletNews) (sent : ModuleMask) : MoneySound (takeMasks o n sent s) := by
  have hfault (p : Fin 10) (u : State) (hu : MoneySound u) : MoneySound (faultModule (moduleAt o p) u) := by
    unfold faultModule
    split <;> exact hu
  have hrelease (p : Fin 10) (u : State) (hu : MoneySound u) : MoneySound (releaseModule o n.applied sent p u) := by
    unfold releaseModule
    repeat' split
    all_goals exact hu
  exact moneySound_forEach _ hrelease (moneySound_forEach _ hfault h)

theorem moneySound_closeStep (o : Outlet) (w : Bool) (m : ModuleMask) : MoneySound (closeStep o w m s) := by
  unfold closeStep
  dsimp only
  split
  · exact moneySound_checkSettle
      (moneySound_mapContext h o (f := fun c => { c with finalReading := true }) fun _ => id) o
  · exact moneySound_checkSettle h o

theorem moneySound_serveOutlet (o : Outlet) (l : List Outlet) (w : Bool) (n : OutletNews) (m : ModuleMask) (b : Band)
    (t : Time) : MoneySound (serveOutlet o l w n m b t s) := by
  have hmasks : MoneySound (settleOthers l (takeMasks o n m s)) :=
    moneySound_checkSettles (moneySound_takeMasks h o n m) _
  have hnews := moneySound_deliverCharge (moneySound_deliverPlug hmasks o n.plug) o n.complete n.demand
  exact moneySound_closeStep (moneySound_readMeter hnews o n.register b t) o w n.applied

theorem moneySound_serveReply (k : LineNo) (r : HeldReply) : MoneySound (serveReply k r s) :=
  moneySound_emptyReplySlot (moneySound_serveOutlet (moneySound_serveOutlet
    (moneySound_clearEstop (moneySound_takeEstop h k r.estop) k r.estop) _ _ _ _ _ _ _) _ _ _ _ _ _ _) k

theorem moneySound_serveAlert (k : LineNo) (a : HeldAlert) : MoneySound (serveAlert k a s) := by
  have hstop : MoneySound (forEach (outletsOf k) checkSettle (takeEstop k a.estop s)) :=
    moneySound_checkSettles (moneySound_takeEstop h k a.estop) _
  have hplug (o : Outlet) (p : Plug) (u : State) (hu : MoneySound u) : MoneySound (checkSettle o (deliverPlug o p u)) :=
    moneySound_checkSettle (moneySound_deliverPlug hu o p) o
  have hserved := hplug (outletB k) a.plug1 _ (hplug (outletA k) a.plug0 _ hstop)
  exact moneySound_forEach (outletsOf k) (fun o _ hu => moneySound_endStart hu s o)
    (s := mapLine k (fun l => { l with alertSlot := none, overrunMark := false }) _) hserved

theorem moneySound_serveNextReply : MoneySound (serveNextReply s) := by
  unfold serveNextReply
  repeat' split
  · exact h
  · exact h
  · exact h
  · next k _ _ r _ => exact moneySound_serveReply (s := setPointer k s) h k r

theorem moneySound_serveNextAlert : MoneySound (serveNextAlert s) := by
  unfold serveNextAlert
  repeat' split
  · exact h
  · exact h
  · exact moneySound_serveAlert h _ _

end Sys2Proof.Machine
end

