-- ==== Sys2Proof/Proofs/MoneyEvents.lean ====
section
/-! SUPPORT. The money of every session (O58), continued: what the orders, the transfers, the timers and the end of an
event keep (chapters 1, 2, 9, 10). -/

namespace Sys2Proof.Machine

variable {s : State} (h : MoneySound s)
include h

/-! ### Orders (R15, R16) -/

theorem moneySound_takeOpen (cell : CellIndex) (o : OpenOrder) (out : Outlet) (i : TariffSlot) :
    MoneySound (takeOpen cell o out i s).state := by
  unfold takeOpen
  repeat' split
  · exact h
  · exact h
  · exact h
  · exact h
  · exact moneySound_startInEvent (moneySound_setLive h out ⟨rfl, Nat.zero_le _, fun _ _ => ⟨rfl, rfl⟩⟩) out
  · exact h

theorem moneySound_takeLink (cell : CellIndex) (o : LinkOrder) (out : Outlet) (i : TariffSlot) :
    MoneySound (takeLink cell o out i s).state := by
  have hlinked (e : StandbyEntry) : MoneySound { s with standby := s.standby ++ [e] } := h
  unfold takeLink
  repeat' split
  · exact h
  · exact h
  · exact h
  · exact h
  · exact h
  · exact moneySound_examineDrained (hlinked _) out

theorem moneySound_takeStop (o : Outlet) : MoneySound (takeStop o s).state := by
  unfold takeStop
  split
  · exact h
  · next c hc =>
    split
    · exact moneySound_endSession h o c .cancelled
    · exact h
    · exact h
    · exact moneySound_closeSession h o _

theorem moneySound_amendPriority (o : Outlet) (p : Fin 4) : MoneySound (amendPriority o p s) := by
  have hamended : MoneySound (mapContext o (fun c => { c with priority := p }) s) :=
    moneySound_mapContext h o fun _ => id
  unfold amendPriority
  dsimp only
  split <;> exact hamended

theorem moneySound_amendHold (o : Outlet) (n : Nat) : MoneySound (amendHold o n s) := by
  have hheld : MoneySound (mapContext o (fun c => { c with hold := n, overdraw := c.chargedTotal - n }) s) :=
    moneySound_mapContext h o fun _ hc => moneySound_rehold hc n
  have hnew := moneySound_recompute hheld o
  unfold amendHold
  generalize recompute o (mapContext o (fun c => { c with hold := n, overdraw := c.chargedTotal - n }) s) = v at hnew ⊢
  have hactive : MoneySound (mapContext o (fun c => { c with phase := .active, drainedMinutes := 0 }) v) :=
    moneySound_mapContext hnew o fun _ hc => moneySound_of_balanced hc.balanced rfl
  dsimp only
  split
  · exact moneySound_deliverActive hactive o true
  · exact moneySound_takeOn hnew o

theorem moneySound_takeAmend (a : AmendOrder) (o : Outlet) : MoneySound (takeAmend a o s).state := by
  unfold takeAmend
  repeat' split
  · exact h
  · exact h
  · exact h
  · rw [state_accept]; exact moneySound_amendHold (moneySound_amendPriority h o _) o _
  · rw [state_accept]; exact moneySound_amendPriority h o _
  · rw [state_accept]; exact moneySound_amendHold h o _
  · exact h

theorem moneySound_takeSync (o : Outlet) : MoneySound (takeSync o s).state := by
  unfold takeSync
  split
  · exact h
  · exact moneySound_mapContext h o fun _ => id

theorem moneySound_takeAudit (o : Outlet) (a : Byte) : MoneySound (takeAudit o a s).state := by
  unfold takeAudit
  dsimp only
  split <;> exact h

/-- The audit-held session has started, so its pending amounts may be charged and its hold retaken (R163, R164). -/
theorem moneySound_resumeSession {o : Outlet} {c : Context} (hc : s.context o = some c) (ha : c.auditHeld = true) :
    MoneySound (resumeSession o s) := by
  have hp : c.phase.isArmed = false := isArmed_of_auditHeld (h o c hc) ha
  have happlied : MoneySound (setContext o (some c.applyPending) s) :=
    moneySound_setLive h o (moneySound_applyPending (h o c hc) hp)
  have hunarmed : Unarmed (recompute o (setContext o (some c.applyPending) s)) o :=
    unarmed_of_context (context_setCeiling _ o o _) (unarmed_setContext (by rw [phase_applyPending, hp]))
  rw [resumeSession, mapContext_eq _ hc]
  exact moneySound_auditIfFlagged
    (moneySound_examineDrained (moneySound_takeOn (moneySound_recompute happlied o) o) o)
    (unarmed_examineDrained (unarmed_takeOn hunarmed))

theorem moneySound_takeResume (o : Outlet) : MoneySound (takeResume o s).state := by
  unfold takeResume
  split
  · exact h
  · next c hc =>
    split
    · next ha => rw [state_accept]; exact moneySound_resumeSession h hc ha
    · exact h

theorem moneySound_takeTariff (i : TariffSlot) (a : Byte) : MoneySound (takeTariff i a s).state := by
  unfold takeTariff
  split <;> exact h

theorem moneySound_takeBand (w : Sweep) (b : Byte) : MoneySound (takeBand w b s).state := by
  unfold takeBand
  split
  · exact h
  · have hafter (v : State) (hv : MoneySound v) :
        MoneySound (forEach (sweepOrder w) (endStart s) (forEach Config.lines bandEdge
          (forEach (sweepOrder w) (fun o u => evaluateStart o (takeOn o u)) (recomputeAll v)))) :=
      moneySound_forEach _ (fun o _ hu => moneySound_endStart hu s o)
        (moneySound_bandEdges (moneySound_forEach _ (fun o _ hu => moneySound_evaluateStart (moneySound_takeOn hu o) o)
          (moneySound_recomputeAll hv)))
    dsimp only
    rw [state_accept]
    exact hafter _ h

theorem moneySound_takeSite (n : Nat) : MoneySound (takeSite n s).state := by
  unfold takeSite
  split
  · exact h
  · refine moneySound_of_beyond (beyond_pass _) ?_
    split <;> exact h

theorem moneySound_takeOutlet (o : Outlet) (n : Nat) : MoneySound (takeOutlet o n s).state := by
  have hset : MoneySound (setMaximum o n s) := h
  by_cases hn : 10 < n
  · rw [takeOutlet_badField s hn]; exact h
  · rw [takeOutlet_ok s (Nat.not_lt.1 hn)]
    exact moneySound_of_beyond (beyond_immediatePass _) hset

theorem moneySound_takeModule (m : ModuleNo) (a : Byte) : MoneySound (takeModule m a s).state := by
  unfold takeModule returnModule retireModule
  repeat' split
  all_goals exact h

theorem moneySound_takePark (w : Sweep) (p : ParkOrder) : MoneySound (takePark w p s).state := by
  unfold takePark
  split
  · exact h
  · dsimp only
    rw [state_accept]
    split
    · exact h
    · refine moneySound_forEach _ (fun o _ hu => moneySound_takeOn hu o) (moneySound_recomputeAll ?_)
      exact h

theorem moneySound_withOutlet (b : Byte) {f : Outlet → Taken} (hf : ∀ o, MoneySound (f o).state) :
    MoneySound (withOutlet b s f).state := by
  unfold withOutlet
  split
  · exact hf _
  · exact h

theorem moneySound_withSlot (b : Byte) {f : TariffSlot → Taken} (hf : ∀ i, MoneySound (f i).state) :
    MoneySound (withSlot b s f).state := by
  unfold withSlot
  split
  · exact hf _
  · exact h

theorem moneySound_handOn (cell : CellIndex) (w : Sweep) (o : Order) : MoneySound (handOn cell w o s).state := by
  cases o with
  | openSession o =>
    exact moneySound_withOutlet h _ fun _ => moneySound_withSlot h _ fun _ => moneySound_takeOpen h cell o _ _
  | link o => exact moneySound_withOutlet h _ fun _ => moneySound_withSlot h _ fun _ => moneySound_takeLink h cell o _ _
  | stop b => exact moneySound_withOutlet h _ (moneySound_takeStop h)
  | amend a => exact moneySound_withOutlet h _ (moneySound_takeAmend h a)
  | sync b => exact moneySound_withOutlet h _ (moneySound_takeSync h)
  | audit b a => exact moneySound_withOutlet h _ fun o => moneySound_takeAudit h o a
  | resume b => exact moneySound_withOutlet h _ (moneySound_takeResume h)
  | tariff b a => exact moneySound_withSlot h _ fun i => moneySound_takeTariff h i a
  | band b => exact moneySound_takeBand h w b
  | site l => exact moneySound_takeSite h _
  | outlet b m => exact moneySound_withOutlet h _ fun o => moneySound_takeOutlet h o _
  | module b a =>
    simp only [handOn]
    split
    · exact moneySound_takeModule h _ a
    · exact h
  | park p => exact moneySound_takePark h w p
  | clock v => exact h
  | survey => exact h
  | line b =>
    simp only [handOn]
    split <;> exact h

theorem moneySound_readCell (cell : CellIndex) (w : Sweep) (p : OrderPart) : MoneySound (readCell cell w p s) := by
  have htaken : MoneySound (takeOrder cell w p s).state := by
    unfold takeOrder
    split
    · exact moneySound_handOn h cell w _
    · exact h
  unfold readCell
  split
  · exact h
  · exact htaken

/-! ### Transfers (R167 to R179) -/

theorem moneySound_endWaitWith (r : OrderOutcome) : MoneySound (endWaitWith r s) := by
  unfold endWaitWith
  split <;> exact h

theorem moneySound_takenWritten : MoneySound (takenWritten s) := by
  unfold takenWritten
  dsimp only
  repeat' split
  all_goals exact h

theorem moneySound_takeRecord (i : TariffSlot) (record : Vector Byte 32) : MoneySound (takeRecord i record s) := by
  unfold takeRecord
  split
  · next t _ => exact moneySound_endWaitWith (s := setTariff i (some t) s) h _
  · exact moneySound_endWaitWith h _

theorem moneySound_standingEnded (l : Bool) : MoneySound (standingEnded l s) := by
  unfold standingEnded endCopyWait
  repeat' split
  · exact moneySound_of_context (fun o => by rw [State.context, sessions_endWait]; rfl) h
  · exact h
  · exact h

theorem moneySound_progressEnded (o : Outlet) (c l : Bool) : MoneySound (progressEnded o c l s) := by
  refine moneySound_standingEnded ?_ l
  split
  · exact moneySound_of_context (fun o' => by rw [State.context, sessions_endProgressWait]; rfl)
      (moneySound_mapContext h o (f := fun c => { c with progressWaiter := false }) fun _ => id)
  · exact h

theorem moneySound_settleSession (o : Outlet) : MoneySound (settleSession o s) := by
  unfold settleSession
  split
  · exact h
  · split
    · exact moneySound_endSession h o _ .settled
    · exact h

theorem moneySound_givenUpWritten (o : Outlet) : MoneySound (givenUpWritten o s) := by
  unfold givenUpWritten
  split
  · exact h
  · next g _ =>
    have hwritten : MoneySound (queueEndWord g.cell .settled (mapContext o (fun c => { c with givenUp := none }) s)) :=
      moneySound_mapContext h o fun _ => id
    exact moneySound_examineDrained hwritten o

theorem moneySound_takeSlotWord (w : Word) : MoneySound (takeSlotWord w s) := by
  unfold takeSlotWord
  split <;> exact h

theorem moneySound_entryWritten : MoneySound (entryWritten s) := by
  unfold entryWritten
  dsimp only
  split <;> exact h

theorem moneySound_surveyWritten (p : SurveyPart) : MoneySound (surveyWritten p s) := by
  unfold surveyWritten
  split
  · exact moneySound_endWaitWith h _
  · exact h

/-- R170's table. -/
theorem moneySound_fallback (j : Job) : MoneySound (fallback j s) := by
  cases j with
  | settle j =>
    cases j with
    | endWord w => exact h
    | progress o c l => exact moneySound_progressEnded h o c l
    | standing o l => exact moneySound_standingEnded h l
    | receipt o => exact moneySound_mapContext h o fun _ => id
    | givenUp o => exact moneySound_mapContext h o fun _ => id
  | order j =>
    cases j with
    | writeTaken c => exact moneySound_takenWritten h
    | readTariff i => exact moneySound_endWaitWith h _
    | _ => exact h
  | journal j => cases j <;> exact h
  | survey p => exact moneySound_endWaitWith h _

theorem moneySound_busError (t : Transfer) (words : Nat) : MoneySound (busError t words s) := by
  have hlatched (v : State) (hv : MoneySound v) : MoneySound (raise .busFault (latchFault t.address v)) := by
    unfold latchFault
    split <;> exact hv
  have hfreed := hlatched (freePort (writeBytes t (t.madeBytes words) s)) h
  refine moneySound_fallback ?_ t.job
  split
  · exact hfreed
  · exact hfreed

/-! ### The part state and the timers -/

theorem moneySound_runWrite : MoneySound (runWrite s) := by
  have hrunning : MoneySound (enterRunning s) := h
  unfold runWrite
  split
  · exact moneySound_forEach Config.lines (fun _ _ hu => hu) hrunning
  · exact h
  · exact h
  · exact h

theorem moneySound_haltWrite : MoneySound (haltWrite s) := by
  unfold haltWrite
  split
  · have hhalting : MoneySound (setPartRunning false (setPartState .halting s)) := h
    exact moneySound_forEach _ (fun o _ hu => moneySound_mapContext hu o fun _ => id)
      (moneySound_of_beyond (beyond_pass _) hhalting)
  · exact h

theorem moneySound_expireModules (l : List ModuleNo) : MoneySound (expireModules l s) :=
  moneySound_checkSettles (moneySound_forEach l (f := (moduleOut · .noAck)) (fun _ _ hu => hu) h) _

/-- The minute's effect on the session that it finds (R187). -/
theorem moneySound_minuteOf (o : Outlet) : MoneySound (minuteOf o s) := by
  have hmarked : MoneySound (retryMarks o s) := moneySound_mapContext h o fun _ => id
  unfold minuteOf
  generalize retryMarks o s = v at hmarked ⊢
  dsimp only
  split
  · exact hmarked
  · next c hc =>
    have hsound : c.moneySound := hmarked o c hc
    split
    · unfold closingMinuteEvent
      refine moneySound_checkSettle ?_ o
      split
      · exact moneySound_setLive hmarked o hsound
      · exact hmarked
    · next hp =>
      have hidle : MoneySound (setContext o (some c.idleMinute) v) :=
        moneySound_setLive hmarked o
          (moneySound_of_balanced (balanced_idleMinute hsound.balanced) (congrArg Phase.isArmed hp))
      unfold idleMinuteEvent
      dsimp only
      repeat' split
      · exact moneySound_setLive hmarked o hsound
      · exact moneySound_recompute hidle o
      · exact hidle
      · exact hmarked
    · have hdrained : MoneySound (setContext o (some { c with drainedMinutes := c.drainedMinutes + 1 }) v) :=
        moneySound_setLive hmarked o hsound
      unfold drainedMinuteEvent
      dsimp only
      repeat' split
      · exact moneySound_closeSession hdrained o _
      · exact hdrained
      · exact hmarked
    · have hheld : MoneySound (setContext o (some { c with heldMinutes := c.heldMinutes + 1 }) v) :=
        moneySound_setLive hmarked o hsound
      unfold heldMinuteEvent
      dsimp only
      repeat' split
      · exact moneySound_closeSession hheld o _
      · exact hheld
      · exact hmarked
    · exact hmarked

theorem moneySound_checkpoint : MoneySound (checkpoint s) := by
  have hmark (o : Outlet) (u : State) (hu : MoneySound u) :
      MoneySound (mapContext o (fun c => if c.phase.running then { c with progressDue := true } else c) u) :=
    moneySound_mapContext hu o fun c hc => by split <;> exact hc
  have hcounted (n : Nat) : MoneySound { s with sessions := { s.sessions with checkpointCount := n } } := h
  unfold checkpoint
  dsimp only
  repeat' split
  · exact h
  · exact moneySound_forEach _ hmark (hcounted _)
  · exact h

theorem moneySound_minuteEffects (last : Bool) : MoneySound (minuteEffects last s) := by
  have hall {u : State} (hu : MoneySound u) : MoneySound (forEach Config.outlets minuteOf u) :=
    moneySound_forEach _ (fun o _ hv => moneySound_minuteOf hv o) hu
  unfold minuteEffects
  split
  · exact moneySound_checkpoint (hall h)
  · exact hall (moneySound_checkpoint h)

/-! ### The end of an event (R168, R183) -/

omit h in
/-- The money of a session is in the body of its context. -/
theorem moneySound_of_body {u : State} (hb : u.body = s.body) (h : MoneySound s) : MoneySound u := by
  have hmap (v : State) (o : Outlet) : v.body.context o = (v.context o).map Context.body := by
    simp [State.context, State.body, Table.get]
  intro o c hc
  have hbody : (s.context o).map Context.body = some c.body := by rw [← hmap, ← hb, hmap, hc, Option.map_some]
  obtain ⟨d, hd, hdc⟩ := Option.map_eq_some_iff.1 hbody
  have hsound : d.body.moneySound := h o d hd
  rw [hdc] at hsound
  exact hsound

theorem moneySound_completeHalt : MoneySound (completeHalt s) := by
  unfold completeHalt
  split
  · exact moneySound_of_body (body_serveRequests (halted s)) h
  · exact h

theorem moneySound_endEvent : MoneySound (endEvent s) :=
  moneySound_completeHalt (moneySound_of_body (body_serveRequests s) h)

end Sys2Proof.Machine
end

