-- ==== Sys2Proof/Proofs/MoneyCommands.lean ====
section
/-! SUPPORT. The money of every session (O58), concluded: every command and every step. -/

namespace Sys2Proof.Machine

/-- The money is sound in every state that an outcome goes on to. -/
def SoundAfter (o : Outcome) : Prop := ∀ u, o = .next u → MoneySound u

theorem soundAfter_next {u : State} (h : MoneySound u) : SoundAfter (.next u) := by
  rintro _ ⟨⟩; exact h

theorem soundAfter_finish {u : State} (h : MoneySound u) : SoundAfter (finish u) :=
  soundAfter_next (moneySound_endEvent h)

/-- After a reset there is no session. -/
theorem moneySound_reset {u : State} (h : u.sessions = State.reset.sessions) : MoneySound u := fun o c hc => by
  have hnone : u.context o = none := by rw [State.context, h]; exact context_reset o
  rw [hnone] at hc; cases hc

variable {s : State} (h : MoneySound s)
include h

theorem soundAfter_registerWriteIgnored (w : IgnoredWrite) : SoundAfter (execRegisterWriteIgnored w s) := by
  unfold execRegisterWriteIgnored
  split
  · exact soundAfter_next h
  · rintro _ ⟨⟩

theorem moneySound_postIndex (b : Byte) : MoneySound (postIndex b s) := by
  unfold postIndex
  repeat' split
  all_goals exact h

theorem moneySound_withdrawIndex (b : Byte) : MoneySound (withdrawIndex b s) := by
  unfold withdrawIndex
  repeat' split
  all_goals exact h

theorem soundAfter_areaBaseWrite (v : Word) : SoundAfter (execAreaBaseWrite v s) := by
  unfold execAreaBaseWrite
  split <;> exact soundAfter_next h

theorem soundAfter_orderTake : SoundAfter (execOrderTake s) := by
  unfold execOrderTake
  split
  · exact soundAfter_finish h
  · exact soundAfter_next h

theorem soundAfter_receiveOrder (t : Time) (w : Sweep) (p : OrderPart) : SoundAfter (receiveOrder t w p s) := by
  unfold receiveOrder
  split
  · next cell _ => exact soundAfter_finish (moneySound_readCell (s := freePort (atTime t s)) h cell w p)
  · exact soundAfter_next h

/-! ### The completions of transfers -/

/-- A completion for the transfer under way frees the port; the sessions see what its job does then. -/
theorem moneySound_completeTransfer (t : Transfer) : MoneySound (completeTransfer t s) := h

theorem soundAfter_takenWriteDone : SoundAfter (execTakenWriteDone s) := by
  unfold execTakenWriteDone
  repeat' split
  · exact soundAfter_next h
  · exact soundAfter_finish (moneySound_takenWritten (moneySound_completeTransfer h _))
  · exact soundAfter_next h

theorem soundAfter_answerWriteDone : SoundAfter (execAnswerWriteDone s) := by
  unfold execAnswerWriteDone
  repeat' split
  · exact soundAfter_next h
  · exact soundAfter_finish h
  · exact soundAfter_next h

theorem soundAfter_withdrawStart : SoundAfter (execWithdrawStart s) := by
  unfold execWithdrawStart
  repeat' split
  · exact soundAfter_next h
  · exact soundAfter_finish h
  · exact soundAfter_next h

theorem soundAfter_withdrawnWriteDone : SoundAfter (execWithdrawnWriteDone s) := by
  unfold execWithdrawnWriteDone
  repeat' split
  · exact soundAfter_next h
  · exact soundAfter_finish h
  · exact soundAfter_next h

theorem soundAfter_tariffReadDone (record : Vector Byte 32) : SoundAfter (execTariffReadDone record s) := by
  unfold execTariffReadDone
  repeat' split
  · exact soundAfter_next h
  · exact soundAfter_finish (moneySound_takeRecord (moneySound_completeTransfer h _) _ record)
  · exact soundAfter_next h

theorem soundAfter_progressWriteDone : SoundAfter (execProgressWriteDone s) := by
  unfold execProgressWriteDone
  repeat' split
  · exact soundAfter_next h
  · exact soundAfter_finish (moneySound_progressEnded (moneySound_completeTransfer h _) _ _ _)
  · exact soundAfter_next h

theorem soundAfter_standingCopyDone : SoundAfter (execStandingCopyDone s) := by
  unfold execStandingCopyDone
  repeat' split
  · exact soundAfter_next h
  · exact soundAfter_finish (moneySound_standingEnded (moneySound_completeTransfer h _) _)
  · exact soundAfter_next h

theorem soundAfter_receiptWriteDone : SoundAfter (execReceiptWriteDone s) := by
  unfold execReceiptWriteDone
  repeat' split
  · exact soundAfter_next h
  · exact soundAfter_finish (moneySound_settleSession (moneySound_completeTransfer h _) _)
  · exact soundAfter_next h

theorem soundAfter_givenUpReceiptDone : SoundAfter (execGivenUpReceiptDone s) := by
  unfold execGivenUpReceiptDone
  repeat' split
  · exact soundAfter_next h
  · exact soundAfter_finish (moneySound_givenUpWritten (moneySound_completeTransfer h _) _)
  · exact soundAfter_next h

theorem soundAfter_endWordDone : SoundAfter (execEndWordDone s) := by
  unfold execEndWordDone
  repeat' split
  · exact soundAfter_next h
  · exact soundAfter_finish h
  · exact soundAfter_next h

theorem soundAfter_journalSlotReadDone (w : Word) : SoundAfter (execJournalSlotReadDone w s) := by
  unfold execJournalSlotReadDone
  repeat' split
  · exact soundAfter_next h
  · exact soundAfter_finish (moneySound_takeSlotWord (moneySound_completeTransfer h _) w)
  · exact soundAfter_next h

theorem soundAfter_journalEntryWriteDone : SoundAfter (execJournalEntryWriteDone s) := by
  unfold execJournalEntryWriteDone
  repeat' split
  · exact soundAfter_next h
  · exact soundAfter_finish (moneySound_entryWritten (moneySound_completeTransfer h _))
  · exact soundAfter_next h

theorem soundAfter_journalHeaderWriteDone : SoundAfter (execJournalHeaderWriteDone s) := by
  unfold execJournalHeaderWriteDone
  repeat' split
  · exact soundAfter_next h
  · exact soundAfter_finish h
  · exact soundAfter_next h

theorem soundAfter_surveyPartDone : SoundAfter (execSurveyPartDone s) := by
  unfold execSurveyPartDone
  repeat' split
  · exact soundAfter_next h
  · exact soundAfter_finish (moneySound_surveyWritten (moneySound_completeTransfer h _) _)
  · exact soundAfter_next h

theorem soundAfter_busError (n : Nat) : SoundAfter (execBusError n s) := by
  unfold execBusError
  split
  · exact soundAfter_next h
  · exact soundAfter_finish (moneySound_busError h _ n)

/-! ### The lines, the Apportioner and the timers -/

theorem moneySound_atTime (t : Time) : MoneySound (atTime t s) := h

theorem soundAfter_pollDue (k : LineNo) : SoundAfter (execPollDue k s) := by
  refine soundAfter_finish ?_
  split
  · exact moneySound_pollIfDue (moneySound_atTime h _) k
  · exact h

theorem moneySound_mapLine (k : LineNo) (f : Line → Line) : MoneySound (mapLine k f s) := h

theorem soundAfter_pollSent (k : LineNo) : SoundAfter (execPollSent k s) := by
  refine soundAfter_finish ?_
  split
  · split
    · exact moneySound_enterWaiting (moneySound_mapLine (moneySound_atTime h _) k _) k
    · exact h
  · exact h

theorem soundAfter_replyWindowEnd (k : LineNo) : SoundAfter (execReplyWindowEnd k s) := by
  refine soundAfter_finish ?_
  split
  · exact moneySound_failExchange (moneySound_mapLine (moneySound_atTime h _) k _) k
  · exact h

theorem soundAfter_frameStart (t : Time) (k : LineNo) (b : Byte) : SoundAfter (execFrameStart t k b s) := by
  refine soundAfter_finish ?_
  repeat' split
  all_goals exact h

theorem moneySound_frameEnded (t : Time) (k : LineNo) : MoneySound (endFrame k (atTime t s)) := h

theorem soundAfter_replyFrame (t : Time) (k : LineNo) (f : Vector Byte 29) : SoundAfter (execReplyFrame t k f s) := by
  refine soundAfter_finish ?_
  dsimp only
  repeat' split
  · exact moneySound_goodReply (moneySound_frameEnded h t k) k f
  · exact moneySound_frameFault (moneySound_frameEnded h t k) k _
  · exact h

theorem soundAfter_alertFrame (t : Time) (k : LineNo) (f : Vector Byte 6) : SoundAfter (execAlertFrame t k f s) := by
  refine soundAfter_finish ?_
  dsimp only
  repeat' split
  · exact moneySound_goodAlert (moneySound_frameEnded h t k) k f
  · exact moneySound_frameFault (moneySound_frameEnded h t k) k _
  · exact h

theorem soundAfter_frameBroken (t : Time) (k : LineNo) : SoundAfter (execFrameBroken t k s) := by
  refine soundAfter_finish ?_
  split
  · exact moneySound_frameFault (moneySound_frameEnded h t k) k _
  · exact h

theorem soundAfter_pass (t : Time) : SoundAfter (execPass t s) := by
  refine soundAfter_finish ?_
  split
  · exact moneySound_of_beyond (beyond_pass _) (moneySound_atTime h t)
  · exact h

theorem soundAfter_releaseDeadline : SoundAfter (execReleaseDeadline s) := by
  unfold execReleaseDeadline
  split
  · exact soundAfter_finish (moneySound_expireModules (moneySound_atTime h _) _)
  · exact soundAfter_next h

theorem soundAfter_startGuardExpiry : SoundAfter (execStartGuardExpiry s) := by
  unfold execStartGuardExpiry
  split
  · exact soundAfter_finish h
  · exact soundAfter_next h

theorem soundAfter_minuteEvent (last : Bool) : SoundAfter (execMinuteEvent last s) := by
  have hminute (d : Time) : MoneySound (restartMinute d (atTime d s)) := h
  unfold execMinuteEvent
  split
  · exact soundAfter_finish (moneySound_minuteEffects (hminute _) last)
  · exact soundAfter_next h

/-- What every command keeps. -/
theorem soundAfter_exec (i : Instr) : SoundAfter (exec i s) := by
  cases i with
  | powerOnReset t n => exact soundAfter_next (moneySound_reset rfl)
  | softReset t n => exact soundAfter_next (moneySound_reset rfl)
  | run t => exact soundAfter_finish (moneySound_runWrite (moneySound_atTime h t))
  | halt t => exact soundAfter_finish (moneySound_haltWrite (moneySound_atTime h t))
  | registerWriteIgnored w => exact soundAfter_registerWriteIgnored h w
  | post b => exact soundAfter_next (moneySound_postIndex h b)
  | withdraw b => exact soundAfter_next (moneySound_withdrawIndex h b)
  | noticeWrite v => exact soundAfter_next h
  | noticeMaskWrite v => exact soundAfter_next h
  | areaBaseWrite v => exact soundAfter_areaBaseWrite h v
  | faultAddressWrite v => exact soundAfter_next h
  | orderTake => exact soundAfter_orderTake h
  | orderReadDone t w b => exact soundAfter_receiveOrder h t _ _
  | openSession t o => exact soundAfter_receiveOrder h t _ _
  | link t o => exact soundAfter_receiveOrder h t _ _
  | stop t o => exact soundAfter_receiveOrder h t _ _
  | amend t o => exact soundAfter_receiveOrder h t _ _
  | sync t o => exact soundAfter_receiveOrder h t _ _
  | auditSet t o => exact soundAfter_receiveOrder h t _ _
  | auditClear t o => exact soundAfter_receiveOrder h t _ _
  | resume t o => exact soundAfter_receiveOrder h t _ _
  | tariffLoad t x => exact soundAfter_receiveOrder h t _ _
  | tariffUnload t x => exact soundAfter_receiveOrder h t _ _
  | band t w b => exact soundAfter_receiveOrder h t _ _
  | site t l => exact soundAfter_receiveOrder h t _ _
  | outlet t o m => exact soundAfter_receiveOrder h t _ _
  | moduleReturn t m => exact soundAfter_receiveOrder h t _ _
  | moduleRetire t m => exact soundAfter_receiveOrder h t _ _
  | park t w o => exact soundAfter_receiveOrder h t _ _
  | clock t v => exact soundAfter_receiveOrder h t _ _
  | survey t => exact soundAfter_receiveOrder h t _ _
  | line t k => exact soundAfter_receiveOrder h t _ _
  | takenWriteDone => exact soundAfter_takenWriteDone h
  | answerWriteDone => exact soundAfter_answerWriteDone h
  | withdrawStart => exact soundAfter_withdrawStart h
  | withdrawnWriteDone => exact soundAfter_withdrawnWriteDone h
  | tariffReadDone r => exact soundAfter_tariffReadDone h r
  | progressWriteDone => exact soundAfter_progressWriteDone h
  | standingCopyDone => exact soundAfter_standingCopyDone h
  | receiptWriteDone => exact soundAfter_receiptWriteDone h
  | givenUpReceiptDone => exact soundAfter_givenUpReceiptDone h
  | endWordDone => exact soundAfter_endWordDone h
  | journalSlotReadDone w => exact soundAfter_journalSlotReadDone h w
  | journalEntryWriteDone => exact soundAfter_journalEntryWriteDone h
  | journalHeaderWriteDone => exact soundAfter_journalHeaderWriteDone h
  | surveyPartDone => exact soundAfter_surveyPartDone h
  | busError n => exact soundAfter_busError h n
  | transferStart => exact soundAfter_finish h
  | pollDue k => exact soundAfter_pollDue h k
  | pollSent k => exact soundAfter_pollSent h k
  | replyWindowEnd k => exact soundAfter_replyWindowEnd h k
  | replyFrame t k f => exact soundAfter_replyFrame h t k f
  | alertFrame t k f => exact soundAfter_alertFrame h t k f
  | frameBroken t k => exact soundAfter_frameBroken h t k
  | replyService t => exact soundAfter_finish (moneySound_serveNextReply (moneySound_atTime h t))
  | alertService t => exact soundAfter_finish (moneySound_serveNextAlert (moneySound_atTime h t))
  | pass t => exact soundAfter_pass h t
  | releaseDeadline => exact soundAfter_releaseDeadline h
  | startGuardExpiry => exact soundAfter_startGuardExpiry h
  | minuteEvent c => exact soundAfter_minuteEvent h c
  | parkSecondTick => exact soundAfter_finish h
  | haltComplete => exact soundAfter_next (moneySound_completeHalt h)
  | frameStart t k b => exact soundAfter_frameStart h t k b

omit h in
/-- Settles O58: every doing leaves each session balanced, and only an order and a start meet one in ARMED, which owes
nothing. -/
theorem stepsKeepMoneySound : Obligations.StepsKeepMoneySound := fun s u hs hstep => by
  unfold step at hstep
  split at hstep
  · cases hstep; exact hs
  · next c rest _ =>
    have hread : MoneySound { s with pending := rest } := hs
    exact soundAfter_exec hread c u hstep

end Sys2Proof.Machine
end

