-- ==== Sys2Proof/Proofs/BandSteps.lean ====
section
/-! SUPPORT. Every ceiling recomputed (R127), and one outlet's step in the sweep of a BAND order (R126; log 14). -/

namespace Sys2Proof.Machine

variable (s : State)

/-! ### Every ceiling recomputed -/

theorem beyond_storeCeiling (o : Outlet) (n : Nat) :
    (storeCeiling o n s).beyond =
      { s.beyond with sessions := { s.sessions with ceilings := Table.set s.sessions.ceilings o n } } := by
  rw [← beyond_immediatePass]
  exact beyond_setCeiling s o n

/-- A part of the state that a ceiling's store keeps, and a pass. -/
theorem recomputeAll_keeps {β : Type} (f : State → β)
    (hf : ∀ (u v : State) c, v.beyond = { u.beyond with sessions := { u.sessions with ceilings := c } } → f v = f u) :
    f (recomputeAll s) = f s := by
  have hpass (u : State) : f (immediatePass u) = f u := hf u _ u.sessions.ceilings (beyond_immediatePass u)
  exact (hpass _).trans (forEach_keeps s f _ _ fun o u => hf u _ _ (beyond_storeCeiling u o _))

theorem context_recomputeAll (o : Outlet) : (recomputeAll s).context o = s.context o :=
  recomputeAll_keeps s (·.context o) fun _ _ _ h => congrArg (fun b : Beyond => Table.get b.sessions.contexts o) h

theorem standby_recomputeAll : (recomputeAll s).standby = s.standby :=
  recomputeAll_keeps s (·.standby) fun _ _ _ h => congrArg Beyond.standby h

theorem startSerial_recomputeAll : (recomputeAll s).sessions.startSerial = s.sessions.startSerial :=
  recomputeAll_keeps s (·.sessions.startSerial) fun _ _ _ h => congrArg (·.sessions.startSerial) h

theorem ceiling_storeCeiling (o o' : Outlet) (n : Nat) :
    (storeCeiling o n s).ceiling o' = if o = o' then n else s.ceiling o' :=
  (congrArg (fun b : Beyond => Table.get b.sessions.ceilings o') (beyond_storeCeiling s o n)).trans
    (Table.get_set _ _ _ _)

/-- A ceiling stored as it computes leaves what every ceiling computes to. -/
theorem ceilingNow_storeCeiling (o o' : Outlet) :
    (storeCeiling o (s.ceilingNow o) s).ceilingNow o' = s.ceilingNow o' := by
  have hbeyond := beyond_storeCeiling s o (s.ceilingNow o)
  have hcontext : (storeCeiling o (s.ceilingNow o) s).context o' = s.context o' :=
    congrArg (fun b : Beyond => Table.get b.sessions.contexts o') hbeyond
  have hcontrol : (storeCeiling o (s.ceilingNow o) s).control = s.control := congrArg Beyond.control hbeyond
  have hband : (storeCeiling o (s.ceilingNow o) s).sessions.band = s.sessions.band :=
    congrArg (·.sessions.band) hbeyond
  have hceiling := ceiling_storeCeiling s o o' (s.ceilingNow o)
  generalize storeCeiling o (s.ceilingNow o) s = u at hcontext hcontrol hband hceiling ⊢
  unfold State.ceilingNow at hceiling ⊢
  rw [hcontext, hcontrol, hband, hceiling]
  split
  · rfl
  · next c hc =>
    split
    · rfl
    · next hp =>
      split
      · next ho => subst ho; simp only [hc, hp]
      · rfl
    · rfl

theorem ceiling_recomputeAll (o : Outlet) : (recomputeAll s).ceiling o = s.ceilingNow o := by
  have hstored (l : List Outlet) (s : State) :
      (forEach l (fun a u => storeCeiling a (u.ceilingNow a) u) s).ceiling o =
        if o ∈ l then s.ceilingNow o else s.ceiling o := by
    induction l generalizing s with
    | nil => rfl
    | cons a l ih =>
      rw [show forEach (a :: l) (fun a u => storeCeiling a (u.ceilingNow a) u) s =
        forEach l (fun a u => storeCeiling a (u.ceilingNow a) u) (storeCeiling a (s.ceilingNow a) s) from rfl, ih,
        ceilingNow_storeCeiling, ceiling_storeCeiling]
      by_cases ho : a = o
      · subst ho; simp
      · simp [ho, Ne.symm ho]
  have hpass (u : State) : (immediatePass u).ceiling o = u.ceiling o :=
    congrArg (fun b : Beyond => Table.get b.sessions.ceilings o) (beyond_immediatePass u)
  rw [recomputeAll, hpass, hstored]
  exact if_pos (List.mem_finRange o)

/-! ### What the order leaves beside the sessions -/

/-- What no doing of a session changes. -/
structure Frame (s u : State) : Prop where
  now : u.now = s.now
  control : u.control = s.control
  lines : u.lines = s.lines
  band : u.sessions.band = s.sessions.band
  epoch : u.sessions.epoch = s.sessions.epoch
  tariffs : u.sessions.tariffs = s.sessions.tariffs
  report : ∀ o, u.report o = s.report o

theorem Frame.refl : Frame s s :=
  { now := rfl, control := rfl, lines := rfl, band := rfl, epoch := rfl, tariffs := rfl, report := fun _ => rfl }

variable {s} {v u : State} {o o' : Outlet}

theorem Frame.trans (h : Frame s v) (h' : Frame v u) : Frame s u :=
  { now := h'.now.trans h.now, control := h'.control.trans h.control, lines := h'.lines.trans h.lines,
    band := h'.band.trans h.band, epoch := h'.epoch.trans h.epoch, tariffs := h'.tariffs.trans h.tariffs,
    report := fun o => (h'.report o).trans (h.report o) }

theorem frame_forEach {α : Type} (l : List α) {f : α → State → State} (h : ∀ a u, Frame u (f a u)) :
    Frame s (forEach l f s) :=
  forEach_preserves s (Frame s) l f (fun a u hu => hu.trans (h a u)) (.refl s)

theorem Within.frame (h : Within o s u) (hcontrol : u.control = s.control) : Frame s u := by
  have hreport (o' : Outlet) : u.report o' = s.report o' := by
    by_cases ho : o' = o
    · rw [ho, h.report]
    · exact h.onlyAt.report ho
  obtain ⟨hrest, -⟩ := h.onlyAt
  exact
    { now := by rw [hrest], control := hcontrol, lines := by rw [hrest], band := by rw [hrest], epoch := by rw [hrest],
      tariffs := by rw [hrest], report := hreport }

variable (s)

theorem frame_immediatePass : Frame s (immediatePass s) :=
  (within_immediatePass s 0).frame (congrArg Beyond.control (beyond_immediatePass s))

theorem frame_storeCeiling (o : Outlet) (n : Nat) : Frame s (storeCeiling o n s) :=
  (within_storeCeiling s o n).frame (congrArg Beyond.control (beyond_storeCeiling s o n))

theorem frame_recomputeAll : Frame s (recomputeAll s) :=
  .trans (frame_forEach _ fun o u => frame_storeCeiling u o _) (frame_immediatePass _)

theorem frame_endStart (before : State) (o : Outlet) : Frame s (endStart before o s) :=
  (within_endStart s before o).frame (control_of_elsewhere (elsewhere_endStart s before o))

/-! ### One outlet's step -/

/-- The ceiling's effect on an outlet's session, and its start (R126). -/
def sweepStep (o : Outlet) (s : State) : State := evaluateStart o (takeOn o s)

/-- Whether the outlet has a session in ARMED whose start condition holds (R28). -/
def State.startsNow (s : State) (o : Outlet) : Bool :=
  decide ((s.report o).plug = .plugged ∧ (s.report o).lineStale = false) &&
    (s.context o).any fun c => decide (c.phase = .armed .onPlug ∨ c.phase = .armed (.onBand s.sessions.band))

theorem within_sweepStep (o : Outlet) : Within o s (sweepStep o s) :=
  (within_takeOn s o).trans (within_evaluateStart _ o)

theorem control_sweepStep (o : Outlet) : (sweepStep o s).control = s.control :=
  control_evaluateStart.trans (control_of_elsewhere (elsewhere_takeOn s o))

theorem frame_sweepStep (o : Outlet) : Frame s (sweepStep o s) := (within_sweepStep s o).frame (control_sweepStep s o)

variable {s} {c : Context}

theorem beside_sweepStep (h : o ≠ o') : Beside o s (sweepStep o' s) :=
  (within_sweepStep s o').toLocal.beside h (control_sweepStep s o')

theorem startsNow_iff :
    s.startsNow o = true ↔ ∃ c start, s.context o = some c ∧ c.phase = .armed start ∧ s.startHolds o start = true := by
  simp only [State.startsNow, Bool.and_eq_true, decide_eq_true_eq, Option.any_eq_true, startHolds_iff]
  constructor
  · rintro ⟨⟨hplug, hfresh⟩, c, hc, hp | hp⟩
    · exact ⟨c, _, hc, hp, hplug, hfresh, .inl rfl⟩
    · exact ⟨c, _, hc, hp, hplug, hfresh, .inr rfl⟩
  · rintro ⟨c, start, hc, hp, hplug, hfresh, rfl | rfl⟩
    · exact ⟨⟨hplug, hfresh⟩, c, hc, .inl hp⟩
    · exact ⟨⟨hplug, hfresh⟩, c, hc, .inr hp⟩

theorem startsNow_of_armed {start : StartCondition} (h : s.context o = some c) (hp : c.phase = .armed start) :
    s.startsNow o = true ↔ s.startHolds o start = true := by
  rw [startsNow_iff]
  refine ⟨?_, fun hh => ⟨c, start, h, hp, hh⟩⟩
  rintro ⟨d, start', hd, hp', hh⟩
  rw [h] at hd; cases hd
  rw [hp] at hp'; cases hp'
  exact hh

theorem startsNow_of_not_armed (h : ∀ c start, s.context o = some c → c.phase ≠ .armed start) :
    s.startsNow o = false := by
  rw [Bool.eq_false_iff, Ne, startsNow_iff]
  rintro ⟨c, start, hc, hp, -⟩
  exact h c start hc hp

theorem evaluateStart_of_startsNow (h : s.startsNow o = false) : evaluateStart o s = s :=
  evaluateStart_of_not_holds fun c start hc hp =>
    Bool.eq_false_iff.2 fun hh => by rw [startsNow_iff.2 ⟨c, start, hc, hp, hh⟩] at h; cases h

/-- A session that was ACTIVE is taken on, and is none to start. -/
theorem sweepStep_of_active (h : s.context o = some c) (hp : c.phase = .active) : sweepStep o s = takeOn o s := by
  obtain ⟨x, hx, hphase⟩ := (takeOn_goesOn s o c h hp).phase hp
  refine evaluateStart_of_startsNow (startsNow_of_not_armed fun d start hd harmed => ?_)
  rw [hx] at hd; cases hd
  rcases hphase with e | e <;> rw [e] at harmed <;> cases harmed

/-- Another is started alone, if its start condition holds. -/
theorem sweepStep_of_not_active (h : ∀ c, s.context o = some c → c.phase ≠ .active) :
    sweepStep o s = evaluateStart o s := by
  refine congrArg (evaluateStart o) ?_
  cases hc : s.context o with
  | none => simp [takeOn, hc]
  | some c => exact takeOn_of_not_active s hc (h c hc)

theorem sweepStep_idle (h : ∀ c, s.context o = some c → c.phase ≠ .active) (hs : s.startsNow o = false) :
    sweepStep o s = s := (sweepStep_of_not_active h).trans (evaluateStart_of_startsNow hs)

theorem not_active_of_startsNow (h : s.startsNow o = true) (c : Context) (hc : s.context o = some c) :
    c.phase ≠ .active := fun hp => by
  obtain ⟨d, start, hd, harmed, -⟩ := startsNow_iff.1 h
  rw [hc] at hd; cases hd
  rw [hp] at harmed; cases harmed

/-- A start moves the start serial counter by 1, and nothing else in a step does (R24). -/
theorem startSerial_sweepStep :
    (sweepStep o s).sessions.startSerial =
      s.sessions.startSerial + BitVec.ofNat 32 (if s.startsNow o then 1 else 0) := by
  cases hs : s.startsNow o with
  | true =>
    obtain ⟨c, start, hc, hp, hh⟩ := startsNow_iff.1 hs
    rw [sweepStep_of_not_active (not_active_of_startsNow hs)]
    exact startSerial_of_elsewhere (s := countStart s) (elsewhere_evaluateStart_of_holds hc hp hh)
  | false =>
    have htaken : (takeOn o s).sessions.startSerial = s.sessions.startSerial :=
      startSerial_of_elsewhere (elsewhere_takeOn s o)
    have hnone : sweepStep o s = takeOn o s := by
      by_cases hactive : ∀ c, s.context o = some c → c.phase ≠ .active
      · rw [sweepStep_idle hactive hs]
        cases hc : s.context o with
        | none => simp [takeOn, hc]
        | some c => exact (takeOn_of_not_active s hc (hactive c hc)).symm
      · push Not at hactive
        obtain ⟨c, hc, hp⟩ := hactive
        exact sweepStep_of_active hc hp
    rw [hnone, htaken]
    simp

theorem givesUp_sweepStep (o : Outlet) : GivesUp o s (sweepStep o s) := by
  by_cases hactive : ∀ c, s.context o = some c → c.phase ≠ .active
  · rw [sweepStep_of_not_active hactive]
    exact givesUp_evaluateStart s o
  · push Not at hactive
    obtain ⟨c, hc, hp⟩ := hactive
    rw [sweepStep_of_active hc hp]
    exact givesUp_takeOn s o

end Sys2Proof.Machine
end

