-- ==== Sys2Proof/Proofs/BandSweep.lean ====
section
/-! SUPPORT. The sweep of a BAND order as each of its outlets sees it (R24, R126, R127; logs 14, 15, 39): what is done
beside it, its own step, what is done beside it again, and the end of its start. -/

namespace Sys2Proof.Machine

variable {s u v : State} {o o' : Outlet} {c : Context} {w : Sweep}

/-! ### The steps of other outlets -/

theorem forEach_cons {α : Type} (a : α) (l : List α) (f : α → State → State) (s : State) :
    forEach (a :: l) f s = forEach l f (f a s) := rfl

theorem forEach_append {α : Type} (l l' : List α) (f : α → State → State) (s : State) :
    forEach (l ++ l') f s = forEach l' f (forEach l f s) := List.foldl_append

/-- What is done beside an outlet at each of some others is done beside it. -/
theorem beside_forEach {l : List Outlet} {f : Outlet → State → State}
    (hf : ∀ a u, o ≠ a → Beside o u (f a u)) (h : o ∉ l) : Beside o s (forEach l f s) := by
  induction l generalizing s with
  | nil => exact .refl o s
  | cons a l ih =>
    obtain ⟨ha, hl⟩ := not_or.1 (mt List.mem_cons.2 h)
    exact (hf a s ha).trans (ih hl)

theorem beside_sweep {l : List Outlet} (h : o ∉ l) : Beside o s (forEach l sweepStep s) :=
  beside_forEach (fun _ _ ha => beside_sweepStep ha) h

theorem beside_lines (o : Outlet) (s : State) (lines : Vector Line 16) : Beside o s { s with lines := lines } :=
  { context := rfl, ceiling := rfl, settings := rfl, band := rfl, port := rfl, queue := List.prefix_rfl,
    entries := fun _ => id, control := rfl, report := rfl, inputs := rfl, want := rfl, held := fun _ => rfl }

theorem beside_bandEdges (o : Outlet) (s : State) : Beside o s (forEach Config.lines bandEdge s) := by
  rw [forEach_bandEdge]
  exact beside_lines o s _

theorem Beside.startsNow (h : Beside o s u) : u.startsNow o = s.startsNow o := by
  rw [State.startsNow, State.startsNow, h.context, h.report, h.band]

/-- The start serial counter rises by the number of the starts (R24). -/
theorem startSerial_sweep {l : List Outlet} (hl : l.Nodup) :
    (forEach l sweepStep s).sessions.startSerial =
      s.sessions.startSerial + BitVec.ofNat 32 (l.countP s.startsNow) := by
  induction l generalizing s with
  | nil => simp [forEach]
  | cons a l ih =>
    obtain ⟨ha, hl⟩ := List.nodup_cons.1 hl
    have hrest : l.countP (sweepStep a s).startsNow = l.countP s.startsNow :=
      List.countP_congr fun x hx => by
        rw [(beside_sweepStep (ne_of_mem_of_not_mem hx ha)).startsNow]
    rw [forEach_cons, ih hl, hrest, startSerial_sweepStep, List.countP_cons, BitVec.add_assoc, ← BitVec.ofNat_add,
      Nat.add_comm]

/-- Where no other session names its entry, the steps of others leave it standing: each looks at the link that its
session had before the sweep. -/
theorem heirStands_sweep {l : List Outlet} (hl : l.Nodup) (ho : o ∉ l) (hcontext : ∀ a ∈ l, u.context a = s.context a)
    (hsole : SoleHeir s o c) (h : HeirStands c s u) : HeirStands c s (forEach l sweepStep u) := by
  induction l generalizing u with
  | nil => exact h
  | cons a l ih =>
    obtain ⟨ha, hl⟩ := List.nodup_cons.1 hl
    obtain ⟨hoa, ho⟩ := not_or.1 (mt List.mem_cons.2 ho)
    have hgives := givesUp_sweepStep (s := u) a
    refine ih hl ho (fun b hb => ?_)
      { gone := fun x hx => hgives.entryOf_eq_none (h.gone x hx), stands := fun haudit hg x e hx he => ?_ }
    · rw [(beside_sweepStep (ne_of_mem_of_not_mem hb ha)).context]
      exact hcontext b (List.mem_cons_of_mem a hb)
    · have hne : s.entryOf x ≠ none := by rw [he]; exact Option.some_ne_none e
      have hkeeps : (sweepStep a u).entryOf x = u.entryOf x := hgives.entryOf_eq fun d hd =>
        hsole haudit hg x hx hne a d (Ne.symm hoa) (by rw [← hcontext a List.mem_cons_self, hd])
      rw [hkeeps, h.stands haudit hg x e hx he]

/-! ### The order in its steps -/

/-- The sweep of a BAND order in the band `n`, to the effects of every ceiling and every start. -/
def sweepAll (w : Sweep) (s : State) : State := forEach (sweepOrder w) sweepStep (recomputeAll s)

/-- A BAND order's work from the new band on. -/
def bandDone (w : Sweep) (s : State) : State :=
  forEach (sweepOrder w) (endStart s) (forEach Config.lines bandEdge (sweepAll w s))

/-- The new band in its new epoch. -/
def setBand (n : Band) (s : State) : State :=
  { s with sessions := { s.sessions with band := n, epoch := s.sessions.epoch + 1 } }

theorem takeBand_ok {b : Byte} {n : Band} (h : b.toNat = n.val) :
    takeBand w b s = accept (bandDone w (setBand n s)) := by
  simp only [takeBand, asFin_eq_some h]
  rfl

theorem takeBand_badField {b : Byte} (h : 3 < b.toNat) : takeBand w b s = refuse .badField s := by
  simp only [takeBand, asFin_eq_none (n := 4) h]

theorem frame_sweepAll (w : Sweep) (s : State) : Frame s (sweepAll w s) :=
  (frame_recomputeAll s).trans (frame_forEach _ fun o u => frame_sweepStep u o)

/-- How many sessions start before the outlet's (R24). -/
def State.startsBefore (s : State) (w : Sweep) (o : Outlet) : Nat :=
  Config.outlets.countP fun a => s.startsNow a && sweepsBefore w a o

theorem outlets_perm_sweepOrder (w : Sweep) : Config.outlets.Perm (sweepOrder w) := by
  obtain ⟨hnodup, hmem, -⟩ := sweepOrder_spec w
  exact (List.perm_ext_iff_of_nodup (List.nodup_finRange 32) hnodup).2 fun a =>
    ⟨fun _ => hmem a, fun _ => List.mem_finRange a⟩

/-- The outlets that the sweep takes before one are those of its order before it. -/
theorem startsBefore_eq {l l' : List Outlet} (h : sweepOrder w = l ++ o :: l') :
    s.startsBefore w o = l.countP s.startsNow := by
  obtain ⟨-, -, hsorted⟩ := sweepOrder_spec w
  have hasymm {a b : Outlet} (hab : sweepsBefore w a b = true) : sweepsBefore w b a = false := by
    simp only [sweepsBefore, decide_eq_true_eq, decide_eq_false_iff_not] at hab ⊢
    omega
  have hself : sweepsBefore w o o = false := by simp [sweepsBefore]
  rw [h, List.pairwise_append] at hsorted
  obtain ⟨-, hafter, hbefore⟩ := hsorted
  have hfirst : l.countP (fun a => s.startsNow a && sweepsBefore w a o) = l.countP s.startsNow :=
    List.countP_congr fun a ha => by rw [hbefore a ha o List.mem_cons_self, Bool.and_true]
  have hlast : (o :: l').countP (fun a => s.startsNow a && sweepsBefore w a o) = 0 :=
    List.countP_eq_zero.2 fun a ha => by
      rcases List.mem_cons.1 ha with rfl | ha
      · simp [hself]
      · simp [hasymm (List.rel_of_pairwise_cons hafter ha)]
  rw [State.startsBefore, (outlets_perm_sweepOrder w).countP_eq, h, List.countP_append, hfirst, hlast, Nat.add_zero]

/-- The order as an outlet sees it: the ceilings and the steps before its own, which find `x`; its own step; the rest of
the sweep, the lines and the ends of other starts, which leave `z`; and the end of its own start. -/
structure Swept (w : Sweep) (s : State) (o : Outlet) (x z : State) : Prop where
  before : Beside o (recomputeAll s) x
  swept : Beside o (sweepStep o x) (sweepAll w s)
  between : Beside o (sweepStep o x) z
  after : Beside o (endStart s o z) (bandDone w s)
  serial : x.sessions.startSerial = s.sessions.startSerial + BitVec.ofNat 32 (s.startsBefore w o)
  heir : ∀ c, SoleHeir s o c → HeirStands c s x

theorem startsNow_recomputeAll (s : State) : (recomputeAll s).startsNow = s.startsNow := funext fun a => by
  have hframe := frame_recomputeAll s
  rw [State.startsNow, State.startsNow, context_recomputeAll, hframe.report, hframe.band]

theorem exists_swept (w : Sweep) (s : State) (o : Outlet) : ∃ x z, Swept w s o x z := by
  obtain ⟨hnodup, hmem, -⟩ := sweepOrder_spec w
  obtain ⟨l, l', horder⟩ := List.append_of_mem (hmem o)
  have hcount := startsBefore_eq (s := s) horder
  rw [horder, List.nodup_append, List.nodup_cons] at hnodup
  obtain ⟨hl, ⟨hol', -⟩, hdisjoint⟩ := hnodup
  have hol : o ∉ l := fun ho => hdisjoint o ho o List.mem_cons_self rfl
  have hends {l : List Outlet} {y : State} (hl : o ∉ l) : Beside o y (forEach l (endStart s) y) :=
    beside_forEach (fun a u ha => beside_endStart u o s ha) hl
  have hheir (c : Context) (hsole : SoleHeir s o c) : HeirStands c s (forEach l sweepStep (recomputeAll s)) :=
    heirStands_sweep hl hol (fun a _ => context_recomputeAll s a) hsole (.of_standby (standby_recomputeAll s))
  set x := forEach l sweepStep (recomputeAll s)
  have hall : sweepAll w s = forEach l' sweepStep (sweepStep o x) := by
    rw [sweepAll, horder, forEach_append, forEach_cons]
  have hswept : Beside o (sweepStep o x) (sweepAll w s) := hall ▸ beside_sweep hol'
  refine ⟨x, forEach l (endStart s) (forEach Config.lines bandEdge (sweepAll w s)), ?_⟩
  exact
    { before := beside_sweep hol, swept := hswept, between := (hswept.trans (beside_bandEdges o _)).trans (hends hol),
      after := by rw [bandDone, horder, forEach_append, forEach_cons]; exact hends hol',
      serial := by rw [startSerial_sweep hl, startSerial_recomputeAll, startsNow_recomputeAll, hcount],
      heir := hheir }

/-! ### What the outlet's step finds -/

section
variable {x z : State} (h : Swept w s o x z)
include h

theorem Swept.context : x.context o = s.context o := h.before.context.trans (context_recomputeAll s o)

theorem Swept.ceiling : x.ceiling o = s.ceilingNow o := h.before.ceiling.trans (ceiling_recomputeAll s o)

theorem Swept.control : x.control = s.control := h.before.control.trans (frame_recomputeAll s).control

theorem Swept.band : x.sessions.band = s.sessions.band := h.before.band.trans (frame_recomputeAll s).band

theorem Swept.report : x.report o = s.report o := h.before.report.trans ((frame_recomputeAll s).report o)

theorem Swept.startsNow : x.startsNow o = s.startsNow o := by
  rw [State.startsNow, State.startsNow, h.context, h.report, h.band]

/-! ### Its session after the order -/

/-- With no start to end, the step is what the order brings to the session. -/
theorem Swept.rest (hidle : endStart s o z = z) : Beside o (sweepStep o x) (bandDone w s) := by
  have hafter := h.after
  rw [hidle] at hafter
  exact h.between.trans hafter

/-- A session that is not ACTIVE and does not start stays as it is, with its ceiling at the new price. -/
theorem Swept.stays (hc : s.context o = some c) (hp : c.phase ≠ .active) (hs : s.startsNow o = false) :
    (sweepAll w s).context o = some c ∧ (bandDone w s).context o = some c ∧
      (bandDone w s).ceiling o = s.ceilingNow o := by
  have hx : x.context o = some c := h.context.trans hc
  have hstep : sweepStep o x = x :=
    sweepStep_idle (fun d hd => by rw [hx] at hd; cases hd; exact hp) (h.startsNow.trans hs)
  have hz : z.context o = some c := by rw [h.between.context, hstep, hx]
  have hrest := h.rest (endStart_of_not_active fun d hd => by rw [hz] at hd; cases hd; exact hp)
  have hswept := h.swept
  rw [hstep] at hrest hswept
  exact ⟨hswept.context.trans hx, hrest.context.trans hx, hrest.ceiling.trans h.ceiling⟩

/-- An ACTIVE session goes on with its new ceiling (R138, R148). -/
theorem Swept.goesOn (hc : s.context o = some c) (hp : c.phase = .active) :
    GoesOn x o c (c.purseCeiling s.control.settings s.sessions.band) false (bandDone w s) := by
  have hx : x.context o = some c := h.context.trans hc
  have hunarmed : s.phaseIs o Phase.isArmed = false := by simp [State.phaseIs, hc, hp, Phase.isArmed]
  have hrest := h.rest (endStart_of_not_armed z s o hunarmed)
  rw [sweepStep_of_active hx hp] at hrest
  rw [← ceilingNow_active s o c hc hp, ← h.ceiling]
  exact hrest.goesOn (takeOn_goesOn x o c hx hp)

/-- A session whose start condition holds begins (R28, R29). -/
theorem Swept.begins {start : StartCondition} (hc : s.context o = some c) (hp : c.phase = .armed start)
    (hh : s.startHolds o start = true) :
    let d := c.begun (s.sessions.startSerial + BitVec.ofNat 32 (s.startsBefore w o)) s.control.seconds
    Begins x o d (d.purseCeiling s.control.settings s.sessions.band) (s.report o).complete (bandDone w s) := by
  intro d
  have hx : x.context o = some c := h.context.trans hc
  have hstarts : x.startsNow o = true := h.startsNow.trans ((startsNow_of_armed hc hp).2 hh)
  have hxholds : x.startHolds o start = true := (startsNow_of_armed hx hp).1 hstarts
  have hgoes := evaluateStart_goesOn x o c start hx hp hxholds
  rw [← sweepStep_of_not_active (not_active_of_startsNow hstarts), h.serial, h.control, h.band] at hgoes
  have hcontrol : z.control = x.control := h.between.control.trans (control_sweepStep x o)
  have hcomplete : z.report o = s.report o := h.between.report.trans (((frame_sweepStep x o).report o).trans h.report)
  have harmed : s.phaseIs o Phase.isArmed = true := by simp [State.phaseIs, hc, hp, Phase.isArmed]
  rw [← hcomplete]
  exact h.after.begins (endStart_begins x s z o d _ rfl harmed hcontrol (h.between.goesOn hgoes))

end

end Sys2Proof.Machine
end

