-- ==== Sys2Proof/Proofs/BandOrders.lean ====
section
/-! SUPPORT. BAND (O27): the sessions, the lines and the counter after the order, and its event. -/

namespace Sys2Proof.Machine

variable {s u v : State} {o : Outlet} {c : Context} {w : Sweep}

/-! ### A start, from an earlier state -/

theorem handedOverTo_congr {p : Phase} {e : StandbyEntry} {held : Bool} (hc : v.control = s.control)
    (h : HandedOverTo p v o c e held u) : HandedOverTo p s o c e held u := by
  obtain ⟨hstands, hceiling, hgone, hcopy, hentry⟩ := h
  rw [hc] at hstands
  exact ⟨hstands, hceiling, hgone, hcopy, journaled_congr _ _ hc hentry⟩

/-- A session begins from `s` as it does from a later `v`, where its entry still stands. -/
theorem HeirStands.begins {n : Nat} {complete : Bool} (h : HeirStands c s v) (hc : v.control = s.control)
    (hb : Begins v o c n complete u) : Begins s o c n complete u := by
  obtain ⟨hactive, hdrained, hhanded⟩ := hb
  refine ⟨fun hn => ?_, fun h0 ha hs => ?_, fun l e h0 ha hg hl he => ?_⟩
  · obtain ⟨hstands, hceiling, hdone⟩ := hactive hn
    exact ⟨hstands, hceiling, fun hcomplete => journaled_congr _ _ hc (hdone hcomplete)⟩
  · obtain ⟨hstands, hceiling, hentry⟩ := hdrained h0 ha (h.noSuccessor hs)
    exact ⟨hstands, hceiling, journaled_congr _ _ hc hentry⟩
  · obtain ⟨hover, hdone⟩ := hhanded l e h0 ha hg hl (h.stands ha hg l e hl he)
    exact ⟨handedOverTo_congr hc hover, fun hcomplete hn => journaled_congr _ _ hc (hdone hcomplete hn)⟩

theorem Stands.started (h : Stands u o c) : ∃ x, u.context o = some x ∧ x.started = c.started ∧ x.phase = c.phase := by
  obtain ⟨x, hx, hbody⟩ := exists_context_of_stands h
  exact ⟨x, hx, show x.body.started = c.body.started by rw [hbody], show x.body.phase = c.body.phase by rw [hbody]⟩

/-- Whatever follows from its ceiling, a session that begins has its start, and is ACTIVE, IDLE or DRAINED. -/
theorem Begins.started {n : Nat} {complete : Bool} (h : Begins s o c n complete u) :
    ∃ x, u.context o = some x ∧ x.started = c.started ∧
      (x.phase = .active ∨ x.phase = .idle ∨ x.phase = .drained) := by
  obtain ⟨hactive, hdrained, hhanded⟩ := h
  have hp : (if complete then Phase.idle else .active) = .active ∨
      (if complete then Phase.idle else .active) = .idle := by
    cases complete <;> simp
  by_cases hn : 0 < n ∨ c.auditHeld = true
  · obtain ⟨x, hx, hstart, hphase⟩ := (hactive hn).1.started
    exact ⟨x, hx, hstart, hphase ▸ hp.imp_right .inl⟩
  · obtain ⟨h0, ha⟩ := not_or.1 hn
    have h0' : n = 0 := by omega
    have ha' : c.auditHeld = false := by simpa using ha
    by_cases hs : NoSuccessor s c
    · obtain ⟨x, hx, hstart, hphase⟩ := (hdrained h0' ha' hs).1.started
      exact ⟨x, hx, hstart, .inr (.inr hphase)⟩
    · obtain ⟨hg, l, e, hl, he⟩ := exists_successor hs
      obtain ⟨x, hx, hstart, hphase⟩ := (hhanded l e h0' ha' hg hl he).1.1.started
      refine ⟨x, hx, hstart, ?_⟩
      rw [hphase]
      dsimp only
      split
      · exact .inr (.inr rfl)
      · exact hp.imp_right .inl

/-! ### The ends of the starts -/

theorem forEach_of_fixed {α : Type} {l : List α} {f : α → State → State} (h : ∀ a ∈ l, f a s = s) :
    forEach l f s = s := by
  induction l with
  | nil => rfl
  | cons a l ih =>
    rw [forEach_cons, h a List.mem_cons_self]
    exact ih fun b hb => h b (List.mem_cons_of_mem a hb)

/-- Where no session starts with the complete flag set, the order ends at the lines. -/
theorem bandDone_of_not_complete (h : ∀ o, s.startsNow o = true → (s.report o).complete = false) :
    bandDone w s = forEach Config.lines bandEdge (sweepAll w s) := by
  refine forEach_of_fixed fun o _ => ?_
  have hlines := beside_bandEdges o (sweepAll w s)
  cases hs : s.startsNow o with
  | true =>
    refine endStart_of_not_complete _ s o ?_
    rw [hlines.report, (frame_sweepAll w s).report, h o hs]
  | false =>
    refine endStart_idle fun d hd hp => Bool.eq_false_iff.2 fun harmed => ?_
    obtain ⟨c, start, hc, hphase⟩ := phaseIs_isArmed_iff.1 harmed
    obtain ⟨x, z, hswept⟩ := exists_swept w s o
    obtain ⟨hstays, -, -⟩ := hswept.stays hc (by rw [hphase]; exact nofun) hs
    rw [hlines.context, hstays] at hd
    cases hd
    rw [hphase] at hp
    cases hp

/-! ### The counter, the lines and the rest -/

variable (w s)

theorem startSerial_sweepAll :
    (sweepAll w s).sessions.startSerial =
      s.sessions.startSerial + BitVec.ofNat 32 (Config.outlets.countP s.startsNow) := by
  obtain ⟨hnodup, -, -⟩ := sweepOrder_spec w
  rw [sweepAll, startSerial_sweep hnodup, startSerial_recomputeAll, startsNow_recomputeAll,
    (outlets_perm_sweepOrder w).countP_eq]

theorem frame_endStarts (x : State) : Frame x (forEach (sweepOrder w) (endStart s) x) :=
  frame_forEach _ fun o u => frame_endStart u s o

theorem sessions_bandEdges (x : State) : (forEach Config.lines bandEdge x).sessions = x.sessions := by
  rw [forEach_bandEdge]

theorem startSerial_bandDone : (bandDone w s).sessions.startSerial = (sweepAll w s).sessions.startSerial := by
  have hend (o : Outlet) (u : State) : (endStart s o u).sessions.startSerial = u.sessions.startSerial :=
    startSerial_of_elsewhere (elsewhere_endStart u s o)
  rw [bandDone, forEach_keeps _ (·.sessions.startSerial) _ _ hend, sessions_bandEdges]

/-- The lines after the order: each as it does alone in the state that the sweep leaves. -/
theorem lines_bandDone :
    (bandDone w s).lines = Vector.ofFn fun k : LineNo => (s.line k).edged k (sweepAll w s) := by
  have hline (k : LineNo) : (sweepAll w s).line k = s.line k := by
    rw [State.line, (frame_sweepAll w s).lines]; rfl
  have hedged : (forEach Config.lines bandEdge (sweepAll w s)).lines =
      Vector.ofFn fun k : LineNo => ((sweepAll w s).line k).edged k (sweepAll w s) := by rw [forEach_bandEdge]
  rw [bandDone, (frame_endStarts s w _).lines, hedged]
  simp only [hline]

theorem bandDone_eq :
    bandDone w s = forEach (sweepOrder w) (endStart s) { sweepAll w s with lines := (bandDone w s).lines } := by
  have hlines : (bandDone w s).lines = (forEach Config.lines bandEdge (sweepAll w s)).lines :=
    (frame_endStarts s w _).lines
  rw [hlines, bandDone, forEach_bandEdge]

theorem sessions_bandDone :
    (bandDone w s).sessions.band = s.sessions.band ∧ (bandDone w s).sessions.epoch = s.sessions.epoch ∧
      (bandDone w s).sessions.tariffs = s.sessions.tariffs := by
  have hends := frame_endStarts s w (forEach Config.lines bandEdge (sweepAll w s))
  have hswept := frame_sweepAll w s
  rw [bandDone, hends.band, hends.epoch, hends.tariffs, sessions_bandEdges]
  exact ⟨hswept.band, hswept.epoch, hswept.tariffs⟩

/-! ### Through the end of the event -/

/-- The end of the event of an order accepted with nothing to wait for. -/
def orderEnd (cell : CellIndex) (order : Order) (x : State) : State := endEvent (awaitTaken cell order (accept x))

section
variable {s} {x : State} (cell : CellIndex) (order : Order)

/-- What depends on the body alone is what the order leaves. -/
theorem orderEnd_keeps {β : Type} (f : State → β) (hbody : ∀ u : State, f u.body = f u) :
    f (orderEnd cell order x) = f x := by
  rw [orderEnd, ← hbody, body_awaitTaken, hbody, state_accept]

theorem unit_orderEnd : (orderEnd cell order x).orders.unit = .waiting cell (postedPart order) .ok false .nothing :=
  unit_awaitTaken cell order (accept x)

variable {d : Context} {n : Nat}

theorem stands_orderEnd (h : x.context o = some c) : Stands (orderEnd cell order x) o c :=
  stands_awaitTaken (k := accept x) cell order h

theorem ceiling_orderEnd (o : Outlet) : (orderEnd cell order x).ceiling o = x.ceiling o :=
  orderEnd_keeps cell order (·.ceiling o) fun _ => rfl

theorem goesOn_orderEnd {held : Bool} (h : GoesOn s o c n held x) : GoesOn s o c n held (orderEnd cell order x) :=
  GoesOn.endEvent (u := awaitTaken cell order (accept x)) h

theorem begins_orderEnd {complete : Bool} (h : Begins s o d n complete x) :
    Begins s o d n complete (orderEnd cell order x) :=
  Begins.endEvent (u := awaitTaken cell order (accept x)) h

end

/-! ### The sessions after the event -/

section
variable {s} {w} (cell : CellIndex) (b : Byte)

theorem orderEnd_band_stays (hc : s.context o = some c) (hp : c.phase ≠ .active) (hs : s.startsNow o = false) :
    Stands (orderEnd cell (.band b) (bandDone w s)) o c ∧
      (orderEnd cell (.band b) (bandDone w s)).ceiling o = s.ceilingNow o := by
  obtain ⟨x, z, hswept⟩ := exists_swept w s o
  obtain ⟨-, hstays, hceiling⟩ := hswept.stays hc hp hs
  exact ⟨stands_orderEnd cell _ hstays, (ceiling_orderEnd cell _ o).trans hceiling⟩

theorem orderEnd_band_goesOn (hc : s.context o = some c) (hp : c.phase = .active) (hsole : SoleHeir s o c) :
    GoesOn s o c (c.purseCeiling s.control.settings s.sessions.band) false
      (orderEnd cell (.band b) (bandDone w s)) := by
  obtain ⟨x, z, hswept⟩ := exists_swept w s o
  exact goesOn_orderEnd cell _ ((hswept.heir c hsole).goesOn hswept.control (hswept.goesOn hc hp))

/-- With a ceiling above 0 no entry is looked at. -/
theorem orderEnd_band_stays_active (hc : s.context o = some c) (hp : c.phase = .active)
    (hn : 0 < c.purseCeiling s.control.settings s.sessions.band) :
    Stands (orderEnd cell (.band b) (bandDone w s)) o c ∧
      (orderEnd cell (.band b) (bandDone w s)).ceiling o = c.purseCeiling s.control.settings s.sessions.band := by
  obtain ⟨x, z, hswept⟩ := exists_swept w s o
  obtain ⟨hstays, -⟩ := goesOn_orderEnd cell (.band b) (hswept.goesOn hc hp)
  obtain ⟨hstands, hceiling⟩ := hstays (.inl hn)
  rw [Bool.or_false] at hstands
  exact ⟨hstands, hceiling⟩

section
variable {start : StartCondition} (hc : s.context o = some c) (hp : c.phase = .armed start)
  (hh : s.startHolds o start = true)
include hc hp hh

theorem orderEnd_band_started :
    ∃ x, (orderEnd cell (.band b) (bandDone w s)).context o = some x ∧
      x.started = some
        { serial := s.sessions.startSerial + BitVec.ofNat 32 (s.startsBefore w o), time := s.control.seconds } ∧
      (x.phase = .active ∨ x.phase = .idle ∨ x.phase = .drained) := by
  obtain ⟨x, z, hswept⟩ := exists_swept w s o
  exact (begins_orderEnd cell (.band b) (hswept.begins hc hp hh)).started

theorem orderEnd_band_begins (hsole : SoleHeir s o c) :
    let d := c.begun (s.sessions.startSerial + BitVec.ofNat 32 (s.startsBefore w o)) s.control.seconds
    Begins s o d (d.purseCeiling s.control.settings s.sessions.band) (s.report o).complete
      (orderEnd cell (.band b) (bandDone w s)) := by
  intro d
  obtain ⟨x, z, hswept⟩ := exists_swept w s o
  have hheir := hswept.heir c hsole
  have hbegun : HeirStands d s x := { gone := hheir.gone, stands := hheir.stands }
  exact begins_orderEnd cell _ (hbegun.begins hswept.control (hswept.begins hc hp hh))

end

end

/-! ### The masks and the lines after the event -/

section
variable {s} {w} (cell : CellIndex) (b : Byte)

theorem line_orderEnd_band (k : LineNo) :
    (orderEnd cell (.band b) (bandDone w s)).line k = (s.line k).edged k (sweepAll w s) := by
  rw [orderEnd_keeps cell (.band b) (·.line k) fun _ => rfl, State.line, lines_bandDone, Table.get, Vector.getElem_ofFn]

theorem mask_setLines (s : State) (lines : Vector Line 16) (o : Outlet) :
    ({ s with lines := lines } : State).mask o = s.mask o :=
  rfl

theorem mask_bandEdges (s : State) (o : Outlet) : (forEach Config.lines bandEdge s).mask o = s.mask o := by
  rw [forEach_bandEdge]
  exact mask_setLines s _ o

theorem mask_orderEnd_band (h : ∀ o, s.startsNow o = true → (s.report o).complete = false) (o : Outlet) :
    (orderEnd cell (.band b) (bandDone w s)).mask o = (sweepAll w s).mask o := by
  rw [orderEnd_keeps cell (.band b) (·.mask o) fun _ => rfl, bandDone_of_not_complete h, mask_bandEdges]

theorem body_orderEnd_band :
    (orderEnd cell (.band b) (bandDone w s)).body =
      (forEach (sweepOrder w) (endStart s)
        { sweepAll w s with lines := (orderEnd cell (.band b) (bandDone w s)).lines }).body := by
  rw [orderEnd_keeps cell (.band b) State.lines fun _ => rfl, ← bandDone_eq, orderEnd, body_awaitTaken, state_accept]

end

section
variable {l : Line} {k : LineNo}

theorem edged_of_silent (h : l.state = .silent) : l.edged k s = l := if_pos h

theorem edged_of_free (h : l.state = .waiting) (hr : l.receiving = none) (hslot : l.replySlot = none) :
    l.edged k s =
      { l with
        state := .sending false, bandEdge := false, seq := l.seq + 1,
        due := some (s.now + 1000 * s.control.settings.pollPeriod),
        outstanding := some
          { seq := l.seq, mask0 := s.mask (outletA k), mask1 := s.mask (outletB k), band := s.sessions.band,
            sendTime := s.now } } := by
  rw [Line.edged, if_neg (by rw [h]; exact nofun), if_pos ⟨h, hr⟩, if_pos hslot]

theorem edged_of_reply (h : l.state = .waiting) (hr : l.receiving = none) (hslot : l.replySlot ≠ none) :
    l.edged k s = { l with state := .withheld } := by
  rw [Line.edged, if_neg (by rw [h]; exact nofun), if_pos ⟨h, hr⟩, if_neg hslot]

theorem edged_of_busy (h : l.state ≠ .silent) (hbusy : l.state ≠ .waiting ∨ l.receiving ≠ none) :
    l.edged k s = { l with bandEdge := true } := by
  rw [Line.edged, if_neg h, if_neg fun hfree => hbusy.elim (absurd hfree.1) (absurd hfree.2)]

end

/-! ### The event -/

theorem exec_band {cell : CellIndex} (t : Time) (b : Byte) (h : Receives s cell) :
    exec (.band t w b) s =
      .next (endEvent (awaitTaken cell (.band b) (takeBand w b (freePort (atTime t s))))) :=
  receiveOrder_eq t w (.band b) h

theorem exec_band_ok {cell : CellIndex} (t : Time) {b : Byte} {n : Band} (h : Receives s cell) (hb : b.toNat = n.val) :
    exec (.band t w b) s = .next (orderEnd cell (.band b) (bandDone w (setBand n (freePort (atTime t s))))) := by
  rw [exec_band s w t b h, takeBand_ok hb]
  rfl

/-- Settles O27: the order as each outlet of the sweep sees it, and the lines in the state that the sweep leaves. -/
theorem bandOrder : Obligations.BandOrder := by
  intro t w s cell b hr
  obtain ⟨u, hu⟩ : ∃ u, exec (.band t w b) s = .next u := ⟨_, exec_band s w t b hr⟩
  refine ⟨u, hu, fun hb => ?_, fun n hb => ?_⟩
  · rw [exec_band s w t b hr] at hu
    cases hu
    exact takenAs_refuse s cell _ t (takeBand_badField hb)
  intro starts earlier serial
  rw [exec_band_ok s w t hr hb] at hu
  set v := setBand n (freePort (atTime t s))
  injection hu with hu
  subst hu
  have hkeeps {β : Type} (f : State → β) (hbody : ∀ u : State, f u.body = f u) :=
    orderEnd_keeps (x := bandDone w v) cell (.band b) f hbody
  obtain ⟨hband, hepoch, htariffs⟩ := sessions_bandDone v w
  have hidle {o : Outlet} {c : Context} (hc : s.context o = some c) (h : ∀ start, c.phase ≠ .armed start) :
      v.startsNow o = false :=
    startsNow_of_not_armed fun d start hd => by
      have hd' : s.context o = some d := hd
      rw [hc] at hd'; cases hd'
      exact h start
  refine ⟨unit_orderEnd cell (.band b), ?_, ?_, ?_, ?_, fun o c hc hp harmed => ?_,
    fun o c hc hp hsole => orderEnd_band_goesOn (s := v) cell b hc hp hsole,
    fun o c hc hp hn => orderEnd_band_stays_active (s := v) cell b hc hp hn, fun o c start hc hp => ?_, ?_⟩
  · exact (hkeeps (·.sessions.band) fun _ => rfl).trans hband
  · exact (hkeeps (·.sessions.startSerial) fun _ => rfl).trans
      ((startSerial_bandDone v w).trans (startSerial_sweepAll v w))
  · exact (hkeeps (·.sessions.epoch) fun _ => rfl).trans hepoch
  · exact (hkeeps (·.sessions.tariffs) fun _ => rfl).trans htariffs
  · obtain ⟨hstands, hceiling⟩ := orderEnd_band_stays (s := v) (w := w) cell b hc hp (hidle hc harmed)
    exact ⟨hstands, fun hs => hceiling.trans (ceilingNow_of_phase v hc harmed hs)⟩
  · intro holds
    have hholds : v.startHolds o start = true ↔ holds := startHolds_iff
    refine ⟨fun hnot => ?_, fun hh => orderEnd_band_started (s := v) cell b hc hp (hholds.2 hh),
      fun hh hsole => orderEnd_band_begins (s := v) cell b hc hp (hholds.2 hh) hsole⟩
    have hstarts : v.startsNow o = false :=
      Bool.eq_false_iff.2 fun hs => hnot (hholds.1 ((startsNow_of_armed (s := v) hc hp).1 hs))
    exact (orderEnd_band_stays (s := v) (w := w) cell b hc (by rw [hp]; exact nofun) hstarts).1
  · obtain ⟨hnodup, hmem, hsorted⟩ := sweepOrder_spec w
    refine ⟨sweepOrder w, hnodup, hmem, hsorted, ?_⟩
    intro now banded taken
    refine ⟨body_orderEnd_band (s := v) cell b, mask_orderEnd_band (s := v) cell b, fun k => ?_⟩
    have hline := line_orderEnd_band (s := v) (w := w) cell b k
    have hframe := frame_sweepAll w v
    rw [hline]
    refine ⟨edged_of_silent _, fun h hreceiving hslot => ?_, edged_of_reply _, edged_of_busy _⟩
    have hfree := edged_of_free (k := k) (sweepAll w v) h hreceiving hslot
    rw [hframe.now, hframe.control, hframe.band] at hfree
    exact hfree

end Sys2Proof.Machine
end

