-- ==== Sys2Proof/Proofs/Handovers.lean ====
section
/-! SUPPORT. What a handover brings beside its session: the pass it requests, which stays requested where the outlet has
no grant (R25, R56, R151), and its entry in the journal queue (R151, R172). -/

namespace Sys2Proof.Machine

variable {s u : State} {o : Outlet} {c : Context}

/-! ### A pass that stays requested (R25, R52, R56) -/

/-- The Apportioner's law holds, and the outlet has no grant: no delivery of its own inputs brings a pass in its
event. -/
structure Ungranted (o : Outlet) (s : State) : Prop where
  law : GrantsWithinWants s
  bare : s.grant o = 0

/-- An outlet whose session is not ACTIVE wants no module, so it has no grant (R53, R56). -/
theorem ungranted_of_not_active (hagree : InputsAgree s) (hlaw : GrantsWithinWants s) (hc : s.context o = some c)
    (hp : c.phase ≠ .active) : Ungranted o s := by
  obtain ⟨-, hinputs⟩ := hagree
  obtain ⟨hactive, -⟩ := hinputs o
  have hinactive : (s.inputs o).active = false := by
    rw [Bool.eq_false_iff]
    intro h
    obtain ⟨c', hc', hp'⟩ := hactive.1 h
    rw [hc] at hc'; cases hc'
    exact hp hp'
  have hwant : s.want o = 0 := by simp [State.want, WantInputs.want, hinactive]
  exact ⟨hlaw, Nat.le_zero.1 (hwant ▸ hlaw o)⟩

/-- Grants and wants hang on the Apportioner alone. -/
theorem Ungranted.of_power (h : Ungranted o s) (hpower : u.power = s.power) : Ungranted o u := by
  have hgrant (o' : Outlet) : u.grant o' = s.grant o' := by rw [State.grant, hpower]; rfl
  have hwant (o' : Outlet) : u.want o' = s.want o' := by simp only [State.want, State.inputs, hpower]
  exact ⟨fun o' => by rw [hgrant, hwant]; exact h.law o', (hgrant o).trans h.bare⟩

theorem Ungranted.setInputs (h : Ungranted o s) (f : WantInputs → WantInputs) : Ungranted o (setInputs o f s) := by
  have hgrant (o' : Outlet) : (Machine.setInputs o f s).grant o' = s.grant o' := by rw [setInputs_eq]; rfl
  refine ⟨fun o' => ?_, (hgrant o).trans h.bare⟩
  rw [hgrant, want_setInputs]
  split
  · next ho => rw [← ho, h.bare]; exact Nat.zero_le _
  · exact h.law o'

/-- A pass is requested, and no delivery of the outlet's own inputs brings one in its event. -/
structure PassAwaited (o : Outlet) (s : State) : Prop extends Ungranted o s where
  requested : s.power.passRequest = true

theorem PassAwaited.of_power (h : PassAwaited o s) (hpower : u.power = s.power) : PassAwaited o u :=
  { h.toUngranted.of_power hpower with requested := hpower ▸ h.requested }

theorem PassAwaited.setInputs (h : PassAwaited o s) (f : WantInputs → WantInputs) : PassAwaited o (setInputs o f s) :=
  { h.toUngranted.setInputs f with requested := passRequest_setInputs h.requested }

/-- The law leaves an immediate pass nothing to do. -/
theorem PassAwaited.immediatePass (h : PassAwaited o s) : PassAwaited o (immediatePass s) := by
  rwa [immediatePass_of_le s h.law]

/-- A session that enters or leaves ACTIVE requests the pass (R25). -/
theorem Ungranted.deliverActive (h : Ungranted o s) (a : Bool) : PassAwaited o (deliverActive o a s) :=
  have hrequested : PassAwaited o (requestPass s) := ⟨⟨h.law, h.bare⟩, rfl⟩
  (hrequested.setInputs _).immediatePass

theorem PassAwaited.storeCeiling (h : PassAwaited o s) (n : Nat) : PassAwaited o (storeCeiling o n s) := by
  have hstored : PassAwaited o
      (requestPass { s with sessions := { s.sessions with ceilings := Table.set s.sessions.ceilings o n } }) :=
    ⟨⟨h.law, h.bare⟩, rfl⟩
  unfold Machine.storeCeiling
  split
  · exact h
  · exact hstored.setInputs _

theorem PassAwaited.recompute (h : PassAwaited o s) : PassAwaited o (recompute o s) :=
  (h.storeCeiling (s.ceilingNow o)).immediatePass

theorem PassAwaited.leaveFor (h : PassAwaited o s) (c : Context) (p : Phase) : PassAwaited o (leaveFor o c p s) := by
  have hphase : PassAwaited o (setPhase o p s) := h.of_power rfl
  unfold Machine.leaveFor
  dsimp only
  split
  · exact hphase.deliverActive false
  · exact hphase

theorem PassAwaited.enterDrained (h : PassAwaited o s) : PassAwaited o (enterDrained o s) := by
  unfold Machine.enterDrained
  split
  · exact h
  · next c _ => exact (h.leaveFor c .drained).of_power rfl

/-! ### A handover (R149 to R151) -/

/-- The state with the session taken over and the entry gone, before the Apportioner is told. -/
def takenOver (o : Outlet) (c : Context) (e : StandbyEntry) (s : State) : State :=
  give (.handover o c.cell e.cell c.chargedTotal)
    (removeEntry e.cell (setContext o (some (c.takeOver o e s.control.seconds)) s))

/-- What follows of it in the event: the delivery, the new ceiling, and DRAINED where that is 0. -/
def tellTakenOver (o : Outlet) (s : State) : State :=
  let r := recompute o (deliverActive o true s)
  if r.ceiling o = 0 then enterDrained o r else r

theorem handover_eq (e : StandbyEntry) (hc : s.context o = some c) :
    handover o e s = tellTakenOver o (takenOver o c e s) := by
  simp only [handover, hc]; rfl

/-- A session without a grant that is taken over leaves its pass requested. -/
theorem Ungranted.tellTakenOver (h : Ungranted o s) : PassAwaited o (tellTakenOver o s) := by
  have hrecomputed : PassAwaited o (recompute o (Machine.deliverActive o true s)) := (h.deliverActive true).recompute
  unfold Machine.tellTakenOver
  dsimp only
  split
  · exact hrecomputed.enterDrained
  · exact hrecomputed

theorem Ungranted.handover (h : Ungranted o s) (e : StandbyEntry) (hc : s.context o = some c) :
    PassAwaited o (handover o e s) := by
  have htaken : Ungranted o (takenOver o c e s) := h.of_power rfl
  rw [handover_eq e hc]
  exact htaken.tellTakenOver

theorem steady_tellTakenOver (s : State) (o : Outlet) : Steady s (tellTakenOver o s) := by
  have hrecomputed := (steady_deliverActive s o true).trans (steady_recompute _ o)
  unfold tellTakenOver
  dsimp only
  split
  · exact hrecomputed.trans (steady_enterDrained _ o)
  · exact hrecomputed

/-- With room in the queue the entry of a handover is in it (R172). -/
theorem mem_queue_handover (e : StandbyEntry) (hc : s.context o = some c) (hroom : s.journal.queue.length < 8) :
    { kind := .handover o c.cell e.cell c.chargedTotal, seconds := s.control.seconds } ∈
      (handover o e s).journal.queue := by
  have hgiven := mem_queue_give (removeEntry e.cell (setContext o (some (c.takeOver o e s.control.seconds)) s))
    (.handover o c.cell e.cell c.chargedTotal) hroom
  rw [handover_eq e hc]
  exact (steady_tellTakenOver (takenOver o c e s) o).queue.subset hgiven

end Sys2Proof.Machine
end

