-- ==== Sys2Proof/Proofs/LinkOrders.lean ====
section
/-! SUPPORT. LINK (O19, O20): its refusals in the order of R144, its standing entry with the STANDING copy to come
(R145, R146), and the handover of a DRAINED session in its event (R148 to R151). -/

namespace Sys2Proof.Machine

variable (s : State)

/-! ### The STANDING copy to come (R146) -/

@[simp] theorem standby_withdrawStale : (withdrawStale s).standby = s.standby := by
  unfold withdrawStale; repeat' split
  all_goals rfl

@[simp] theorem standby_answerRequests : (answerRequests s).standby = s.standby := by
  unfold answerRequests; split <;> rfl

@[simp] theorem standby_clearRetry (j : SettleJob) : (clearRetry j s).standby = s.standby := by
  unfold clearRetry; split <;> rfl

/-- The settlement writer's choice keeps a STANDING copy coming: the mark of an entry is cleared only as a copy of its
outlet is requested. -/
theorem standingComes_settleRequests {e : StandbyEntry} (he : e ∈ s.standby) :
    e ∈ (settleRequests s).standby ∨
    ∃ forLink, (settleRequests s).port.settleReq = some (.standing e.outlet forLink) := by
  unfold settleRequests
  split
  · exact .inl he
  · unfold chooseSettle
    repeat' split
    · exact .inl he
    · exact .inl he
    · next out _ =>
      by_cases hout : e.outlet = out
      · exact .inr ⟨_, by rw [hout]; rfl⟩
      · exact .inl (List.mem_map.2 ⟨e, he, if_neg hout⟩)
    · next j _ => exact .inl ((standby_clearRetry s j).symm ▸ he)
    · exact .inl he

/-- A marked entry that an order leaves has its STANDING copy to come at the end of the order's event. -/
theorem standingComes_awaitTaken (cell : CellIndex) (o : Order) {k : Taken} {e : StandbyEntry}
    (he : e ∈ k.state.standby) (hdue : e.progressDue = true) :
    StandingComes (endEvent (awaitTaken cell o k)) e.cell e.outlet := by
  set v := awaitTaken cell o k
  set w := answerRequests (withdrawStale v)
  have hanswer : w = withdrawStale v :=
    answerRequests_eq _ (by simp [v, awaitTaken, requestOrder, setUnit])
  have hreq : w.port.orderReq = some (.writeTaken cell) := by rw [hanswer, orderReq_withdrawStale]; rfl
  have hend : endEvent v = serveRequests v :=
    completeHalt_of_asks _ _
      (asks_startNext (journalRequests (settleRequests w)) (.writeTaken cell) (by simpa using hreq))
  have hstandby : w.standby = k.state.standby := by rw [hanswer, standby_withdrawStale]; rfl
  have hw : e ∈ w.standby := hstandby ▸ he
  rw [hend]
  rcases standingComes_settleRequests w hw with hmem | ⟨forLink, hsettle⟩
  · refine .inl ⟨e, ?_, rfl, hdue⟩
    simpa [serveRequests] using hmem
  · exact .inr ⟨forLink, asks_settle_startNext _ _ (by simpa using hsettle)⟩

/-! ### The fields of a LINK (R144) -/

/-- A field of a LINK is out of range, or its link names its own cell or its predecessor's (R144). -/
def BadLinkOrder (cell : CellIndex) (o : LinkOrder) (out : Outlet) : Prop :=
  1000000 < o.hold.toNat ∨ (o.link ≠ 0xFF#8 ∧ 128 ≤ o.link.toNat) ∨ o.link.toNat = cell.val ∨
    ∃ c, s.context out = some c ∧ o.link.toNat = c.cell.val

section
variable {cell : CellIndex} {o : LinkOrder} {out : Outlet} {i : TariffSlot} {c : Context} {tariff : Tariff}

theorem badLinkOrder_iff :
    (decide (1000000 < o.hold.toNat) || badLink cell o.link ||
      (s.context out).any fun c => decide (o.link.toNat = c.cell.val)) = true ↔ BadLinkOrder s cell o out := by
  simp only [BadLinkOrder, Bool.or_eq_true, decide_eq_true_eq, badLink_iff, Option.any_eq_true, or_assoc]

theorem takeLink_badField (h : BadLinkOrder s cell o out) : takeLink cell o out i s = refuse .badField s := by
  rw [takeLink, if_pos ((badLinkOrder_iff s).2 h)]

theorem takeLink_noPredecessor (h : ¬BadLinkOrder s cell o out)
    (hc : ∀ c, s.context out = some c → c.link ≠ some cell) :
    takeLink cell o out i s = refuse .noPredecessor s := by
  rw [takeLink, if_neg (mt (badLinkOrder_iff s).1 h)]
  cases hctx : s.context out with
  | none => rfl
  | some c => exact if_pos (hc c hctx)

/-- The Standby Table with an entry more. -/
def addEntry (e : StandbyEntry) (s : State) : State := { s with standby := s.standby ++ [e] }

/-- A LINK that a session's link cell names is judged by the tariff slot and the Standby Table, in this order. -/
theorem takeLink_of_predecessor (h : ¬BadLinkOrder s cell o out) (hc : s.context out = some c)
    (hl : c.link = some cell) :
    takeLink cell o out i s =
      (Table.get s.sessions.tariffs i).elim (refuse .refusedTariff s) fun t =>
        if 16 ≤ s.standby.length then refuse .refusedFull s
        else
          { outcome := .ok, wait := .cellCopy,
            state := examineDrained out (addEntry (linkEntry cell o out c.priority t) s) } := by
  rw [takeLink, if_neg (mt (badLinkOrder_iff s).1 h), hc]
  dsimp only
  rw [if_neg (not_not.2 hl)]
  cases Table.get s.sessions.tariffs i <;> rfl

theorem takeLink_noTariff (h : ¬BadLinkOrder s cell o out) (hc : s.context out = some c) (hl : c.link = some cell)
    (ht : Table.get s.sessions.tariffs i = none) : takeLink cell o out i s = refuse .refusedTariff s := by
  rw [takeLink_of_predecessor s h hc hl]
  rw [ht]; rfl

theorem takeLink_full (h : ¬BadLinkOrder s cell o out) (hc : s.context out = some c) (hl : c.link = some cell)
    (ht : Table.get s.sessions.tariffs i = some tariff) (hfull : 16 ≤ s.standby.length) :
    takeLink cell o out i s = refuse .refusedFull s := by
  rw [takeLink_of_predecessor s h hc hl]
  rw [ht]
  exact if_pos hfull

theorem takeLink_accepted (h : ¬BadLinkOrder s cell o out) (hc : s.context out = some c) (hl : c.link = some cell)
    (ht : Table.get s.sessions.tariffs i = some tariff) (hroom : s.standby.length < 16) :
    takeLink cell o out i s =
      { outcome := .ok, wait := .cellCopy,
        state := examineDrained out (addEntry (linkEntry cell o out c.priority tariff) s) } := by
  rw [takeLink_of_predecessor s h hc hl]
  rw [ht]
  exact if_neg (Nat.not_le.2 hroom)

theorem handOn_link (w : Sweep) (hout : o.outlet.toNat = out.val) (hslot : o.slot.toNat = i.val) :
    handOn cell w (.link o) s = takeLink cell o out i s := by
  simp only [handOn, withOutlet, withSlot, asFin_eq_some hout, asFin_eq_some hslot]

/-- The event of a LINK. -/
theorem exec_link (t : Time) (h : Receives s cell) (hout : o.outlet.toNat = out.val) (hslot : o.slot.toNat = i.val) :
    exec (.link t o) s =
      .next (endEvent (awaitTaken cell (.link o) (takeLink cell o out i (freePort (atTime t s))))) := by
  rw [← handOn_link _ [] hout hslot]
  exact receiveOrder_eq t [] _ h

/-! ### The refusals and the standing entry (O19) -/

/-- A session that is not DRAINED, is audit-held or has a given-up receipt unwritten is not handed over (R148). -/
theorem examineDrained_stays (hc : s.context out = some c)
    (h : c.phase ≠ .drained ∨ c.auditHeld = true ∨ c.givenUp ≠ none) : examineDrained out s = s := by
  by_cases hp : c.phase = .drained
  · exact (examineDrained_spec s out c hc hp).1 ((h.resolve_left (not_not.2 hp)).imp_right .inl)
  · exact examineDrained_of_not_drained s hc hp

end

/-- Settles O19: a field out of range is judged first, and what is in range by the predecessor, the slot and the Standby
Table; an accepted LINK that hands nothing over adds its entry, marked. -/
theorem linkOrder : Obligations.LinkOrder := by
  intro t s cell o out i hr hout hslot bad refusedWith
  set r := freePort (atTime t s)
  have refused {outcome : OrderOutcome} (h : takeLink cell o out i r = refuse outcome r) :
      refusedWith outcome (endEvent (awaitTaken cell (.link o) (takeLink cell o out i r))) :=
    takenAs_refuse s cell _ t h
  refine ⟨_, exec_link s t hr hout hslot, fun hbad => refused (takeLink_badField r hbad),
    fun hgood hc => refused (takeLink_noPredecessor r hgood hc), fun c hgood hc hl =>
      ⟨fun ht => refused (takeLink_noTariff r hgood hc hl ht), fun tariff ht =>
        ⟨fun hfull => refused (takeLink_full r hgood hc hl ht hfull), fun hroom hstays => ?_⟩⟩⟩
  set e := linkEntry cell o out c.priority tariff
  have htaken : takeLink cell o out i r = { outcome := .ok, wait := .cellCopy, state := addEntry e r } := by
    rw [takeLink_accepted r hgood hc hl ht hroom, examineDrained_stays (addEntry e r) hc hstays]
  rw [htaken]
  have hmem : e ∈ (addEntry e r).standby := List.mem_append_right _ (List.mem_singleton_self e)
  set k : Taken := { outcome := .ok, wait := .cellCopy, state := addEntry e r }
  have hcomes : StandingComes (endEvent (awaitTaken cell (.link o) k)) e.cell e.outlet :=
    standingComes_awaitTaken cell _ hmem rfl
  exact ⟨hcomes, takenAs_awaitTaken cell _ (k := k) rfl⟩

/-! ### The handover of a DRAINED session (O20) -/

section
variable {cell : CellIndex} {e : StandbyEntry}

/-- No entry is of a cell that is not live (R14). -/
theorem forall_standby_ne (h : s.cellLive cell = false) : ∀ x ∈ s.standby, x.cell ≠ cell := by
  have hany := (Bool.or_eq_false_iff.1 h).2
  simpa using hany

/-- The first entry of a cell that had none is the one it is given. -/
theorem entryOf_addEntry (h : s.cellLive e.cell = false) : (addEntry e s).entryOf e.cell = some e := by
  have hnone : s.standby.find? (fun x => x.cell = e.cell) = none := by simpa using forall_standby_ne s h
  simp [State.entryOf, addEntry, List.find?_append, hnone]

/-- With it gone, the Standby Table is as it was. -/
theorem removeEntry_addEntry (h : s.cellLive e.cell = false) :
    (removeEntry e.cell (addEntry e s)).standby = s.standby := by
  have hkept : s.standby.filter (fun x => x.cell ≠ e.cell) = s.standby :=
    List.filter_eq_self.2 fun x hx => decide_eq_true (forall_standby_ne s h x hx)
  have hgone : [e].filter (fun x => x.cell ≠ e.cell) = [] := by simp
  simp only [removeEntry, addEntry, List.filter_append, hkept, hgone, List.append_nil]

end

section
variable {cell : CellIndex} {o : LinkOrder} {out : Outlet} {i : TariffSlot} {c : Context} {tariff : Tariff}

/-- A late LINK for a DRAINED session with nothing against a handover adds the entry that the session's link names, and
hands it over to that (R148). -/
theorem takeLink_handsOver (hgood : ¬BadLinkOrder s cell o out) (hc : s.context out = some c) (hl : c.link = some cell)
    (ht : Table.get s.sessions.tariffs i = some tariff) (hroom : s.standby.length < 16)
    (hlive : s.cellLive cell = false) (hp : c.phase = .drained) (ha : c.auditHeld = false) (hg : c.givenUp = none) :
    let e := linkEntry cell o out c.priority tariff
    takeLink cell o out i s = { outcome := .ok, wait := .cellCopy, state := handover out e (addEntry e s) } := by
  intro e
  have hcontext : (addEntry e s).context out = some c := hc
  have hsuccessor : (addEntry e s).successor c = some e := by
    simp only [State.successor, hg, hl, Option.isSome_none, Bool.false_eq_true, if_false, Option.bind_some]
    exact entryOf_addEntry s hlive
  have hexamined : examineDrained out (addEntry e s) = handover out e (addEntry e s) := by
    simp [examineDrained, hcontext, hp, ha, hsuccessor]
  rw [takeLink_accepted s hgood hc hl ht hroom, hexamined]

/-- A handover by an order stands at the end of the order's event. -/
theorem handedOver_awaitTaken (cell : CellIndex) (order : Order) (r : OrderOutcome) (w : Wait) (e : StandbyEntry)
    (hc : s.context out = some c) :
    HandedOver s out c e c.auditHeld
      (endEvent (awaitTaken cell order { outcome := r, wait := w, state := handover out e s })) :=
  HandedOverTo.endEvent (u := awaitTaken cell order _) (handover_handedOver s out e c hc)

/-- A handover touches neither the settings nor the band. -/
theorem terms_handover (e : StandbyEntry) :
    (handover out e s).control.settings = s.control.settings ∧ (handover out e s).sessions.band = s.sessions.band :=
  have helse : (handover out e s).elsewhere out = s.elsewhere out := elsewhere_handover s out e
  ⟨congrArg Control.settings (control_of_elsewhere helse), band_of_elsewhere helse⟩

end

/-- What hangs on the body alone is the same in states with one body. -/
theorem eq_of_body {β : Type} (f : State → β) (hf : ∀ u : State, f u.body = f u) {u v : State}
    (h : u.body = v.body) : f u = f v := by
  rw [← hf, h, hf]

/-- Contexts with one body differ in the settlement writer's marks alone. -/
theorem exists_marks_of_body {x c : Context} {g : GivenUp} (h : x.body = c.body) (hg : c.givenUp = some g) :
    ∃ due retry retryGivenUp,
      x = { c with progressDue := due, retryDue := retry, givenUp := some { g with retryDue := retryGivenUp } } := by
  have hx : x = { x.body with progressDue := x.progressDue, retryDue := x.retryDue, givenUp := x.givenUp } := rfl
  have hmap : x.givenUp.map (fun g => { g with retryDue := false }) = some { g with retryDue := false } := by
    have := congrArg Context.givenUp h
    rwa [Context.body, Context.body, hg] at this
  obtain ⟨g', hg', hsame⟩ := Option.map_eq_some_iff.1 hmap
  have hmarks : g' = { g with retryDue := g'.retryDue } := congrArg (fun y => { y with retryDue := g'.retryDue }) hsame
  refine ⟨x.progressDue, x.retryDue, g'.retryDue, hx.trans ?_⟩
  rw [h, hg', ← hmarks]; rfl

/-- The hypotheses of O20 put the fields in range. -/
theorem not_badLinkOrder {cell : CellIndex} {o : LinkOrder} {out : Outlet} {c : Context}
    (hhold : o.hold.toNat ≤ 1000000) (hlink : o.link = 0xFF#8 ∨ o.link.toNat < 128)
    (hown : o.link.toNat ≠ cell.val) (hc : s.context out = some c) (hpred : o.link.toNat ≠ c.cell.val) :
    ¬BadLinkOrder s cell o out := by
  rintro (h | ⟨hne, hge⟩ | h | ⟨c', hc', h⟩)
  · exact absurd hhold (Nat.not_le.2 h)
  · exact hlink.elim hne fun hlt => absurd hlt (Nat.not_lt.2 hge)
  · exact hown h
  · rw [hc] at hc'; cases hc'
    exact hpred h

/-- Settles O20: the entry that the LINK adds is the one that the session's link names, so the session is handed over to
it; the end of the event leaves of that all but the settlement writer's marks. -/
theorem lateLinkHandsOver : Obligations.LateLinkHandsOver := by
  intro t s cell o out i tariff c hr hout hslot hhold hlink hown hpred hc hl ht hroom hp ha hg
  set r := freePort (atTime t s)
  have htaken := takeLink_handsOver r (not_badLinkOrder r hhold hlink hown hc hpred) hc hl ht hroom hr.2 hp ha hg
  dsimp only at htaken
  set e := linkEntry cell o out c.priority tariff
  set v := addEntry e r
  have hvc : v.context out = some c := hc
  have hexec := exec_link s t hr hout hslot
  rw [htaken] at hexec
  set k : Taken := { outcome := .ok, wait := .cellCopy, state := handover out e v }
  have hunit := unit_awaitTaken cell (.link o) k
  have hbody : (endEvent (awaitTaken cell (.link o) k)).body = (handover out e v).body := body_awaitTaken cell _ k
  have hhanded : HandedOver s out c e false (endEvent (awaitTaken cell (.link o) k)) :=
    handedOver_congr (s' := v) out c e _ _ rfl (ha ▸ handedOver_awaitTaken v cell (.link o) .ok .cellCopy e hvc)
  set u := endEvent (awaitTaken cell (.link o) k)
  have hstandby : u.standby.map StandbyEntry.cell = s.standby.map StandbyEntry.cell := by
    have hcells := eq_of_body (fun b => b.standby.map StandbyEntry.cell) (fun b => by simp [State.body]) hbody
    rw [standby_handover v e hvc, removeEntry_addEntry r (e := e) hr.2] at hcells
    exact hcells
  have hsettings : u.control.settings = s.control.settings :=
    (eq_of_body (·.control.settings) (fun _ => rfl) hbody).trans (terms_handover v e).1
  have hband : u.sessions.band = s.sessions.band :=
    (eq_of_body (·.sessions.band) (fun _ => rfl) hbody).trans (terms_handover v e).2
  have ⟨hstands, hceiling, _, hcopy, _⟩ := hhanded
  obtain ⟨x, hx, hmarks⟩ := exists_context_of_stands hstands
  obtain ⟨due, retry, retryGivenUp, rfl⟩ := exists_marks_of_body hmarks rfl
  rw [hsettings, hband] at hceiling
  refine ⟨u, _, _, hexec, hunit, hcopy, hstandby, hx,
    -- the terms of the entry, its money, and what the session keeps
    rfl, rfl, rfl, rfl, rfl, rfl, rfl, rfl, rfl, rfl, rfl, rfl, rfl, rfl, rfl, rfl, rfl, rfl, rfl, rfl,
    hceiling, rfl,
    -- the receipt of the old hold
    rfl, rfl, rfl, rfl, rfl, rfl, rfl, rfl, rfl, rfl, rfl, rfl, rfl, rfl, rfl, rfl,
    fun hqueue => ?_, hhanded, fun hagree hlaw => ?_⟩
  · have hkept := eq_of_body (·.journal.queue) (fun _ => rfl) hbody
    exact hkept ▸ mem_queue_handover e hvc hqueue
  · have hkept := eq_of_body (·.power) (fun _ => rfl) hbody
    have hungranted : Ungranted out s := ungranted_of_not_active hagree hlaw hc (by rw [hp]; nofun)
    have hadded : Ungranted out v := hungranted.of_power rfl
    exact hkept ▸ (hadded.handover e hvc).requested

end Sys2Proof.Machine
end

