-- ==== Sys2Proof/Proofs/PendingAmounts.lean ====
section
/-! SUPPORT. What the pending amounts of an audit-held session come to (O25; R129, R130, R132, R163): the pending energy
of the bands, priced one after another with the carry, is priced as one sum; the pending idle minutes beyond the grace
are charged up to the remaining money. -/

namespace Sys2Proof

theorem Table.get_ofFn {α : Type} {n : Nat} (f : Fin n → α) (i : Fin n) : Table.get (Vector.ofFn f) i = f i := by
  simp [Table.get]

theorem Table.set_ofFn {α : Type} {n : Nat} (f g : Fin n → α) (i : Fin n) (x : α) (hi : g i = x)
    (hne : ∀ j, j ≠ i → g j = f j) : Table.set (Vector.ofFn f) i x = Vector.ofFn g := by
  refine Vector.ext fun j hj => ?_
  simp only [Table.set, Vector.getElem_set, Vector.getElem_ofFn]
  split
  · next h => subst h; exact hi.symm
  · next h => exact (hne ⟨j, hj⟩ fun e => h (congrArg Fin.val e).symm).symm

namespace Machine

/-! ### Energy (R129 to R131) -/

/-- What the pending energy of some bands comes to with the carry, in thousandths. -/
def Context.costWithCarry (c : Context) (bs : List Band) : Nat :=
  (bs.map fun b => Table.get c.pendingEnergy b * c.price b).sum + c.carry

/-- The context with the pending energy of some bands priced as one sum. -/
def Context.pricedAtOnce (c : Context) (bs : List Band) : Context :=
  let cost := c.costWithCarry bs
  let total := c.chargedTotal + cost / 1000
  let any := ∃ b ∈ bs, Table.get c.pendingEnergy b ≠ 0
  { c with
    energyCharge := c.energyCharge + cost / 1000, chargedTotal := total, carry := cost % 1000,
    energy := Vector.ofFn fun b : Band =>
      if b ∈ bs ∧ Table.get c.pendingEnergy b ≠ 0 then
        min max32 (Table.get c.energy b + Table.get c.pendingEnergy b)
      else Table.get c.energy b,
    pendingEnergy := Vector.ofFn fun b : Band => if b ∈ bs then 0 else Table.get c.pendingEnergy b,
    overdraw := if any then total - c.hold else c.overdraw,
    overdrawn := c.overdrawn || decide (any ∧ c.hold < total) }

variable (c : Context)

theorem pricedAtOnce_nil (hcarry : c.carry < 1000) : c.pricedAtOnce [] = c := by
  have hdiv : c.carry / 1000 = 0 := Nat.div_eq_of_lt hcarry
  have hmod : c.carry % 1000 = c.carry := Nat.mod_eq_of_lt hcarry
  simp [Context.pricedAtOnce, Context.costWithCarry, hdiv, hmod, Table.get]

section
variable {b : Band} {bs : List Band}

theorem costWithCarry_cons :
    c.costWithCarry (b :: bs) = Table.get c.pendingEnergy b * c.price b + c.costWithCarry bs := by
  simp [Context.costWithCarry, Nat.add_assoc]

/-- A band with nothing pending adds nothing to the sum. -/
theorem pricedAtOnce_cons_of_zero (h : Table.get c.pendingEnergy b = 0) :
    c.pricedAtOnce (b :: bs) = c.pricedAtOnce bs := by
  have hcost : c.costWithCarry (b :: bs) = c.costWithCarry bs := by rw [costWithCarry_cons, h]; simp
  have hcharged (j : Band) : (j ∈ b :: bs ∧ Table.get c.pendingEnergy j ≠ 0) ↔
      (j ∈ bs ∧ Table.get c.pendingEnergy j ≠ 0) := by
    rw [List.mem_cons]
    exact ⟨fun ⟨hj, hne⟩ => ⟨hj.resolve_left fun e => hne (e ▸ h), hne⟩, fun ⟨hj, hne⟩ => ⟨.inr hj, hne⟩⟩
  have hleft (j : Band) : (if j ∈ b :: bs then 0 else Table.get c.pendingEnergy j) =
      if j ∈ bs then 0 else Table.get c.pendingEnergy j := by
    by_cases hj : j = b
    · subst hj; simp [h]
    · simp [hj]
  simp only [Context.pricedAtOnce, hcost, hcharged, hleft]

/-- A delta charged within the 32-bit total, field by field (R128 to R131). -/
theorem charged_eq (d : Nat) (b : Band) (hfits : c.chargedTotal + (d * c.price b + c.carry) / 1000 ≤ max32) :
    c.charged d b =
      { c with
        energyCharge := c.energyCharge + (d * c.price b + c.carry) / 1000,
        chargedTotal := c.chargedTotal + (d * c.price b + c.carry) / 1000, carry := (d * c.price b + c.carry) % 1000,
        energy := Table.set c.energy b (min max32 (Table.get c.energy b + d)),
        overdraw := c.chargedTotal + (d * c.price b + c.carry) / 1000 - c.hold,
        overdrawn := c.overdrawn || decide (c.hold < c.chargedTotal + (d * c.price b + c.carry) / 1000) } := by
  have hcharge : min ((d * c.price b + c.carry) / 1000) (max32 - c.chargedTotal) = (d * c.price b + c.carry) / 1000 :=
    Nat.min_eq_left (by omega)
  simp only [Context.charged, Context.updateOverdraw, Context.priceDelta, hcharge, satAdd]

/-- A further band is priced as one delta on top of the sum (R131, R163): the carry makes the two divisions one. -/
theorem pricePending_pricedAtOnce (hb : b ∉ bs)
    (hfits : c.chargedTotal + c.costWithCarry (b :: bs) / 1000 ≤ max32) :
    (c.pricedAtOnce bs).pricePending b = c.pricedAtOnce (b :: bs) := by
  set p := c.pricedAtOnce bs with hp
  set d := Table.get c.pendingEnergy b
  have hpending : Table.get p.pendingEnergy b = d := (Table.get_ofFn _ b).trans (if_neg hb)
  have henergy : Table.get p.energy b = Table.get c.energy b := (Table.get_ofFn _ b).trans (if_neg fun h => hb h.1)
  by_cases hzero : d = 0
  · rw [pricedAtOnce_cons_of_zero c hzero, Context.pricePending, hpending]
    exact if_pos hzero
  have hany : ∃ j ∈ b :: bs, Table.get c.pendingEnergy j ≠ 0 := ⟨b, List.mem_cons_self, hzero⟩
  have hcost : c.costWithCarry (b :: bs) = d * p.price b + c.costWithCarry bs := costWithCarry_cons c
  have hcarry : p.carry = c.costWithCarry bs % 1000 := rfl
  have hsum : c.costWithCarry bs / 1000 + (d * p.price b + p.carry) / 1000 = c.costWithCarry (b :: bs) / 1000 := by
    omega
  have hrest : (d * p.price b + p.carry) % 1000 = c.costWithCarry (b :: bs) % 1000 := by omega
  have hcharge : p.energyCharge + (d * p.price b + p.carry) / 1000 =
      c.energyCharge + c.costWithCarry (b :: bs) / 1000 := by
    rw [← hsum, ← Nat.add_assoc]; rfl
  have htotal : p.chargedTotal + (d * p.price b + p.carry) / 1000 =
      c.chargedTotal + c.costWithCarry (b :: bs) / 1000 := by
    rw [← hsum, ← Nat.add_assoc]; rfl
  have hcharged : p.pricePending b = { p.charged d b with pendingEnergy := Table.set p.pendingEnergy b 0 } := by
    rw [Context.pricePending, hpending]
    exact if_neg hzero
  rw [hcharged, charged_eq p d b (by rwa [htotal]), henergy, hrest, hcharge, htotal]
  simp only [Context.pricedAtOnce, hp, Context.mk.injEq, true_and, and_true, if_pos hany]
  have hmem {j : Band} (hj : j ≠ b) : j ∈ b :: bs ↔ j ∈ bs := by simp [hj]
  refine ⟨?_, ?_, ?_⟩
  · exact Table.set_ofFn _ _ b _ (if_pos ⟨List.mem_cons_self, hzero⟩) fun j hj => by simp only [hmem hj]
  · exact Table.set_ofFn _ _ b _ (if_pos List.mem_cons_self) fun j hj => by simp only [hmem hj]
  · rw [Bool.or_assoc, ← Bool.decide_or]
    congr 1
    exact decide_eq_decide.2 ⟨fun h => ⟨hany, by omega⟩, fun ⟨_, h⟩ => .inr h⟩

end

/-- The four bands, priced one after another: each goes in front of those before it. -/
theorem pricePending_four (hcarry : c.carry < 1000)
    (hfits : c.chargedTotal + c.costWithCarry [3, 2, 1, 0] / 1000 ≤ max32) :
    (((c.pricePending 0).pricePending 1).pricePending 2).pricePending 3 = c.pricedAtOnce [3, 2, 1, 0] := by
  have hcost (b : Band) (bs : List Band) := costWithCarry_cons c (b := b) (bs := bs)
  have h0 := hcost 0 []
  have h1 := hcost 1 [0]
  have h2 := hcost 2 [1, 0]
  have h3 := hcost 3 [2, 1, 0]
  have step {b : Band} {bs : List Band} := pricePending_pricedAtOnce c (b := b) (bs := bs)
  have hfirst : c.pricePending 0 = c.pricedAtOnce [0] := by
    rw [← step (List.not_mem_nil) (by omega), pricedAtOnce_nil c hcarry]
  rw [hfirst, step (by decide) (by omega), step (by decide) (by omega), step (by decide) hfits]

/-! ### Idle minutes (R132) -/

/-- The fee that the next idle minute asks for: none within the grace. -/
def Context.feeAsked (c : Context) : Nat :=
  if c.tariff.idleGrace.toNat < c.idleMinutes + 1 then c.tariff.idleFee.toNat else 0

/-- The fees that some idle minutes ask for: those of the minutes beyond the grace. -/
def Context.feesAsked (c : Context) (n : Nat) : Nat :=
  (n - min n (c.tariff.idleGrace.toNat - c.idleMinutes)) * c.tariff.idleFee.toNat

/-- The context with some idle minutes charged as one sum, up to the remaining money. -/
def Context.idledAtOnce (c : Context) (n : Nat) : Context :=
  { c with
    idleMinutes := c.idleMinutes + n, idleCharge := c.idleCharge + min (c.feesAsked n) c.remaining,
    idleCapped := c.idleCapped || decide (c.remaining < c.feesAsked n),
    chargedTotal := c.chargedTotal + min (c.feesAsked n) c.remaining }

/-- One idle minute, field by field, while the count of minutes stays within its field. -/
theorem idleMinute_eq (hcount : c.idleMinutes + 1 ≤ 65535) :
    c.idleMinute =
      { c with
        idleMinutes := c.idleMinutes + 1, idleCharge := c.idleCharge + min c.feeAsked c.remaining,
        chargedTotal := c.chargedTotal + min c.feeAsked c.remaining,
        idleCapped := c.idleCapped || decide (c.remaining < c.feeAsked) } := by
  have hminutes : satAdd 65535 c.idleMinutes 1 = c.idleMinutes + 1 := Nat.min_eq_right hcount
  by_cases hpast : c.tariff.idleGrace.toNat < c.idleMinutes + 1
  · simp [Context.idleMinute, Context.idleCharged, Context.feeAsked, hminutes, hpast]
  · simp [Context.idleMinute, Context.idleCharged, Context.feeAsked, hminutes, hpast]

theorem feesAsked_succ (n : Nat) : c.feesAsked (n + 1) = c.feesAsked n + (c.idledAtOnce n).feeAsked := by
  by_cases hpast : c.tariff.idleGrace.toNat < c.idleMinutes + n + 1
  · have hfee : (c.idledAtOnce n).feeAsked = c.tariff.idleFee.toNat := if_pos hpast
    have hminutes : n + 1 - min (n + 1) (c.tariff.idleGrace.toNat - c.idleMinutes) =
        n - min n (c.tariff.idleGrace.toNat - c.idleMinutes) + 1 := by omega
    rw [hfee, Context.feesAsked, hminutes, Nat.succ_mul, Context.feesAsked]
  · have hfee : (c.idledAtOnce n).feeAsked = 0 := if_neg hpast
    have hminutes : n + 1 - min (n + 1) (c.tariff.idleGrace.toNat - c.idleMinutes) =
        n - min n (c.tariff.idleGrace.toNat - c.idleMinutes) := by omega
    rw [hfee, Context.feesAsked, hminutes, Nat.add_zero, Context.feesAsked]

/-- A further idle minute is charged on top of the sum: what one leaves of the remaining money is there for the next. -/
theorem idleMinute_idledAtOnce (n : Nat) (hcount : c.idleMinutes + (n + 1) ≤ 65535) :
    (c.idledAtOnce n).idleMinute = c.idledAtOnce (n + 1) := by
  have hsucc := feesAsked_succ c n
  have hremaining : (c.idledAtOnce n).remaining = c.remaining - min (c.feesAsked n) c.remaining := by
    simp only [Context.remaining, Context.idledAtOnce]
    omega
  have hcharge : min (c.feesAsked n) c.remaining + min (c.idledAtOnce n).feeAsked (c.idledAtOnce n).remaining =
      min (c.feesAsked (n + 1)) c.remaining := by omega
  have hcapped : c.remaining < c.feesAsked n ∨ (c.idledAtOnce n).remaining < (c.idledAtOnce n).feeAsked ↔
      c.remaining < c.feesAsked (n + 1) := by omega
  rw [idleMinute_eq _ hcount]
  generalize (c.idledAtOnce n).feeAsked = fee at *
  generalize (c.idledAtOnce n).remaining = left at *
  simp only [Context.idledAtOnce, Nat.add_assoc, hcharge, Bool.or_assoc, ← Bool.decide_or, hcapped]

/-- Idle minutes are charged one after another as they are charged at once. -/
theorem iterate_idleMinute (n : Nat) (hcount : c.idleMinutes + n ≤ 65535) :
    Context.idleMinute^[n] c = c.idledAtOnce n := by
  induction n with
  | zero => simp [Context.idledAtOnce, Context.feesAsked]
  | succ n ih => rw [Function.iterate_succ_apply', ih (by omega), idleMinute_idledAtOnce c n hcount]

/-! ### Both (R163) -/

/-- The pending amounts of a session, the energy first, while the charged total stays within 32 bits. -/
theorem applyPending_eq (hcarry : c.carry < 1000)
    (hfits : c.chargedTotal + c.costWithCarry [3, 2, 1, 0] / 1000 ≤ max32)
    (hcount : c.idleMinutes + c.pendingIdle ≤ 65535) :
    c.applyPending =
      { (c.pricedAtOnce [3, 2, 1, 0]).idledAtOnce c.pendingIdle with pendingIdle := 0, auditHeld := false } := by
  rw [Context.applyPending]
  dsimp only
  rw [pricePending_four c hcarry hfits, iterate_idleMinute (c.pricedAtOnce [3, 2, 1, 0]) c.pendingIdle hcount]

theorem costWithCarry_four :
    c.costWithCarry [3, 2, 1, 0] =
      Table.get c.pendingEnergy 0 * c.price 0 + Table.get c.pendingEnergy 1 * c.price 1 +
        Table.get c.pendingEnergy 2 * c.price 2 + Table.get c.pendingEnergy 3 * c.price 3 + c.carry := by
  simp only [Context.costWithCarry, List.map_cons, List.map_nil, List.sum_cons, List.sum_nil]
  omega

/-- The four bands priced as one sum, field by field: nothing is left pending. -/
theorem pricedAtOnce_four {cost : Nat} (hcost : c.costWithCarry [3, 2, 1, 0] = cost) :
    let any := Table.get c.pendingEnergy 0 ≠ 0 ∨ Table.get c.pendingEnergy 1 ≠ 0 ∨
      Table.get c.pendingEnergy 2 ≠ 0 ∨ Table.get c.pendingEnergy 3 ≠ 0
    c.pricedAtOnce [3, 2, 1, 0] =
      { c with
        energyCharge := c.energyCharge + cost / 1000, chargedTotal := c.chargedTotal + cost / 1000,
        carry := cost % 1000,
        energy := Vector.ofFn fun b : Band =>
          if Table.get c.pendingEnergy b = 0 then Table.get c.energy b
          else min max32 (Table.get c.energy b + Table.get c.pendingEnergy b),
        pendingEnergy := Vector.replicate 4 0,
        overdraw := if any then c.chargedTotal + cost / 1000 - c.hold else c.overdraw,
        overdrawn := c.overdrawn || decide (any ∧ c.hold < c.chargedTotal + cost / 1000) } := by
  intro any
  have hall (b : Band) : b ∈ [(3 : Band), 2, 1, 0] := by decide +revert
  have hany : (∃ b : Band, ¬Table.get c.pendingEnergy b = 0) ↔ any :=
    ⟨fun ⟨b, hb⟩ => by fin_cases b <;> simp_all [any], fun h => by rcases h with h | h | h | h <;> exact ⟨_, h⟩⟩
  have hzero : (Vector.ofFn fun _ : Band => 0) = Vector.replicate 4 0 := rfl
  simp only [Context.pricedAtOnce, hcost, hall, true_and, if_true, ne_eq, hany, hzero, ite_not]

end Machine

end Sys2Proof
end

