-- ==== Sys2Proof/Proofs/ResumeOrders.lean ====
section
/-! SUPPORT. RESUME (O25): its refusals, the ceiling of a session whose pending amounts are applied with what it brings
(R138, R148), and the hold retaken where the flag is set (R163, R164). -/

namespace Sys2Proof.Machine

variable {s u : State} {o : Outlet} {c : Context}

/-! ### A session taken on, examined for handover (R148) -/

theorem auditHeld_of_body {x : Context} (h : x.body = c.body) : x.auditHeld = c.auditHeld :=
  show x.body.auditHeld = c.body.auditHeld by rw [h]

/-- A session has no successor whatever the settlement writer's marks. -/
theorem noSuccessor_of_body {x : Context} (h : x.body = c.body) (hs : NoSuccessor s c) : NoSuccessor s x := by
  have hgiven : x.givenUp.map (fun g => { g with retryDue := false }) =
      c.givenUp.map fun g => { g with retryDue := false } := congrArg Context.givenUp h
  have hlink : x.link = c.link := show x.body.link = c.body.link by rw [h]
  refine hs.imp (fun hc hx => hc ?_) fun hc l hl => hc l (hlink ▸ hl)
  rw [hx] at hgiven
  exact Option.map_eq_none_iff.1 hgiven.symm

theorem examineDrained_of_stands (h : Stands u o c) (hs : c.phase = .drained → NoSuccessor u c) :
    examineDrained o u = u := by
  obtain ⟨x, hx, hbody⟩ := exists_context_of_stands h
  have hphase : x.phase = c.phase := show x.body.phase = c.body.phase by rw [hbody]
  by_cases hp : c.phase = .drained
  · exact (examineDrained_spec u o x hx (hphase.trans hp)).1 (.inr (noSuccessor_of_body hbody (hs hp)))
  · exact examineDrained_of_not_drained u hx (hphase ▸ hp)

/-- An ACTIVE session that is taken on is ACTIVE, or DRAINED with nothing left to be handed over to. -/
theorem examineDrained_takeOn (hc : s.context o = some c) (hp : c.phase = .active) :
    examineDrained o (takeOn o s) = takeOn o s := by
  obtain ⟨hactive, hdrained, hhanded⟩ := takeOn_goesOn s o c hc hp
  by_cases hn : 0 < s.ceiling o ∨ c.auditHeld = true
  · exact examineDrained_of_stands (hactive hn).1 fun h => by simp [hp] at h
  obtain ⟨h0, ha⟩ := not_or.1 hn
  have h0' : s.ceiling o = 0 := by omega
  have ha' : c.auditHeld = false := by simpa using ha
  by_cases hs : NoSuccessor s c
  · exact examineDrained_of_stands (hdrained h0' ha' hs).1 fun _ =>
      hs.imp_right fun hno l hl => (within_takeOn s o).gone l (hno l hl)
  · obtain ⟨hg, l, e, hl, he⟩ := exists_successor hs
    exact examineDrained_of_stands (hhanded l e h0' ha' hg hl he).1 fun _ => .inl nofun

/-- The examination leaves the audit-held mark as it was. -/
theorem auditHeld_examineDrained :
    ((examineDrained o u).context o).map Context.auditHeld = (u.context o).map Context.auditHeld := by
  unfold examineDrained
  split
  · rfl
  · next x hx =>
    repeat' split
    · next e _ =>
      obtain ⟨y, hy, hbody⟩ := exists_context_of_stands (handover_handedOver u o e x hx).1
      have hheld : y.auditHeld = x.auditHeld := (auditHeld_of_body hbody :)
      rw [hy, hx, Option.map_some, Option.map_some, hheld]
    · rfl
    · rfl

/-! ### The hold retaken (R159, R164) -/

/-- The audit hold taken where the flag is set. -/
def holdIf (flag : Bool) (o : Outlet) (s : State) : State := if flag then takeAuditHold o s else s

section
variable (flag : Bool)

theorem ceiling_holdIf : (holdIf flag o u).ceiling o = u.ceiling o := by
  cases flag with
  | true => exact ceiling_takeAuditHold
  | false => rfl

theorem auditFlags_takeAuditHold : (takeAuditHold o u).sessions.auditFlags = u.sessions.auditFlags := by
  unfold takeAuditHold; split <;> rfl

theorem auditFlags_holdIf : (holdIf flag o u).sessions.auditFlags = u.sessions.auditFlags := by
  cases flag with
  | true => exact auditFlags_takeAuditHold
  | false => rfl

theorem Stands.holdIf (h : Stands u o c) (ha : c.auditHeld = false) :
    Stands (holdIf flag o u) o { c with auditHeld := flag } := by
  cases flag with
  | true => exact h.audited
  | false =>
    have hsame : ({ c with auditHeld := false } : Context) = c := by rw [← ha]
    rw [hsame]
    exact h

theorem HandedOver.holdIf {e : StandbyEntry} (h : HandedOver s o c e false u) :
    HandedOver s o c e flag (holdIf flag o u) := by
  cases flag with
  | true => exact h.audited
  | false => exact h

theorem GoesOn.holdIf {n : Nat} (h : GoesOn s o c n false u) : GoesOn s o c n flag (holdIf flag o u) := by
  cases flag with
  | true => exact h.audited
  | false => exact h

end

/-! ### Through the end of the event of an order -/

section
variable (cell : CellIndex) (order : Order)

theorem Stands.orderEnd (h : Stands u o c) : Stands (orderEnd cell order u) o c :=
  stands_endEvent (awaitTaken cell order (accept u)) o c h

theorem HandedOver.orderEnd {e : StandbyEntry} {held : Bool} (h : HandedOver s o c e held u) :
    HandedOver s o c e held (orderEnd cell order u) :=
  HandedOverTo.endEvent (u := awaitTaken cell order (accept u)) h

/-- An audit hold taken by an order is on the session at the end of the order's event. -/
theorem AuditTaken.orderEnd (h : AuditTaken s o u) : AuditTaken s o (orderEnd cell order u) := by
  obtain ⟨hnotice, hcopy, c, hc, hheld, hentry⟩ := h
  obtain ⟨x, hx, hbody⟩ := exists_context_of_stands (stands_orderEnd cell order hc)
  have hcopy' : CopyComes (endEvent (awaitTaken cell order (accept u))) o false :=
    CopyComes.endEvent (s := awaitTaken cell order (accept u)) hcopy (Option.isSome_iff_exists.2 ⟨c, hc⟩)
  have hentry' : Journaled (.auditHold o x.cell x.hold x.chargedTotal) s u := by
    obtain ⟨-, -, -, hcell, hhold, -, -, -, -, htotal, -⟩ := terms_of_body hbody
    rwa [hcell, hhold, htotal]
  exact ⟨(orderEnd_keeps cell order (·.noticed .audit) fun _ => rfl).trans hnotice, hcopy', x, hx,
    (auditHeld_of_body hbody).trans hheld,
    journaled_endEvent s _ (awaitTaken cell order (accept u)) hentry'⟩

end

/-! ### The session with its pending amounts applied (R138, R148, R163) -/

theorem link_applyPending (c : Context) : c.applyPending.link = c.link :=
  applyPending_keeps Context.link c (fun c b => by unfold Context.pricePending; dsimp only; split <;> rfl)
    (fun _ => rfl) fun _ => rfl

theorem givenUp_applyPending (c : Context) : c.applyPending.givenUp = c.givenUp :=
  applyPending_keeps Context.givenUp c (fun c b => by unfold Context.pricePending; dsimp only; split <;> rfl)
    (fun _ => rfl) fun _ => rfl

/-- A RESUME of a session up to the hold: the pending amounts applied, the ceiling and what it brings. -/
def chargePending (o : Outlet) (c : Context) (s : State) : State :=
  examineDrained o (takeOn o (recontext o c.applyPending s))

theorem auditFlags_of_elsewhere (h : u.elsewhere o = s.elsewhere o) : u.sessions.auditFlags = s.sessions.auditFlags :=
  congrArg (·.sessions.auditFlags) h

variable (s o c)

theorem elsewhere_chargePending : (chargePending o c s).elsewhere o = s.elsewhere o := by
  rw [chargePending, elsewhere_examineDrained, elsewhere_takeOn, elsewhere_recontext]

theorem auditFlags_chargePending : (chargePending o c s).sessions.auditFlags = s.sessions.auditFlags :=
  auditFlags_of_elsewhere (elsewhere_chargePending s o c)

theorem auditHeld_chargePending : ((chargePending o c s).context o).map Context.auditHeld = some false := by
  rw [chargePending, auditHeld_examineDrained, auditHeld_takeOn, context_recontext]
  rfl

variable {s o c}

theorem resumeSession_eq (hc : s.context o = some c) :
    resumeSession o s = holdIf (Table.get s.sessions.auditFlags o) o (chargePending o c s) := by
  have happlied : recompute o (mapContext o Context.applyPending s) = recontext o c.applyPending s := by
    rw [mapContext, hc]; rfl
  have hresume : resumeSession o s = auditIfFlagged o (chargePending o c s) := by
    rw [resumeSession, happlied]; rfl
  rw [hresume, auditIfFlagged_eq (auditHeld_chargePending s o c), auditFlags_chargePending]
  rfl

/-- Where the session is not ARMED and not SETTLING, its ceiling is the purse ceiling of what is left. -/
theorem ceiling_applied (ha : ∀ start, c.phase ≠ .armed start) (hs : c.phase.isSettling = false) :
    (recontext o c.applyPending s).ceiling o =
      c.applyPending.purseCeiling s.control.settings s.sessions.band := by
  rw [← phase_applyPending c] at hs
  exact ceiling_recontext s o _ (fun start => by rw [phase_applyPending]; exact ha start) hs

/-- ACTIVE, it goes on with its ceiling (R138). -/
theorem chargePending_goesOn (hp : c.phase = .active) :
    GoesOn s o c.applyPending (c.applyPending.purseCeiling s.control.settings s.sessions.band) false
      (chargePending o c s) := by
  have hcontext := context_recontext s o c.applyPending
  have hphase : c.applyPending.phase = .active := (phase_applyPending c).trans hp
  have hgoes := takeOn_goesOn (recontext o c.applyPending s) o _ hcontext hphase
  rw [ceiling_applied (by simp [hp]) (by simp [hp, Phase.isSettling])] at hgoes
  rw [chargePending, examineDrained_takeOn hcontext hphase]
  exact goesOn_congr o _ _ _ _ (control_of_elsewhere (elsewhere_recontext s o _)) (standby_recontext s o _) hgoes

/-- In another phase it is not taken on. -/
theorem chargePending_of_not_active (hp : c.phase ≠ .active) :
    chargePending o c s = examineDrained o (recontext o c.applyPending s) := by
  rw [chargePending, takeOn_of_not_active _ (context_recontext s o _) (by rwa [phase_applyPending])]

/-- Neither ACTIVE nor DRAINED, or DRAINED with no successor, it stays with its new ceiling. -/
theorem chargePending_stays (hp : c.phase ≠ .active) (harmed : ∀ start, c.phase ≠ .armed start)
    (hsettling : c.phase.isSettling = false) (hs : c.phase = .drained → NoSuccessor s c) :
    Stands (chargePending o c s) o c.applyPending ∧
    (chargePending o c s).ceiling o = c.applyPending.purseCeiling s.control.settings s.sessions.band := by
  set v := recontext o c.applyPending s with hv
  have hstands : Stands v o c.applyPending := congrArg (Option.map Context.body) (context_recontext s o _)
  have hno (hd : c.applyPending.phase = .drained) : NoSuccessor v c.applyPending := by
    rw [phase_applyPending] at hd
    rw [NoSuccessor, link_applyPending, givenUp_applyPending]
    exact noSuccessor_congr c (standby_recontext s o _) (hs hd)
  rw [chargePending_of_not_active hp, examineDrained_of_stands hstands hno]
  exact ⟨hstands, ceiling_applied harmed hsettling⟩

/-- DRAINED with a successor, it is handed over (R148). -/
theorem chargePending_handsOver {l : CellIndex} {e : StandbyEntry} (hp : c.phase = .drained) (hg : c.givenUp = none)
    (hl : c.link = some l) (he : s.entryOf l = some e) :
    HandedOver s o c.applyPending e false (chargePending o c s) := by
  rw [chargePending_of_not_active (by simp [hp])]
  have hstandby := standby_recontext s o c.applyPending
  have hhanded := (examineDrained_spec (recontext o c.applyPending s) o c.applyPending (context_recontext s o _)
    ((phase_applyPending c).trans hp)).2 l e rfl ((givenUp_applyPending c).trans hg) ((link_applyPending c).trans hl)
    ((entryOf_congr hstandby l).trans he)
  exact handedOver_congr o _ e false _ (control_of_elsewhere (elsewhere_recontext s o _)) hhanded

/-! ### RESUME (R163) -/

theorem takeResume_vacant (hc : s.context o = none) : takeResume o s = refuse .noSession s := by
  simp only [takeResume, hc]

theorem takeResume_notHeld (hc : s.context o = some c) (ha : c.auditHeld = false) :
    takeResume o s = refuse .notHeld s := by
  simp [takeResume, hc, ha]

theorem takeResume_held (hc : s.context o = some c) (ha : c.auditHeld = true) :
    takeResume o s = accept (holdIf (Table.get s.sessions.auditFlags o) o (chargePending o c s)) := by
  rw [← resumeSession_eq hc]
  simp [takeResume, hc, ha]

/-- Settles O25: the pending amounts as two sums, that of the energy and that of the idle minutes; and the order by the
phase that it finds, each with the hold retaken where the flag is set. -/
theorem resumeOrder : Obligations.ResumeOrder := by
  refine ⟨fun c => ?_, fun t s cell b out hr hout => ?_⟩
  · intro price pending cost total some' charged asked idle hcarry hfits hcount
    have hcost : c.costWithCarry [3, 2, 1, 0] = cost := costWithCarry_four c
    rw [applyPending_eq c hcarry (by rwa [hcost]) hcount, pricedAtOnce_four c hcost]
    rfl
  · set r := freePort (atTime t s)
    have hexec : exec (.resume t b) s = .next (endEvent (awaitTaken cell (.resume b) (takeResume out r))) :=
      receiveOrder_withOutlet t [] (fun u o => takeResume o u) hr hout fun _ => rfl
    refine ⟨_, hexec, fun hc => takenAs_refuse s cell _ t (takeResume_vacant hc), fun c hc => ⟨fun ha =>
      takenAs_refuse s cell _ t (takeResume_notHeld hc ha), fun ha => ?_⟩⟩
    intro flag d n
    set v := chargePending out c r
    set w := holdIf flag out v
    have hend : endEvent (awaitTaken cell (.resume b) (takeResume out r)) = orderEnd cell (.resume b) w := by
      rw [takeResume_held (s := r) hc ha]; rfl
    rw [hend]
    have hcontrol : v.control = r.control := control_of_elsewhere (elsewhere_chargePending r out c)
    have stays (hp : c.phase ≠ .active) (harmed : ∀ start, c.phase ≠ .armed start)
        (hsettling : c.phase.isSettling = false) (hs : c.phase = .drained → NoSuccessor s c) :
        Stands (orderEnd cell (.resume b) w) out { d with auditHeld := flag } ∧
        (orderEnd cell (.resume b) w).ceiling out = n := by
      obtain ⟨hstands, hceiling⟩ :=
        chargePending_stays (s := r) hp harmed hsettling fun hd => noSuccessor_congr c rfl (hs hd)
      refine ⟨(hstands.holdIf flag rfl).orderEnd cell _, ?_⟩
      rw [ceiling_orderEnd, ceiling_holdIf]
      exact hceiling
    refine ⟨unit_orderEnd .., ?_, fun hflag => ?_, fun hp => ?_, fun hp => ?_,
      fun hp => ⟨fun hs => ?_, fun l e hg hl he => ?_⟩⟩
    · rw [orderEnd_keeps cell _ (·.sessions.auditFlags) fun _ => rfl, auditFlags_holdIf, auditFlags_chargePending]
      rfl
    · obtain ⟨x, hx, -⟩ := Option.map_eq_some_iff.1 (auditHeld_chargePending r out c)
      have htaken : AuditTaken s out w := by
        rw [show w = takeAuditHold out v from if_pos hflag]
        exact auditTaken_takeAuditHold hx hcontrol
      exact htaken.orderEnd cell _
    · obtain ⟨hactive, hdrained, harmed, hsettling⟩ := phase_unmoved hp
      exact stays hactive harmed hsettling fun hd => absurd hd hdrained
    · have hgoes : GoesOn s out d n false v := goesOn_congr (s' := r) out _ _ _ _ rfl rfl (chargePending_goesOn hp)
      exact goesOn_orderEnd cell _ (hgoes.holdIf flag)
    · exact stays (by simp [hp]) (by simp [hp]) (by simp [hp, Phase.isSettling]) fun _ => hs
    · have hhanded : HandedOver s out d e false v :=
        handedOver_congr (s' := r) out _ e _ _ rfl (chargePending_handsOver hp hg hl he)
      exact (hhanded.holdIf flag).orderEnd cell _

end Sys2Proof.Machine
end
